-- ==== Sys2Proof/Word.lean ====
section
/-!
DEFINITION. The word types of the Cylas 940 (R9, R12, R45, R46, R50): what the manual adds, shifts or masks is a
bit vector of the width the manual gives it.
-/

namespace Sys2Proof

/-- A byte of memory. -/
abbrev Byte := BitVec 8

/-- An instruction word, or a 4-byte memory word (R12). -/
abbrev Word := BitVec 32

/-- A scalar register, an address or a state register (R45, R55). -/
abbrev DWord := BitVec 64

/-- A 7-bit register field (R69). -/
abbrev Reg := BitVec 7

/-- The poison classes of a value, one bit a class in the layout of CIR (R308, Table 16.1); 0 is not poisoned. -/
abbrev Mark := BitVec 8

/-- The FCR flags NV, DZ, OF, UF, NX at bits 4 to 0 (R58, Table 2.6). -/
abbrev FpFlags := BitVec 5

/-- The 2 KiB of one physical vector register; byte 0 at the least significant end (R46, R9). -/
abbrev VBits := BitVec 16384

/-- The 16 KiB of an operand tile, an accumulator tile or a partial tile (R50, R165). -/
abbrev TileBits := BitVec 131072

end Sys2Proof
end

