-- ==== Sys2Proof/Syntax.lean ====
section
/-!
DEFINITION. The instruction set as syntax: `Instr` has one constructor for each row of the spec's opcode
table (the hart words of Tables 3.7 to 3.9, the two prefixes, the stack-side microwords of Table 10.4, and
the operations and events of the engines, of Bellows, of the host and of the Protas kernel).
A hart word's constructor takes the word's fields, from the high bit down; the reserved fields have no place.
An event's constructor takes what tells one occurrence of the event from another.
-/

namespace Sys2Proof

/-- A contribution on its way to a slot of the collective reduction unit (R272). `home` names the contributing
logical hart when it is a hart of this device (the task's index in the task table and its number). -/
structure Contribution where
  fid   : BitVec 16
  pidx  : BitVec 6
  slot  : BitVec 8
  gen   : BitVec 32
  op    : BitVec 3
  expm  : BitVec 64
  tmo   : BitVec 32
  value : BitVec 64
  scale : Int
  asid  : BitVec 16
  mark  : BitVec 8
  home  : Option (Nat × Nat)
deriving DecidableEq, Repr

/-- The root's answer to a contribution (R272, Table 13.5): status, counted participants, result, the flags of
the result's rounding (R275) and the poison mark of the round (R275). -/
structure CredAnswer where
  status : BitVec 8
  cmask  : BitVec 64
  result : BitVec 64
  flags  : BitVec 5
  mark   : BitVec 8
deriving DecidableEq, Repr

/-- A link of R211's Table 10.2: between two compute dies, between a compute die and the hub, a fabric port,
or a stack's Golrok link (Table 16.5). -/
inductive LinkId where
  | dieToDie (a b : Nat)
  | dieToHub (d : Nat)
  | fabric (port : Nat)
  | golrok (stack : Nat)
deriving DecidableEq, Repr

/-- A request of a fabric peer to memory of this device, at a device physical address (R244). -/
inductive PeerRequest where
  | load (pa n : Nat)
  | store (pa : Nat) (data : List (BitVec 8))
  | amo (pa : Nat) (op : BitVec 4) (dbl : Bool) (y z : BitVec 64)
deriving DecidableEq, Repr

/-- An access of the host: through BAR 2 at a device physical address, to a register of BAR 0 at its offset (R322), or to the
host's own memory, at an offset in the host window (Table 9.1). -/
inductive HostAccess where
  | read (off n : Nat)
  | write (off : Nat) (data : List (BitVec 8))
  | regRead (off : Nat)
  | regWrite (off : Nat) (val : BitVec 64)
  | ownWrite (off : Nat) (data : List (BitVec 8))
deriving DecidableEq, Repr

/-- A flit of a link, by its sequence number (R210). -/
structure Flit where
  link : LinkId
  seq  : BitVec 12
deriving DecidableEq, Repr

/-- What the sensor of a die says: is it above 105 °C (R329)? -/
structure DieHeat where
  die   : Nat
  above : Bool
deriving DecidableEq, Repr

/-- A cluster that returns to service, and the banks of it that have been found failing (R321). -/
structure ServicedCluster where
  cluster : Nat
  banks   : List Nat
deriving DecidableEq, Repr

/-- An access of the Protas kernel to a register of the hub control space (Table 17.4): a read, or a write with the further
writes, each an offset and a value, that one update makes and that take effect with it (R260). -/
inductive HubAccess where
  | read
  | write (val : BitVec 64) (more : List (Nat × BitVec 64))
deriving DecidableEq, Repr

/-- A mailbox command's registers at the write to CMD (R322, R324). -/
structure MailboxReq where
  maddr : BitVec 64
  mlen  : BitVec 32
  marg  : BitVec 64
deriving DecidableEq, Repr

/-- A firmware image (R326): its header, which holds the version and the length, its body and its signature. -/
structure FirmwareImage where
  header : List (BitVec 8)
  body   : List (BitVec 8)
  r      : Nat
  s      : Nat
deriving DecidableEq, Repr

/-- What bring-up finds failing (R327): banks (slice and bank, in the order the tests meet them), clusters, dies, links, and
memories: the stacks 0 to 15, and 16 for the second tier. -/
structure BringupReport where
  badBanks    : List (Nat × Nat)
  badClusters : List Nat
  badDies     : List Nat
  badLinks    : List LinkId
  badMemories : List Nat
deriving DecidableEq, Repr

/-- Where an uncorrectable storage error strikes (R307): a word of memory or of a bank; the word at an address in a core's
instruction cache, fetched ahead (R306); a word of a copy's data, a push's data, an element read ahead or a reduction packet's
operand; the weights of a row, the x of a command, the running sum, an entry of a channel's instruction store or a load's words on
their way there; a word of a Filigree slot of the hart in focus. -/
inductive StoragePlace where
  | memory (pa : Nat)
  | fetched (core : Nat) (va : BitVec 64)
  | copyData (job word : Nat)
  | pushData (job word : Nat)
  | aheadData (stream elem : Nat)
  | weights (job row : Nat)
  | rowSum
  | filigree (slot word : Nat)
  | packetData (job : Nat)
  | commandX (job : Nat)
  | microword (chan entry : Nat)
  | loadWords (job : Nat)
deriving DecidableEq, Repr

/-- The hart-local state an uncorrectable error strikes (R313): bytes of a register or a tile, one store of the strip store buffer; a
latch is that of an a-scale that SCACC.M has read. -/
inductive Damage where
  | xReg (n : BitVec 7)
  | vBytes (p lo n : Nat)
  | stateReg (n : BitVec 11)
  | latch (row : Nat)
  | tileBytes (t lo n : Nat)
  | accBytes (a lo n : Nat)
  | partBytes (a lo n : Nat)
  | bufStore (i : Nat)
deriving DecidableEq, Repr

/-- One constructor for each row of the opcode table; each docstring names the row and the rule that gives its
effect. -/
inductive Instr where
  /-- ADD (R335). Scalar add of two registers, wrapping modulo 2^64. -/
  | add (c : BitVec 7) (b : BitVec 7) (d : BitVec 7)
  /-- SUB (R432). Scalar subtract, wrapping modulo 2^64. -/
  | sub (c : BitVec 7) (b : BitVec 7) (d : BitVec 7)
  /-- AND (R342). Scalar bitwise AND. -/
  | and (c : BitVec 7) (b : BitVec 7) (d : BitVec 7)
  /-- OR (R404). Scalar bitwise OR. -/
  | or (c : BitVec 7) (b : BitVec 7) (d : BitVec 7)
  /-- XOR (R442). Scalar bitwise exclusive OR. -/
  | xor (c : BitVec 7) (b : BitVec 7) (d : BitVec 7)
  /-- SHL (R422). Scalar shift left by a register amount modulo 64. -/
  | shl (c : BitVec 7) (b : BitVec 7) (d : BitVec 7)
  /-- SHR (R422). Scalar logical shift right by a register amount modulo 64. -/
  | shr (c : BitVec 7) (b : BitVec 7) (d : BitVec 7)
  /-- SRA (R422). Scalar arithmetic shift right by a register amount modulo 64. -/
  | sra (c : BitVec 7) (b : BitVec 7) (d : BitVec 7)
  /-- SLT (R424). Sets the destination to 1 when the first source is less than the second, signed. -/
  | slt (c : BitVec 7) (b : BitVec 7) (d : BitVec 7)
  /-- SLTU (R424). Sets the destination to 1 when the first source is less than the second, unsigned. -/
  | sltu (c : BitVec 7) (b : BitVec 7) (d : BitVec 7)
  /-- MIN (R387). Scalar signed minimum. -/
  | min (c : BitVec 7) (b : BitVec 7) (d : BitVec 7)
  /-- MAX (R387). Scalar signed maximum. -/
  | max (c : BitVec 7) (b : BitVec 7) (d : BitVec 7)
  /-- MINU (R387). Scalar unsigned minimum. -/
  | minu (c : BitVec 7) (b : BitVec 7) (d : BitVec 7)
  /-- MAXU (R387). Scalar unsigned maximum. -/
  | maxu (c : BitVec 7) (b : BitVec 7) (d : BitVec 7)
  /-- ADDS (R337). Scalar add with signed saturation to 64 bits. -/
  | adds (c : BitVec 7) (b : BitVec 7) (d : BitVec 7)
  /-- MUL (R398). Scalar multiply, low 64 bits. -/
  | mul (c : BitVec 7) (b : BitVec 7) (d : BitVec 7)
  /-- MULH (R398). High 64 bits of the signed 128-bit product. -/
  | mulh (c : BitVec 7) (b : BitVec 7) (d : BitVec 7)
  /-- MULHU (R398). High 64 bits of the unsigned 128-bit product. -/
  | mulhu (c : BitVec 7) (b : BitVec 7) (d : BitVec 7)
  /-- DIV (R358). Signed 64-bit division truncated toward zero, never trapping. -/
  | div (c : BitVec 7) (b : BitVec 7) (d : BitVec 7)
  /-- DIVU (R358). Unsigned 64-bit division, never trapping. -/
  | divu (c : BitVec 7) (b : BitVec 7) (d : BitVec 7)
  /-- REM (R411). Signed remainder taking the sign of the dividend. -/
  | rem (c : BitVec 7) (b : BitVec 7) (d : BitVec 7)
  /-- REMU (R411). Unsigned remainder. -/
  | remu (c : BitVec 7) (b : BitVec 7) (d : BitVec 7)
  /-- CLZ (R352). Counts leading zero bits of a 64-bit register. -/
  | clz (b : BitVec 7) (d : BitVec 7)
  /-- POPC (R406). Counts one bits of a 64-bit register. -/
  | popc (b : BitVec 7) (d : BitVec 7)
  /-- ADD_I (R335). Adds a sign-extended 11-bit immediate. -/
  | addI (i : BitVec 11) (b : BitVec 7) (d : BitVec 7)
  /-- AND_I (R342). Bitwise AND with a sign-extended immediate. -/
  | andI (i : BitVec 11) (b : BitVec 7) (d : BitVec 7)
  /-- OR_I (R404). Bitwise OR with a sign-extended immediate. -/
  | orI (i : BitVec 11) (b : BitVec 7) (d : BitVec 7)
  /-- XOR_I (R442). Bitwise XOR with a sign-extended immediate. -/
  | xorI (i : BitVec 11) (b : BitVec 7) (d : BitVec 7)
  /-- SHL_I (R422). Shift left by an immediate 0 to 63. -/
  | shlI (i : BitVec 11) (b : BitVec 7) (d : BitVec 7)
  /-- SHR_I (R422). Logical shift right by an immediate 0 to 63. -/
  | shrI (i : BitVec 11) (b : BitVec 7) (d : BitVec 7)
  /-- SRA_I (R422). Arithmetic shift right by an immediate 0 to 63. -/
  | sraI (i : BitVec 11) (b : BitVec 7) (d : BitVec 7)
  /-- SLT_I (R424). Signed set-on-less-than against a sign-extended immediate. -/
  | sltI (i : BitVec 11) (b : BitVec 7) (d : BitVec 7)
  /-- LIM (R384). Loads a sign-extended 18-bit immediate. -/
  | lim (i : BitVec 18) (d : BitVec 7)
  /-- LIH (R383). Replaces bits above 13 of a register with a sign-extended immediate times 2^14. -/
  | lih (i : BitVec 18) (d : BitVec 7)
  /-- ADDPC (R336). Writes PC plus a scaled signed offset to a register. -/
  | addpc (i : BitVec 18) (d : BitVec 7)
  /-- BSET (R348). Writes the bank set register BSR after checking it. -/
  | bset (b : BitVec 7)
  /-- J (R375). PC-relative jump with optional link. -/
  | j (i : BitVec 18) (d : BitVec 7)
  /-- JR (R376). Jumps to a register plus scaled offset with link. -/
  | jr (i : BitVec 11) (b : BitVec 7) (d : BitVec 7)
  /-- BEQ (R345). Branches when two registers are equal. -/
  | beq (o : BitVec 11) (b : BitVec 7) (a : BitVec 7)
  /-- BNE (R345). Branches when two registers differ. -/
  | bne (o : BitVec 11) (b : BitVec 7) (a : BitVec 7)
  /-- BLT (R345). Branches when less than, signed. -/
  | blt (o : BitVec 11) (b : BitVec 7) (a : BitVec 7)
  /-- BGE (R345). Branches when greater or equal, signed. -/
  | bge (o : BitVec 11) (b : BitVec 7) (a : BitVec 7)
  /-- BLTU (R345). Branches when less than, unsigned. -/
  | bltu (o : BitVec 11) (b : BitVec 7) (a : BitVec 7)
  /-- BGEU (R345). Branches when greater or equal, unsigned. -/
  | bgeu (o : BitVec 11) (b : BitVec 7) (a : BitVec 7)
  /-- BMZ (R347). Branches when no mask bit below vl is set. -/
  | bmz (o : BitVec 11) (k : BitVec 7)
  /-- BMNZ (R347). Branches when some mask bit below vl is set. -/
  | bmnz (o : BitVec 11) (k : BitVec 7)
  /-- LOOP (R385). Opens a loop-sequencer context repeating the following body words. -/
  | loop (w : BitVec 7) (l : BitVec 3) (b : BitVec 7) (c : BitVec 7)
  /-- ONCE (R402). Issues the following words only on the first or last iteration of a level. -/
  | once (w : BitVec 6) (t : BitVec 1) (l : BitVec 3)
  /-- STRIP (R429). Sets VL, commits and optionally publishes the closing strip, opens the next and optionally waits for the producer watermark. -/
  | strip (w : BitVec 1) (p : BitVec 1) (b : BitVec 7) (d : BitVec 7)
  /-- SETVT (R421). Writes VT from an immediate. -/
  | setvt (i : BitVec 9)
  /-- WID (R440). Reads one field of the current strip's work identifier. -/
  | wid (l : BitVec 3) (d : BitVec 7)
  /-- WINB (R441). Moves the vector register window base by an immediate. -/
  | winb (i : BitVec 11)
  /-- LD (R379). Scalar load of 1, 2, 4 or 8 bytes, sign- or zero-extended. -/
  | ld (o : BitVec 8) (z : BitVec 1) (s : BitVec 2) (b : BitVec 7) (d : BitVec 7)
  /-- ST (R425). Scalar store of 1, 2, 4 or 8 bytes. -/
  | st (o : BitVec 8) (s : BitVec 2) (b : BitVec 7) (a : BitVec 7)
  /-- LDAQ (R382). Acquire load at a named scope. -/
  | ldaq (o : BitVec 6) (s : BitVec 3) (z : BitVec 2) (b : BitVec 7) (d : BitVec 7)
  /-- STRL (R430). Release store at a named scope. -/
  | strl (o : BitVec 6) (s : BitVec 3) (z : BitVec 2) (b : BitVec 7) (a : BitVec 7)
  /-- AMO_SWAP_W (R339). 32-bit atomic swap at the home. -/
  | amoSwapW (c : BitVec 7) (b : BitVec 7) (d : BitVec 7)
  /-- AMO_ADD_W (R339). 32-bit atomic add. -/
  | amoAddW (c : BitVec 7) (b : BitVec 7) (d : BitVec 7)
  /-- AMO_AND_W (R339). 32-bit atomic AND. -/
  | amoAndW (c : BitVec 7) (b : BitVec 7) (d : BitVec 7)
  /-- AMO_OR_W (R339). 32-bit atomic OR. -/
  | amoOrW (c : BitVec 7) (b : BitVec 7) (d : BitVec 7)
  /-- AMO_XOR_W (R339). 32-bit atomic XOR. -/
  | amoXorW (c : BitVec 7) (b : BitVec 7) (d : BitVec 7)
  /-- AMO_MIN_W (R339). 32-bit atomic signed minimum. -/
  | amoMinW (c : BitVec 7) (b : BitVec 7) (d : BitVec 7)
  /-- AMO_MAX_W (R339). 32-bit atomic signed maximum. -/
  | amoMaxW (c : BitVec 7) (b : BitVec 7) (d : BitVec 7)
  /-- AMO_MINU_W (R339). 32-bit atomic unsigned minimum. -/
  | amoMinuW (c : BitVec 7) (b : BitVec 7) (d : BitVec 7)
  /-- AMO_MAXU_W (R339). 32-bit atomic unsigned maximum. -/
  | amoMaxuW (c : BitVec 7) (b : BitVec 7) (d : BitVec 7)
  /-- AMO_FADD_W (R339). FP32 atomic add rounded by RNE at the home. -/
  | amoFaddW (c : BitVec 7) (b : BitVec 7) (d : BitVec 7)
  /-- AMO_FMAX_W (R339). FP32 atomic maximum. -/
  | amoFmaxW (c : BitVec 7) (b : BitVec 7) (d : BitVec 7)
  /-- AMO_FMIN_W (R339). FP32 atomic minimum. -/
  | amoFminW (c : BitVec 7) (b : BitVec 7) (d : BitVec 7)
  /-- AMO_CAS_W (R339). 32-bit atomic compare-and-swap. -/
  | amoCasW (c : BitVec 7) (b : BitVec 7) (d : BitVec 7)
  /-- AMO_SWAP_D (R339). 64-bit atomic swap. -/
  | amoSwapD (c : BitVec 7) (b : BitVec 7) (d : BitVec 7)
  /-- AMO_ADD_D (R339). 64-bit atomic add. -/
  | amoAddD (c : BitVec 7) (b : BitVec 7) (d : BitVec 7)
  /-- AMO_AND_D (R339). 64-bit atomic AND. -/
  | amoAndD (c : BitVec 7) (b : BitVec 7) (d : BitVec 7)
  /-- AMO_OR_D (R339). 64-bit atomic OR. -/
  | amoOrD (c : BitVec 7) (b : BitVec 7) (d : BitVec 7)
  /-- AMO_XOR_D (R339). 64-bit atomic XOR. -/
  | amoXorD (c : BitVec 7) (b : BitVec 7) (d : BitVec 7)
  /-- AMO_MIN_D (R339). 64-bit atomic signed minimum. -/
  | amoMinD (c : BitVec 7) (b : BitVec 7) (d : BitVec 7)
  /-- AMO_MAX_D (R339). 64-bit atomic signed maximum. -/
  | amoMaxD (c : BitVec 7) (b : BitVec 7) (d : BitVec 7)
  /-- AMO_MINU_D (R339). 64-bit atomic unsigned minimum. -/
  | amoMinuD (c : BitVec 7) (b : BitVec 7) (d : BitVec 7)
  /-- AMO_MAXU_D (R339). 64-bit atomic unsigned maximum. -/
  | amoMaxuD (c : BitVec 7) (b : BitVec 7) (d : BitVec 7)
  /-- AMO_FADD_D (R339). FP64 atomic add rounded by RNE at the home. -/
  | amoFaddD (c : BitVec 7) (b : BitVec 7) (d : BitVec 7)
  /-- AMO_FMAX_D (R339). FP64 atomic maximum. -/
  | amoFmaxD (c : BitVec 7) (b : BitVec 7) (d : BitVec 7)
  /-- AMO_FMIN_D (R339). FP64 atomic minimum. -/
  | amoFminD (c : BitVec 7) (b : BitVec 7) (d : BitVec 7)
  /-- AMO_CAS_D (R339). 64-bit atomic compare-and-swap. -/
  | amoCasD (c : BitVec 7) (b : BitVec 7) (d : BitVec 7)
  /-- FENCE_AR (R366). Acquire-release fence at a named scope. -/
  | fenceAr (s : BitVec 3)
  /-- FENCE_ACQ (R366). Acquire fence at a named scope. -/
  | fenceAcq (s : BitVec 3)
  /-- FENCE_REL (R366). Release fence at a named scope. -/
  | fenceRel (s : BitVec 3)
  /-- FENCE_FETCH (R366). Makes later instruction fetches observe stores visible at the named scope. -/
  | fenceFetch (s : BitVec 3)
  /-- PREF (R407). Prefetch hint for reading or ownership, never faulting. -/
  | pref (o : BitVec 8) (s : BitVec 2) (b : BitVec 7) (h : BitVec 7)
  /-- FADD (R362). Scalar FP64 add. -/
  | fadd (c : BitVec 7) (b : BitVec 7) (d : BitVec 7)
  /-- FSUB (R362). Scalar FP64 subtract. -/
  | fsub (c : BitVec 7) (b : BitVec 7) (d : BitVec 7)
  /-- FMUL (R362). Scalar FP64 multiply. -/
  | fmul (c : BitVec 7) (b : BitVec 7) (d : BitVec 7)
  /-- FDIV (R362). Scalar FP64 divide. -/
  | fdiv (c : BitVec 7) (b : BitVec 7) (d : BitVec 7)
  /-- FSQRT (R362). Scalar FP64 square root. -/
  | fsqrt (b : BitVec 7) (d : BitVec 7)
  /-- FMIN (R362). Scalar FP64 IEEE minimum. -/
  | fmin (c : BitVec 7) (b : BitVec 7) (d : BitVec 7)
  /-- FMAX (R362). Scalar FP64 IEEE maximum. -/
  | fmax (c : BitVec 7) (b : BitVec 7) (d : BitVec 7)
  /-- FMAC (R362). Scalar FP64 fused multiply-accumulate into the destination. -/
  | fmac (c : BitVec 7) (b : BitVec 7) (d : BitVec 7)
  /-- FEQ (R362). Scalar FP64 quiet equality comparison. -/
  | feq (c : BitVec 7) (b : BitVec 7) (d : BitVec 7)
  /-- FLT (R362). Scalar FP64 signalling less-than comparison. -/
  | flt (c : BitVec 7) (b : BitVec 7) (d : BitVec 7)
  /-- FLE (R362). Scalar FP64 signalling less-or-equal comparison. -/
  | fle (c : BitVec 7) (b : BitVec 7) (d : BitVec 7)
  /-- FCVTFI (R362). Converts FP64 to INT64 with rounding and saturation. -/
  | fcvtfi (b : BitVec 7) (d : BitVec 7)
  /-- FCVTIF (R362). Converts INT64 to FP64 with rounding. -/
  | fcvtif (b : BitVec 7) (d : BitVec 7)
  /-- TRAP (R435). Completes and enters the handler to request a Protas kernel service. -/
  | trap (n : BitVec 18)
  /-- ERET (R289). Returns from a handler to TPC at element TVES in the saved mode. -/
  | eret
  /-- MFS (R391). Reads a state register into a scalar register. -/
  | mfs (n : BitVec 11) (d : BitVec 7)
  /-- MTS (R391). Writes a state register from a scalar register with its checks. -/
  | mts (n : BitVec 11) (a : BitVec 7)
  /-- DRAIN (R359). Waits until the named asynchronous queues of the hart have emptied. -/
  | drain (n : BitVec 1) (p : BitVec 1) (c : BitVec 1) (m : BitVec 1) (t : BitVec 1) (v : BitVec 1)
  /-- CHKERR (R351). Waits for queued work and traps if CIR records consumed poison. -/
  | chkerr
  /-- FINISH (R367). Ends the hart's share: commits the strip, ends loops and records poison. -/
  | finish
  /-- YIELD (R443). Saves the hart and gives up its slot. -/
  | yield
  /-- LAUNCH (R377). Submits a launch record to a device-fed queue's ring or overflow area. -/
  | launch (b : BitVec 7) (d : BitVec 7)
  /-- WAITT (R439). Waits for a pending task to complete, giving up the slot. -/
  | waitt (b : BitVec 7) (d : BitVec 7)
  /-- BARINIT (R343). Initialises a barrier object in one 16-byte atomic store. -/
  | barinit (c : BitVec 7) (b : BitVec 7) (a : BitVec 7)
  /-- BAREXP (R343). Sets a barrier object's expectations and applies the update. -/
  | barexp (c : BitVec 7) (b : BitVec 7) (a : BitVec 7)
  /-- BARARR (R343). Arrives at a barrier object as a release, returning the generation. -/
  | bararr (b : BitVec 7) (d : BitVec 7)
  /-- BARWAIT (R343). Waits until the barrier generation differs from the given one, then acquires. -/
  | barwait (c : BitVec 7) (b : BitVec 7)
  /-- BARTEST (R343). Tests whether the barrier generation has moved past the given one. -/
  | bartest (c : BitVec 7) (b : BitVec 7) (d : BitVec 7)
  /-- BARWAIT_RETURN (R192). A waiting BARWAIT returns after the phase flips and acquires what R192 lists. -/
  | barwaitReturn
  /-- CPY_BAR (R355). Asynchronous copy whose completion adds its byte count to a barrier object. -/
  | cpyBar (a : BitVec 7)
  /-- CPY_DEP (R355). Asynchronous copy whose completion decrements a launch record's DEPC. -/
  | cpyDep (a : BitVec 7)
  /-- CPY (R355). Asynchronous copy with no completion action. -/
  | cpy (a : BitVec 7)
  /-- COPY_COMPLETE (R193). The copy engine finishes a copy and takes its completion action. -/
  | copyComplete (n : Nat)
  /-- STRM (R431). Binds a scalar input stream to a register. -/
  | strm (b : BitVec 7) (a : BitVec 7)
  /-- STRM_O (R431). Binds a scalar output stream to a register. -/
  | strmO (b : BitVec 7) (a : BitVec 7)
  /-- STRM_V (R431). Binds a vector input stream to a register. -/
  | strmV (b : BitVec 7) (a : BitVec 7)
  /-- STRM_VO (R431). Binds a vector output stream to a register. -/
  | strmVo (b : BitVec 7) (a : BitVec 7)
  /-- STRM_OFF (R431). Unbinds a scalar stream register. -/
  | strmOff (a : BitVec 7)
  /-- STRM_VOFF (R431). Unbinds a vector stream register. -/
  | strmVoff (a : BitVec 7)
  /-- STREAM_REFILL (R202). The copy engine refills an input stream ahead of its reads. -/
  | streamRefill (k : Nat)
  /-- CBRES (R350). Reserves circular-buffer slots, waiting for free slots. -/
  | cbres (c : BitVec 7) (b : BitVec 7) (d : BitVec 7)
  /-- CBCOM (R350). Commits filled circular-buffer slots as a release. -/
  | cbcom (c : BitVec 7) (b : BitVec 7)
  /-- CBACQ (R350). Acquires filled circular-buffer slots, waiting for them. -/
  | cbacq (c : BitVec 7) (b : BitVec 7) (d : BitVec 7)
  /-- CBREL (R350). Releases consumed circular-buffer slots. -/
  | cbrel (c : BitVec 7) (b : BitVec 7)
  /-- CB_WAIT_SATISFIED (R204). A waiting CBRES or CBACQ is satisfied in arrival order at the block's home. -/
  | cbWaitSatisfied
  /-- CRED_FSUM (R356). Contributes an FP32 value to an exact collective sum. -/
  | credFsum (c : BitVec 7) (b : BitVec 7) (d : BitVec 7)
  /-- CRED_FSUMS (R356). Contributes a scaled FP32 value to an exact collective sum. -/
  | credFsums (c : BitVec 7) (b : BitVec 7) (d : BitVec 7)
  /-- CRED_FMAX (R356). Contributes to a collective IEEE maximum. -/
  | credFmax (c : BitVec 7) (b : BitVec 7) (d : BitVec 7)
  /-- CRED_FMAXN (R356). Contributes to a collective NaN-ignoring maximum. -/
  | credFmaxn (c : BitVec 7) (b : BitVec 7) (d : BitVec 7)
  /-- CRED_FMIN (R356). Contributes to a collective IEEE minimum. -/
  | credFmin (c : BitVec 7) (b : BitVec 7) (d : BitVec 7)
  /-- CRED_ISUM (R356). Contributes to a collective INT64 sum. -/
  | credIsum (c : BitVec 7) (b : BitVec 7) (d : BitVec 7)
  /-- CRED_IMAX (R356). Contributes to a collective INT64 maximum. -/
  | credImax (c : BitVec 7) (b : BitVec 7) (d : BitVec 7)
  /-- CRED_IMIN (R356). Contributes to a collective INT64 minimum. -/
  | credImin (c : BitVec 7) (b : BitVec 7) (d : BitVec 7)
  /-- CRED_CONTRIBUTION (R273). The root handles an arriving contribution for a slot: opens, counts, closes or refuses. -/
  | credContribution (src : Option Contribution)
  /-- ROUND_DEADLINE (R273). A round's timeout expires and it closes with TIMEOUT over CMASK. -/
  | roundDeadline (slot : Nat)
  /-- CRED_ANSWER (R272). The root's answer reaches the contributing hart, which writes result, CMASK, STATUS and flags. -/
  | credAnswer (ans : Option CredAnswer)
  /-- HMLOAD (R372). Loads microwords into the instruction stores of named pseudo-channels. -/
  | hmload (c : BitVec 7) (b : BitVec 7) (a : BitVec 7)
  /-- HMV (R372). Broadcasts a stack-side matrix-vector command to the pseudo-channels holding its rows. -/
  | hmv (b : BitVec 7) (a : BitVec 7)
  /-- HMWAIT (R372). Waits for the hart's earlier HMV and HMLOAD to complete. -/
  | hmwait
  /-- CHANNEL_ROW_PROGRAM (R224). A pseudo-channel runs the row program for each of its rows of an HMV command. -/
  | channelRowProgram (n : Nat) (chan : Nat)
  /-- HMV_BARRIER_UPDATE (R224). When every row is done the slots and the barrier update complete as one CPY.BAR. -/
  | hmvBarrierUpdate (n : Nat)
  /-- END (R219). Stack-side microword ending the row's program. -/
  | endRow
  /-- DOT (R220). Stack-side microword computing the ordered dot product of the row with x. -/
  | dot
  /-- SCALE (R219). Stack-side microword scaling y by a power of two. -/
  | scale (e : BitVec 8)
  /-- RELU (R219). Stack-side microword taking the maximum of y and +0. -/
  | relu
  /-- ADDC (R219). Stack-side microword adding a BF16 constant to y. -/
  | addc (c : BitVec 16)
  /-- EMIT (R219). Stack-side microword writing y to the row's result slot as FP32 or BF16. -/
  | emit (f : BitVec 1)
  /-- ADD_V (R335). Vector integer add. -/
  | addV (p : BitVec 1) (m : BitVec 1) (s : BitVec 7) (t : BitVec 7) (d : BitVec 7)
  /-- SUB_V (R432). Vector integer subtract. -/
  | subV (p : BitVec 1) (m : BitVec 1) (s : BitVec 7) (t : BitVec 7) (d : BitVec 7)
  /-- ADDS_V (R337). Vector saturating signed add. -/
  | addsV (p : BitVec 1) (m : BitVec 1) (s : BitVec 7) (t : BitVec 7) (d : BitVec 7)
  /-- AND_V (R342). Vector bitwise AND. -/
  | andV (p : BitVec 1) (m : BitVec 1) (s : BitVec 7) (t : BitVec 7) (d : BitVec 7)
  /-- OR_V (R404). Vector bitwise OR. -/
  | orV (p : BitVec 1) (m : BitVec 1) (s : BitVec 7) (t : BitVec 7) (d : BitVec 7)
  /-- XOR_V (R442). Vector bitwise XOR. -/
  | xorV (p : BitVec 1) (m : BitVec 1) (s : BitVec 7) (t : BitVec 7) (d : BitVec 7)
  /-- SHL_V (R422). Vector shift left. -/
  | shlV (p : BitVec 1) (m : BitVec 1) (s : BitVec 7) (t : BitVec 7) (d : BitVec 7)
  /-- SHR_V (R422). Vector logical shift right. -/
  | shrV (p : BitVec 1) (m : BitVec 1) (s : BitVec 7) (t : BitVec 7) (d : BitVec 7)
  /-- SRA_V (R422). Vector arithmetic shift right. -/
  | sraV (p : BitVec 1) (m : BitVec 1) (s : BitVec 7) (t : BitVec 7) (d : BitVec 7)
  /-- MIN_V (R387). Vector signed minimum. -/
  | minV (p : BitVec 1) (m : BitVec 1) (s : BitVec 7) (t : BitVec 7) (d : BitVec 7)
  /-- MAX_V (R387). Vector signed maximum. -/
  | maxV (p : BitVec 1) (m : BitVec 1) (s : BitVec 7) (t : BitVec 7) (d : BitVec 7)
  /-- MINU_V (R387). Vector unsigned minimum. -/
  | minuV (p : BitVec 1) (m : BitVec 1) (s : BitVec 7) (t : BitVec 7) (d : BitVec 7)
  /-- MAXU_V (R387). Vector unsigned maximum. -/
  | maxuV (p : BitVec 1) (m : BitVec 1) (s : BitVec 7) (t : BitVec 7) (d : BitVec 7)
  /-- MUL_V (R398). Vector multiply, low half. -/
  | mulV (p : BitVec 1) (m : BitVec 1) (s : BitVec 7) (t : BitVec 7) (d : BitVec 7)
  /-- MULH_V (R398). Vector signed multiply, high half. -/
  | mulhV (p : BitVec 1) (m : BitVec 1) (s : BitVec 7) (t : BitVec 7) (d : BitVec 7)
  /-- WMAC_V (R438). Widening multiply-accumulate. -/
  | wmacV (p : BitVec 1) (m : BitVec 1) (s : BitVec 7) (t : BitVec 7) (d : BitVec 7)
  /-- WADD_V (R438). Widening add. -/
  | waddV (p : BitVec 1) (m : BitVec 1) (s : BitVec 7) (t : BitVec 7) (d : BitVec 7)
  /-- POPC_V (R406). Vector population count. -/
  | popcV (p : BitVec 1) (m : BitVec 1) (t : BitVec 7) (d : BitVec 7)
  /-- CLZ_V (R352). Vector count of leading zeros. -/
  | clzV (p : BitVec 1) (m : BitVec 1) (t : BitVec 7) (d : BitVec 7)
  /-- MSETX (R396). Sets mask bits 0 to 63 from a scalar and clears the rest. -/
  | msetx (p : BitVec 1) (t : BitVec 7) (d : BitVec 7)
  /-- IOTA_V (R374). Writes each element's index. -/
  | iotaV (p : BitVec 1) (m : BitVec 1) (d : BitVec 7)
  /-- ADD_VX (R335). Vector add of a scalar. -/
  | addVx (p : BitVec 1) (m : BitVec 1) (s : BitVec 7) (t : BitVec 7) (d : BitVec 7)
  /-- SUB_VX (R432). Vector subtract of a scalar. -/
  | subVx (p : BitVec 1) (m : BitVec 1) (s : BitVec 7) (t : BitVec 7) (d : BitVec 7)
  /-- ADDS_VX (R337). Vector saturating add of a scalar. -/
  | addsVx (p : BitVec 1) (m : BitVec 1) (s : BitVec 7) (t : BitVec 7) (d : BitVec 7)
  /-- AND_VX (R342). Vector AND with a scalar. -/
  | andVx (p : BitVec 1) (m : BitVec 1) (s : BitVec 7) (t : BitVec 7) (d : BitVec 7)
  /-- OR_VX (R404). Vector OR with a scalar. -/
  | orVx (p : BitVec 1) (m : BitVec 1) (s : BitVec 7) (t : BitVec 7) (d : BitVec 7)
  /-- XOR_VX (R442). Vector XOR with a scalar. -/
  | xorVx (p : BitVec 1) (m : BitVec 1) (s : BitVec 7) (t : BitVec 7) (d : BitVec 7)
  /-- SHL_VX (R422). Vector shift left by a scalar. -/
  | shlVx (p : BitVec 1) (m : BitVec 1) (s : BitVec 7) (t : BitVec 7) (d : BitVec 7)
  /-- SHR_VX (R422). Vector logical shift right by a scalar. -/
  | shrVx (p : BitVec 1) (m : BitVec 1) (s : BitVec 7) (t : BitVec 7) (d : BitVec 7)
  /-- SRA_VX (R422). Vector arithmetic shift right by a scalar. -/
  | sraVx (p : BitVec 1) (m : BitVec 1) (s : BitVec 7) (t : BitVec 7) (d : BitVec 7)
  /-- MIN_VX (R387). Vector signed minimum with a scalar. -/
  | minVx (p : BitVec 1) (m : BitVec 1) (s : BitVec 7) (t : BitVec 7) (d : BitVec 7)
  /-- MAX_VX (R387). Vector signed maximum with a scalar. -/
  | maxVx (p : BitVec 1) (m : BitVec 1) (s : BitVec 7) (t : BitVec 7) (d : BitVec 7)
  /-- MINU_VX (R387). Vector unsigned minimum with a scalar. -/
  | minuVx (p : BitVec 1) (m : BitVec 1) (s : BitVec 7) (t : BitVec 7) (d : BitVec 7)
  /-- MAXU_VX (R387). Vector unsigned maximum with a scalar. -/
  | maxuVx (p : BitVec 1) (m : BitVec 1) (s : BitVec 7) (t : BitVec 7) (d : BitVec 7)
  /-- MUL_VX (R398). Vector multiply by a scalar. -/
  | mulVx (p : BitVec 1) (m : BitVec 1) (s : BitVec 7) (t : BitVec 7) (d : BitVec 7)
  /-- MULH_VX (R398). Vector signed high multiply by a scalar. -/
  | mulhVx (p : BitVec 1) (m : BitVec 1) (s : BitVec 7) (t : BitVec 7) (d : BitVec 7)
  /-- WMAC_VX (R438). Widening multiply-accumulate with a scalar. -/
  | wmacVx (p : BitVec 1) (m : BitVec 1) (s : BitVec 7) (t : BitVec 7) (d : BitVec 7)
  /-- WADD_VX (R438). Widening add of a scalar. -/
  | waddVx (p : BitVec 1) (m : BitVec 1) (s : BitVec 7) (t : BitVec 7) (d : BitVec 7)
  /-- POPC_VX (R406). Vector population count of elements ANDed with a scalar. -/
  | popcVx (p : BitVec 1) (m : BitVec 1) (s : BitVec 7) (t : BitVec 7) (d : BitVec 7)
  /-- CLZ_VX (R352). Vector leading-zero count of elements ANDed with a scalar. -/
  | clzVx (p : BitVec 1) (m : BitVec 1) (s : BitVec 7) (t : BitVec 7) (d : BitVec 7)
  /-- FADD_V (R364). Vector FP add. -/
  | faddV (p : BitVec 1) (m : BitVec 1) (s : BitVec 7) (t : BitVec 7) (d : BitVec 7)
  /-- FSUB_V (R364). Vector FP subtract. -/
  | fsubV (p : BitVec 1) (m : BitVec 1) (s : BitVec 7) (t : BitVec 7) (d : BitVec 7)
  /-- FMUL_V (R364). Vector FP multiply. -/
  | fmulV (p : BitVec 1) (m : BitVec 1) (s : BitVec 7) (t : BitVec 7) (d : BitVec 7)
  /-- FMA_V (R368). Vector fused multiply-add with one rounding. -/
  | fmaV (p : BitVec 1) (m : BitVec 1) (s : BitVec 7) (t : BitVec 7) (d : BitVec 7)
  /-- FDIV_V (R364). Vector FP divide. -/
  | fdivV (p : BitVec 1) (m : BitVec 1) (s : BitVec 7) (t : BitVec 7) (d : BitVec 7)
  /-- FSQRT_V (R364). Vector FP square root. -/
  | fsqrtV (p : BitVec 1) (m : BitVec 1) (t : BitVec 7) (d : BitVec 7)
  /-- FMIN_V (R364). Vector FP IEEE minimum. -/
  | fminV (p : BitVec 1) (m : BitVec 1) (s : BitVec 7) (t : BitVec 7) (d : BitVec 7)
  /-- FMAX_V (R364). Vector FP IEEE maximum. -/
  | fmaxV (p : BitVec 1) (m : BitVec 1) (s : BitVec 7) (t : BitVec 7) (d : BitVec 7)
  /-- FSPEC_V (R370). Faithfully rounded special function on each element. -/
  | fspecV (p : BitVec 1) (m : BitVec 1) (f : BitVec 7) (t : BitVec 7) (d : BitVec 7)
  /-- FSGN_V (R369). Clears or inverts each element's sign bit. -/
  | fsgnV (p : BitVec 1) (m : BitVec 1) (f : BitVec 7) (t : BitVec 7) (d : BitVec 7)
  /-- CMP_V_EQ (R353). Compares for equality into a mask. -/
  | cmpVEq (m : BitVec 1) (s : BitVec 7) (t : BitVec 7) (d : BitVec 7)
  /-- CMP_V_NE (R353). Compares for inequality into a mask. -/
  | cmpVNe (m : BitVec 1) (s : BitVec 7) (t : BitVec 7) (d : BitVec 7)
  /-- CMP_V_LT (R353). Compares less-than into a mask. -/
  | cmpVLt (m : BitVec 1) (s : BitVec 7) (t : BitVec 7) (d : BitVec 7)
  /-- CMP_V_LE (R353). Compares less-or-equal into a mask. -/
  | cmpVLe (m : BitVec 1) (s : BitVec 7) (t : BitVec 7) (d : BitVec 7)
  /-- CMP_V_GT (R353). Compares greater-than into a mask. -/
  | cmpVGt (m : BitVec 1) (s : BitVec 7) (t : BitVec 7) (d : BitVec 7)
  /-- CMP_V_GE (R353). Compares greater-or-equal into a mask. -/
  | cmpVGe (m : BitVec 1) (s : BitVec 7) (t : BitVec 7) (d : BitVec 7)
  /-- CMP_V_LTU (R353). Unsigned less-than for integers, UNORD for FP, into a mask. -/
  | cmpVLtu (m : BitVec 1) (s : BitVec 7) (t : BitVec 7) (d : BitVec 7)
  /-- CMP_V_LEU (R353). Unsigned less-or-equal for integers, ORD for FP, into a mask. -/
  | cmpVLeu (m : BitVec 1) (s : BitVec 7) (t : BitVec 7) (d : BitVec 7)
  /-- CVT_V (R357). Converts elements from VT.FMT to a target format. -/
  | cvtV (p : BitVec 1) (m : BitVec 1) (f : BitVec 7) (t : BitVec 7) (d : BitVec 7)
  /-- SCACC_V (R416). Applies E8M0 scales to partials and accumulates into D. -/
  | scaccV (p : BitVec 1) (m : BitVec 1) (s : BitVec 7) (t : BitVec 7) (d : BitVec 7)
  /-- RSUM_V (R413). Ordered sum of active elements into a scalar. -/
  | rsumV (p : BitVec 1) (m : BitVec 1) (t : BitVec 7) (d : BitVec 7)
  /-- RUSUM_V (R413). Unordered tree sum of active elements into a scalar. -/
  | rusumV (p : BitVec 1) (m : BitVec 1) (t : BitVec 7) (d : BitVec 7)
  /-- RMAX_V (R413). Maximum of active elements into a scalar. -/
  | rmaxV (p : BitVec 1) (m : BitVec 1) (t : BitVec 7) (d : BitVec 7)
  /-- RMIN_V (R413). Minimum of active elements into a scalar. -/
  | rminV (p : BitVec 1) (m : BitVec 1) (t : BitVec 7) (d : BitVec 7)
  /-- RMAXX_V (R414). Maximum with its lowest index into an x pair. -/
  | rmaxxV (p : BitVec 1) (m : BitVec 1) (t : BitVec 7) (d : BitVec 7)
  /-- RMINX_V (R414). Minimum with its lowest index into an x pair. -/
  | rminxV (p : BitVec 1) (m : BitVec 1) (t : BitVec 7) (d : BitVec 7)
  /-- SCAN_V (R417). Ordered running sum of active elements. -/
  | scanV (p : BitVec 1) (m : BitVec 1) (t : BitVec 7) (d : BitVec 7)
  /-- SCANF_V (R417). Tree-rule running sum of active elements. -/
  | scanfV (p : BitVec 1) (m : BitVec 1) (t : BitVec 7) (d : BitVec 7)
  /-- SLIDE_V (R423). Shifts elements along the register by a signed scalar amount. -/
  | slideV (p : BitVec 1) (m : BitVec 1) (s : BitVec 7) (t : BitVec 7) (d : BitVec 7)
  /-- PERM_V (R405). Permutes elements by an index vector. -/
  | permV (p : BitVec 1) (m : BitVec 1) (s : BitVec 7) (t : BitVec 7) (d : BitVec 7)
  /-- BCAST_V (R344). Broadcasts a scalar to every active element. -/
  | bcastV (p : BitVec 1) (m : BitVec 1) (t : BitVec 7) (d : BitVec 7)
  /-- MERGE_V (R389). Selects elements from two sources under a mask. -/
  | mergeV (p : BitVec 1) (s : BitVec 7) (t : BitVec 7) (d : BitVec 7)
  /-- EXTR_V (R361). Extracts one element to a scalar register. -/
  | extrV (p : BitVec 1) (s : BitVec 7) (t : BitVec 7) (d : BitVec 7)
  /-- INS_V (R373). Inserts a scalar into one element. -/
  | insV (p : BitVec 1) (s : BitVec 7) (t : BitVec 7) (d : BitVec 7)
  /-- MV_V (R399). Copies a vector register's active elements. -/
  | mvV (p : BitVec 1) (m : BitVec 1) (t : BitVec 7) (d : BitVec 7)
  /-- SETE_V (R420). Marks one of the hart's registers EMPTY. -/
  | seteV (d : BitVec 7)
  /-- MAND (R386). Mask AND. -/
  | mand (p : BitVec 1) (m : BitVec 1) (s : BitVec 7) (t : BitVec 7) (d : BitVec 7)
  /-- MOR (R386). Mask OR. -/
  | mor (p : BitVec 1) (m : BitVec 1) (s : BitVec 7) (t : BitVec 7) (d : BitVec 7)
  /-- MXOR (R386). Mask XOR. -/
  | mxor (p : BitVec 1) (m : BitVec 1) (s : BitVec 7) (t : BitVec 7) (d : BitVec 7)
  /-- MNOT (R386). Mask NOT. -/
  | mnot (p : BitVec 1) (m : BitVec 1) (t : BitVec 7) (d : BitVec 7)
  /-- MPOPC (R390). Counts set mask bits below vl into a scalar. -/
  | mpopc (p : BitVec 1) (m : BitVec 1) (t : BitVec 7) (d : BitVec 7)
  /-- MFIRST (R390). Finds the lowest set mask bit below vl. -/
  | mfirst (p : BitVec 1) (m : BitVec 1) (t : BitVec 7) (d : BitVec 7)
  /-- CMPRS_V (R354). Writes the indices of set mask bits as INT32 elements. -/
  | cmprsV (p : BitVec 1) (m : BitVec 1) (t : BitVec 7) (d : BitVec 7)
  /-- CAPP_V (R349). Appends indices of set mask bits to an append queue as a release. -/
  | cappV (p : BitVec 1) (m : BitVec 1) (s : BitVec 7) (t : BitVec 7)
  /-- CAPP_WAIT_SATISFIED (R145). A CAPP.V waiting for queue room appends once HEAD leaves space. -/
  | cappWaitSatisfied
  /-- LD_V (R381). Strided vector load. -/
  | ldV (p : BitVec 1) (m : BitVec 1) (s : BitVec 7) (t : BitVec 7) (d : BitVec 7)
  /-- ST_V (R428). Strided vector store. -/
  | stV (p : BitVec 1) (m : BitVec 1) (s : BitVec 7) (t : BitVec 7) (d : BitVec 7)
  /-- GATH_V (R371). Indexed vector load. -/
  | gathV (p : BitVec 1) (m : BitVec 1) (s : BitVec 7) (t : BitVec 7) (d : BitVec 7)
  /-- SCAT_V (R418). Indexed vector store. -/
  | scatV (p : BitVec 1) (m : BitVec 1) (s : BitVec 7) (t : BitVec 7) (d : BitVec 7)
  /-- SCATADD_V (R419). Indexed posted atomic add of each active element. -/
  | scataddV (p : BitVec 1) (m : BitVec 1) (s : BitVec 7) (t : BitVec 7) (d : BitVec 7)
  /-- BGATH_V (R346). Background indexed load with a duplicate mask in vd + 1. -/
  | bgathV (p : BitVec 1) (m : BitVec 1) (s : BitVec 7) (t : BitVec 7) (d : BitVec 7)
  /-- PUSH_V (R408). Claims a peer's EMPTY register and queues the delivery of a vector register. -/
  | pushV (s : BitVec 7) (t : BitVec 7) (d : BitVec 7)
  /-- PUSH_DELIVERY (R215). A queued push writes the captured bytes into the peer register or save area and marks it FULL. -/
  | pushDelivery (n : Nat)
  /-- REGISTER_FULL_WAKE (R213). An instruction waiting on an EMPTY or PENDING register proceeds when it becomes FULL. -/
  | registerFullWake
  /-- TLD_V (R434). Loads a run of tensor elements by logical coordinates through a handle. -/
  | tldV (p : BitVec 1) (m : BitVec 1) (s : BitVec 7) (t : BitVec 7) (d : BitVec 7)
  /-- TST_V (R434). Stores a run of tensor elements by logical coordinates through a handle. -/
  | tstV (p : BitVec 1) (m : BitVec 1) (s : BitVec 7) (t : BitVec 7) (d : BitVec 7)
  /-- QGEN_V_FRAC (R409). Generates one coordinate of a run of quasi-random points as unsigned fractions. -/
  | qgenVFrac (p : BitVec 1) (m : BitVec 1) (s : BitVec 7) (t : BitVec 7) (d : BitVec 7)
  /-- QGEN_V_FP32 (R409). Generates one coordinate of a run of quasi-random points as FP32. -/
  | qgenVFp32 (p : BitVec 1) (m : BitVec 1) (s : BitVec 7) (t : BitVec 7) (d : BitVec 7)
  /-- ST_P_I16 (R426). Plural broadcast store of a 16-bit value to active members. -/
  | stPI16 (b : BitVec 7) (a : BitVec 7)
  /-- ST_P_I32 (R426). Plural broadcast store of a 32-bit value to active members. -/
  | stPI32 (b : BitVec 7) (a : BitVec 7)
  /-- ADD_P_I16 (R403). Plural 16-bit add of a scalar in each member bank. -/
  | addPI16 (b : BitVec 7) (a : BitVec 7)
  /-- SUB_P_I16 (R403). Plural 16-bit subtract of a scalar. -/
  | subPI16 (b : BitVec 7) (a : BitVec 7)
  /-- AND_P_I16 (R403). Plural 16-bit AND with a scalar. -/
  | andPI16 (b : BitVec 7) (a : BitVec 7)
  /-- OR_P_I16 (R403). Plural 16-bit OR with a scalar. -/
  | orPI16 (b : BitVec 7) (a : BitVec 7)
  /-- XOR_P_I16 (R403). Plural 16-bit XOR with a scalar. -/
  | xorPI16 (b : BitVec 7) (a : BitVec 7)
  /-- MAX_P_I16 (R403). Plural 16-bit signed maximum with a scalar. -/
  | maxPI16 (b : BitVec 7) (a : BitVec 7)
  /-- MIN_P_I16 (R403). Plural 16-bit signed minimum with a scalar. -/
  | minPI16 (b : BitVec 7) (a : BitVec 7)
  /-- ADD_PL_I16 (R403). Plural bank-local 16-bit add of one offset into another. -/
  | addPlI16 (c : BitVec 7) (b : BitVec 7)
  /-- SUB_PL_I16 (R403). Plural bank-local 16-bit subtract. -/
  | subPlI16 (c : BitVec 7) (b : BitVec 7)
  /-- AND_PL_I16 (R403). Plural bank-local 16-bit AND. -/
  | andPlI16 (c : BitVec 7) (b : BitVec 7)
  /-- OR_PL_I16 (R403). Plural bank-local 16-bit OR. -/
  | orPlI16 (c : BitVec 7) (b : BitVec 7)
  /-- XOR_PL_I16 (R403). Plural bank-local 16-bit XOR. -/
  | xorPlI16 (c : BitVec 7) (b : BitVec 7)
  /-- MAX_PL_I16 (R403). Plural bank-local 16-bit signed maximum. -/
  | maxPlI16 (c : BitVec 7) (b : BitVec 7)
  /-- MIN_PL_I16 (R403). Plural bank-local 16-bit signed minimum. -/
  | minPlI16 (c : BitVec 7) (b : BitVec 7)
  /-- ADD_P_I32 (R403). Plural 32-bit add of a scalar. -/
  | addPI32 (b : BitVec 7) (a : BitVec 7)
  /-- SUB_P_I32 (R403). Plural 32-bit subtract of a scalar. -/
  | subPI32 (b : BitVec 7) (a : BitVec 7)
  /-- AND_P_I32 (R403). Plural 32-bit AND with a scalar. -/
  | andPI32 (b : BitVec 7) (a : BitVec 7)
  /-- OR_P_I32 (R403). Plural 32-bit OR with a scalar. -/
  | orPI32 (b : BitVec 7) (a : BitVec 7)
  /-- XOR_P_I32 (R403). Plural 32-bit XOR with a scalar. -/
  | xorPI32 (b : BitVec 7) (a : BitVec 7)
  /-- MAX_P_I32 (R403). Plural 32-bit signed maximum with a scalar. -/
  | maxPI32 (b : BitVec 7) (a : BitVec 7)
  /-- MIN_P_I32 (R403). Plural 32-bit signed minimum with a scalar. -/
  | minPI32 (b : BitVec 7) (a : BitVec 7)
  /-- ADD_PL_I32 (R403). Plural bank-local 32-bit add. -/
  | addPlI32 (c : BitVec 7) (b : BitVec 7)
  /-- SUB_PL_I32 (R403). Plural bank-local 32-bit subtract. -/
  | subPlI32 (c : BitVec 7) (b : BitVec 7)
  /-- AND_PL_I32 (R403). Plural bank-local 32-bit AND. -/
  | andPlI32 (c : BitVec 7) (b : BitVec 7)
  /-- OR_PL_I32 (R403). Plural bank-local 32-bit OR. -/
  | orPlI32 (c : BitVec 7) (b : BitVec 7)
  /-- XOR_PL_I32 (R403). Plural bank-local 32-bit XOR. -/
  | xorPlI32 (c : BitVec 7) (b : BitVec 7)
  /-- MAX_PL_I32 (R403). Plural bank-local 32-bit signed maximum. -/
  | maxPlI32 (c : BitVec 7) (b : BitVec 7)
  /-- MIN_PL_I32 (R403). Plural bank-local 32-bit signed minimum. -/
  | minPlI32 (c : BitVec 7) (b : BitVec 7)
  /-- ADD_P_F32 (R403). Plural FP32 add of a scalar rounded by RNE. -/
  | addPF32 (b : BitVec 7) (a : BitVec 7)
  /-- SUB_P_F32 (R403). Plural FP32 subtract of a scalar. -/
  | subPF32 (b : BitVec 7) (a : BitVec 7)
  /-- MAX_P_F32 (R403). Plural FP32 IEEE maximum with a scalar. -/
  | maxPF32 (b : BitVec 7) (a : BitVec 7)
  /-- MIN_P_F32 (R403). Plural FP32 IEEE minimum with a scalar. -/
  | minPF32 (b : BitVec 7) (a : BitVec 7)
  /-- ADD_PL_F32 (R403). Plural bank-local FP32 add. -/
  | addPlF32 (c : BitVec 7) (b : BitVec 7)
  /-- SUB_PL_F32 (R403). Plural bank-local FP32 subtract. -/
  | subPlF32 (c : BitVec 7) (b : BitVec 7)
  /-- MAX_PL_F32 (R403). Plural bank-local FP32 maximum. -/
  | maxPlF32 (c : BitVec 7) (b : BitVec 7)
  /-- MIN_PL_F32 (R403). Plural bank-local FP32 minimum. -/
  | minPlF32 (c : BitVec 7) (b : BitVec 7)
  /-- LD_P_I16_SUM (R380). Combining plural load: exact sum of 16-bit members. -/
  | ldPI16Sum (b : BitVec 7) (d : BitVec 7)
  /-- LD_P_I16_MAX (R380). Combining plural load: signed maximum of 16-bit members. -/
  | ldPI16Max (b : BitVec 7) (d : BitVec 7)
  /-- LD_P_I16_MIN (R380). Combining plural load: signed minimum of 16-bit members. -/
  | ldPI16Min (b : BitVec 7) (d : BitVec 7)
  /-- LD_P_I16_MAXU (R380). Combining plural load: unsigned maximum of 16-bit members. -/
  | ldPI16Maxu (b : BitVec 7) (d : BitVec 7)
  /-- LD_P_I16_MINU (R380). Combining plural load: unsigned minimum of 16-bit members. -/
  | ldPI16Minu (b : BitVec 7) (d : BitVec 7)
  /-- LD_P_I16_AND (R380). Combining plural load: AND of 16-bit members. -/
  | ldPI16And (b : BitVec 7) (d : BitVec 7)
  /-- LD_P_I16_OR (R380). Combining plural load: OR of 16-bit members. -/
  | ldPI16Or (b : BitVec 7) (d : BitVec 7)
  /-- LD_P_I16_XOR (R380). Combining plural load: XOR of 16-bit members. -/
  | ldPI16Xor (b : BitVec 7) (d : BitVec 7)
  /-- LD_P_I32_SUM (R380). Combining plural load: exact sum of 32-bit members. -/
  | ldPI32Sum (b : BitVec 7) (d : BitVec 7)
  /-- LD_P_I32_MAX (R380). Combining plural load: signed maximum of 32-bit members. -/
  | ldPI32Max (b : BitVec 7) (d : BitVec 7)
  /-- LD_P_I32_MIN (R380). Combining plural load: signed minimum of 32-bit members. -/
  | ldPI32Min (b : BitVec 7) (d : BitVec 7)
  /-- LD_P_I32_MAXU (R380). Combining plural load: unsigned maximum of 32-bit members. -/
  | ldPI32Maxu (b : BitVec 7) (d : BitVec 7)
  /-- LD_P_I32_MINU (R380). Combining plural load: unsigned minimum of 32-bit members. -/
  | ldPI32Minu (b : BitVec 7) (d : BitVec 7)
  /-- LD_P_I32_AND (R380). Combining plural load: AND of 32-bit members. -/
  | ldPI32And (b : BitVec 7) (d : BitVec 7)
  /-- LD_P_I32_OR (R380). Combining plural load: OR of 32-bit members. -/
  | ldPI32Or (b : BitVec 7) (d : BitVec 7)
  /-- LD_P_I32_XOR (R380). Combining plural load: XOR of 32-bit members. -/
  | ldPI32Xor (b : BitVec 7) (d : BitVec 7)
  /-- LD_P_F32_FSUM (R380). Combining plural load: ordered FP32 sum of members. -/
  | ldPF32Fsum (b : BitVec 7) (d : BitVec 7)
  /-- LD_P_F32_FMAX (R380). Combining plural load: FP32 maximum of members. -/
  | ldPF32Fmax (b : BitVec 7) (d : BitVec 7)
  /-- LD_P_F32_FMIN (R380). Combining plural load: FP32 minimum of members. -/
  | ldPF32Fmin (b : BitVec 7) (d : BitVec 7)
  /-- ST_PV_I16 (R427). Stores 16-bit element i of a vector to member i. -/
  | stPvI16 (b : BitVec 7) (a : BitVec 7)
  /-- ST_PV_I32 (R427). Stores 32-bit element i of a vector to member i. -/
  | stPvI32 (b : BitVec 7) (a : BitVec 7)
  /-- TSHAPE_BF16 (R436). Requests a BF16 matrix shape and returns the grant. -/
  | tshapeBf16 (b : BitVec 7) (d : BitVec 7)
  /-- TSHAPE_INT8 (R436). Requests an INT8 matrix shape and returns the grant. -/
  | tshapeInt8 (b : BitVec 7) (d : BitVec 7)
  /-- TSHAPE_BX7 (R436). Requests a BX7 matrix shape and returns the grant. -/
  | tshapeBx7 (b : BitVec 7) (d : BitVec 7)
  /-- TSHAPE_BX4 (R436). Requests a BX4 matrix shape and returns the grant. -/
  | tshapeBx4 (b : BitVec 7) (d : BitVec 7)
  /-- TSHAPE_BX2 (R436). Requests a BX2 matrix shape and returns the grant. -/
  | tshapeBx2 (b : BitVec 7) (d : BitVec 7)
  /-- MLD (R393). Loads operand tile rows, optionally role B, transposing or broadcast. -/
  | mld (g : BitVec 1) (t : BitVec 1) (r : BitVec 1) (c : BitVec 7) (b : BitVec 7) (a : BitVec 7)
  /-- MLDX (R394). Gathers A-operand rows by an index vector through the operand latch. -/
  | mldx (c : BitVec 7) (b : BitVec 7) (a : BitVec 7)
  /-- MMA_BF16 (R395). BF16 tile multiply-accumulate into an FP32 accumulator. -/
  | mmaBf16 (z : BitVec 1) (c : BitVec 7) (b : BitVec 7) (a : BitVec 7)
  /-- MMA_INT8 (R395). INT8 tile multiply-accumulate into INT32. -/
  | mmaInt8 (z : BitVec 1) (c : BitVec 7) (b : BitVec 7) (a : BitVec 7)
  /-- MMA_BX7 (R395). BX7 tile multiply writing unscaled partials. -/
  | mmaBx7 (z : BitVec 1) (c : BitVec 7) (b : BitVec 7) (a : BitVec 7)
  /-- MMA_BX4 (R395). BX4 tile multiply writing unscaled partials. -/
  | mmaBx4 (z : BitVec 1) (c : BitVec 7) (b : BitVec 7) (a : BitVec 7)
  /-- MMA_BX2 (R395). BX2 tile multiply writing unscaled partials. -/
  | mmaBx2 (z : BitVec 1) (c : BitVec 7) (b : BitVec 7) (a : BitVec 7)
  /-- SCACC_M (R415). Applies E8M0 row and column scales to a partial tile into the accumulator. -/
  | scaccM (c : BitVec 7) (b : BitVec 7) (a : BitVec 7)
  /-- MST_FP32 (R397). Stores accumulator rows as FP32. -/
  | mstFp32 (c : BitVec 7) (b : BitVec 7) (a : BitVec 7)
  /-- MST_BF16 (R397). Stores accumulator rows rounded to BF16. -/
  | mstBf16 (c : BitVec 7) (b : BitVec 7) (a : BitVec 7)
  /-- MST_INT32 (R397). Stores accumulator rows as INT32 bits. -/
  | mstInt32 (c : BitVec 7) (b : BitVec 7) (a : BitVec 7)
  /-- MDRAIN (R388). Drains accumulator rows into consecutive vector registers. -/
  | mdrain (b : BitVec 7) (a : BitVec 7)
  /-- MZERO (R400). Clears an accumulator and its partial tile to +0. -/
  | mzero (a : BitVec 7)
  /-- MWAIT (R400). Waits until earlier matrix instructions pass their operands-consumed point. -/
  | mwait
  /-- MWAITALL (R400). Waits until earlier matrix instructions have completed. -/
  | mwaitall
  /-- THLD (R433). Loads a tensor descriptor into a handle and binds it. -/
  | thld (b : BitVec 7) (a : BitVec 7)
  /-- RETAG (R412). Changes a tensor's layout and base and queues a Burnish conversion. -/
  | retag (f : BitVec 4) (b : BitVec 7) (a : BitVec 7)
  /-- TWAIT (R437). Waits for converted tiles and acquires them. -/
  | twait (b : BitVec 7) (a : BitVec 7)
  /-- QLOAD (R410). Fills a Filigree logical slot from a table image. -/
  | qload (b : BitVec 7) (a : BitVec 7)
  /-- PFX_V (R74). Vector prefix supplying mask, rounding, fourth operand and policy fields to the next word. -/
  | pfxV (o : BitVec 1) (z : BitVec 1) (t : BitVec 1) (v : BitVec 1) (d : BitVec 7) (r : BitVec 3) (k : BitVec 3)
  /-- PFX_O (R76). Ordering prefix supplying scope, order and posting to the next AMO. -/
  | pfxO (p : BitVec 1) (o : BitVec 2) (s : BitVec 3)
  /-- BURNISH_TILE (R159). Burnish copies one conversion tile and flips its map bit and CDONE, clearing CV after the last. -/
  | burnishTile (die : Nat)
  /-- CONVERSION_RESTART (R163). After a die fence the kernel restarts a conversion on another die at the first unconverted tile. -/
  | conversionRestart (src : Nat) (dst : Nat)
  /-- TWAIT_RETURN (R160). A waiting TWAIT returns once enough tiles have flipped or the conversion failed. -/
  | twaitReturn
  /-- DEPW_WAIT_SATISFIED (R31). A STRIP waiting for the producer watermark finishes once WMARK meets its bound. -/
  | depwWaitSatisfied
  /-- DRAIN_RETURN (R44). A waiting DRAIN returns once every named queued operation has completed. -/
  | drainReturn
  /-- MATRIX_QUEUE_COMPLETE (R169). A queued matrix instruction completes in the Swage engine. -/
  | matrixQueueComplete
  /-- REDUCTION_MERGE (R207). A router replaces two matching reduction packets with one combined packet. -/
  | reductionMerge (i : Nat) (j : Nat)
  /-- REDUCTION_PACKET_APPLY (R207). A posted AMO or SCATADD.V packet is applied at its home as one read-modify-write. -/
  | reductionPacketApply (n : Nat)
  /-- FLIT_REPLAY (R210). A receiver discards a flit with a CRC error or missing sequence number and asks for go-back-N replay. -/
  | flitReplay (flit : Flit)
  /-- LINK_RETRAIN (R211). A link that replays one flit 8 times in a row retrains. -/
  | linkRetrain (link : LinkId) (ok : Bool)
  /-- LINK_FENCE (R211). The kernel fences a link that cannot retrain and reroutes or poisons its traffic. -/
  | linkFence (link : LinkId)
  /-- CLUSTER_RESET (R212). Containment resets one cluster while the rest of the die keeps serving. -/
  | clusterReset (c : Nat)
  /-- GOLROK_READ (R227). A remote read request to a stack's Golrok port is checked against the access table and served or refused. -/
  | golrokRead (stack : Nat) (fid : BitVec 16) (a : Nat) (n : Nat)
  /-- GOLROK_TABLE_WRITE (R227). The management cluster writes a Golrok access-control entry. -/
  | golrokTableWrite (stack : Nat) (idx : Nat) (entry : BitVec 128)
  /-- PREEMPTION (R295). A pre-emption request stops the hart, drains its queues, saves its context and releases its slot. -/
  | preemption (stop : Option Nat)
  /-- PREEMPT_DEADLINE (R296). PDEAD/2 passes without the current element completing and the hart stops without it. -/
  | preemptDeadline (late : Bool)
  /-- WATCHDOG (R294). The hart's watchdog reaches its limit and takes trap 0x13. -/
  | watchdog
  /-- RING_ENTRY_TAKE (R246). Bellows takes the next ring entry in order, reads the record and registers the task. -/
  | ringEntryTake (q : Nat)
  /-- OVERFLOW_MOVE (R246). Bellows moves an overflow entry into the ring as ring space frees. -/
  | overflowMove (q : Nat)
  /-- TASK_START (R251). Bellows starts the highest-priority READY task heading its queue, or completes it at once under R250. -/
  | taskStart
  /-- SLOT_FILL (R252). A freed hart slot is filled by a resuming hart, an unstarted logical hart or a new task. -/
  | slotFill (slot : Nat)
  /-- HART_SLOT_RETURN (R42). After FINISH the hart slot returns to Bellows once its queues drain and pushes are delivered. -/
  | hartSlotReturn (slot : Nat)
  /-- TASK_COMPLETE (R26). A task completes: WMARK := S, completion word written, dependants and waiters released. -/
  | taskComplete (n : Nat)
  /-- WAITT_RETURN (R261). A WAITT keeping its slot returns once the awaited task completes. -/
  | waittReturn
  /-- STEAL_REQUEST (R256). An idle cluster asks a victim cluster for an unstarted logical hart and its block; `more` are the other
  requests of the same cycle, each a cluster and its free slot. -/
  | stealRequest (req : Nat × Nat) (more : List (Nat × Nat))
  /-- STORAGE_UNCORRECTABLE (R307). An uncorrectable storage error marks the affected data poisoned; `found` says whether it is
  found now. -/
  | storageUncorrectable (place : StoragePlace) (found : Bool)
  /-- HART_STATE_UNCORRECTABLE (R313). An uncorrectable error in hart-local state rewinds the protected strip or poisons the elements. -/
  | hartStateUncorrectable (what : Damage)
  /-- PLANISH_RECHECK (R315). The Planish queue reruns a vector instruction and on mismatch rewinds the strip or kills. -/
  | planishRecheck (agree : Bool)
  /-- TOUCHMARK_COMPARE (R318). When both Assay copies are DONE the hub compares touchmarks and commits or fails the task. -/
  | touchmarkCompare (n : Nat)
  /-- DOORBELL_WRITE (R323). A host write to a queue's TAIL register is accepted or discarded as one operation. -/
  | doorbellWrite (q : Nat) (t : BitVec 32)
  /-- SUMMARY (R320). Mailbox command returning one snapshot of fences, queues, tasks, slots and black boxes. -/
  | summary (req : MailboxReq)
  /-- ATTEST (R328). Mailbox command returning a signed attestation report for a nonce. -/
  | attest (req : MailboxReq)
  /-- SLOAD (R325). Mailbox command copying NVMe blocks into device memory. -/
  | sload (req : MailboxReq)
  /-- SSAVE (R325). Mailbox command copying device memory to NVMe blocks. -/
  | ssave (req : MailboxReq)
  /-- POWER (R329). Mailbox command setting the module power limit. -/
  | power (req : MailboxReq)
  /-- FWLOAD (R326). Mailbox command verifying and installing a firmware image. -/
  | fwload (maddr : BitVec 64) (mlen : BitVec 32)
  /-- MAILBOX_DONE (R324). A mailbox command finishes, MSTAT becomes done or error and an MSI-X message follows. -/
  | mailboxDone
  /-- BAR2_ACCESS (R322). A host access through BAR 2 reaches device memory or completes with Unsupported Request; the host's
  accesses to BAR 0 and to its own memory come as this event too. -/
  | bar2Access (acc : HostAccess)
  /-- BOOT_ROM (R326). At main-rail start the boot ROM verifies the flash image slots and runs one or enters RECOVERY. -/
  | bootRom
  /-- FIRMWARE_BRINGUP (R327). The Protas kernel trains memory and links, repairs banks, clears memory and sets READY or BOOTFAIL. -/
  | firmwareBringup (tests : BringupReport)
  /-- POWER_THROTTLE (R329). Draw above the limit lowers, and returning headroom restores, the arithmetic clock in 100 MHz steps. -/
  | powerThrottle (above : Bool)
  /-- THERMAL_THROTTLE (R329). A die above 105 °C has its clock lowered, in steps, and restored in the same way. -/
  | thermalThrottle (heat : DieHeat)
  /-- THERMAL_SHUTDOWN (R329). A die above 115 °C makes the hub switch off the main rails. -/
  | thermalShutdown (die : Nat)
  /-- INVALIDATE_PAGE (R304). Invalidation register kind 0 removes one page's translations on all dies. -/
  | invalidatePage (die : Nat) (asid : BitVec 16) (va : BitVec 64)
  /-- INVALIDATE_ASID (R304). Invalidation register kind 1 removes one ASID's translations on all dies. -/
  | invalidateAsid (die : Nat) (asid : BitVec 16)
  /-- INVALIDATE_ALL (R304). Invalidation register kind 2 removes all translations on all dies. -/
  | invalidateAll (die : Nat)
  /-- INVALIDATION_DONE (R304). An invalidation completes once affected accesses and holds are released, setting DONE. -/
  | invalidationDone (die : Nat)
  /-- DATA_RATE_CHANGE (R297). An HBM data-rate change with retraining proceeds, deferred behind saves with a deadline. -/
  | dataRateChange (stack : Nat)
  /-- HUB_REGISTER_WRITE (R245). Writes to hub control-space registers that have no row of their own; the Protas kernel's reads of
  the space come as this event too. -/
  | hubRegisterWrite (off : Nat) (acc : HubAccess)
  /-- ILLEGAL_INSTRUCTION (R83). A fetched word that decodes to no instruction, such as MAJ 0x00, a free major or an unlisted code, raises the illegal-instruction trap with no effect. -/
  | illegalInstruction (w : BitVec 32)
  /-- FETCH_FAULT (R68). A unit issues at an address without execute permission, unmapped, or with an uncorrectable I-cache error, and the fetch fault is taken there. -/
  | fetchFault (va : BitVec 64)
  /-- DIE_FENCE (R163). The Protas kernel fences a compute die or the hub: its tasks end with status 0x03, conversions move, pending pushes drop and the root's collectives become LOST. -/
  | dieFence (die : Nat)
  /-- CLUSTER_RETURN_TO_SERVICE (R212). A reset cluster, its failing banks repaired, returns to service, and accesses to its slice
  stop raising the access fault. -/
  | clusterReturnToService (what : ServicedCluster)
  /-- FABRIC_PEER_REQUEST (R244). A load, store or AMO from a fabric peer arrives through a fabric port and is performed at this device's home. -/
  | fabricPeerRequest (req : PeerRequest)
  /-- HMLOAD_COMPLETE (R222). New microwords reach the named pseudo-channels between commands, and the HMLOAD completes. -/
  | hmloadComplete (n : Nat)
  /-- WARM_RESET (R319). A warm reset, which the black-box rings survive. -/
  | warmReset
  /-- CORRECTED_ERROR (R319). A storage error that is corrected is logged in the black box with CODE 0x01. -/
  | correctedError (die : Nat) (src : BitVec 16) (pa : Nat)
deriving DecidableEq, Repr

end Sys2Proof
end

