-- ==== Sys2Proof/WellFormed.lean ====
section
/-!
DEFINITION. The reasons a word is no instruction (`Reject`, R83), and the limits of the fields of a word
(`checkWf`): R72, R83 and the limits of Tables 3.3 to 3.9.
-/

namespace Sys2Proof

/-- Why a word, or a unit of two words, is no instruction. A hart takes the illegal-instruction trap for every one of
these (R83). -/
inductive Reject where
  /-- MAJ 0x00 (R83). -/
  | majorZero
  /-- A free major (R79, R83). -/
  | freeMajor
  /-- A code value that Tables 3.7 to 3.9 do not list (R80 to R82). -/
  | unlistedCode
  /-- A reserved field that is not zero (R10, R83). -/
  | reservedField
  /-- MERGE.V with M = 0 (R83). -/
  | maskRequired
  /-- A sub-kind of a prefix from 2 to 15 (R73). -/
  | prefixKind
  /-- A shift immediate above 63 (Table 3.7). -/
  | shiftAmount
  /-- A mask field above 7 (R72). -/
  | maskRegister
  /-- WORDS out of range (R39, R41). -/
  | loopWords
  /-- LEVEL above 5 (R36, R39, R41). -/
  | loopLevel
  /-- A run of registers past register 127 (R72, R39). -/
  | registerRun
  /-- A format code from 10 upwards (R52, Table 3.8). -/
  | formatCode
  /-- A rounding code of 5, 6 or 7 in SETVT, of 5 or 6 in PFX.V (R52, Table 3.3). -/
  | roundingCode
  /-- LD with SZ = 3 and Z = 1 (Table 3.7). -/
  | accessSize
  /-- A scope code from 5 to 7 (R70, Table 3.5, Table 3.7). -/
  | scopeCode
  /-- PREF with A above 1 (Table 3.7). -/
  | prefetchHint
  /-- STRM on x0 or on a vector register below v8 (R198). -/
  | streamRegister
  /-- A function code that FSPEC.V or FSGN.V does not list (Table 3.8). -/
  | functionCode
  /-- PUSH.V with a code below 8, SETE.V with a vd below 8 (R83). -/
  | windowRegister
  /-- A handle field above 15 (R72). -/
  | handleRegister
  /-- A tile field above 7 (R72). -/
  | tileRegister
  /-- An accumulator field above 3 (R72). -/
  | accumulatorRegister
  /-- A layout tag above 6 (Table 3.9). -/
  | layoutTag
  /-- A Filigree slot field above 3 (R72). -/
  | filigreeSlot
  /-- D ≠ 0 with DV = 0 (R75). -/
  | prefixD
  /-- MZ or TZ set with OVR = 0 (R75). -/
  | prefixPolicy
  /-- POSTED with an acquiring order (R76). -/
  | prefixPosted
  /-- A prefix before a major that takes none (R77). -/
  | placement
  /-- A non-default prefix field that the instruction does not accept (R75, R76). -/
  | prefixField
  /-- An instruction that requires D stands without one (R75). -/
  | dRequired
deriving DecidableEq, Repr

/-- A limit on a word's fields. -/
def limit (ok : Bool) (r : Reject) : Except Reject Unit :=
  if ok then .ok () else .error r

/-- Both of two limits, the first failing one named. -/
def both (a b : Except Reject Unit) : Except Reject Unit :=
  match a with
  | .error r => .error r
  | .ok _ => b

/-- The limits of an instruction's fields (R72, R83). An engine's or the host's event has no word and no limit. -/
def checkWf (i : Instr) : Except Reject Unit :=
  match i with
  | .add _ _ _ => .ok ()
  | .sub _ _ _ => .ok ()
  | .and _ _ _ => .ok ()
  | .or _ _ _ => .ok ()
  | .xor _ _ _ => .ok ()
  | .shl _ _ _ => .ok ()
  | .shr _ _ _ => .ok ()
  | .sra _ _ _ => .ok ()
  | .slt _ _ _ => .ok ()
  | .sltu _ _ _ => .ok ()
  | .min _ _ _ => .ok ()
  | .max _ _ _ => .ok ()
  | .minu _ _ _ => .ok ()
  | .maxu _ _ _ => .ok ()
  | .adds _ _ _ => .ok ()
  | .mul _ _ _ => .ok ()
  | .mulh _ _ _ => .ok ()
  | .mulhu _ _ _ => .ok ()
  | .div _ _ _ => .ok ()
  | .divu _ _ _ => .ok ()
  | .rem _ _ _ => .ok ()
  | .remu _ _ _ => .ok ()
  | .clz _ _ => .ok ()
  | .popc _ _ => .ok ()
  | .addI _ _ _ => .ok ()
  | .andI _ _ _ => .ok ()
  | .orI _ _ _ => .ok ()
  | .xorI _ _ _ => .ok ()
  | .shlI i _ _ => limit (decide (i.toNat ≤ 63)) .shiftAmount
  | .shrI i _ _ => limit (decide (i.toNat ≤ 63)) .shiftAmount
  | .sraI i _ _ => limit (decide (i.toNat ≤ 63)) .shiftAmount
  | .sltI _ _ _ => .ok ()
  | .lim _ _ => .ok ()
  | .lih _ _ => .ok ()
  | .addpc _ _ => .ok ()
  | .bset _ => .ok ()
  | .j _ _ => .ok ()
  | .jr _ _ _ => .ok ()
  | .beq _ _ _ => .ok ()
  | .bne _ _ _ => .ok ()
  | .blt _ _ _ => .ok ()
  | .bge _ _ _ => .ok ()
  | .bltu _ _ _ => .ok ()
  | .bgeu _ _ _ => .ok ()
  | .bmz _ k => limit (decide (k.toNat ≤ 7)) .maskRegister
  | .bmnz _ k => limit (decide (k.toNat ≤ 7)) .maskRegister
  | .loop w l b _ => both (limit (decide (1 ≤ w.toNat ∧ w.toNat ≤ 64)) .loopWords) (both (limit (decide (l.toNat ≤ 5)) .loopLevel) (limit (decide (b.toNat ≠ 127)) .registerRun))
  | .once w _ l => both (limit (decide (1 ≤ w.toNat)) .loopWords) (limit (decide (l.toNat ≤ 5)) .loopLevel)
  | .strip _ _ _ _ => .ok ()
  | .setvt i => both (limit (decide ((i.extractLsb' 0 4).toNat ≤ 9)) .formatCode) (limit (decide ((i.extractLsb' 4 3).toNat ≤ 4)) .roundingCode)
  | .wid l _ => limit (decide (l.toNat ≤ 5)) .loopLevel
  | .winb _ => .ok ()
  | .ld _ z s _ _ => limit (decide (¬ (z = 1 ∧ s = 3))) .accessSize
  | .st _ _ _ _ => .ok ()
  | .ldaq _ s _ _ _ => limit (decide (s.toNat ≤ 4)) .scopeCode
  | .strl _ s _ _ _ => limit (decide (s.toNat ≤ 4)) .scopeCode
  | .amoSwapW _ _ _ => .ok ()
  | .amoAddW _ _ _ => .ok ()
  | .amoAndW _ _ _ => .ok ()
  | .amoOrW _ _ _ => .ok ()
  | .amoXorW _ _ _ => .ok ()
  | .amoMinW _ _ _ => .ok ()
  | .amoMaxW _ _ _ => .ok ()
  | .amoMinuW _ _ _ => .ok ()
  | .amoMaxuW _ _ _ => .ok ()
  | .amoFaddW _ _ _ => .ok ()
  | .amoFmaxW _ _ _ => .ok ()
  | .amoFminW _ _ _ => .ok ()
  | .amoCasW c _ _ => limit (decide (c.toNat ≤ 126)) .registerRun
  | .amoSwapD _ _ _ => .ok ()
  | .amoAddD _ _ _ => .ok ()
  | .amoAndD _ _ _ => .ok ()
  | .amoOrD _ _ _ => .ok ()
  | .amoXorD _ _ _ => .ok ()
  | .amoMinD _ _ _ => .ok ()
  | .amoMaxD _ _ _ => .ok ()
  | .amoMinuD _ _ _ => .ok ()
  | .amoMaxuD _ _ _ => .ok ()
  | .amoFaddD _ _ _ => .ok ()
  | .amoFmaxD _ _ _ => .ok ()
  | .amoFminD _ _ _ => .ok ()
  | .amoCasD c _ _ => limit (decide (c.toNat ≤ 126)) .registerRun
  | .fenceAr s => limit (decide (s.toNat ≤ 4)) .scopeCode
  | .fenceAcq s => limit (decide (s.toNat ≤ 4)) .scopeCode
  | .fenceRel s => limit (decide (s.toNat ≤ 4)) .scopeCode
  | .fenceFetch s => limit (decide (s.toNat ≤ 4)) .scopeCode
  | .pref _ _ _ h => limit (decide (h.toNat ≤ 1)) .prefetchHint
  | .fadd _ _ _ => .ok ()
  | .fsub _ _ _ => .ok ()
  | .fmul _ _ _ => .ok ()
  | .fdiv _ _ _ => .ok ()
  | .fsqrt _ _ => .ok ()
  | .fmin _ _ _ => .ok ()
  | .fmax _ _ _ => .ok ()
  | .fmac _ _ _ => .ok ()
  | .feq _ _ _ => .ok ()
  | .flt _ _ _ => .ok ()
  | .fle _ _ _ => .ok ()
  | .fcvtfi _ _ => .ok ()
  | .fcvtif _ _ => .ok ()
  | .trap _ => .ok ()
  | .eret => .ok ()
  | .mfs _ _ => .ok ()
  | .mts _ _ => .ok ()
  | .drain _ _ _ _ _ _ => .ok ()
  | .chkerr => .ok ()
  | .finish => .ok ()
  | .yield => .ok ()
  | .launch _ _ => .ok ()
  | .waitt _ _ => .ok ()
  | .barinit _ _ _ => .ok ()
  | .barexp _ _ _ => .ok ()
  | .bararr _ _ => .ok ()
  | .barwait _ _ => .ok ()
  | .bartest _ _ _ => .ok ()
  | .barwaitReturn => .ok ()
  | .cpyBar a => limit (decide (a.toNat ≤ 124)) .registerRun
  | .cpyDep a => limit (decide (a.toNat ≤ 124)) .registerRun
  | .cpy a => limit (decide (a.toNat ≤ 124)) .registerRun
  | .copyComplete _ => .ok ()
  | .strm _ a => limit (decide (a.toNat ≠ 0)) .streamRegister
  | .strmO _ a => limit (decide (a.toNat ≠ 0)) .streamRegister
  | .strmV _ a => limit (decide (8 ≤ a.toNat)) .streamRegister
  | .strmVo _ a => limit (decide (8 ≤ a.toNat)) .streamRegister
  | .strmOff a => limit (decide (a.toNat ≠ 0)) .streamRegister
  | .strmVoff a => limit (decide (8 ≤ a.toNat)) .streamRegister
  | .streamRefill _ => .ok ()
  | .cbres _ _ _ => .ok ()
  | .cbcom _ _ => .ok ()
  | .cbacq _ _ _ => .ok ()
  | .cbrel _ _ => .ok ()
  | .cbWaitSatisfied => .ok ()
  | .credFsum _ _ _ => .ok ()
  | .credFsums _ _ _ => .ok ()
  | .credFmax _ _ _ => .ok ()
  | .credFmaxn _ _ _ => .ok ()
  | .credFmin _ _ _ => .ok ()
  | .credIsum _ _ _ => .ok ()
  | .credImax _ _ _ => .ok ()
  | .credImin _ _ _ => .ok ()
  | .credContribution _ => .ok ()
  | .roundDeadline _ => .ok ()
  | .credAnswer _ => .ok ()
  | .hmload _ _ _ => .ok ()
  | .hmv _ _ => .ok ()
  | .hmwait => .ok ()
  | .channelRowProgram _ _ => .ok ()
  | .hmvBarrierUpdate _ => .ok ()
  | .endRow => .ok ()
  | .dot => .ok ()
  | .scale _ => .ok ()
  | .relu => .ok ()
  | .addc _ => .ok ()
  | .emit _ => .ok ()
  | .addV _ _ _ _ _ => .ok ()
  | .subV _ _ _ _ _ => .ok ()
  | .addsV _ _ _ _ _ => .ok ()
  | .andV _ _ _ _ _ => .ok ()
  | .orV _ _ _ _ _ => .ok ()
  | .xorV _ _ _ _ _ => .ok ()
  | .shlV _ _ _ _ _ => .ok ()
  | .shrV _ _ _ _ _ => .ok ()
  | .sraV _ _ _ _ _ => .ok ()
  | .minV _ _ _ _ _ => .ok ()
  | .maxV _ _ _ _ _ => .ok ()
  | .minuV _ _ _ _ _ => .ok ()
  | .maxuV _ _ _ _ _ => .ok ()
  | .mulV _ _ _ _ _ => .ok ()
  | .mulhV _ _ _ _ _ => .ok ()
  | .wmacV _ _ _ _ _ => .ok ()
  | .waddV _ _ _ _ _ => .ok ()
  | .popcV _ _ _ _ => .ok ()
  | .clzV _ _ _ _ => .ok ()
  | .msetx _ _ d => limit (decide (d.toNat ≤ 7)) .maskRegister
  | .iotaV _ _ _ => .ok ()
  | .addVx _ _ _ _ _ => .ok ()
  | .subVx _ _ _ _ _ => .ok ()
  | .addsVx _ _ _ _ _ => .ok ()
  | .andVx _ _ _ _ _ => .ok ()
  | .orVx _ _ _ _ _ => .ok ()
  | .xorVx _ _ _ _ _ => .ok ()
  | .shlVx _ _ _ _ _ => .ok ()
  | .shrVx _ _ _ _ _ => .ok ()
  | .sraVx _ _ _ _ _ => .ok ()
  | .minVx _ _ _ _ _ => .ok ()
  | .maxVx _ _ _ _ _ => .ok ()
  | .minuVx _ _ _ _ _ => .ok ()
  | .maxuVx _ _ _ _ _ => .ok ()
  | .mulVx _ _ _ _ _ => .ok ()
  | .mulhVx _ _ _ _ _ => .ok ()
  | .wmacVx _ _ _ _ _ => .ok ()
  | .waddVx _ _ _ _ _ => .ok ()
  | .popcVx _ _ _ _ _ => .ok ()
  | .clzVx _ _ _ _ _ => .ok ()
  | .faddV _ _ _ _ _ => .ok ()
  | .fsubV _ _ _ _ _ => .ok ()
  | .fmulV _ _ _ _ _ => .ok ()
  | .fmaV _ _ _ _ _ => .ok ()
  | .fdivV _ _ _ _ _ => .ok ()
  | .fsqrtV _ _ _ _ => .ok ()
  | .fminV _ _ _ _ _ => .ok ()
  | .fmaxV _ _ _ _ _ => .ok ()
  | .fspecV _ _ f _ _ => limit (decide (f.toNat ≤ 6)) .functionCode
  | .fsgnV _ _ f _ _ => limit (decide (f.toNat ≤ 1)) .functionCode
  | .cmpVEq _ _ _ d => limit (decide (d.toNat ≤ 7)) .maskRegister
  | .cmpVNe _ _ _ d => limit (decide (d.toNat ≤ 7)) .maskRegister
  | .cmpVLt _ _ _ d => limit (decide (d.toNat ≤ 7)) .maskRegister
  | .cmpVLe _ _ _ d => limit (decide (d.toNat ≤ 7)) .maskRegister
  | .cmpVGt _ _ _ d => limit (decide (d.toNat ≤ 7)) .maskRegister
  | .cmpVGe _ _ _ d => limit (decide (d.toNat ≤ 7)) .maskRegister
  | .cmpVLtu _ _ _ d => limit (decide (d.toNat ≤ 7)) .maskRegister
  | .cmpVLeu _ _ _ d => limit (decide (d.toNat ≤ 7)) .maskRegister
  | .cvtV _ _ f _ _ => limit (decide (f.toNat ≤ 9)) .formatCode
  | .scaccV _ _ _ _ _ => .ok ()
  | .rsumV _ _ _ _ => .ok ()
  | .rusumV _ _ _ _ => .ok ()
  | .rmaxV _ _ _ _ => .ok ()
  | .rminV _ _ _ _ => .ok ()
  | .rmaxxV _ _ _ d => limit (decide (d.toNat ≤ 126)) .registerRun
  | .rminxV _ _ _ d => limit (decide (d.toNat ≤ 126)) .registerRun
  | .scanV _ _ _ _ => .ok ()
  | .scanfV _ _ _ _ => .ok ()
  | .slideV _ _ _ _ _ => .ok ()
  | .permV _ _ _ _ _ => .ok ()
  | .bcastV _ _ _ _ => .ok ()
  | .mergeV _ _ _ _ => .ok ()
  | .extrV _ _ _ _ => .ok ()
  | .insV _ _ _ _ => .ok ()
  | .mvV _ _ _ _ => .ok ()
  | .seteV d => limit (decide (8 ≤ d.toNat)) .windowRegister
  | .mand _ _ s t d => limit (decide (s.toNat ≤ 7 ∧ t.toNat ≤ 7 ∧ d.toNat ≤ 7)) .maskRegister
  | .mor _ _ s t d => limit (decide (s.toNat ≤ 7 ∧ t.toNat ≤ 7 ∧ d.toNat ≤ 7)) .maskRegister
  | .mxor _ _ s t d => limit (decide (s.toNat ≤ 7 ∧ t.toNat ≤ 7 ∧ d.toNat ≤ 7)) .maskRegister
  | .mnot _ _ t d => limit (decide (t.toNat ≤ 7 ∧ d.toNat ≤ 7)) .maskRegister
  | .mpopc _ _ t _ => limit (decide (t.toNat ≤ 7)) .maskRegister
  | .mfirst _ _ t _ => limit (decide (t.toNat ≤ 7)) .maskRegister
  | .cmprsV _ _ t _ => limit (decide (t.toNat ≤ 7)) .maskRegister
  | .cappV _ _ _ t => limit (decide (t.toNat ≤ 7)) .maskRegister
  | .cappWaitSatisfied => .ok ()
  | .ldV _ _ _ _ _ => .ok ()
  | .stV _ _ _ _ _ => .ok ()
  | .gathV _ _ _ _ _ => .ok ()
  | .scatV _ _ _ _ _ => .ok ()
  | .scataddV _ _ _ _ _ => .ok ()
  | .bgathV _ _ _ _ d => limit (decide (d.toNat ≤ 126)) .registerRun
  | .pushV s _ _ => limit (decide (8 ≤ s.toNat)) .windowRegister
  | .pushDelivery _ => .ok ()
  | .registerFullWake => .ok ()
  | .tldV _ _ s t _ => both (limit (decide (t.toNat ≤ 15)) .handleRegister) (limit (decide (s.toNat ≤ 124)) .registerRun)
  | .tstV _ _ s t _ => both (limit (decide (t.toNat ≤ 15)) .handleRegister) (limit (decide (s.toNat ≤ 124)) .registerRun)
  | .qgenVFrac _ _ _ _ _ => .ok ()
  | .qgenVFp32 _ _ _ _ _ => .ok ()
  | .stPI16 _ _ => .ok ()
  | .stPI32 _ _ => .ok ()
  | .addPI16 _ _ => .ok ()
  | .subPI16 _ _ => .ok ()
  | .andPI16 _ _ => .ok ()
  | .orPI16 _ _ => .ok ()
  | .xorPI16 _ _ => .ok ()
  | .maxPI16 _ _ => .ok ()
  | .minPI16 _ _ => .ok ()
  | .addPlI16 _ _ => .ok ()
  | .subPlI16 _ _ => .ok ()
  | .andPlI16 _ _ => .ok ()
  | .orPlI16 _ _ => .ok ()
  | .xorPlI16 _ _ => .ok ()
  | .maxPlI16 _ _ => .ok ()
  | .minPlI16 _ _ => .ok ()
  | .addPI32 _ _ => .ok ()
  | .subPI32 _ _ => .ok ()
  | .andPI32 _ _ => .ok ()
  | .orPI32 _ _ => .ok ()
  | .xorPI32 _ _ => .ok ()
  | .maxPI32 _ _ => .ok ()
  | .minPI32 _ _ => .ok ()
  | .addPlI32 _ _ => .ok ()
  | .subPlI32 _ _ => .ok ()
  | .andPlI32 _ _ => .ok ()
  | .orPlI32 _ _ => .ok ()
  | .xorPlI32 _ _ => .ok ()
  | .maxPlI32 _ _ => .ok ()
  | .minPlI32 _ _ => .ok ()
  | .addPF32 _ _ => .ok ()
  | .subPF32 _ _ => .ok ()
  | .maxPF32 _ _ => .ok ()
  | .minPF32 _ _ => .ok ()
  | .addPlF32 _ _ => .ok ()
  | .subPlF32 _ _ => .ok ()
  | .maxPlF32 _ _ => .ok ()
  | .minPlF32 _ _ => .ok ()
  | .ldPI16Sum _ _ => .ok ()
  | .ldPI16Max _ _ => .ok ()
  | .ldPI16Min _ _ => .ok ()
  | .ldPI16Maxu _ _ => .ok ()
  | .ldPI16Minu _ _ => .ok ()
  | .ldPI16And _ _ => .ok ()
  | .ldPI16Or _ _ => .ok ()
  | .ldPI16Xor _ _ => .ok ()
  | .ldPI32Sum _ _ => .ok ()
  | .ldPI32Max _ _ => .ok ()
  | .ldPI32Min _ _ => .ok ()
  | .ldPI32Maxu _ _ => .ok ()
  | .ldPI32Minu _ _ => .ok ()
  | .ldPI32And _ _ => .ok ()
  | .ldPI32Or _ _ => .ok ()
  | .ldPI32Xor _ _ => .ok ()
  | .ldPF32Fsum _ _ => .ok ()
  | .ldPF32Fmax _ _ => .ok ()
  | .ldPF32Fmin _ _ => .ok ()
  | .stPvI16 _ _ => .ok ()
  | .stPvI32 _ _ => .ok ()
  | .tshapeBf16 _ _ => .ok ()
  | .tshapeInt8 _ _ => .ok ()
  | .tshapeBx7 _ _ => .ok ()
  | .tshapeBx4 _ _ => .ok ()
  | .tshapeBx2 _ _ => .ok ()
  | .mld _ _ _ _ _ a => limit (decide (a.toNat ≤ 7)) .tileRegister
  | .mldx _ b a => both (limit (decide (a.toNat ≤ 7)) .tileRegister) (limit (decide (b.toNat ≤ 126)) .registerRun)
  | .mmaBf16 _ c b a => both (limit (decide (a.toNat ≤ 3)) .accumulatorRegister) (limit (decide (b.toNat ≤ 7 ∧ c.toNat ≤ 7)) .tileRegister)
  | .mmaInt8 _ c b a => both (limit (decide (a.toNat ≤ 3)) .accumulatorRegister) (limit (decide (b.toNat ≤ 7 ∧ c.toNat ≤ 7)) .tileRegister)
  | .mmaBx7 _ c b a => both (limit (decide (a.toNat ≤ 3)) .accumulatorRegister) (limit (decide (b.toNat ≤ 7 ∧ c.toNat ≤ 7)) .tileRegister)
  | .mmaBx4 _ c b a => both (limit (decide (a.toNat ≤ 3)) .accumulatorRegister) (limit (decide (b.toNat ≤ 7 ∧ c.toNat ≤ 7)) .tileRegister)
  | .mmaBx2 _ c b a => both (limit (decide (a.toNat ≤ 3)) .accumulatorRegister) (limit (decide (b.toNat ≤ 7 ∧ c.toNat ≤ 7)) .tileRegister)
  | .scaccM _ _ a => limit (decide (a.toNat ≤ 3)) .accumulatorRegister
  | .mstFp32 _ _ a => limit (decide (a.toNat ≤ 3)) .accumulatorRegister
  | .mstBf16 _ _ a => limit (decide (a.toNat ≤ 3)) .accumulatorRegister
  | .mstInt32 _ _ a => limit (decide (a.toNat ≤ 3)) .accumulatorRegister
  | .mdrain b _ => limit (decide (b.toNat ≤ 3)) .accumulatorRegister
  | .mzero a => limit (decide (a.toNat ≤ 3)) .accumulatorRegister
  | .mwait => .ok ()
  | .mwaitall => .ok ()
  | .thld _ a => limit (decide (a.toNat ≤ 15)) .handleRegister
  | .retag f _ a => both (limit (decide (a.toNat ≤ 15)) .handleRegister) (limit (decide (f.toNat ≤ 6)) .layoutTag)
  | .twait _ a => limit (decide (a.toNat ≤ 15)) .handleRegister
  | .qload _ a => limit (decide (a.toNat ≤ 3)) .filigreeSlot
  | .pfxV o z t v d r _ => both (limit (decide (r.toNat ≠ 5 ∧ r.toNat ≠ 6)) .roundingCode) (both (limit (decide (v = 1 ∨ d = 0)) .prefixD) (limit (decide (o = 1 ∨ z = 0 ∧ t = 0)) .prefixPolicy))
  | .pfxO p o s => both (limit (decide (s.toNat ≤ 4)) .scopeCode) (limit (decide (p = 0 ∨ o = 0 ∨ o = 2)) .prefixPosted)
  | .burnishTile _ => .ok ()
  | .conversionRestart _ _ => .ok ()
  | .twaitReturn => .ok ()
  | .depwWaitSatisfied => .ok ()
  | .drainReturn => .ok ()
  | .matrixQueueComplete => .ok ()
  | .reductionMerge _ _ => .ok ()
  | .reductionPacketApply _ => .ok ()
  | .flitReplay _ => .ok ()
  | .linkRetrain _ _ => .ok ()
  | .linkFence _ => .ok ()
  | .clusterReset _ => .ok ()
  | .golrokRead _ _ _ _ => .ok ()
  | .golrokTableWrite _ _ _ => .ok ()
  | .preemption _ => .ok ()
  | .preemptDeadline _ => .ok ()
  | .watchdog => .ok ()
  | .ringEntryTake _ => .ok ()
  | .overflowMove _ => .ok ()
  | .taskStart => .ok ()
  | .slotFill _ => .ok ()
  | .hartSlotReturn _ => .ok ()
  | .taskComplete _ => .ok ()
  | .waittReturn => .ok ()
  | .stealRequest _ _ => .ok ()
  | .storageUncorrectable _ _ => .ok ()
  | .hartStateUncorrectable _ => .ok ()
  | .planishRecheck _ => .ok ()
  | .touchmarkCompare _ => .ok ()
  | .doorbellWrite _ _ => .ok ()
  | .summary _ => .ok ()
  | .attest _ => .ok ()
  | .sload _ => .ok ()
  | .ssave _ => .ok ()
  | .power _ => .ok ()
  | .fwload _ _ => .ok ()
  | .mailboxDone => .ok ()
  | .bar2Access _ => .ok ()
  | .bootRom => .ok ()
  | .firmwareBringup _ => .ok ()
  | .powerThrottle _ => .ok ()
  | .thermalThrottle _ => .ok ()
  | .thermalShutdown _ => .ok ()
  | .invalidatePage _ _ _ => .ok ()
  | .invalidateAsid _ _ => .ok ()
  | .invalidateAll _ => .ok ()
  | .invalidationDone _ => .ok ()
  | .dataRateChange _ => .ok ()
  | .hubRegisterWrite _ _ => .ok ()
  | .illegalInstruction _ => .ok ()
  | .fetchFault _ => .ok ()
  | .dieFence _ => .ok ()
  | .clusterReturnToService _ => .ok ()
  | .fabricPeerRequest _ => .ok ()
  | .hmloadComplete _ => .ok ()
  | .warmReset => .ok ()
  | .correctedError _ _ _ => .ok ()

/-- The fields of the instruction lie within their limits. -/
def Instr.WellFormed (i : Instr) : Prop := checkWf i = .ok ()

end Sys2Proof
end

