-- ==== Sys2Proof/Decode.lean ====
section
/-!
DEFINITION. Decoding (R68 to R85): the fields of a word, the instruction a word holds (`decodeWord`, total, every refusal
named by a `Reject`), the stack-side microwords (`decodeMicro`), the pairing of a prefix with its word (`pairOk`), and after
them the encoder, written from the same forms.
-/

namespace Sys2Proof

-- `Instr` has one constructor for each row of the opcode table, more than Lean's code generator can tag; the kernel has
-- no such limit. The functions that build an `Instr` are therefore marked as carrying no compiled code.
noncomputable section

/-! ### The fields of a word (Tables 3.1 to 3.5) -/

/-- The major opcode MAJ [6:0] (R69). -/
def fldMaj (w : Word) : BitVec 7 := w.extractLsb' 0 7

/-- Bits [31:28] of a word. -/
def fldF (w : Word) : BitVec 4 := w.extractLsb' 28 4

/-- Bits [27:21] of a word. -/
def fldC (w : Word) : BitVec 7 := w.extractLsb' 21 7

/-- Bits [20:14] of a word. -/
def fldB (w : Word) : BitVec 7 := w.extractLsb' 14 7

/-- Bits [13:7] of a word. -/
def fldA (w : Word) : BitVec 7 := w.extractLsb' 7 7

/-- Bits [31:21] of a word. -/
def fldImm11 (w : Word) : BitVec 11 := w.extractLsb' 21 11

/-- Bits [31:14] of a word. -/
def fldImm18 (w : Word) : BitVec 18 := w.extractLsb' 14 18

/-- Bits [31:24] of a word. -/
def fldOff8 (w : Word) : BitVec 8 := w.extractLsb' 24 8

/-- Bits [23:23] of a word. -/
def fldZ (w : Word) : BitVec 1 := w.extractLsb' 23 1

/-- Bits [22:21] of a word. -/
def fldSz (w : Word) : BitVec 2 := w.extractLsb' 21 2

/-- Bits [31:26] of a word. -/
def fldOff6 (w : Word) : BitVec 6 := w.extractLsb' 26 6

/-- Bits [25:23] of a word. -/
def fldScope (w : Word) : BitVec 3 := w.extractLsb' 23 3

/-- Bits [31:30] of a word. -/
def fldF2 (w : Word) : BitVec 2 := w.extractLsb' 30 2

/-- Bits [29:29] of a word. -/
def fldP (w : Word) : BitVec 1 := w.extractLsb' 29 1

/-- Bits [28:28] of a word. -/
def fldM (w : Word) : BitVec 1 := w.extractLsb' 28 1

/-- Bits [31:29] of a word. -/
def fldCond (w : Word) : BitVec 3 := w.extractLsb' 29 3

/-- Bits [31:31] of a word. -/
def fldTop (w : Word) : BitVec 1 := w.extractLsb' 31 1

/-- Bits [30:24] of a word. -/
def fldWords7 (w : Word) : BitVec 7 := w.extractLsb' 24 7

/-- Bits [23:21] of a word. -/
def fldLevel (w : Word) : BitVec 3 := w.extractLsb' 21 3

/-- Bits [30:25] of a word. -/
def fldWords6 (w : Word) : BitVec 6 := w.extractLsb' 25 6

/-- Bits [24:24] of a word. -/
def fldLast (w : Word) : BitVec 1 := w.extractLsb' 24 1

/-- Bits [20:7] of a word. -/
def fldBA (w : Word) : BitVec 14 := w.extractLsb' 7 14

/-- Bits [25:24] of a word. -/
def fldKind2 (w : Word) : BitVec 2 := w.extractLsb' 24 2

/-- Bits [31:23] of a word. -/
def fldTop9 (w : Word) : BitVec 9 := w.extractLsb' 23 9

/-- Bits [22:14] of a word. -/
def fldImm9 (w : Word) : BitVec 9 := w.extractLsb' 14 9

/-- Bits [31:27] of a word. -/
def fldTop5 (w : Word) : BitVec 5 := w.extractLsb' 27 5

/-- Bits [26:26] of a word. -/
def fldNet (w : Word) : BitVec 1 := w.extractLsb' 26 1

/-- Bits [25:25] of a word. -/
def fldPush (w : Word) : BitVec 1 := w.extractLsb' 25 1

/-- Bits [24:24] of a word. -/
def fldCopy (w : Word) : BitVec 1 := w.extractLsb' 24 1

/-- Bits [23:23] of a word. -/
def fldMem (w : Word) : BitVec 1 := w.extractLsb' 23 1

/-- Bits [22:22] of a word. -/
def fldMat (w : Word) : BitVec 1 := w.extractLsb' 22 1

/-- Bits [21:21] of a word. -/
def fldVec (w : Word) : BitVec 1 := w.extractLsb' 21 1

/-- Bits [30:30] of a word. -/
def fldBc (w : Word) : BitVec 1 := w.extractLsb' 30 1

/-- Bits [29:29] of a word. -/
def fldTr (w : Word) : BitVec 1 := w.extractLsb' 29 1

/-- Bits [28:28] of a word. -/
def fldRb (w : Word) : BitVec 1 := w.extractLsb' 28 1

/-- Bits [30:28] of a word. -/
def fldFmt3 (w : Word) : BitVec 3 := w.extractLsb' 28 3

/-- Bits [31:7] of a word. -/
def fldRest (w : Word) : BitVec 25 := w.extractLsb' 7 25

/-- Bits [27:24] of a word. -/
def fldGap4 (w : Word) : BitVec 4 := w.extractLsb' 24 4

/-- Bits [23:23] of a word. -/
def fldOvr (w : Word) : BitVec 1 := w.extractLsb' 23 1

/-- Bits [22:22] of a word. -/
def fldMz (w : Word) : BitVec 1 := w.extractLsb' 22 1

/-- Bits [21:21] of a word. -/
def fldTz (w : Word) : BitVec 1 := w.extractLsb' 21 1

/-- Bits [20:20] of a word. -/
def fldDv (w : Word) : BitVec 1 := w.extractLsb' 20 1

/-- Bits [19:13] of a word. -/
def fldD (w : Word) : BitVec 7 := w.extractLsb' 13 7

/-- Bits [12:10] of a word. -/
def fldRm (w : Word) : BitVec 3 := w.extractLsb' 10 3

/-- Bits [9:7] of a word. -/
def fldMask (w : Word) : BitVec 3 := w.extractLsb' 7 3

/-- Bits [27:13] of a word. -/
def fldGap15 (w : Word) : BitVec 15 := w.extractLsb' 13 15

/-- Bits [12:12] of a word. -/
def fldPosted (w : Word) : BitVec 1 := w.extractLsb' 12 1

/-- Bits [11:10] of a word. -/
def fldOrder (w : Word) : BitVec 2 := w.extractLsb' 10 2

/-- A field marked "—" must be zero (R10, R83). -/
def reserved {n : Nat} (f : BitVec n) (i : Except Reject Instr) : Except Reject Instr :=
  if f = 0 then i else .error .reservedField

/-! ### One function for each major opcode (Tables 3.7 to 3.9) -/

/-- MAJ 0x01: ADD, SUB, AND and the rest of its codes (Table 3.1). -/
def decodeMaj01 (w : Word) : Except Reject Instr :=
  match (fldF w).toNat with
  | 0 => .ok (.add (fldC w) (fldB w) (fldA w))
  | 1 => .ok (.sub (fldC w) (fldB w) (fldA w))
  | 2 => .ok (.and (fldC w) (fldB w) (fldA w))
  | 3 => .ok (.or (fldC w) (fldB w) (fldA w))
  | 4 => .ok (.xor (fldC w) (fldB w) (fldA w))
  | 5 => .ok (.shl (fldC w) (fldB w) (fldA w))
  | 6 => .ok (.shr (fldC w) (fldB w) (fldA w))
  | 7 => .ok (.sra (fldC w) (fldB w) (fldA w))
  | 8 => .ok (.slt (fldC w) (fldB w) (fldA w))
  | 9 => .ok (.sltu (fldC w) (fldB w) (fldA w))
  | 10 => .ok (.min (fldC w) (fldB w) (fldA w))
  | 11 => .ok (.max (fldC w) (fldB w) (fldA w))
  | 12 => .ok (.minu (fldC w) (fldB w) (fldA w))
  | 13 => .ok (.maxu (fldC w) (fldB w) (fldA w))
  | 14 => .ok (.adds (fldC w) (fldB w) (fldA w))
  | _ => .error .unlistedCode

/-- MAJ 0x02: MUL, MULH, MULHU and the rest of its codes (Table 3.1). -/
def decodeMaj02 (w : Word) : Except Reject Instr :=
  match (fldF w).toNat with
  | 0 => .ok (.mul (fldC w) (fldB w) (fldA w))
  | 1 => .ok (.mulh (fldC w) (fldB w) (fldA w))
  | 2 => .ok (.mulhu (fldC w) (fldB w) (fldA w))
  | 3 => .ok (.div (fldC w) (fldB w) (fldA w))
  | 4 => .ok (.divu (fldC w) (fldB w) (fldA w))
  | 5 => .ok (.rem (fldC w) (fldB w) (fldA w))
  | 6 => .ok (.remu (fldC w) (fldB w) (fldA w))
  | 7 => reserved (fldC w) (.ok (.clz (fldB w) (fldA w)))
  | 8 => reserved (fldC w) (.ok (.popc (fldB w) (fldA w)))
  | _ => .error .unlistedCode

/-- MAJ 0x03: ADD_I (Table 3.1). -/
def decodeMaj03 (w : Word) : Except Reject Instr :=
  .ok (.addI (fldImm11 w) (fldB w) (fldA w))

/-- MAJ 0x04: AND_I (Table 3.1). -/
def decodeMaj04 (w : Word) : Except Reject Instr :=
  .ok (.andI (fldImm11 w) (fldB w) (fldA w))

/-- MAJ 0x05: OR_I (Table 3.1). -/
def decodeMaj05 (w : Word) : Except Reject Instr :=
  .ok (.orI (fldImm11 w) (fldB w) (fldA w))

/-- MAJ 0x06: XOR_I (Table 3.1). -/
def decodeMaj06 (w : Word) : Except Reject Instr :=
  .ok (.xorI (fldImm11 w) (fldB w) (fldA w))

/-- MAJ 0x07: SHL_I (Table 3.1). -/
def decodeMaj07 (w : Word) : Except Reject Instr :=
  .ok (.shlI (fldImm11 w) (fldB w) (fldA w))

/-- MAJ 0x08: SHR_I (Table 3.1). -/
def decodeMaj08 (w : Word) : Except Reject Instr :=
  .ok (.shrI (fldImm11 w) (fldB w) (fldA w))

/-- MAJ 0x09: SRA_I (Table 3.1). -/
def decodeMaj09 (w : Word) : Except Reject Instr :=
  .ok (.sraI (fldImm11 w) (fldB w) (fldA w))

/-- MAJ 0x0A: SLT_I (Table 3.1). -/
def decodeMaj0A (w : Word) : Except Reject Instr :=
  .ok (.sltI (fldImm11 w) (fldB w) (fldA w))

/-- MAJ 0x0B: LIM (Table 3.1). -/
def decodeMaj0B (w : Word) : Except Reject Instr :=
  .ok (.lim (fldImm18 w) (fldA w))

/-- MAJ 0x0C: LIH (Table 3.1). -/
def decodeMaj0C (w : Word) : Except Reject Instr :=
  .ok (.lih (fldImm18 w) (fldA w))

/-- MAJ 0x0D: ADDPC (Table 3.1). -/
def decodeMaj0D (w : Word) : Except Reject Instr :=
  .ok (.addpc (fldImm18 w) (fldA w))

/-- MAJ 0x0E: BSET (Table 3.1). -/
def decodeMaj0E (w : Word) : Except Reject Instr :=
  match (fldF w).toNat with
  | 0 => reserved (fldC w) (reserved (fldA w) (.ok (.bset (fldB w))))
  | _ => .error .unlistedCode

/-- MAJ 0x10: J (Table 3.1). -/
def decodeMaj10 (w : Word) : Except Reject Instr :=
  .ok (.j (fldImm18 w) (fldA w))

/-- MAJ 0x11: JR (Table 3.1). -/
def decodeMaj11 (w : Word) : Except Reject Instr :=
  .ok (.jr (fldImm11 w) (fldB w) (fldA w))

/-- MAJ 0x12: BEQ (Table 3.1). -/
def decodeMaj12 (w : Word) : Except Reject Instr :=
  .ok (.beq (fldImm11 w) (fldB w) (fldA w))

/-- MAJ 0x13: BNE (Table 3.1). -/
def decodeMaj13 (w : Word) : Except Reject Instr :=
  .ok (.bne (fldImm11 w) (fldB w) (fldA w))

/-- MAJ 0x14: BLT (Table 3.1). -/
def decodeMaj14 (w : Word) : Except Reject Instr :=
  .ok (.blt (fldImm11 w) (fldB w) (fldA w))

/-- MAJ 0x15: BGE (Table 3.1). -/
def decodeMaj15 (w : Word) : Except Reject Instr :=
  .ok (.bge (fldImm11 w) (fldB w) (fldA w))

/-- MAJ 0x16: BLTU (Table 3.1). -/
def decodeMaj16 (w : Word) : Except Reject Instr :=
  .ok (.bltu (fldImm11 w) (fldB w) (fldA w))

/-- MAJ 0x17: BGEU (Table 3.1). -/
def decodeMaj17 (w : Word) : Except Reject Instr :=
  .ok (.bgeu (fldImm11 w) (fldB w) (fldA w))

/-- MAJ 0x18: BMZ (Table 3.1). -/
def decodeMaj18 (w : Word) : Except Reject Instr :=
  reserved (fldB w) (.ok (.bmz (fldImm11 w) (fldA w)))

/-- MAJ 0x19: BMNZ (Table 3.1). -/
def decodeMaj19 (w : Word) : Except Reject Instr :=
  reserved (fldB w) (.ok (.bmnz (fldImm11 w) (fldA w)))

/-- MAJ 0x1A: LOOP (Table 1.7). -/
def decodeMaj1A (w : Word) : Except Reject Instr :=
  reserved (fldTop w) (.ok (.loop (fldWords7 w) (fldLevel w) (fldB w) (fldA w)))

/-- MAJ 0x1B: ONCE (Table 1.8). -/
def decodeMaj1B (w : Word) : Except Reject Instr :=
  reserved (fldTop w) (reserved (fldBA w) (.ok (.once (fldWords6 w) (fldLast w) (fldLevel w))))

/-- MAJ 0x1C: STRIP (Table 3.1). -/
def decodeMaj1C (w : Word) : Except Reject Instr :=
  reserved (fldF2 w) (reserved (fldC w) (.ok (.strip (fldP w) (fldM w) (fldB w) (fldA w))))

/-- MAJ 0x1D: SETVT (R52). -/
def decodeMaj1D (w : Word) : Except Reject Instr :=
  reserved (fldTop9 w) (reserved (fldA w) (.ok (.setvt (fldImm9 w))))

/-- MAJ 0x1E: WID (Table 1.6). -/
def decodeMaj1E (w : Word) : Except Reject Instr :=
  reserved (fldOff8 w) (reserved (fldB w) (.ok (.wid (fldLevel w) (fldA w))))

/-- MAJ 0x1F: WINB (Table 3.1). -/
def decodeMaj1F (w : Word) : Except Reject Instr :=
  reserved (fldB w) (reserved (fldA w) (.ok (.winb (fldImm11 w))))

/-- MAJ 0x20: LD (Table 3.1). -/
def decodeMaj20 (w : Word) : Except Reject Instr :=
  .ok (.ld (fldOff8 w) (fldZ w) (fldSz w) (fldB w) (fldA w))

/-- MAJ 0x21: ST (Table 3.1). -/
def decodeMaj21 (w : Word) : Except Reject Instr :=
  reserved (fldZ w) (.ok (.st (fldOff8 w) (fldSz w) (fldB w) (fldA w)))

/-- MAJ 0x22: LDAQ (Table 3.2). -/
def decodeMaj22 (w : Word) : Except Reject Instr :=
  .ok (.ldaq (fldOff6 w) (fldScope w) (fldSz w) (fldB w) (fldA w))

/-- MAJ 0x23: STRL (Table 3.2). -/
def decodeMaj23 (w : Word) : Except Reject Instr :=
  .ok (.strl (fldOff6 w) (fldScope w) (fldSz w) (fldB w) (fldA w))

/-- MAJ 0x24: AMO_SWAP_W, AMO_ADD_W, AMO_AND_W and the rest of its codes (Table 3.1). -/
def decodeMaj24 (w : Word) : Except Reject Instr :=
  match (fldF w).toNat with
  | 0 => .ok (.amoSwapW (fldC w) (fldB w) (fldA w))
  | 1 => .ok (.amoAddW (fldC w) (fldB w) (fldA w))
  | 2 => .ok (.amoAndW (fldC w) (fldB w) (fldA w))
  | 3 => .ok (.amoOrW (fldC w) (fldB w) (fldA w))
  | 4 => .ok (.amoXorW (fldC w) (fldB w) (fldA w))
  | 5 => .ok (.amoMinW (fldC w) (fldB w) (fldA w))
  | 6 => .ok (.amoMaxW (fldC w) (fldB w) (fldA w))
  | 7 => .ok (.amoMinuW (fldC w) (fldB w) (fldA w))
  | 8 => .ok (.amoMaxuW (fldC w) (fldB w) (fldA w))
  | 9 => .ok (.amoFaddW (fldC w) (fldB w) (fldA w))
  | 10 => .ok (.amoFmaxW (fldC w) (fldB w) (fldA w))
  | 11 => .ok (.amoFminW (fldC w) (fldB w) (fldA w))
  | 12 => .ok (.amoCasW (fldC w) (fldB w) (fldA w))
  | _ => .error .unlistedCode

/-- MAJ 0x25: AMO_SWAP_D, AMO_ADD_D, AMO_AND_D and the rest of its codes (Table 3.1). -/
def decodeMaj25 (w : Word) : Except Reject Instr :=
  match (fldF w).toNat with
  | 0 => .ok (.amoSwapD (fldC w) (fldB w) (fldA w))
  | 1 => .ok (.amoAddD (fldC w) (fldB w) (fldA w))
  | 2 => .ok (.amoAndD (fldC w) (fldB w) (fldA w))
  | 3 => .ok (.amoOrD (fldC w) (fldB w) (fldA w))
  | 4 => .ok (.amoXorD (fldC w) (fldB w) (fldA w))
  | 5 => .ok (.amoMinD (fldC w) (fldB w) (fldA w))
  | 6 => .ok (.amoMaxD (fldC w) (fldB w) (fldA w))
  | 7 => .ok (.amoMinuD (fldC w) (fldB w) (fldA w))
  | 8 => .ok (.amoMaxuD (fldC w) (fldB w) (fldA w))
  | 9 => .ok (.amoFaddD (fldC w) (fldB w) (fldA w))
  | 10 => .ok (.amoFmaxD (fldC w) (fldB w) (fldA w))
  | 11 => .ok (.amoFminD (fldC w) (fldB w) (fldA w))
  | 12 => .ok (.amoCasD (fldC w) (fldB w) (fldA w))
  | _ => .error .unlistedCode

/-- MAJ 0x26: FENCE_AR, FENCE_ACQ, FENCE_REL and the rest of its codes (Table 3.7). -/
def decodeMaj26 (w : Word) : Except Reject Instr :=
  match (fldKind2 w).toNat with
  | 0 => reserved (fldOff6 w) (reserved (fldBA w) (.ok (.fenceAr (fldLevel w))))
  | 1 => reserved (fldOff6 w) (reserved (fldBA w) (.ok (.fenceAcq (fldLevel w))))
  | 2 => reserved (fldOff6 w) (reserved (fldBA w) (.ok (.fenceRel (fldLevel w))))
  | 3 => reserved (fldOff6 w) (reserved (fldBA w) (.ok (.fenceFetch (fldLevel w))))
  | _ => .error .unlistedCode

/-- MAJ 0x27: PREF (Table 3.1). -/
def decodeMaj27 (w : Word) : Except Reject Instr :=
  reserved (fldZ w) (.ok (.pref (fldOff8 w) (fldSz w) (fldB w) (fldA w)))

/-- MAJ 0x28: FADD, FSUB, FMUL and the rest of its codes (Table 3.1). -/
def decodeMaj28 (w : Word) : Except Reject Instr :=
  match (fldF w).toNat with
  | 0 => .ok (.fadd (fldC w) (fldB w) (fldA w))
  | 1 => .ok (.fsub (fldC w) (fldB w) (fldA w))
  | 2 => .ok (.fmul (fldC w) (fldB w) (fldA w))
  | 3 => .ok (.fdiv (fldC w) (fldB w) (fldA w))
  | 4 => reserved (fldC w) (.ok (.fsqrt (fldB w) (fldA w)))
  | 5 => .ok (.fmin (fldC w) (fldB w) (fldA w))
  | 6 => .ok (.fmax (fldC w) (fldB w) (fldA w))
  | 7 => .ok (.fmac (fldC w) (fldB w) (fldA w))
  | 8 => .ok (.feq (fldC w) (fldB w) (fldA w))
  | 9 => .ok (.flt (fldC w) (fldB w) (fldA w))
  | 10 => .ok (.fle (fldC w) (fldB w) (fldA w))
  | 11 => reserved (fldC w) (.ok (.fcvtfi (fldB w) (fldA w)))
  | 12 => reserved (fldC w) (.ok (.fcvtif (fldB w) (fldA w)))
  | _ => .error .unlistedCode

/-- MAJ 0x30: TRAP (Table 3.1). -/
def decodeMaj30 (w : Word) : Except Reject Instr :=
  reserved (fldA w) (.ok (.trap (fldImm18 w)))

/-- MAJ 0x31: ERET (Table 3.7). -/
def decodeMaj31 (w : Word) : Except Reject Instr :=
  reserved (fldRest w) (.ok .eret)

/-- MAJ 0x32: MFS (Table 3.1). -/
def decodeMaj32 (w : Word) : Except Reject Instr :=
  reserved (fldB w) (.ok (.mfs (fldImm11 w) (fldA w)))

/-- MAJ 0x33: MTS (Table 3.1). -/
def decodeMaj33 (w : Word) : Except Reject Instr :=
  reserved (fldB w) (.ok (.mts (fldImm11 w) (fldA w)))

/-- MAJ 0x34: DRAIN (Table 1.9). -/
def decodeMaj34 (w : Word) : Except Reject Instr :=
  reserved (fldTop5 w) (reserved (fldBA w) (.ok (.drain (fldNet w) (fldPush w) (fldCopy w) (fldMem w) (fldMat w) (fldVec w))))

/-- MAJ 0x35: CHKERR (Table 3.7). -/
def decodeMaj35 (w : Word) : Except Reject Instr :=
  reserved (fldRest w) (.ok .chkerr)

/-- MAJ 0x36: FINISH (Table 3.7). -/
def decodeMaj36 (w : Word) : Except Reject Instr :=
  reserved (fldRest w) (.ok .finish)

/-- MAJ 0x37: YIELD (Table 3.7). -/
def decodeMaj37 (w : Word) : Except Reject Instr :=
  reserved (fldRest w) (.ok .yield)

/-- MAJ 0x38: LAUNCH (Table 3.1). -/
def decodeMaj38 (w : Word) : Except Reject Instr :=
  match (fldF w).toNat with
  | 0 => reserved (fldC w) (.ok (.launch (fldB w) (fldA w)))
  | _ => .error .unlistedCode

/-- MAJ 0x39: WAITT (Table 3.1). -/
def decodeMaj39 (w : Word) : Except Reject Instr :=
  match (fldF w).toNat with
  | 0 => reserved (fldC w) (.ok (.waitt (fldB w) (fldA w)))
  | _ => .error .unlistedCode

/-- MAJ 0x3A: BARINIT, BAREXP, BARARR and the rest of its codes (Table 3.1). -/
def decodeMaj3A (w : Word) : Except Reject Instr :=
  match (fldF w).toNat with
  | 0 => .ok (.barinit (fldC w) (fldB w) (fldA w))
  | 1 => .ok (.barexp (fldC w) (fldB w) (fldA w))
  | 2 => reserved (fldC w) (.ok (.bararr (fldB w) (fldA w)))
  | 3 => reserved (fldA w) (.ok (.barwait (fldC w) (fldB w)))
  | 4 => .ok (.bartest (fldC w) (fldB w) (fldA w))
  | _ => .error .unlistedCode

/-- MAJ 0x3B: CPY_BAR, CPY_DEP, CPY (Table 3.1). -/
def decodeMaj3B (w : Word) : Except Reject Instr :=
  match (fldF w).toNat with
  | 0 => reserved (fldC w) (reserved (fldB w) (.ok (.cpyBar (fldA w))))
  | 1 => reserved (fldC w) (reserved (fldB w) (.ok (.cpyDep (fldA w))))
  | 2 => reserved (fldC w) (reserved (fldB w) (.ok (.cpy (fldA w))))
  | _ => .error .unlistedCode

/-- MAJ 0x3C: STRM, STRM_O, STRM_V and the rest of its codes (Table 3.1). -/
def decodeMaj3C (w : Word) : Except Reject Instr :=
  match (fldF w).toNat with
  | 0 => reserved (fldC w) (.ok (.strm (fldB w) (fldA w)))
  | 1 => reserved (fldC w) (.ok (.strmO (fldB w) (fldA w)))
  | 2 => reserved (fldC w) (.ok (.strmV (fldB w) (fldA w)))
  | 3 => reserved (fldC w) (.ok (.strmVo (fldB w) (fldA w)))
  | 4 => reserved (fldC w) (reserved (fldB w) (.ok (.strmOff (fldA w))))
  | 6 => reserved (fldC w) (reserved (fldB w) (.ok (.strmVoff (fldA w))))
  | _ => .error .unlistedCode

/-- MAJ 0x3D: CBRES, CBCOM, CBACQ and the rest of its codes (Table 3.1). -/
def decodeMaj3D (w : Word) : Except Reject Instr :=
  match (fldF w).toNat with
  | 0 => .ok (.cbres (fldC w) (fldB w) (fldA w))
  | 1 => reserved (fldA w) (.ok (.cbcom (fldC w) (fldB w)))
  | 2 => .ok (.cbacq (fldC w) (fldB w) (fldA w))
  | 3 => reserved (fldA w) (.ok (.cbrel (fldC w) (fldB w)))
  | _ => .error .unlistedCode

/-- MAJ 0x3E: CRED_FSUM, CRED_FSUMS, CRED_FMAX and the rest of its codes (Table 3.1). -/
def decodeMaj3E (w : Word) : Except Reject Instr :=
  match (fldF w).toNat with
  | 0 => .ok (.credFsum (fldC w) (fldB w) (fldA w))
  | 1 => .ok (.credFsums (fldC w) (fldB w) (fldA w))
  | 2 => .ok (.credFmax (fldC w) (fldB w) (fldA w))
  | 3 => .ok (.credFmaxn (fldC w) (fldB w) (fldA w))
  | 4 => .ok (.credFmin (fldC w) (fldB w) (fldA w))
  | 5 => .ok (.credIsum (fldC w) (fldB w) (fldA w))
  | 6 => .ok (.credImax (fldC w) (fldB w) (fldA w))
  | 7 => .ok (.credImin (fldC w) (fldB w) (fldA w))
  | _ => .error .unlistedCode

/-- MAJ 0x3F: HMLOAD, HMV, HMWAIT (Table 3.1). -/
def decodeMaj3F (w : Word) : Except Reject Instr :=
  match (fldF w).toNat with
  | 0 => .ok (.hmload (fldC w) (fldB w) (fldA w))
  | 1 => reserved (fldC w) (.ok (.hmv (fldB w) (fldA w)))
  | 2 => reserved (fldC w) (reserved (fldB w) (reserved (fldA w) (.ok .hmwait)))
  | _ => .error .unlistedCode

/-- MAJ 0x40: ADD_V, SUB_V, ADDS_V (Table 3.1). -/
def decodeMaj40 (w : Word) : Except Reject Instr :=
  match (fldF2 w).toNat with
  | 0 => .ok (.addV (fldP w) (fldM w) (fldC w) (fldB w) (fldA w))
  | 1 => .ok (.subV (fldP w) (fldM w) (fldC w) (fldB w) (fldA w))
  | 2 => .ok (.addsV (fldP w) (fldM w) (fldC w) (fldB w) (fldA w))
  | _ => .error .unlistedCode

/-- MAJ 0x41: AND_V, OR_V, XOR_V (Table 3.1). -/
def decodeMaj41 (w : Word) : Except Reject Instr :=
  match (fldF2 w).toNat with
  | 0 => .ok (.andV (fldP w) (fldM w) (fldC w) (fldB w) (fldA w))
  | 1 => .ok (.orV (fldP w) (fldM w) (fldC w) (fldB w) (fldA w))
  | 2 => .ok (.xorV (fldP w) (fldM w) (fldC w) (fldB w) (fldA w))
  | _ => .error .unlistedCode

/-- MAJ 0x42: SHL_V, SHR_V, SRA_V (Table 3.1). -/
def decodeMaj42 (w : Word) : Except Reject Instr :=
  match (fldF2 w).toNat with
  | 0 => .ok (.shlV (fldP w) (fldM w) (fldC w) (fldB w) (fldA w))
  | 1 => .ok (.shrV (fldP w) (fldM w) (fldC w) (fldB w) (fldA w))
  | 2 => .ok (.sraV (fldP w) (fldM w) (fldC w) (fldB w) (fldA w))
  | _ => .error .unlistedCode

/-- MAJ 0x43: MIN_V, MAX_V, MINU_V and the rest of its codes (Table 3.1). -/
def decodeMaj43 (w : Word) : Except Reject Instr :=
  match (fldF2 w).toNat with
  | 0 => .ok (.minV (fldP w) (fldM w) (fldC w) (fldB w) (fldA w))
  | 1 => .ok (.maxV (fldP w) (fldM w) (fldC w) (fldB w) (fldA w))
  | 2 => .ok (.minuV (fldP w) (fldM w) (fldC w) (fldB w) (fldA w))
  | 3 => .ok (.maxuV (fldP w) (fldM w) (fldC w) (fldB w) (fldA w))
  | _ => .error .unlistedCode

/-- MAJ 0x44: MUL_V, MULH_V, WMAC_V and the rest of its codes (Table 3.1). -/
def decodeMaj44 (w : Word) : Except Reject Instr :=
  match (fldF2 w).toNat with
  | 0 => .ok (.mulV (fldP w) (fldM w) (fldC w) (fldB w) (fldA w))
  | 1 => .ok (.mulhV (fldP w) (fldM w) (fldC w) (fldB w) (fldA w))
  | 2 => .ok (.wmacV (fldP w) (fldM w) (fldC w) (fldB w) (fldA w))
  | 3 => .ok (.waddV (fldP w) (fldM w) (fldC w) (fldB w) (fldA w))
  | _ => .error .unlistedCode

/-- MAJ 0x45: POPC_V, CLZ_V (Table 3.1). -/
def decodeMaj45 (w : Word) : Except Reject Instr :=
  match (fldF2 w).toNat with
  | 0 => reserved (fldC w) (.ok (.popcV (fldP w) (fldM w) (fldB w) (fldA w)))
  | 1 => reserved (fldC w) (.ok (.clzV (fldP w) (fldM w) (fldB w) (fldA w)))
  | _ => .error .unlistedCode

/-- MAJ 0x47: MSETX, IOTA_V (Table 3.1). -/
def decodeMaj47 (w : Word) : Except Reject Instr :=
  match (fldF2 w).toNat with
  | 0 => reserved (fldM w) (reserved (fldC w) (.ok (.msetx (fldP w) (fldB w) (fldA w))))
  | 1 => reserved (fldC w) (reserved (fldB w) (.ok (.iotaV (fldP w) (fldM w) (fldA w))))
  | _ => .error .unlistedCode

/-- MAJ 0x48: ADD_VX, SUB_VX, ADDS_VX (Table 3.1). -/
def decodeMaj48 (w : Word) : Except Reject Instr :=
  match (fldF2 w).toNat with
  | 0 => .ok (.addVx (fldP w) (fldM w) (fldC w) (fldB w) (fldA w))
  | 1 => .ok (.subVx (fldP w) (fldM w) (fldC w) (fldB w) (fldA w))
  | 2 => .ok (.addsVx (fldP w) (fldM w) (fldC w) (fldB w) (fldA w))
  | _ => .error .unlistedCode

/-- MAJ 0x49: AND_VX, OR_VX, XOR_VX (Table 3.1). -/
def decodeMaj49 (w : Word) : Except Reject Instr :=
  match (fldF2 w).toNat with
  | 0 => .ok (.andVx (fldP w) (fldM w) (fldC w) (fldB w) (fldA w))
  | 1 => .ok (.orVx (fldP w) (fldM w) (fldC w) (fldB w) (fldA w))
  | 2 => .ok (.xorVx (fldP w) (fldM w) (fldC w) (fldB w) (fldA w))
  | _ => .error .unlistedCode

/-- MAJ 0x4A: SHL_VX, SHR_VX, SRA_VX (Table 3.1). -/
def decodeMaj4A (w : Word) : Except Reject Instr :=
  match (fldF2 w).toNat with
  | 0 => .ok (.shlVx (fldP w) (fldM w) (fldC w) (fldB w) (fldA w))
  | 1 => .ok (.shrVx (fldP w) (fldM w) (fldC w) (fldB w) (fldA w))
  | 2 => .ok (.sraVx (fldP w) (fldM w) (fldC w) (fldB w) (fldA w))
  | _ => .error .unlistedCode

/-- MAJ 0x4B: MIN_VX, MAX_VX, MINU_VX and the rest of its codes (Table 3.1). -/
def decodeMaj4B (w : Word) : Except Reject Instr :=
  match (fldF2 w).toNat with
  | 0 => .ok (.minVx (fldP w) (fldM w) (fldC w) (fldB w) (fldA w))
  | 1 => .ok (.maxVx (fldP w) (fldM w) (fldC w) (fldB w) (fldA w))
  | 2 => .ok (.minuVx (fldP w) (fldM w) (fldC w) (fldB w) (fldA w))
  | 3 => .ok (.maxuVx (fldP w) (fldM w) (fldC w) (fldB w) (fldA w))
  | _ => .error .unlistedCode

/-- MAJ 0x4C: MUL_VX, MULH_VX, WMAC_VX and the rest of its codes (Table 3.1). -/
def decodeMaj4C (w : Word) : Except Reject Instr :=
  match (fldF2 w).toNat with
  | 0 => .ok (.mulVx (fldP w) (fldM w) (fldC w) (fldB w) (fldA w))
  | 1 => .ok (.mulhVx (fldP w) (fldM w) (fldC w) (fldB w) (fldA w))
  | 2 => .ok (.wmacVx (fldP w) (fldM w) (fldC w) (fldB w) (fldA w))
  | 3 => .ok (.waddVx (fldP w) (fldM w) (fldC w) (fldB w) (fldA w))
  | _ => .error .unlistedCode

/-- MAJ 0x4D: POPC_VX, CLZ_VX (Table 3.1). -/
def decodeMaj4D (w : Word) : Except Reject Instr :=
  match (fldF2 w).toNat with
  | 0 => .ok (.popcVx (fldP w) (fldM w) (fldC w) (fldB w) (fldA w))
  | 1 => .ok (.clzVx (fldP w) (fldM w) (fldC w) (fldB w) (fldA w))
  | _ => .error .unlistedCode

/-- MAJ 0x50: FADD_V, FSUB_V, FMUL_V and the rest of its codes (Table 3.1). -/
def decodeMaj50 (w : Word) : Except Reject Instr :=
  match (fldF2 w).toNat with
  | 0 => .ok (.faddV (fldP w) (fldM w) (fldC w) (fldB w) (fldA w))
  | 1 => .ok (.fsubV (fldP w) (fldM w) (fldC w) (fldB w) (fldA w))
  | 2 => .ok (.fmulV (fldP w) (fldM w) (fldC w) (fldB w) (fldA w))
  | 3 => .ok (.fmaV (fldP w) (fldM w) (fldC w) (fldB w) (fldA w))
  | _ => .error .unlistedCode

/-- MAJ 0x51: FDIV_V, FSQRT_V, FMIN_V and the rest of its codes (Table 3.1). -/
def decodeMaj51 (w : Word) : Except Reject Instr :=
  match (fldF2 w).toNat with
  | 0 => .ok (.fdivV (fldP w) (fldM w) (fldC w) (fldB w) (fldA w))
  | 1 => reserved (fldC w) (.ok (.fsqrtV (fldP w) (fldM w) (fldB w) (fldA w)))
  | 2 => .ok (.fminV (fldP w) (fldM w) (fldC w) (fldB w) (fldA w))
  | 3 => .ok (.fmaxV (fldP w) (fldM w) (fldC w) (fldB w) (fldA w))
  | _ => .error .unlistedCode

/-- MAJ 0x52: FSPEC_V, FSGN_V (Table 3.1). -/
def decodeMaj52 (w : Word) : Except Reject Instr :=
  match (fldF2 w).toNat with
  | 0 => .ok (.fspecV (fldP w) (fldM w) (fldC w) (fldB w) (fldA w))
  | 1 => .ok (.fsgnV (fldP w) (fldM w) (fldC w) (fldB w) (fldA w))
  | _ => .error .unlistedCode

/-- MAJ 0x53: CMP_V_EQ, CMP_V_NE, CMP_V_LT and the rest of its codes (R81). -/
def decodeMaj53 (w : Word) : Except Reject Instr :=
  match (fldCond w).toNat with
  | 0 => .ok (.cmpVEq (fldM w) (fldC w) (fldB w) (fldA w))
  | 1 => .ok (.cmpVNe (fldM w) (fldC w) (fldB w) (fldA w))
  | 2 => .ok (.cmpVLt (fldM w) (fldC w) (fldB w) (fldA w))
  | 3 => .ok (.cmpVLe (fldM w) (fldC w) (fldB w) (fldA w))
  | 4 => .ok (.cmpVGt (fldM w) (fldC w) (fldB w) (fldA w))
  | 5 => .ok (.cmpVGe (fldM w) (fldC w) (fldB w) (fldA w))
  | 6 => .ok (.cmpVLtu (fldM w) (fldC w) (fldB w) (fldA w))
  | 7 => .ok (.cmpVLeu (fldM w) (fldC w) (fldB w) (fldA w))
  | _ => .error .unlistedCode

/-- MAJ 0x54: CVT_V (Table 3.1). -/
def decodeMaj54 (w : Word) : Except Reject Instr :=
  match (fldF2 w).toNat with
  | 0 => .ok (.cvtV (fldP w) (fldM w) (fldC w) (fldB w) (fldA w))
  | _ => .error .unlistedCode

/-- MAJ 0x55: SCACC_V (Table 3.1). -/
def decodeMaj55 (w : Word) : Except Reject Instr :=
  match (fldF2 w).toNat with
  | 0 => .ok (.scaccV (fldP w) (fldM w) (fldC w) (fldB w) (fldA w))
  | _ => .error .unlistedCode

/-- MAJ 0x56: RSUM_V, RUSUM_V, RMAX_V and the rest of its codes (Table 3.1). -/
def decodeMaj56 (w : Word) : Except Reject Instr :=
  match (fldF2 w).toNat with
  | 0 => reserved (fldC w) (.ok (.rsumV (fldP w) (fldM w) (fldB w) (fldA w)))
  | 1 => reserved (fldC w) (.ok (.rusumV (fldP w) (fldM w) (fldB w) (fldA w)))
  | 2 => reserved (fldC w) (.ok (.rmaxV (fldP w) (fldM w) (fldB w) (fldA w)))
  | 3 => reserved (fldC w) (.ok (.rminV (fldP w) (fldM w) (fldB w) (fldA w)))
  | _ => .error .unlistedCode

/-- MAJ 0x57: RMAXX_V, RMINX_V, SCAN_V and the rest of its codes (Table 3.1). -/
def decodeMaj57 (w : Word) : Except Reject Instr :=
  match (fldF2 w).toNat with
  | 0 => reserved (fldC w) (.ok (.rmaxxV (fldP w) (fldM w) (fldB w) (fldA w)))
  | 1 => reserved (fldC w) (.ok (.rminxV (fldP w) (fldM w) (fldB w) (fldA w)))
  | 2 => reserved (fldC w) (.ok (.scanV (fldP w) (fldM w) (fldB w) (fldA w)))
  | 3 => reserved (fldC w) (.ok (.scanfV (fldP w) (fldM w) (fldB w) (fldA w)))
  | _ => .error .unlistedCode

/-- MAJ 0x58: SLIDE_V, PERM_V, BCAST_V and the rest of its codes (Table 3.1). -/
def decodeMaj58 (w : Word) : Except Reject Instr :=
  match (fldF2 w).toNat with
  | 0 => .ok (.slideV (fldP w) (fldM w) (fldC w) (fldB w) (fldA w))
  | 1 => .ok (.permV (fldP w) (fldM w) (fldC w) (fldB w) (fldA w))
  | 2 => reserved (fldC w) (.ok (.bcastV (fldP w) (fldM w) (fldB w) (fldA w)))
  | 3 => if fldM w = 1 then .ok (.mergeV (fldP w) (fldC w) (fldB w) (fldA w)) else .error .maskRequired
  | _ => .error .unlistedCode

/-- MAJ 0x59: EXTR_V, INS_V, MV_V and the rest of its codes (Table 3.1). -/
def decodeMaj59 (w : Word) : Except Reject Instr :=
  match (fldF2 w).toNat with
  | 0 => reserved (fldM w) (.ok (.extrV (fldP w) (fldC w) (fldB w) (fldA w)))
  | 1 => reserved (fldM w) (.ok (.insV (fldP w) (fldC w) (fldB w) (fldA w)))
  | 2 => reserved (fldC w) (.ok (.mvV (fldP w) (fldM w) (fldB w) (fldA w)))
  | 3 => reserved (fldP w) (reserved (fldM w) (reserved (fldC w) (reserved (fldB w) (.ok (.seteV (fldA w))))))
  | _ => .error .unlistedCode

/-- MAJ 0x5A: MAND, MOR, MXOR and the rest of its codes (Table 3.1). -/
def decodeMaj5A (w : Word) : Except Reject Instr :=
  match (fldF2 w).toNat with
  | 0 => .ok (.mand (fldP w) (fldM w) (fldC w) (fldB w) (fldA w))
  | 1 => .ok (.mor (fldP w) (fldM w) (fldC w) (fldB w) (fldA w))
  | 2 => .ok (.mxor (fldP w) (fldM w) (fldC w) (fldB w) (fldA w))
  | 3 => reserved (fldC w) (.ok (.mnot (fldP w) (fldM w) (fldB w) (fldA w)))
  | _ => .error .unlistedCode

/-- MAJ 0x5B: MPOPC, MFIRST, CMPRS_V and the rest of its codes (Table 3.1). -/
def decodeMaj5B (w : Word) : Except Reject Instr :=
  match (fldF2 w).toNat with
  | 0 => reserved (fldC w) (.ok (.mpopc (fldP w) (fldM w) (fldB w) (fldA w)))
  | 1 => reserved (fldC w) (.ok (.mfirst (fldP w) (fldM w) (fldB w) (fldA w)))
  | 2 => reserved (fldC w) (.ok (.cmprsV (fldP w) (fldM w) (fldB w) (fldA w)))
  | 3 => reserved (fldA w) (.ok (.cappV (fldP w) (fldM w) (fldC w) (fldB w)))
  | _ => .error .unlistedCode

/-- MAJ 0x5C: LD_V, ST_V, GATH_V and the rest of its codes (Table 3.1). -/
def decodeMaj5C (w : Word) : Except Reject Instr :=
  match (fldF2 w).toNat with
  | 0 => .ok (.ldV (fldP w) (fldM w) (fldC w) (fldB w) (fldA w))
  | 1 => .ok (.stV (fldP w) (fldM w) (fldC w) (fldB w) (fldA w))
  | 2 => .ok (.gathV (fldP w) (fldM w) (fldC w) (fldB w) (fldA w))
  | 3 => .ok (.scatV (fldP w) (fldM w) (fldC w) (fldB w) (fldA w))
  | _ => .error .unlistedCode

/-- MAJ 0x5D: SCATADD_V, BGATH_V, PUSH_V (Table 3.1). -/
def decodeMaj5D (w : Word) : Except Reject Instr :=
  match (fldF2 w).toNat with
  | 0 => .ok (.scataddV (fldP w) (fldM w) (fldC w) (fldB w) (fldA w))
  | 1 => .ok (.bgathV (fldP w) (fldM w) (fldC w) (fldB w) (fldA w))
  | 2 => reserved (fldP w) (reserved (fldM w) (.ok (.pushV (fldC w) (fldB w) (fldA w))))
  | _ => .error .unlistedCode

/-- MAJ 0x5E: TLD_V, TST_V (Table 3.1). -/
def decodeMaj5E (w : Word) : Except Reject Instr :=
  match (fldF2 w).toNat with
  | 0 => .ok (.tldV (fldP w) (fldM w) (fldC w) (fldB w) (fldA w))
  | 1 => .ok (.tstV (fldP w) (fldM w) (fldC w) (fldB w) (fldA w))
  | _ => .error .unlistedCode

/-- MAJ 0x5F: QGEN_V_FRAC, QGEN_V_FP32 (Table 3.1). -/
def decodeMaj5F (w : Word) : Except Reject Instr :=
  match (fldF2 w).toNat with
  | 0 => .ok (.qgenVFrac (fldP w) (fldM w) (fldC w) (fldB w) (fldA w))
  | 1 => .ok (.qgenVFp32 (fldP w) (fldM w) (fldC w) (fldB w) (fldA w))
  | _ => .error .unlistedCode

/-- MAJ 0x60: ST_P_I16, ST_P_I32 (Table 3.1). -/
def decodeMaj60 (w : Word) : Except Reject Instr :=
  match (fldF w).toNat with
  | 0 => reserved (fldC w) (.ok (.stPI16 (fldB w) (fldA w)))
  | 1 => reserved (fldC w) (.ok (.stPI32 (fldB w) (fldA w)))
  | _ => .error .unlistedCode

/-- MAJ 0x61: ADD_P_I16, SUB_P_I16, AND_P_I16 and the rest of its codes (Table 3.1). -/
def decodeMaj61 (w : Word) : Except Reject Instr :=
  match (fldF w).toNat with
  | 0 => reserved (fldC w) (.ok (.addPI16 (fldB w) (fldA w)))
  | 1 => reserved (fldC w) (.ok (.subPI16 (fldB w) (fldA w)))
  | 2 => reserved (fldC w) (.ok (.andPI16 (fldB w) (fldA w)))
  | 3 => reserved (fldC w) (.ok (.orPI16 (fldB w) (fldA w)))
  | 4 => reserved (fldC w) (.ok (.xorPI16 (fldB w) (fldA w)))
  | 5 => reserved (fldC w) (.ok (.maxPI16 (fldB w) (fldA w)))
  | 6 => reserved (fldC w) (.ok (.minPI16 (fldB w) (fldA w)))
  | 8 => reserved (fldA w) (.ok (.addPlI16 (fldC w) (fldB w)))
  | 9 => reserved (fldA w) (.ok (.subPlI16 (fldC w) (fldB w)))
  | 10 => reserved (fldA w) (.ok (.andPlI16 (fldC w) (fldB w)))
  | 11 => reserved (fldA w) (.ok (.orPlI16 (fldC w) (fldB w)))
  | 12 => reserved (fldA w) (.ok (.xorPlI16 (fldC w) (fldB w)))
  | 13 => reserved (fldA w) (.ok (.maxPlI16 (fldC w) (fldB w)))
  | 14 => reserved (fldA w) (.ok (.minPlI16 (fldC w) (fldB w)))
  | _ => .error .unlistedCode

/-- MAJ 0x62: ADD_P_I32, SUB_P_I32, AND_P_I32 and the rest of its codes (Table 3.1). -/
def decodeMaj62 (w : Word) : Except Reject Instr :=
  match (fldF w).toNat with
  | 0 => reserved (fldC w) (.ok (.addPI32 (fldB w) (fldA w)))
  | 1 => reserved (fldC w) (.ok (.subPI32 (fldB w) (fldA w)))
  | 2 => reserved (fldC w) (.ok (.andPI32 (fldB w) (fldA w)))
  | 3 => reserved (fldC w) (.ok (.orPI32 (fldB w) (fldA w)))
  | 4 => reserved (fldC w) (.ok (.xorPI32 (fldB w) (fldA w)))
  | 5 => reserved (fldC w) (.ok (.maxPI32 (fldB w) (fldA w)))
  | 6 => reserved (fldC w) (.ok (.minPI32 (fldB w) (fldA w)))
  | 8 => reserved (fldA w) (.ok (.addPlI32 (fldC w) (fldB w)))
  | 9 => reserved (fldA w) (.ok (.subPlI32 (fldC w) (fldB w)))
  | 10 => reserved (fldA w) (.ok (.andPlI32 (fldC w) (fldB w)))
  | 11 => reserved (fldA w) (.ok (.orPlI32 (fldC w) (fldB w)))
  | 12 => reserved (fldA w) (.ok (.xorPlI32 (fldC w) (fldB w)))
  | 13 => reserved (fldA w) (.ok (.maxPlI32 (fldC w) (fldB w)))
  | 14 => reserved (fldA w) (.ok (.minPlI32 (fldC w) (fldB w)))
  | _ => .error .unlistedCode

/-- MAJ 0x63: ADD_P_F32, SUB_P_F32, MAX_P_F32 and the rest of its codes (Table 3.1). -/
def decodeMaj63 (w : Word) : Except Reject Instr :=
  match (fldF w).toNat with
  | 0 => reserved (fldC w) (.ok (.addPF32 (fldB w) (fldA w)))
  | 1 => reserved (fldC w) (.ok (.subPF32 (fldB w) (fldA w)))
  | 5 => reserved (fldC w) (.ok (.maxPF32 (fldB w) (fldA w)))
  | 6 => reserved (fldC w) (.ok (.minPF32 (fldB w) (fldA w)))
  | 8 => reserved (fldA w) (.ok (.addPlF32 (fldC w) (fldB w)))
  | 9 => reserved (fldA w) (.ok (.subPlF32 (fldC w) (fldB w)))
  | 13 => reserved (fldA w) (.ok (.maxPlF32 (fldC w) (fldB w)))
  | 14 => reserved (fldA w) (.ok (.minPlF32 (fldC w) (fldB w)))
  | _ => .error .unlistedCode

/-- MAJ 0x64: LD_P_I16_SUM, LD_P_I16_MAX, LD_P_I16_MIN and the rest of its codes (Table 3.1). -/
def decodeMaj64 (w : Word) : Except Reject Instr :=
  match (fldF w).toNat with
  | 0 => reserved (fldC w) (.ok (.ldPI16Sum (fldB w) (fldA w)))
  | 1 => reserved (fldC w) (.ok (.ldPI16Max (fldB w) (fldA w)))
  | 2 => reserved (fldC w) (.ok (.ldPI16Min (fldB w) (fldA w)))
  | 3 => reserved (fldC w) (.ok (.ldPI16Maxu (fldB w) (fldA w)))
  | 4 => reserved (fldC w) (.ok (.ldPI16Minu (fldB w) (fldA w)))
  | 5 => reserved (fldC w) (.ok (.ldPI16And (fldB w) (fldA w)))
  | 6 => reserved (fldC w) (.ok (.ldPI16Or (fldB w) (fldA w)))
  | 7 => reserved (fldC w) (.ok (.ldPI16Xor (fldB w) (fldA w)))
  | _ => .error .unlistedCode

/-- MAJ 0x65: LD_P_I32_SUM, LD_P_I32_MAX, LD_P_I32_MIN and the rest of its codes (Table 3.1). -/
def decodeMaj65 (w : Word) : Except Reject Instr :=
  match (fldF w).toNat with
  | 0 => reserved (fldC w) (.ok (.ldPI32Sum (fldB w) (fldA w)))
  | 1 => reserved (fldC w) (.ok (.ldPI32Max (fldB w) (fldA w)))
  | 2 => reserved (fldC w) (.ok (.ldPI32Min (fldB w) (fldA w)))
  | 3 => reserved (fldC w) (.ok (.ldPI32Maxu (fldB w) (fldA w)))
  | 4 => reserved (fldC w) (.ok (.ldPI32Minu (fldB w) (fldA w)))
  | 5 => reserved (fldC w) (.ok (.ldPI32And (fldB w) (fldA w)))
  | 6 => reserved (fldC w) (.ok (.ldPI32Or (fldB w) (fldA w)))
  | 7 => reserved (fldC w) (.ok (.ldPI32Xor (fldB w) (fldA w)))
  | _ => .error .unlistedCode

/-- MAJ 0x66: LD_P_F32_FSUM, LD_P_F32_FMAX, LD_P_F32_FMIN (Table 3.1). -/
def decodeMaj66 (w : Word) : Except Reject Instr :=
  match (fldF w).toNat with
  | 0 => reserved (fldC w) (.ok (.ldPF32Fsum (fldB w) (fldA w)))
  | 1 => reserved (fldC w) (.ok (.ldPF32Fmax (fldB w) (fldA w)))
  | 2 => reserved (fldC w) (.ok (.ldPF32Fmin (fldB w) (fldA w)))
  | _ => .error .unlistedCode

/-- MAJ 0x67: ST_PV_I16, ST_PV_I32 (Table 3.1). -/
def decodeMaj67 (w : Word) : Except Reject Instr :=
  match (fldF w).toNat with
  | 0 => reserved (fldC w) (.ok (.stPvI16 (fldB w) (fldA w)))
  | 1 => reserved (fldC w) (.ok (.stPvI32 (fldB w) (fldA w)))
  | _ => .error .unlistedCode

/-- MAJ 0x68: TSHAPE_BF16, TSHAPE_INT8, TSHAPE_BX7 and the rest of its codes (Table 3.1). -/
def decodeMaj68 (w : Word) : Except Reject Instr :=
  match (fldF w).toNat with
  | 0 => reserved (fldC w) (.ok (.tshapeBf16 (fldB w) (fldA w)))
  | 1 => reserved (fldC w) (.ok (.tshapeInt8 (fldB w) (fldA w)))
  | 2 => reserved (fldC w) (.ok (.tshapeBx7 (fldB w) (fldA w)))
  | 3 => reserved (fldC w) (.ok (.tshapeBx4 (fldB w) (fldA w)))
  | 4 => reserved (fldC w) (.ok (.tshapeBx2 (fldB w) (fldA w)))
  | _ => .error .unlistedCode

/-- MAJ 0x69: MLD (Table 3.9). -/
def decodeMaj69 (w : Word) : Except Reject Instr :=
  reserved (fldTop w) (.ok (.mld (fldBc w) (fldTr w) (fldRb w) (fldC w) (fldB w) (fldA w)))

/-- MAJ 0x6A: MLDX (Table 3.1). -/
def decodeMaj6A (w : Word) : Except Reject Instr :=
  match (fldF w).toNat with
  | 0 => .ok (.mldx (fldC w) (fldB w) (fldA w))
  | _ => .error .unlistedCode

/-- MAJ 0x6B: MMA_BF16, MMA_INT8, MMA_BX7 and the rest of its codes (Table 3.9). -/
def decodeMaj6B (w : Word) : Except Reject Instr :=
  match (fldFmt3 w).toNat with
  | 0 => .ok (.mmaBf16 (fldTop w) (fldC w) (fldB w) (fldA w))
  | 1 => .ok (.mmaInt8 (fldTop w) (fldC w) (fldB w) (fldA w))
  | 2 => .ok (.mmaBx7 (fldTop w) (fldC w) (fldB w) (fldA w))
  | 3 => .ok (.mmaBx4 (fldTop w) (fldC w) (fldB w) (fldA w))
  | 4 => .ok (.mmaBx2 (fldTop w) (fldC w) (fldB w) (fldA w))
  | _ => .error .unlistedCode

/-- MAJ 0x6C: SCACC_M (Table 3.1). -/
def decodeMaj6C (w : Word) : Except Reject Instr :=
  match (fldF w).toNat with
  | 0 => .ok (.scaccM (fldC w) (fldB w) (fldA w))
  | _ => .error .unlistedCode

/-- MAJ 0x6D: MST_FP32, MST_BF16, MST_INT32 (Table 3.1). -/
def decodeMaj6D (w : Word) : Except Reject Instr :=
  match (fldF w).toNat with
  | 0 => .ok (.mstFp32 (fldC w) (fldB w) (fldA w))
  | 1 => .ok (.mstBf16 (fldC w) (fldB w) (fldA w))
  | 2 => .ok (.mstInt32 (fldC w) (fldB w) (fldA w))
  | _ => .error .unlistedCode

/-- MAJ 0x6E: MDRAIN (Table 3.1). -/
def decodeMaj6E (w : Word) : Except Reject Instr :=
  match (fldF w).toNat with
  | 0 => reserved (fldC w) (.ok (.mdrain (fldB w) (fldA w)))
  | _ => .error .unlistedCode

/-- MAJ 0x6F: MZERO, MWAIT, MWAITALL (Table 3.1). -/
def decodeMaj6F (w : Word) : Except Reject Instr :=
  match (fldF w).toNat with
  | 0 => reserved (fldC w) (reserved (fldB w) (.ok (.mzero (fldA w))))
  | 1 => reserved (fldC w) (reserved (fldB w) (reserved (fldA w) (.ok .mwait)))
  | 2 => reserved (fldC w) (reserved (fldB w) (reserved (fldA w) (.ok .mwaitall)))
  | _ => .error .unlistedCode

/-- MAJ 0x70: THLD (Table 3.1). -/
def decodeMaj70 (w : Word) : Except Reject Instr :=
  match (fldF w).toNat with
  | 0 => reserved (fldC w) (.ok (.thld (fldB w) (fldA w)))
  | _ => .error .unlistedCode

/-- MAJ 0x71: RETAG (Table 3.1). -/
def decodeMaj71 (w : Word) : Except Reject Instr :=
  reserved (fldC w) (.ok (.retag (fldF w) (fldB w) (fldA w)))

/-- MAJ 0x72: TWAIT (Table 3.1). -/
def decodeMaj72 (w : Word) : Except Reject Instr :=
  match (fldF w).toNat with
  | 0 => reserved (fldC w) (.ok (.twait (fldB w) (fldA w)))
  | _ => .error .unlistedCode

/-- MAJ 0x73: QLOAD (Table 3.1). -/
def decodeMaj73 (w : Word) : Except Reject Instr :=
  match (fldF w).toNat with
  | 0 => reserved (fldC w) (.ok (.qload (fldB w) (fldA w)))
  | _ => .error .unlistedCode

/-! ### The two prefixes (Tables 3.3 and 3.5) -/

/-- A word with MAJ 0x7F, its own fields checked (R73, R85 point a). -/
def decodePrefix (w : Word) : Except Reject Instr :=
  match (fldF w).toNat with
  | 0 => reserved (fldGap4 w)
      (.ok (.pfxV (fldOvr w) (fldMz w) (fldTz w) (fldDv w) (fldD w) (fldRm w) (fldMask w)))
  | 1 => reserved (fldGap15 w) (.ok (.pfxO (fldPosted w) (fldOrder w) (fldMask w)))
  | _ => .error .prefixKind

/-! ### Any word -/

/-- The fields of any word, before the limits of `checkWf` (R79 to R83). -/
def decodeFields (w : Word) : Except Reject Instr :=
  match (fldMaj w).toNat with
  | 0x01 => decodeMaj01 w
  | 0x02 => decodeMaj02 w
  | 0x03 => decodeMaj03 w
  | 0x04 => decodeMaj04 w
  | 0x05 => decodeMaj05 w
  | 0x06 => decodeMaj06 w
  | 0x07 => decodeMaj07 w
  | 0x08 => decodeMaj08 w
  | 0x09 => decodeMaj09 w
  | 0x0A => decodeMaj0A w
  | 0x0B => decodeMaj0B w
  | 0x0C => decodeMaj0C w
  | 0x0D => decodeMaj0D w
  | 0x0E => decodeMaj0E w
  | 0x10 => decodeMaj10 w
  | 0x11 => decodeMaj11 w
  | 0x12 => decodeMaj12 w
  | 0x13 => decodeMaj13 w
  | 0x14 => decodeMaj14 w
  | 0x15 => decodeMaj15 w
  | 0x16 => decodeMaj16 w
  | 0x17 => decodeMaj17 w
  | 0x18 => decodeMaj18 w
  | 0x19 => decodeMaj19 w
  | 0x1A => decodeMaj1A w
  | 0x1B => decodeMaj1B w
  | 0x1C => decodeMaj1C w
  | 0x1D => decodeMaj1D w
  | 0x1E => decodeMaj1E w
  | 0x1F => decodeMaj1F w
  | 0x20 => decodeMaj20 w
  | 0x21 => decodeMaj21 w
  | 0x22 => decodeMaj22 w
  | 0x23 => decodeMaj23 w
  | 0x24 => decodeMaj24 w
  | 0x25 => decodeMaj25 w
  | 0x26 => decodeMaj26 w
  | 0x27 => decodeMaj27 w
  | 0x28 => decodeMaj28 w
  | 0x30 => decodeMaj30 w
  | 0x31 => decodeMaj31 w
  | 0x32 => decodeMaj32 w
  | 0x33 => decodeMaj33 w
  | 0x34 => decodeMaj34 w
  | 0x35 => decodeMaj35 w
  | 0x36 => decodeMaj36 w
  | 0x37 => decodeMaj37 w
  | 0x38 => decodeMaj38 w
  | 0x39 => decodeMaj39 w
  | 0x3A => decodeMaj3A w
  | 0x3B => decodeMaj3B w
  | 0x3C => decodeMaj3C w
  | 0x3D => decodeMaj3D w
  | 0x3E => decodeMaj3E w
  | 0x3F => decodeMaj3F w
  | 0x40 => decodeMaj40 w
  | 0x41 => decodeMaj41 w
  | 0x42 => decodeMaj42 w
  | 0x43 => decodeMaj43 w
  | 0x44 => decodeMaj44 w
  | 0x45 => decodeMaj45 w
  | 0x47 => decodeMaj47 w
  | 0x48 => decodeMaj48 w
  | 0x49 => decodeMaj49 w
  | 0x4A => decodeMaj4A w
  | 0x4B => decodeMaj4B w
  | 0x4C => decodeMaj4C w
  | 0x4D => decodeMaj4D w
  | 0x50 => decodeMaj50 w
  | 0x51 => decodeMaj51 w
  | 0x52 => decodeMaj52 w
  | 0x53 => decodeMaj53 w
  | 0x54 => decodeMaj54 w
  | 0x55 => decodeMaj55 w
  | 0x56 => decodeMaj56 w
  | 0x57 => decodeMaj57 w
  | 0x58 => decodeMaj58 w
  | 0x59 => decodeMaj59 w
  | 0x5A => decodeMaj5A w
  | 0x5B => decodeMaj5B w
  | 0x5C => decodeMaj5C w
  | 0x5D => decodeMaj5D w
  | 0x5E => decodeMaj5E w
  | 0x5F => decodeMaj5F w
  | 0x60 => decodeMaj60 w
  | 0x61 => decodeMaj61 w
  | 0x62 => decodeMaj62 w
  | 0x63 => decodeMaj63 w
  | 0x64 => decodeMaj64 w
  | 0x65 => decodeMaj65 w
  | 0x66 => decodeMaj66 w
  | 0x67 => decodeMaj67 w
  | 0x68 => decodeMaj68 w
  | 0x69 => decodeMaj69 w
  | 0x6A => decodeMaj6A w
  | 0x6B => decodeMaj6B w
  | 0x6C => decodeMaj6C w
  | 0x6D => decodeMaj6D w
  | 0x6E => decodeMaj6E w
  | 0x6F => decodeMaj6F w
  | 0x70 => decodeMaj70 w
  | 0x71 => decodeMaj71 w
  | 0x72 => decodeMaj72 w
  | 0x73 => decodeMaj73 w
  | 0x7F => decodePrefix w
  | 0 => .error .majorZero
  | _ => .error .freeMajor

/-- The instruction a 32-bit word holds, or the reason it holds none (R83). -/
def decodeWord (w : Word) : Except Reject Instr :=
  match decodeFields w with
  | .error r => .error r
  | .ok i =>
    match checkWf i with
    | .ok _ => .ok i
    | .error r => .error r

/-! ### Stack-side microwords (Table 10.4) -/

/-- The microword a 32-bit word of a channel's instruction store holds (R219). -/
def decodeMicro (w : Word) : Except Reject Instr :=
  match (fldF w).toNat with
  | 0 => if w.extractLsb' 0 28 = 0 then .ok .endRow else .error .reservedField
  | 1 => if w.extractLsb' 0 28 = 0 then .ok .dot else .error .reservedField
  | 2 => if w.extractLsb' 8 20 = 0 then .ok (.scale (w.extractLsb' 0 8)) else .error .reservedField
  | 3 => if w.extractLsb' 0 28 = 0 then .ok .relu else .error .reservedField
  | 4 => if w.extractLsb' 16 12 = 0 then .ok (.addc (w.extractLsb' 0 16)) else .error .reservedField
  | 5 => if w.extractLsb' 1 27 = 0 then .ok (.emit (w.extractLsb' 0 1)) else .error .reservedField
  | _ => .error .unlistedCode

/-! ### The encoder -/

/-- A word of Table 3.1's R layout, from the high field down. -/
def wordR (f : BitVec 4) (c : BitVec 7) (b : BitVec 7) (a : BitVec 7)
    (maj : BitVec 7) : Word := f ++ c ++ b ++ a ++ maj

/-- A word of Table 3.1's I layout, from the high field down. -/
def wordI (imm11 : BitVec 11) (b : BitVec 7) (a : BitVec 7)
    (maj : BitVec 7) : Word := imm11 ++ b ++ a ++ maj

/-- A word of Table 3.1's L layout, from the high field down. -/
def wordL (imm18 : BitVec 18) (a : BitVec 7)
    (maj : BitVec 7) : Word := imm18 ++ a ++ maj

/-- A word of Table 3.1's M layout, from the high field down. -/
def wordM (off8 : BitVec 8) (z : BitVec 1) (sz : BitVec 2) (b : BitVec 7) (a : BitVec 7)
    (maj : BitVec 7) : Word := off8 ++ z ++ sz ++ b ++ a ++ maj

/-- A word of Table 3.2's Acq layout, from the high field down. -/
def wordAcq (off6 : BitVec 6) (scope : BitVec 3) (sz : BitVec 2) (b : BitVec 7) (a : BitVec 7)
    (maj : BitVec 7) : Word := off6 ++ scope ++ sz ++ b ++ a ++ maj

/-- A word of Table 3.1's V layout, from the high field down. -/
def wordV (f2 : BitVec 2) (p : BitVec 1) (m : BitVec 1) (c : BitVec 7) (b : BitVec 7) (a : BitVec 7)
    (maj : BitVec 7) : Word := f2 ++ p ++ m ++ c ++ b ++ a ++ maj

/-- A word of R81's Cmp layout, from the high field down. -/
def wordCmp (cond : BitVec 3) (m : BitVec 1) (c : BitVec 7) (b : BitVec 7) (a : BitVec 7)
    (maj : BitVec 7) : Word := cond ++ m ++ c ++ b ++ a ++ maj

/-- A word of Table 1.7's Loop layout, from the high field down. -/
def wordLoop (top : BitVec 1) (words7 : BitVec 7) (level : BitVec 3) (b : BitVec 7) (a : BitVec 7)
    (maj : BitVec 7) : Word := top ++ words7 ++ level ++ b ++ a ++ maj

/-- A word of Table 1.8's Once layout, from the high field down. -/
def wordOnce (top : BitVec 1) (words6 : BitVec 6) (last : BitVec 1) (level : BitVec 3) (ba : BitVec 14)
    (maj : BitVec 7) : Word := top ++ words6 ++ last ++ level ++ ba ++ maj

/-- A word of Table 1.6's Wid layout, from the high field down. -/
def wordWid (off8 : BitVec 8) (level : BitVec 3) (b : BitVec 7) (a : BitVec 7)
    (maj : BitVec 7) : Word := off8 ++ level ++ b ++ a ++ maj

/-- A word of Table 3.7's Fence layout, from the high field down. -/
def wordFence (off6 : BitVec 6) (kind2 : BitVec 2) (level : BitVec 3) (ba : BitVec 14)
    (maj : BitVec 7) : Word := off6 ++ kind2 ++ level ++ ba ++ maj

/-- A word of R52's Setvt layout, from the high field down. -/
def wordSetvt (top9 : BitVec 9) (imm9 : BitVec 9) (a : BitVec 7)
    (maj : BitVec 7) : Word := top9 ++ imm9 ++ a ++ maj

/-- A word of Table 1.9's Drain layout, from the high field down. -/
def wordDrain (top5 : BitVec 5) (net : BitVec 1) (push : BitVec 1) (copy : BitVec 1) (mem : BitVec 1) (mat : BitVec 1) (vec : BitVec 1) (ba : BitVec 14)
    (maj : BitVec 7) : Word := top5 ++ net ++ push ++ copy ++ mem ++ mat ++ vec ++ ba ++ maj

/-- A word of Table 3.9's Mld layout, from the high field down. -/
def wordMld (top : BitVec 1) (bc : BitVec 1) (tr : BitVec 1) (rb : BitVec 1) (c : BitVec 7) (b : BitVec 7) (a : BitVec 7)
    (maj : BitVec 7) : Word := top ++ bc ++ tr ++ rb ++ c ++ b ++ a ++ maj

/-- A word of Table 3.9's Mma layout, from the high field down. -/
def wordMma (top : BitVec 1) (fmt3 : BitVec 3) (c : BitVec 7) (b : BitVec 7) (a : BitVec 7)
    (maj : BitVec 7) : Word := top ++ fmt3 ++ c ++ b ++ a ++ maj

/-- A word of Table 3.7's None layout, from the high field down. -/
def wordNone (rest : BitVec 25)
    (maj : BitVec 7) : Word := rest ++ maj

/-- A word of Table 3.3's PfxV layout, from the high field down. -/
def wordPfxV (f : BitVec 4) (gap4 : BitVec 4) (ovr : BitVec 1) (mz : BitVec 1) (tz : BitVec 1) (dv : BitVec 1) (d : BitVec 7) (rm : BitVec 3) (mask : BitVec 3)
    (maj : BitVec 7) : Word := f ++ gap4 ++ ovr ++ mz ++ tz ++ dv ++ d ++ rm ++ mask ++ maj

/-- A word of Table 3.5's PfxO layout, from the high field down. -/
def wordPfxO (f : BitVec 4) (gap15 : BitVec 15) (posted : BitVec 1) (order : BitVec 2) (mask : BitVec 3)
    (maj : BitVec 7) : Word := f ++ gap15 ++ posted ++ order ++ mask ++ maj

/-- The word of a hart instruction, of a prefix or of a microword; an engine's or the host's event has none. -/
def encode (i : Instr) : Option Word :=
  match i with
  | .add c b d => some (wordR 0 c b d 0x01)
  | .sub c b d => some (wordR 1 c b d 0x01)
  | .and c b d => some (wordR 2 c b d 0x01)
  | .or c b d => some (wordR 3 c b d 0x01)
  | .xor c b d => some (wordR 4 c b d 0x01)
  | .shl c b d => some (wordR 5 c b d 0x01)
  | .shr c b d => some (wordR 6 c b d 0x01)
  | .sra c b d => some (wordR 7 c b d 0x01)
  | .slt c b d => some (wordR 8 c b d 0x01)
  | .sltu c b d => some (wordR 9 c b d 0x01)
  | .min c b d => some (wordR 10 c b d 0x01)
  | .max c b d => some (wordR 11 c b d 0x01)
  | .minu c b d => some (wordR 12 c b d 0x01)
  | .maxu c b d => some (wordR 13 c b d 0x01)
  | .adds c b d => some (wordR 14 c b d 0x01)
  | .mul c b d => some (wordR 0 c b d 0x02)
  | .mulh c b d => some (wordR 1 c b d 0x02)
  | .mulhu c b d => some (wordR 2 c b d 0x02)
  | .div c b d => some (wordR 3 c b d 0x02)
  | .divu c b d => some (wordR 4 c b d 0x02)
  | .rem c b d => some (wordR 5 c b d 0x02)
  | .remu c b d => some (wordR 6 c b d 0x02)
  | .clz b d => some (wordR 7 0 b d 0x02)
  | .popc b d => some (wordR 8 0 b d 0x02)
  | .addI i b d => some (wordI i b d 0x03)
  | .andI i b d => some (wordI i b d 0x04)
  | .orI i b d => some (wordI i b d 0x05)
  | .xorI i b d => some (wordI i b d 0x06)
  | .shlI i b d => some (wordI i b d 0x07)
  | .shrI i b d => some (wordI i b d 0x08)
  | .sraI i b d => some (wordI i b d 0x09)
  | .sltI i b d => some (wordI i b d 0x0A)
  | .lim i d => some (wordL i d 0x0B)
  | .lih i d => some (wordL i d 0x0C)
  | .addpc i d => some (wordL i d 0x0D)
  | .bset b => some (wordR 0 0 b 0 0x0E)
  | .j i d => some (wordL i d 0x10)
  | .jr i b d => some (wordI i b d 0x11)
  | .beq o b a => some (wordI o b a 0x12)
  | .bne o b a => some (wordI o b a 0x13)
  | .blt o b a => some (wordI o b a 0x14)
  | .bge o b a => some (wordI o b a 0x15)
  | .bltu o b a => some (wordI o b a 0x16)
  | .bgeu o b a => some (wordI o b a 0x17)
  | .bmz o k => some (wordI o 0 k 0x18)
  | .bmnz o k => some (wordI o 0 k 0x19)
  | .loop w l b c => some (wordLoop 0 w l b c 0x1A)
  | .once w t l => some (wordOnce 0 w t l 0 0x1B)
  | .strip w p b d => some (wordV 0 w p 0 b d 0x1C)
  | .setvt i => some (wordSetvt 0 i 0 0x1D)
  | .wid l d => some (wordWid 0 l 0 d 0x1E)
  | .winb i => some (wordI i 0 0 0x1F)
  | .ld o z s b d => some (wordM o z s b d 0x20)
  | .st o s b a => some (wordM o 0 s b a 0x21)
  | .ldaq o s z b d => some (wordAcq o s z b d 0x22)
  | .strl o s z b a => some (wordAcq o s z b a 0x23)
  | .amoSwapW c b d => some (wordR 0 c b d 0x24)
  | .amoAddW c b d => some (wordR 1 c b d 0x24)
  | .amoAndW c b d => some (wordR 2 c b d 0x24)
  | .amoOrW c b d => some (wordR 3 c b d 0x24)
  | .amoXorW c b d => some (wordR 4 c b d 0x24)
  | .amoMinW c b d => some (wordR 5 c b d 0x24)
  | .amoMaxW c b d => some (wordR 6 c b d 0x24)
  | .amoMinuW c b d => some (wordR 7 c b d 0x24)
  | .amoMaxuW c b d => some (wordR 8 c b d 0x24)
  | .amoFaddW c b d => some (wordR 9 c b d 0x24)
  | .amoFmaxW c b d => some (wordR 10 c b d 0x24)
  | .amoFminW c b d => some (wordR 11 c b d 0x24)
  | .amoCasW c b d => some (wordR 12 c b d 0x24)
  | .amoSwapD c b d => some (wordR 0 c b d 0x25)
  | .amoAddD c b d => some (wordR 1 c b d 0x25)
  | .amoAndD c b d => some (wordR 2 c b d 0x25)
  | .amoOrD c b d => some (wordR 3 c b d 0x25)
  | .amoXorD c b d => some (wordR 4 c b d 0x25)
  | .amoMinD c b d => some (wordR 5 c b d 0x25)
  | .amoMaxD c b d => some (wordR 6 c b d 0x25)
  | .amoMinuD c b d => some (wordR 7 c b d 0x25)
  | .amoMaxuD c b d => some (wordR 8 c b d 0x25)
  | .amoFaddD c b d => some (wordR 9 c b d 0x25)
  | .amoFmaxD c b d => some (wordR 10 c b d 0x25)
  | .amoFminD c b d => some (wordR 11 c b d 0x25)
  | .amoCasD c b d => some (wordR 12 c b d 0x25)
  | .fenceAr s => some (wordFence 0 0 s 0 0x26)
  | .fenceAcq s => some (wordFence 0 1 s 0 0x26)
  | .fenceRel s => some (wordFence 0 2 s 0 0x26)
  | .fenceFetch s => some (wordFence 0 3 s 0 0x26)
  | .pref o s b h => some (wordM o 0 s b h 0x27)
  | .fadd c b d => some (wordR 0 c b d 0x28)
  | .fsub c b d => some (wordR 1 c b d 0x28)
  | .fmul c b d => some (wordR 2 c b d 0x28)
  | .fdiv c b d => some (wordR 3 c b d 0x28)
  | .fsqrt b d => some (wordR 4 0 b d 0x28)
  | .fmin c b d => some (wordR 5 c b d 0x28)
  | .fmax c b d => some (wordR 6 c b d 0x28)
  | .fmac c b d => some (wordR 7 c b d 0x28)
  | .feq c b d => some (wordR 8 c b d 0x28)
  | .flt c b d => some (wordR 9 c b d 0x28)
  | .fle c b d => some (wordR 10 c b d 0x28)
  | .fcvtfi b d => some (wordR 11 0 b d 0x28)
  | .fcvtif b d => some (wordR 12 0 b d 0x28)
  | .trap n => some (wordL n 0 0x30)
  | .eret => some (wordNone 0 0x31)
  | .mfs n d => some (wordI n 0 d 0x32)
  | .mts n a => some (wordI n 0 a 0x33)
  | .drain n p c m t v => some (wordDrain 0 n p c m t v 0 0x34)
  | .chkerr => some (wordNone 0 0x35)
  | .finish => some (wordNone 0 0x36)
  | .yield => some (wordNone 0 0x37)
  | .launch b d => some (wordR 0 0 b d 0x38)
  | .waitt b d => some (wordR 0 0 b d 0x39)
  | .barinit c b a => some (wordR 0 c b a 0x3A)
  | .barexp c b a => some (wordR 1 c b a 0x3A)
  | .bararr b d => some (wordR 2 0 b d 0x3A)
  | .barwait c b => some (wordR 3 c b 0 0x3A)
  | .bartest c b d => some (wordR 4 c b d 0x3A)
  | .barwaitReturn => none
  | .cpyBar a => some (wordR 0 0 0 a 0x3B)
  | .cpyDep a => some (wordR 1 0 0 a 0x3B)
  | .cpy a => some (wordR 2 0 0 a 0x3B)
  | .copyComplete _ => none
  | .strm b a => some (wordR 0 0 b a 0x3C)
  | .strmO b a => some (wordR 1 0 b a 0x3C)
  | .strmV b a => some (wordR 2 0 b a 0x3C)
  | .strmVo b a => some (wordR 3 0 b a 0x3C)
  | .strmOff a => some (wordR 4 0 0 a 0x3C)
  | .strmVoff a => some (wordR 6 0 0 a 0x3C)
  | .streamRefill _ => none
  | .cbres c b d => some (wordR 0 c b d 0x3D)
  | .cbcom c b => some (wordR 1 c b 0 0x3D)
  | .cbacq c b d => some (wordR 2 c b d 0x3D)
  | .cbrel c b => some (wordR 3 c b 0 0x3D)
  | .cbWaitSatisfied => none
  | .credFsum c b d => some (wordR 0 c b d 0x3E)
  | .credFsums c b d => some (wordR 1 c b d 0x3E)
  | .credFmax c b d => some (wordR 2 c b d 0x3E)
  | .credFmaxn c b d => some (wordR 3 c b d 0x3E)
  | .credFmin c b d => some (wordR 4 c b d 0x3E)
  | .credIsum c b d => some (wordR 5 c b d 0x3E)
  | .credImax c b d => some (wordR 6 c b d 0x3E)
  | .credImin c b d => some (wordR 7 c b d 0x3E)
  | .credContribution _ => none
  | .roundDeadline _ => none
  | .credAnswer _ => none
  | .hmload c b a => some (wordR 0 c b a 0x3F)
  | .hmv b a => some (wordR 1 0 b a 0x3F)
  | .hmwait => some (wordR 2 0 0 0 0x3F)
  | .channelRowProgram _ _ => none
  | .hmvBarrierUpdate _ => none
  | .endRow => some 0x00000000
  | .dot => some 0x10000000
  | .scale e => some ((0x200000 : BitVec 24) ++ e)
  | .relu => some 0x30000000
  | .addc c => some ((0x4000 : BitVec 16) ++ c)
  | .emit f => some ((0x28000000 : BitVec 31) ++ f)
  | .addV p m s t d => some (wordV 0 p m s t d 0x40)
  | .subV p m s t d => some (wordV 1 p m s t d 0x40)
  | .addsV p m s t d => some (wordV 2 p m s t d 0x40)
  | .andV p m s t d => some (wordV 0 p m s t d 0x41)
  | .orV p m s t d => some (wordV 1 p m s t d 0x41)
  | .xorV p m s t d => some (wordV 2 p m s t d 0x41)
  | .shlV p m s t d => some (wordV 0 p m s t d 0x42)
  | .shrV p m s t d => some (wordV 1 p m s t d 0x42)
  | .sraV p m s t d => some (wordV 2 p m s t d 0x42)
  | .minV p m s t d => some (wordV 0 p m s t d 0x43)
  | .maxV p m s t d => some (wordV 1 p m s t d 0x43)
  | .minuV p m s t d => some (wordV 2 p m s t d 0x43)
  | .maxuV p m s t d => some (wordV 3 p m s t d 0x43)
  | .mulV p m s t d => some (wordV 0 p m s t d 0x44)
  | .mulhV p m s t d => some (wordV 1 p m s t d 0x44)
  | .wmacV p m s t d => some (wordV 2 p m s t d 0x44)
  | .waddV p m s t d => some (wordV 3 p m s t d 0x44)
  | .popcV p m t d => some (wordV 0 p m 0 t d 0x45)
  | .clzV p m t d => some (wordV 1 p m 0 t d 0x45)
  | .msetx p t d => some (wordV 0 p 0 0 t d 0x47)
  | .iotaV p m d => some (wordV 1 p m 0 0 d 0x47)
  | .addVx p m s t d => some (wordV 0 p m s t d 0x48)
  | .subVx p m s t d => some (wordV 1 p m s t d 0x48)
  | .addsVx p m s t d => some (wordV 2 p m s t d 0x48)
  | .andVx p m s t d => some (wordV 0 p m s t d 0x49)
  | .orVx p m s t d => some (wordV 1 p m s t d 0x49)
  | .xorVx p m s t d => some (wordV 2 p m s t d 0x49)
  | .shlVx p m s t d => some (wordV 0 p m s t d 0x4A)
  | .shrVx p m s t d => some (wordV 1 p m s t d 0x4A)
  | .sraVx p m s t d => some (wordV 2 p m s t d 0x4A)
  | .minVx p m s t d => some (wordV 0 p m s t d 0x4B)
  | .maxVx p m s t d => some (wordV 1 p m s t d 0x4B)
  | .minuVx p m s t d => some (wordV 2 p m s t d 0x4B)
  | .maxuVx p m s t d => some (wordV 3 p m s t d 0x4B)
  | .mulVx p m s t d => some (wordV 0 p m s t d 0x4C)
  | .mulhVx p m s t d => some (wordV 1 p m s t d 0x4C)
  | .wmacVx p m s t d => some (wordV 2 p m s t d 0x4C)
  | .waddVx p m s t d => some (wordV 3 p m s t d 0x4C)
  | .popcVx p m s t d => some (wordV 0 p m s t d 0x4D)
  | .clzVx p m s t d => some (wordV 1 p m s t d 0x4D)
  | .faddV p m s t d => some (wordV 0 p m s t d 0x50)
  | .fsubV p m s t d => some (wordV 1 p m s t d 0x50)
  | .fmulV p m s t d => some (wordV 2 p m s t d 0x50)
  | .fmaV p m s t d => some (wordV 3 p m s t d 0x50)
  | .fdivV p m s t d => some (wordV 0 p m s t d 0x51)
  | .fsqrtV p m t d => some (wordV 1 p m 0 t d 0x51)
  | .fminV p m s t d => some (wordV 2 p m s t d 0x51)
  | .fmaxV p m s t d => some (wordV 3 p m s t d 0x51)
  | .fspecV p m f t d => some (wordV 0 p m f t d 0x52)
  | .fsgnV p m f t d => some (wordV 1 p m f t d 0x52)
  | .cmpVEq m s t d => some (wordCmp 0 m s t d 0x53)
  | .cmpVNe m s t d => some (wordCmp 1 m s t d 0x53)
  | .cmpVLt m s t d => some (wordCmp 2 m s t d 0x53)
  | .cmpVLe m s t d => some (wordCmp 3 m s t d 0x53)
  | .cmpVGt m s t d => some (wordCmp 4 m s t d 0x53)
  | .cmpVGe m s t d => some (wordCmp 5 m s t d 0x53)
  | .cmpVLtu m s t d => some (wordCmp 6 m s t d 0x53)
  | .cmpVLeu m s t d => some (wordCmp 7 m s t d 0x53)
  | .cvtV p m f t d => some (wordV 0 p m f t d 0x54)
  | .scaccV p m s t d => some (wordV 0 p m s t d 0x55)
  | .rsumV p m t d => some (wordV 0 p m 0 t d 0x56)
  | .rusumV p m t d => some (wordV 1 p m 0 t d 0x56)
  | .rmaxV p m t d => some (wordV 2 p m 0 t d 0x56)
  | .rminV p m t d => some (wordV 3 p m 0 t d 0x56)
  | .rmaxxV p m t d => some (wordV 0 p m 0 t d 0x57)
  | .rminxV p m t d => some (wordV 1 p m 0 t d 0x57)
  | .scanV p m t d => some (wordV 2 p m 0 t d 0x57)
  | .scanfV p m t d => some (wordV 3 p m 0 t d 0x57)
  | .slideV p m s t d => some (wordV 0 p m s t d 0x58)
  | .permV p m s t d => some (wordV 1 p m s t d 0x58)
  | .bcastV p m t d => some (wordV 2 p m 0 t d 0x58)
  | .mergeV p s t d => some (wordV 3 p 1 s t d 0x58)
  | .extrV p s t d => some (wordV 0 p 0 s t d 0x59)
  | .insV p s t d => some (wordV 1 p 0 s t d 0x59)
  | .mvV p m t d => some (wordV 2 p m 0 t d 0x59)
  | .seteV d => some (wordV 3 0 0 0 0 d 0x59)
  | .mand p m s t d => some (wordV 0 p m s t d 0x5A)
  | .mor p m s t d => some (wordV 1 p m s t d 0x5A)
  | .mxor p m s t d => some (wordV 2 p m s t d 0x5A)
  | .mnot p m t d => some (wordV 3 p m 0 t d 0x5A)
  | .mpopc p m t d => some (wordV 0 p m 0 t d 0x5B)
  | .mfirst p m t d => some (wordV 1 p m 0 t d 0x5B)
  | .cmprsV p m t d => some (wordV 2 p m 0 t d 0x5B)
  | .cappV p m s t => some (wordV 3 p m s t 0 0x5B)
  | .cappWaitSatisfied => none
  | .ldV p m s t d => some (wordV 0 p m s t d 0x5C)
  | .stV p m s t d => some (wordV 1 p m s t d 0x5C)
  | .gathV p m s t d => some (wordV 2 p m s t d 0x5C)
  | .scatV p m s t d => some (wordV 3 p m s t d 0x5C)
  | .scataddV p m s t d => some (wordV 0 p m s t d 0x5D)
  | .bgathV p m s t d => some (wordV 1 p m s t d 0x5D)
  | .pushV s t d => some (wordV 2 0 0 s t d 0x5D)
  | .pushDelivery _ => none
  | .registerFullWake => none
  | .tldV p m s t d => some (wordV 0 p m s t d 0x5E)
  | .tstV p m s t d => some (wordV 1 p m s t d 0x5E)
  | .qgenVFrac p m s t d => some (wordV 0 p m s t d 0x5F)
  | .qgenVFp32 p m s t d => some (wordV 1 p m s t d 0x5F)
  | .stPI16 b a => some (wordR 0 0 b a 0x60)
  | .stPI32 b a => some (wordR 1 0 b a 0x60)
  | .addPI16 b a => some (wordR 0 0 b a 0x61)
  | .subPI16 b a => some (wordR 1 0 b a 0x61)
  | .andPI16 b a => some (wordR 2 0 b a 0x61)
  | .orPI16 b a => some (wordR 3 0 b a 0x61)
  | .xorPI16 b a => some (wordR 4 0 b a 0x61)
  | .maxPI16 b a => some (wordR 5 0 b a 0x61)
  | .minPI16 b a => some (wordR 6 0 b a 0x61)
  | .addPlI16 c b => some (wordR 8 c b 0 0x61)
  | .subPlI16 c b => some (wordR 9 c b 0 0x61)
  | .andPlI16 c b => some (wordR 10 c b 0 0x61)
  | .orPlI16 c b => some (wordR 11 c b 0 0x61)
  | .xorPlI16 c b => some (wordR 12 c b 0 0x61)
  | .maxPlI16 c b => some (wordR 13 c b 0 0x61)
  | .minPlI16 c b => some (wordR 14 c b 0 0x61)
  | .addPI32 b a => some (wordR 0 0 b a 0x62)
  | .subPI32 b a => some (wordR 1 0 b a 0x62)
  | .andPI32 b a => some (wordR 2 0 b a 0x62)
  | .orPI32 b a => some (wordR 3 0 b a 0x62)
  | .xorPI32 b a => some (wordR 4 0 b a 0x62)
  | .maxPI32 b a => some (wordR 5 0 b a 0x62)
  | .minPI32 b a => some (wordR 6 0 b a 0x62)
  | .addPlI32 c b => some (wordR 8 c b 0 0x62)
  | .subPlI32 c b => some (wordR 9 c b 0 0x62)
  | .andPlI32 c b => some (wordR 10 c b 0 0x62)
  | .orPlI32 c b => some (wordR 11 c b 0 0x62)
  | .xorPlI32 c b => some (wordR 12 c b 0 0x62)
  | .maxPlI32 c b => some (wordR 13 c b 0 0x62)
  | .minPlI32 c b => some (wordR 14 c b 0 0x62)
  | .addPF32 b a => some (wordR 0 0 b a 0x63)
  | .subPF32 b a => some (wordR 1 0 b a 0x63)
  | .maxPF32 b a => some (wordR 5 0 b a 0x63)
  | .minPF32 b a => some (wordR 6 0 b a 0x63)
  | .addPlF32 c b => some (wordR 8 c b 0 0x63)
  | .subPlF32 c b => some (wordR 9 c b 0 0x63)
  | .maxPlF32 c b => some (wordR 13 c b 0 0x63)
  | .minPlF32 c b => some (wordR 14 c b 0 0x63)
  | .ldPI16Sum b d => some (wordR 0 0 b d 0x64)
  | .ldPI16Max b d => some (wordR 1 0 b d 0x64)
  | .ldPI16Min b d => some (wordR 2 0 b d 0x64)
  | .ldPI16Maxu b d => some (wordR 3 0 b d 0x64)
  | .ldPI16Minu b d => some (wordR 4 0 b d 0x64)
  | .ldPI16And b d => some (wordR 5 0 b d 0x64)
  | .ldPI16Or b d => some (wordR 6 0 b d 0x64)
  | .ldPI16Xor b d => some (wordR 7 0 b d 0x64)
  | .ldPI32Sum b d => some (wordR 0 0 b d 0x65)
  | .ldPI32Max b d => some (wordR 1 0 b d 0x65)
  | .ldPI32Min b d => some (wordR 2 0 b d 0x65)
  | .ldPI32Maxu b d => some (wordR 3 0 b d 0x65)
  | .ldPI32Minu b d => some (wordR 4 0 b d 0x65)
  | .ldPI32And b d => some (wordR 5 0 b d 0x65)
  | .ldPI32Or b d => some (wordR 6 0 b d 0x65)
  | .ldPI32Xor b d => some (wordR 7 0 b d 0x65)
  | .ldPF32Fsum b d => some (wordR 0 0 b d 0x66)
  | .ldPF32Fmax b d => some (wordR 1 0 b d 0x66)
  | .ldPF32Fmin b d => some (wordR 2 0 b d 0x66)
  | .stPvI16 b a => some (wordR 0 0 b a 0x67)
  | .stPvI32 b a => some (wordR 1 0 b a 0x67)
  | .tshapeBf16 b d => some (wordR 0 0 b d 0x68)
  | .tshapeInt8 b d => some (wordR 1 0 b d 0x68)
  | .tshapeBx7 b d => some (wordR 2 0 b d 0x68)
  | .tshapeBx4 b d => some (wordR 3 0 b d 0x68)
  | .tshapeBx2 b d => some (wordR 4 0 b d 0x68)
  | .mld g t r c b a => some (wordMld 0 g t r c b a 0x69)
  | .mldx c b a => some (wordR 0 c b a 0x6A)
  | .mmaBf16 z c b a => some (wordMma z 0 c b a 0x6B)
  | .mmaInt8 z c b a => some (wordMma z 1 c b a 0x6B)
  | .mmaBx7 z c b a => some (wordMma z 2 c b a 0x6B)
  | .mmaBx4 z c b a => some (wordMma z 3 c b a 0x6B)
  | .mmaBx2 z c b a => some (wordMma z 4 c b a 0x6B)
  | .scaccM c b a => some (wordR 0 c b a 0x6C)
  | .mstFp32 c b a => some (wordR 0 c b a 0x6D)
  | .mstBf16 c b a => some (wordR 1 c b a 0x6D)
  | .mstInt32 c b a => some (wordR 2 c b a 0x6D)
  | .mdrain b a => some (wordR 0 0 b a 0x6E)
  | .mzero a => some (wordR 0 0 0 a 0x6F)
  | .mwait => some (wordR 1 0 0 0 0x6F)
  | .mwaitall => some (wordR 2 0 0 0 0x6F)
  | .thld b a => some (wordR 0 0 b a 0x70)
  | .retag f b a => some (wordR f 0 b a 0x71)
  | .twait b a => some (wordR 0 0 b a 0x72)
  | .qload b a => some (wordR 0 0 b a 0x73)
  | .pfxV o z t v d r k => some (wordPfxV 0 0 o z t v d r k 0x7F)
  | .pfxO p o s => some (wordPfxO 1 0 p o s 0x7F)
  | .burnishTile _ => none
  | .conversionRestart _ _ => none
  | .twaitReturn => none
  | .depwWaitSatisfied => none
  | .drainReturn => none
  | .matrixQueueComplete => none
  | .reductionMerge _ _ => none
  | .reductionPacketApply _ => none
  | .flitReplay _ => none
  | .linkRetrain _ _ => none
  | .linkFence _ => none
  | .clusterReset _ => none
  | .golrokRead _ _ _ _ => none
  | .golrokTableWrite _ _ _ => none
  | .preemption _ => none
  | .preemptDeadline _ => none
  | .watchdog => none
  | .ringEntryTake _ => none
  | .overflowMove _ => none
  | .taskStart => none
  | .slotFill _ => none
  | .hartSlotReturn _ => none
  | .taskComplete _ => none
  | .waittReturn => none
  | .stealRequest _ _ => none
  | .storageUncorrectable _ _ => none
  | .hartStateUncorrectable _ => none
  | .planishRecheck _ => none
  | .touchmarkCompare _ => none
  | .doorbellWrite _ _ => none
  | .summary _ => none
  | .attest _ => none
  | .sload _ => none
  | .ssave _ => none
  | .power _ => none
  | .fwload _ _ => none
  | .mailboxDone => none
  | .bar2Access _ => none
  | .bootRom => none
  | .firmwareBringup _ => none
  | .powerThrottle _ => none
  | .thermalThrottle _ => none
  | .thermalShutdown _ => none
  | .invalidatePage _ _ _ => none
  | .invalidateAsid _ _ => none
  | .invalidateAll _ => none
  | .invalidationDone _ => none
  | .dataRateChange _ => none
  | .hubRegisterWrite _ _ => none
  | .illegalInstruction _ => none
  | .fetchFault _ => none
  | .dieFence _ => none
  | .clusterReturnToService _ => none
  | .fabricPeerRequest _ => none
  | .hmloadComplete _ => none
  | .warmReset => none
  | .correctedError _ _ _ => none

/-! ### Units: a prefix and its word (R73 to R78) -/

/-- One unit: the prefix, if any, and the instruction (R78). -/
abbrev CodeUnit := Option Instr × Instr

/-- Is a word a prefix word (R73)? -/
def isPrefixWord (w : Word) : Bool := (fldMaj w).toNat = 0x7F

/-- The majors that may follow the prefix `p` (R77). -/
def placementOk (p w : Word) : Bool :=
  let maj := (fldMaj w).toNat
  if (fldF p).toNat = 0 then maj = 0x28 ∨ (0x40 ≤ maj ∧ maj ≤ 0x67) else maj = 0x24 ∨ maj = 0x25

/-- Does the instruction of this word accept PFX.V's MASK (Table 3.4)? -/
def acceptsMask (w : Word) : Bool :=
  let maj := (fldMaj w).toNat
  if 0x60 ≤ maj then true else if maj = 0x28 then false else fldM w = 1

/-- Does the instruction of this word accept an RM other than 7 (Table 3.4)? -/
def acceptsRm (w : Word) : Bool :=
  let f := (fldF w).toNat
  let f2 := (fldF2 w).toNat
  match (fldMaj w).toNat with
  | 0x28 => f ≤ 4 ∨ f = 7 ∨ f = 0xB ∨ f = 0xC
  | 0x50 => true
  | 0x51 => f2 ≤ 1
  | 0x54 => true
  | 0x56 => f2 ≤ 1
  | 0x57 => 2 ≤ f2
  | _ => false

/-- Does the instruction of this word accept D (Table 3.4)? -/
def acceptsD (w : Word) : Bool :=
  let f2 := (fldF2 w).toNat
  match (fldMaj w).toNat with
  | 0x44 => f2 = 2
  | 0x4C => f2 = 2
  | 0x50 => f2 = 3
  | 0x55 => true
  | _ => false

/-- Does the instruction of this word require D (Table 3.4)? -/
def requiresD (w : Word) : Bool := (fldMaj w).toNat = 0x55

/-- Does the instruction of this word accept OVR, MZ and TZ (Table 3.4)? -/
def acceptsPolicy (w : Word) : Bool :=
  let maj := (fldMaj w).toNat
  0x40 ≤ maj ∧ maj ≤ 0x5F

/-- The refusals of R75 and R76 that depend on the pairing of a prefix `p` with its word `w` (R85 point d). -/
def pairCheck (p w : Word) : Except Reject Unit :=
  if (fldF p).toNat = 0 then
    both (limit (fldMask p = 0 ∨ acceptsMask w) .prefixField)
      (both (limit (fldRm p = 7 ∨ acceptsRm w) .prefixField)
        (both (limit (fldDv p = 0 ∨ acceptsD w) .prefixField)
          (both (limit (fldOvr p = 0 ∨ acceptsPolicy w) .prefixField)
            (limit (fldDv p = 1 ∨ ¬ requiresD w) .dRequired))))
  else
    both (limit (fldPosted p = 0 ∨ fldA w = 0) .prefixField)
      (limit (fldPosted p = 0 ∨ fldF w ≠ 0xC) .prefixField)

/-- The unit whose first word is `w0` and whose next word is `w1`, or the first failing check and the word it names in
TVAL (R85 step 2, points a to d). `w1` matters only when `w0` is a prefix. -/
def decodeUnit (w0 w1 : Word) : Except (Reject × Word) CodeUnit :=
  if isPrefixWord w0 then
    match decodeWord w0 with
    | .error r => .error (r, w0)
    | .ok p =>
      if placementOk w0 w1 then
        match decodeWord w1 with
        | .error r => .error (r, w1)
        | .ok i =>
          match pairCheck w0 w1 with
          | .error r => .error (r, w0)
          | .ok _ => .ok (some p, i)
      else .error (.placement, w1)
  else
    match decodeWord w0 with
    | .error r => .error (r, w0)
    | .ok i => if requiresD w0 then .error (.dRequired, w0) else .ok (none, i)

/-! ### Bytes, and the opcode table's own numbering -/

/-- A word from its four bytes, the lowest address first (R9). -/
def wordOfBytes (b0 b1 b2 b3 : Byte) : Word := b3 ++ b2 ++ b1 ++ b0

/-- The four bytes of a word as memory holds them (R9, R68). -/
def bytesOfWord (w : Word) : List Byte :=
  [w.extractLsb' 0 8, w.extractLsb' 8 8, w.extractLsb' 16 8, w.extractLsb' 24 8]

/-- The instruction in the first four bytes of a list, a hart's or, where a hart has none, a pseudo-channel's. -/
def decodeBytes (bs : List Byte) : Option Instr :=
  match bs with
  | b0 :: b1 :: b2 :: b3 :: _ =>
    let w := wordOfBytes b0 b1 b2 b3
    match decodeWord w with
    | .ok i => some i
    | .error _ =>
      match decodeMicro w with
      | .ok i => some i
      | .error _ => none
  | _ => none

/-- The instruction whose bits are `w`, numbered as the opcode table numbers them. Every row has one word of 32 bits, so
the bits above `nbits` are zeros of that word. -/
def decodeTableWord (nbits w : Nat) : Option Instr :=
  decodeBytes (bytesOfWord (BitVec.ofNat 32 (w % 2 ^ (min nbits 32))))

end

end Sys2Proof
end

