-- ==== Sys2Proof/Machine/Bits.lean ====
section
/-!
DEFINITION. The bit-field, sign-extension and byte-order helpers, and the sorted association lists that memory, poison
marks and the engines' tables are held in.
-/

namespace Sys2Proof.Machine

/-- SEXT(v, n) of Table 0.8, to 64 bits. -/
def sext {n : Nat} (v : BitVec n) : DWord := v.signExtend 64

/-- ZEXT(v, n) of Table 0.8, to 64 bits. -/
def zext {n : Nat} (v : BitVec n) : DWord := v.setWidth 64

/-- TRUNC(v, 64) of an exact integer. -/
def dw (v : Int) : DWord := BitVec.ofInt 64 v

/-- The bits [lo + n − 1 : lo] of a register as a number. -/
def bitsAt (v : DWord) (lo n : Nat) : Nat := (v.toNat >>> lo) % 2 ^ n

/-- Bit `i` of a register. -/
def bitAt (v : DWord) (i : Nat) : Bool := v.getLsbD i

/-- 1 or 0 in a scalar register. -/
def flag (b : Bool) : DWord := if b then 1 else 0

/-- The number of one bits among the low `n` bits. -/
def popCount : Nat → Nat → Nat
  | 0, _ => 0
  | n + 1, v => v % 2 + popCount n (v / 2)

/-- The number of zero bits above the highest one bit of the low `n` bits. -/
def leadingZeros : Nat → Nat → Nat
  | 0, _ => 0
  | n + 1, v => if v / 2 ^ n % 2 = 1 then 0 else 1 + leadingZeros n v

/-- The little-endian number of a list of bytes (R9). -/
def leNat : List Byte → Nat
  | [] => 0
  | b :: bs => b.toNat + 256 * leNat bs

/-- The `n` low bytes of a number, the lowest first (R9). -/
def leBytes : Nat → Nat → List Byte
  | 0, _ => []
  | n + 1, v => BitVec.ofNat 8 (v % 256) :: leBytes n (v / 256)

/-- 0, 1, …, n − 1, built from the front so that it evaluates in order. -/
def upTo (n : Nat) : List Nat := List.range n

/-- lo, lo + 1, …, hi − 1. -/
def fromTo (lo hi : Nat) : List Nat := (List.range (hi - lo)).map (lo + ·)

/-! ### Sorted association lists -/

/-- The value at a key. -/
def getKey {β : Type} (k : Nat) : List (Nat × β) → Option β
  | [] => none
  | c :: rest => if c.1 = k then some c.2 else getKey k rest

/-- The list with the key's value set; the keys stay in rising order. -/
def putKey {β : Type} (k : Nat) (v : β) : List (Nat × β) → List (Nat × β)
  | [] => [(k, v)]
  | c :: rest =>
    if c.1 < k then c :: putKey k v rest
    else if c.1 = k then (k, v) :: rest
    else (k, v) :: c :: rest

/-- The list without the key. -/
def delKey {β : Type} (k : Nat) : List (Nat × β) → List (Nat × β)
  | [] => []
  | c :: rest => if c.1 = k then delKey k rest else c :: delKey k rest

/-! ### Vectors of elements inside one wide register -/

/-- Element `e` of width `w` bits of a register (R9, R46). -/
def elemOf {n : Nat} (v : BitVec n) (w e : Nat) : Nat := (v.toNat >>> (e * w)) % 2 ^ w

/-- The register with element `e` of width `w` bits replaced. -/
def setElemOf {n : Nat} (v : BitVec n) (w e : Nat) (x : Nat) : BitVec n :=
  let sh := e * w
  let old := (v.toNat >>> sh) % 2 ^ w
  BitVec.ofNat n (v.toNat - old * 2 ^ sh + (x % 2 ^ w) * 2 ^ sh)

/-- The signed value of a `w`-bit element. -/
def signedOf (w x : Nat) : Int := if x < 2 ^ (w - 1) then (x : Int) else (x : Int) - (2 ^ w : Nat)

/-- TRUNC to `w` bits of an exact integer. -/
def truncTo (w : Nat) (x : Int) : Nat := (x % (2 ^ w : Nat)).toNat

/-! ### SipHash-2-4 (R317) -/

/-- The four words of SipHash's state. -/
structure SipState where
  v0 : DWord
  v1 : DWord
  v2 : DWord
  v3 : DWord
deriving DecidableEq, Repr

/-- One SipRound. -/
def SipState.round (s : SipState) : SipState :=
  let v0 := s.v0 + s.v1
  let v2 := s.v2 + s.v3
  let v1 := s.v1.rotateLeft 13 ^^^ v0
  let v3 := s.v3.rotateLeft 16 ^^^ v2
  let v0 := v0.rotateLeft 32
  let v2 := v2 + v1
  let v0 := v0 + v3
  let v1 := v1.rotateLeft 17 ^^^ v2
  let v3 := v3.rotateLeft 21 ^^^ v0
  ⟨v0, v1, v2.rotateLeft 32, v3⟩

/-- One 8-byte block of the message. -/
def SipState.absorb (s : SipState) (m : DWord) : SipState :=
  let s := ({ s with v3 := s.v3 ^^^ m }).round.round
  { s with v0 := s.v0 ^^^ m }

/-- SipHash-2-4 of a 16-byte message, its two little-endian halves, under a 128-bit key. -/
def sipHash (key : BitVec 128) (lo hi : DWord) : DWord :=
  let k0 := key.extractLsb' 0 64
  let k1 := key.extractLsb' 64 64
  let s : SipState := ⟨k0 ^^^ 0x736f6d6570736575, k1 ^^^ 0x646f72616e646f6d, k0 ^^^ 0x6c7967656e657261,
    k1 ^^^ 0x7465646279746573⟩
  let s := ((s.absorb lo).absorb hi).absorb 0x1000000000000000
  let s := ({ s with v2 := s.v2 ^^^ 0xFF }).round.round.round.round
  s.v0 ^^^ s.v1 ^^^ s.v2 ^^^ s.v3

end Sys2Proof.Machine
end

