-- ==== Sys2Proof/Machine/Float.lean ====
section
/-!
DEFINITION. Floating-point arithmetic (R88 to R95, R100, R108, R109). A finite value is an exact dyadic number; one function,
`roundDyadic`, rounds it to a format and says which flags the rounding raises.
-/

namespace Sys2Proof.Machine

/-- An IEEE format by the widths of its exponent and fraction (Table 4.2). -/
structure FFmt where
  ebits : Nat
  fbits : Nat
deriving DecidableEq, Repr

/-- BF16 (Table 4.2). -/
def bf16 : FFmt := ⟨8, 7⟩
/-- FP32 (Table 4.2). -/
def fp32 : FFmt := ⟨8, 23⟩
/-- FP64 (Table 4.2). -/
def fp64 : FFmt := ⟨11, 52⟩

/-- The format's width in bits. -/
def FFmt.width (f : FFmt) : Nat := f.ebits + f.fbits + 1
/-- The format's exponent bias. -/
def FFmt.bias (f : FFmt) : Int := (2 ^ (f.ebits - 1) - 1 : Nat)
/-- The exponent of the smallest subnormal. -/
def FFmt.qmin (f : FFmt) : Int := 1 - f.bias - f.fbits
/-- The canonical quiet NaN (R90, Table 0.8). -/
def FFmt.nan (f : FFmt) : Nat := (2 ^ (f.ebits + 1) - 1) * 2 ^ (f.fbits - 1)
/-- ±Inf. -/
def FFmt.inf (f : FFmt) (neg : Bool) : Nat :=
  (if neg then 2 ^ (f.ebits + f.fbits) else 0) + (2 ^ f.ebits - 1) * 2 ^ f.fbits
/-- ±0. -/
def FFmt.zero (f : FFmt) (neg : Bool) : Nat := if neg then 2 ^ (f.ebits + f.fbits) else 0
/-- ± the largest finite value. -/
def FFmt.largest (f : FFmt) (neg : Bool) : Nat := f.inf neg - 1

/-- The rounding modes of R91. -/
inductive RMode where
  | rne
  | rtz
  | rdn
  | rup
  | rna
deriving DecidableEq, Repr

/-- The mode of a rounding code of Table 2.2; the codes above 4 never reach here (R52, Table 3.3). -/
def rmodeOf (c : Nat) : RMode :=
  match c with
  | 0 => .rne
  | 1 => .rtz
  | 2 => .rdn
  | 3 => .rup
  | _ => .rna

/-- The flag bits of FCR (Table 2.6). -/
def flagNV : FpFlags := 16
/-- Division by zero (Table 2.6). -/
def flagDZ : FpFlags := 8
/-- Overflow (Table 2.6). -/
def flagOF : FpFlags := 4
/-- Underflow (Table 2.6). -/
def flagUF : FpFlags := 2
/-- Inexact (Table 2.6). -/
def flagNX : FpFlags := 1

/-- What the bits of a floating-point operand say: a NaN, an infinity, or m · 2^e with a sign (m = 0: a zero). -/
inductive FVal where
  | nan (signalling : Bool)
  | inf (neg : Bool)
  | num (neg : Bool) (m : Nat) (e : Int)
deriving DecidableEq, Repr

/-- The value of an encoding (R88). -/
def unpack (f : FFmt) (b : Nat) : FVal :=
  let frac := b % 2 ^ f.fbits
  let ex := b / 2 ^ f.fbits % 2 ^ f.ebits
  let neg := b / 2 ^ (f.fbits + f.ebits) % 2 = 1
  if ex = 2 ^ f.ebits - 1 then
    if frac = 0 then .inf neg else .nan (frac < 2 ^ (f.fbits - 1))
  else if ex = 0 then .num neg frac f.qmin
  else .num neg (frac + 2 ^ f.fbits) (f.qmin + ex - 1)

/-- A signalling NaN operand sets NV (R90, R92). -/
def signals : FVal → FpFlags
  | .nan true => flagNV
  | _ => 0

/-- Is the value a NaN? -/
def isNan : FVal → Bool
  | .nan _ => true
  | _ => false

/-! ### Rounding -/

/-- Does mode `rm` take the upper magnitude, for remainder `rem` of a step `2 ^ sh` above an even or odd `n` (R91)? -/
def roundsUp (rm : RMode) (neg : Bool) (n rem sh : Nat) : Bool :=
  match rm with
  | .rne => 2 * rem > 2 ^ sh || (2 * rem = 2 ^ sh && n % 2 = 1)
  | .rtz => false
  | .rdn => neg && rem ≠ 0
  | .rup => !neg && rem ≠ 0
  | .rna => 2 * rem ≥ 2 ^ sh && rem ≠ 0

/-- m · 2^e rounded to a multiple of 2^q: the multiple, and whether it differs. -/
def roundAt (rm : RMode) (neg : Bool) (m : Nat) (e q : Int) : Nat × Bool :=
  if q ≤ e then (m * 2 ^ (e - q).toNat, false)
  else
    let sh := (q - e).toNat
    let n := m / 2 ^ sh
    let rem := m % 2 ^ sh
    (if roundsUp rm neg n rem sh then n + 1 else n, rem ≠ 0)

/-- The exact non-zero value ± m · 2^e rounded to a format, and the flags of the rounding: OF and NX, UF by tininess after
rounding, NX (R91, R92). -/
def roundDyadic (f : FFmt) (rm : RMode) (neg : Bool) (m : Nat) (e : Int) : Nat × FpFlags :=
  if m = 0 then (f.zero neg, 0)
  else
    let p := f.fbits + 1
    let qu : Int := e + (m.log2 + 1 : Nat) - p
    let q := max qu f.qmin
    let (n, inexact) := roundAt rm neg m e q
    let (nu, _) := roundAt rm neg m e qu
    let emin : Int := f.qmin + f.fbits
    let top : Int := if nu = 2 ^ p then qu + p else qu + p - 1
    let tiny := top < emin
    let (n, q) := if n = 2 ^ p then (2 ^ (p - 1), q + 1) else (n, q)
    let biased : Nat := if n < 2 ^ f.fbits then 0 else (q - f.qmin + 1).toNat
    if biased ≥ 2 ^ f.ebits - 1 then
      let toInf := match rm with
        | .rne => true
        | .rna => true
        | .rtz => false
        | .rdn => neg
        | .rup => !neg
      (if toInf then f.inf neg else f.largest neg, flagOF ||| flagNX)
    else
      let frac := if biased = 0 then n else n - 2 ^ f.fbits
      ((if neg then 2 ^ (f.ebits + f.fbits) else 0) + biased * 2 ^ f.fbits + frac,
        (if inexact then flagNX else 0) ||| (if tiny && inexact then flagUF else 0))

/-- An exact value that lies strictly between m · 2^e and (m + 1) · 2^e, rounded; m has more bits than the format. -/
def roundSticky (f : FFmt) (rm : RMode) (neg : Bool) (m : Nat) (e : Int) (sticky : Bool) : Nat × FpFlags :=
  roundDyadic f rm neg (if sticky then 2 * m + 1 else 2 * m) (e - 1)

/-- The sign of an exact zero sum of operands that cancel (R91). -/
def zeroSumNeg (rm : RMode) : Bool := rm = .rdn

/-- The exact sum of two signed dyadic numbers. -/
def addDyadic (a b : Int × Int) : Int × Int :=
  let e := min a.2 b.2
  (a.1 * 2 ^ (a.2 - e).toNat + b.1 * 2 ^ (b.2 - e).toNat, e)

/-- A sign and a magnitude as a signed number. -/
def signedMag (neg : Bool) (m : Nat) : Int := if neg then -(m : Int) else m

/-- An exact signed dyadic number rounded; `zneg` is the sign of an exact zero. -/
def roundInt (f : FFmt) (rm : RMode) (zneg : Bool) (s e : Int) : Nat × FpFlags :=
  if s = 0 then (f.zero zneg, 0) else roundDyadic f rm (s < 0) s.natAbs e

/-! ### Arithmetic -/

/-- The sum of two values in a mode (R91, R92). -/
def fAddVal (f : FFmt) (rm : RMode) (a b : FVal) : Nat × FpFlags :=
  match a, b with
  | .nan _, _ => (f.nan, signals a ||| signals b)
  | _, .nan _ => (f.nan, signals a ||| signals b)
  | .inf s, .inf t => if s = t then (f.inf s, 0) else (f.nan, flagNV)
  | .inf s, _ => (f.inf s, 0)
  | _, .inf t => (f.inf t, 0)
  | .num s m e, .num t n d =>
    let zneg := if m = 0 && n = 0 then (if s = t then s else zeroSumNeg rm) else zeroSumNeg rm
    let (v, q) := addDyadic (signedMag s m, e) (signedMag t n, d)
    roundInt f rm zneg v q

/-- The value with its sign inverted. -/
def negVal : FVal → FVal
  | .nan q => .nan q
  | .inf s => .inf (!s)
  | .num s m e => .num (!s) m e

/-- FADD. -/
def fAdd (f : FFmt) (rm : RMode) (a b : Nat) : Nat × FpFlags := fAddVal f rm (unpack f a) (unpack f b)
/-- FSUB. -/
def fSub (f : FFmt) (rm : RMode) (a b : Nat) : Nat × FpFlags := fAddVal f rm (unpack f a) (negVal (unpack f b))

/-- FMUL. -/
def fMul (f : FFmt) (rm : RMode) (a b : Nat) : Nat × FpFlags :=
  let x := unpack f a
  let y := unpack f b
  match x, y with
  | .nan _, _ => (f.nan, signals x ||| signals y)
  | _, .nan _ => (f.nan, signals x ||| signals y)
  | .inf s, .inf t => (f.inf (s != t), 0)
  | .inf s, .num t m _ => if m = 0 then (f.nan, flagNV) else (f.inf (s != t), 0)
  | .num s m _, .inf t => if m = 0 then (f.nan, flagNV) else (f.inf (s != t), 0)
  | .num s m e, .num t n d => if m * n = 0 then (f.zero (s != t), 0) else roundDyadic f rm (s != t) (m * n) (e + d)

/-- The product of two values is 0 × Inf. -/
def zeroTimesInf : FVal → FVal → Bool
  | .inf _, .num _ m _ => m = 0
  | .num _ m _, .inf _ => m = 0
  | _, _ => false

/-- a × b + c with one rounding (R92, R109). -/
def fMa (f : FFmt) (rm : RMode) (a b c : Nat) : Nat × FpFlags :=
  let x := unpack f a
  let y := unpack f b
  let z := unpack f c
  let sig := signals x ||| signals y ||| signals z
  if zeroTimesInf x y then (f.nan, flagNV)
  else if isNan x || isNan y || isNan z then (f.nan, sig)
  else
    match x, y with
    | .num s m e, .num t n d => fAddVal f rm (.num (s != t) (m * n) (e + d)) z
    | .inf s, .inf t => fAddVal f rm (.inf (s != t)) z
    | .inf s, .num t _ _ => fAddVal f rm (.inf (s != t)) z
    | .num s _ _, .inf t => fAddVal f rm (.inf (s != t)) z
    | _, _ => (f.nan, sig)

/-- The quotient m / n, with sticky, of at least `p + 3` bits: quotient, exponent offset, sticky. -/
def quotBits (p m n : Nat) : Nat × Int × Bool :=
  let k := p + 4 + n.log2
  let q := m * 2 ^ k / n
  (q, -(k : Int), m * 2 ^ k % n ≠ 0)

/-- FDIV (R92, R109). -/
def fDiv (f : FFmt) (rm : RMode) (a b : Nat) : Nat × FpFlags :=
  let x := unpack f a
  let y := unpack f b
  match x, y with
  | .nan _, _ => (f.nan, signals x ||| signals y)
  | _, .nan _ => (f.nan, signals x ||| signals y)
  | .inf _, .inf _ => (f.nan, flagNV)
  | .inf s, .num t _ _ => (f.inf (s != t), 0)
  | .num s _ _, .inf t => (f.zero (s != t), 0)
  | .num s m e, .num t n d =>
    if n = 0 then (if m = 0 then (f.nan, flagNV) else (f.inf (s != t), flagDZ))
    else if m = 0 then (f.zero (s != t), 0)
    else
      let (q, k, st) := quotBits f.fbits m n
      roundSticky f rm (s != t) q (e - d + k) st

/-- The integer square root by bits, from bit `k` down. -/
def isqrtFrom : Nat → Nat → Nat → Nat
  | 0, _, acc => acc
  | k + 1, n, acc =>
    let t := acc + 2 ^ k
    isqrtFrom k n (if t * t ≤ n then t else acc)

/-- ⌊√n⌋. -/
def isqrt (n : Nat) : Nat := isqrtFrom (n.log2 / 2 + 1) n 0

/-- √(m · 2^e) for m ≠ 0 with at least `p + 3` bits: root, exponent, sticky. -/
def rootBits (p m : Nat) (e : Int) : Nat × Int × Bool :=
  let k := 2 * (p + 4)
  let k := if (e - k) % 2 = 0 then k else k + 1
  let v := m * 2 ^ k
  let r := isqrt v
  (r, (e - k) / 2, r * r ≠ v)

/-- FSQRT (R92, R109): −0 gives −0. -/
def fSqrt (f : FFmt) (rm : RMode) (a : Nat) : Nat × FpFlags :=
  let x := unpack f a
  match x with
  | .nan _ => (f.nan, signals x)
  | .inf s => if s then (f.nan, flagNV) else (f.inf false, 0)
  | .num s m e =>
    if m = 0 then (f.zero s, 0)
    else if s then (f.nan, flagNV)
    else
      let (r, q, st) := rootBits f.fbits m e
      roundSticky f rm false r q st

/-! ### Comparison, minimum and maximum -/

/-- The order of two values that are no NaN, −0 equal to +0 (R94). -/
def cmpVal (x y : FVal) : Ordering :=
  match x, y with
  | .inf s, .inf t => if s = t then .eq else if s then .lt else .gt
  | .inf s, _ => if s then .lt else .gt
  | _, .inf t => if t then .gt else .lt
  | .num s m e, .num t n d =>
    let q := min e d
    compare (signedMag s m * 2 ^ (e - q).toNat) (signedMag t n * 2 ^ (d - q).toNat)
  | _, _ => .eq

/-- The conditions of CMP.V and of the scalar comparisons (R81, R94). -/
inductive FCond where
  | eq
  | ne
  | lt
  | le
  | gt
  | ge
  | unord
  | ord
deriving DecidableEq, Repr

/-- Is the condition a quiet one (R94)? -/
def FCond.quiet : FCond → Bool
  | .eq => true
  | .ne => true
  | .unord => true
  | .ord => true
  | _ => false

/-- A comparison and its flags (R94). -/
def fCmp (f : FFmt) (c : FCond) (a b : Nat) : Bool × FpFlags :=
  let x := unpack f a
  let y := unpack f b
  if isNan x || isNan y then
    (c = .ne || c = .unord, if c.quiet then signals x ||| signals y else flagNV)
  else
    let o := cmpVal x y
    (match c with
      | .eq => o = .eq
      | .ne => o ≠ .eq
      | .lt => o = .lt
      | .le => o ≠ .gt
      | .gt => o = .gt
      | .ge => o ≠ .lt
      | .unord => false
      | .ord => true, 0)

/-- Is the value below zero, or −0? -/
def isNeg : FVal → Bool
  | .inf s => s
  | .num s _ _ => s
  | .nan _ => false

/-- `minimum` and `maximum` of IEEE 754-2019: a NaN gives the canonical NaN, −0 orders below +0 (R94). -/
def fMinMax (f : FFmt) (wantMax : Bool) (a b : Nat) : Nat × FpFlags :=
  let x := unpack f a
  let y := unpack f b
  if isNan x || isNan y then (f.nan, signals x ||| signals y)
  else
    let aFirst := match cmpVal x y with
      | .lt => !wantMax
      | .gt => wantMax
      | .eq => if wantMax then !isNeg x else isNeg x
    (if aFirst then a else b, 0)

/-! ### Conversions (R95) -/

/-- m · 2^e rounded to an integer magnitude, and whether it differs. -/
def roundToNat (rm : RMode) (neg : Bool) (m : Nat) (e : Int) : Nat × Bool := roundAt rm neg m e 0

/-- IEEE to a signed integer of `w` bits: saturated, NaN gives 0, NV for both, NX otherwise (R95, R92). -/
def fToInt (f : FFmt) (rm : RMode) (w : Nat) (a : Nat) : Int × FpFlags :=
  let top : Int := (2 ^ (w - 1) : Nat)
  match unpack f a with
  | .nan _ => (0, flagNV)
  | .inf s => (if s then -top else top - 1, flagNV)
  | .num s m e =>
    if m = 0 then (0, 0)
    else
      let (n, inexact) := roundToNat rm s m e
      let v := signedMag s n
      if v > top - 1 then (top - 1, flagNV)
      else if v < -top then (-top, flagNV)
      else (v, if inexact then flagNX else 0)

/-- A signed integer to IEEE (R95). -/
def fOfInt (f : FFmt) (rm : RMode) (v : Int) : Nat × FpFlags := roundInt f rm false v 0

/-- Between IEEE formats (R95). -/
def fConvert (src dst : FFmt) (rm : RMode) (a : Nat) : Nat × FpFlags :=
  let x := unpack src a
  match x with
  | .nan _ => (dst.nan, signals x)
  | .inf s => (dst.inf s, 0)
  | .num s m e => if m = 0 then (dst.zero s, 0) else roundDyadic dst rm s m e

/-! ### Special functions (R108, R109) -/

/-- ln 2 · 2^300, rounded down. -/
def ln2Fixed : Nat :=
  0xb17217f7d1cf79abc9e3b39803f2f6af40f343267298b62d8a0d175b8baafa2be7b876206de
/-- (2/π) · 2^700, rounded down. -/
def twoOverPiFixed : Nat :=
  0xa2f9836e4e441529fc2757d1f534ddc0db6295993c439041fe5163abdebbc561b7246e3a424dd2e006492eea09d1921cfe1deb1cb129a73ee88235f52ebb4484e99c7026b45f7e413991d639835339f49c845f8bbdf9283
/-- π · 2^300, rounded down. -/
def piFixed : Nat :=
  0x3243f6a8885a308d313198a2e03707344a4093822299f31d0082efa98ec4e6c89452821e638d

/-- Fixed-point numbers of the special functions have 300 fraction bits. -/
def fixOne : Nat := 2 ^ 300

/-- Σ over the first terms of e^x by fixed-point Taylor terms: `term` is x^k / k!. -/
def expSeries : Nat → Nat → Nat → Nat → Nat → Nat
  | 0, _, _, _, acc => acc
  | n + 1, x, k, term, acc =>
    let t := term * x / fixOne / k
    expSeries n x (k + 1) t (acc + t)

/-- 2^f for a fraction f, both fixed-point. -/
def exp2Frac (fr : Nat) : Nat :=
  expSeries 80 (fr * ln2Fixed / fixOne) 1 fixOne fixOne

/-- 2 · artanh z by fixed-point terms z^(2k+1) / (2k+1), doubled. -/
def atanhSeries : Nat → Nat → Nat → Nat → Nat → Nat
  | 0, _, _, _, acc => 2 * acc
  | n + 1, z2, k, pw, acc =>
    let p := pw * z2 / fixOne
    atanhSeries n z2 (k + 2) p (acc + p / k)

/-- log2 y for y = m / 2^len in [1, 2), as fixed-point. -/
def log2Frac (m len : Nat) : Nat :=
  let z := (m - 2 ^ len) * fixOne / (m + 2 ^ len)
  let ln := atanhSeries 100 (z * z / fixOne) 3 z z
  ln * fixOne / ln2Fixed

/-- The alternating series of sine (from k = 1, term = r) or cosine (from k = 0, term = 1). -/
def trigSeries : Nat → Nat → Nat → Int → Int → Int
  | 0, _, _, _, acc => acc
  | n + 1, r2, k, term, acc =>
    let t := -(term * r2 / fixOne) / ((k + 1) * (k + 2) : Nat)
    trigSeries n r2 (k + 2) t (acc + t)

/-- sin r and cos r for a fixed-point r in [0, π/2). -/
def sinFixed (r : Nat) : Nat := (trigSeries 50 (r * r / fixOne) 1 r r).toNat
/-- cos r for a fixed-point r in [0, π/2). -/
def cosFixed (r : Nat) : Nat := (trigSeries 50 (r * r / fixOne) 0 fixOne fixOne).toNat

/-- A value that is no representable number, known to more than 200 bits as v · 2^e, rounded by RNE. -/
def roundReal (f : FFmt) (neg : Bool) (v : Nat) (e : Int) : Nat × FpFlags := roundSticky f .rne neg v e true

/-- A value just below m · 2^e in magnitude. -/
def justBelow (f : FFmt) (neg : Bool) (m : Nat) (e : Int) : Nat × FpFlags :=
  roundDyadic f .rne neg (m * 2 ^ 64 - 1) (e - 64)

/-- EXP2 of a non-zero finite value. -/
def specExp2 (f : FFmt) (neg : Bool) (m : Nat) (e : Int) : Nat × FpFlags :=
  let big := e + (m.log2 : Nat) ≥ 11
  if big then
    if neg then roundDyadic f .rne false 1 (-2048) else roundDyadic f .rne false 1 2048
  else if 0 ≤ e then
    let n := signedMag neg (m * 2 ^ e.toNat)
    roundDyadic f .rne false 1 n
  else
    let d := 2 ^ (-e).toNat
    if m % d = 0 then roundDyadic f .rne false 1 (signedMag neg (m / d))
    else
      let n := signedMag neg m / (d : Int)
      let fr := (signedMag neg m - n * d).toNat
      roundReal f false (exp2Frac (fr * fixOne / d)) (n - 300)

/-- LOG2 of a positive finite value. -/
def specLog2 (f : FFmt) (m : Nat) (e : Int) : Nat × FpFlags :=
  let len := m.log2
  let ex : Int := e + len
  if m = 2 ^ len then roundInt f .rne false ex 0
  else
    let v : Int := ex * fixOne + log2Frac m len
    roundReal f (v < 0) (if v < 0 then v.natAbs - 1 else v.natAbs) (-300)

/-- TANH of a non-zero finite value. -/
def specTanh (f : FFmt) (neg : Bool) (m : Nat) (e : Int) : Nat × FpFlags :=
  let top : Int := e + (m.log2 : Nat)
  if top < -20 then justBelow f neg m e
  else if cmpVal (.num false m e) (.num false 9 0) ≠ .lt then
    (f.zero neg + f.bias.toNat * 2 ^ f.fbits, flagNX)
  else
    -- e^(2x) = 2^n · 2^fr with n + fr = 2x / ln 2
    let x2 : Nat := if e + 301 ≥ 0 then m * 2 ^ (e + 301).toNat else m / 2 ^ (-(e + 301)).toNat
    let y := x2 * fixOne / ln2Fixed
    let ex := exp2Frac (y % fixOne) * 2 ^ (y / fixOne)
    roundReal f neg ((ex - fixOne) * fixOne / (ex + fixOne)) (-300)

/-- The quadrant and the reduced argument of a finite magnitude m · 2^e: ⌊x · 2/π⌋ mod 4 and r in [0, π/2). -/
def reduceArg (m : Nat) (e : Int) : Nat × Nat :=
  -- x · 2/π with 300 fraction bits
  let t : Nat := if e - 400 ≥ 0 then m * twoOverPiFixed * 2 ^ (e - 400).toNat
    else m * twoOverPiFixed / 2 ^ (400 - e).toNat
  (t / fixOne % 4, t % fixOne * piFixed / fixOne / 2)

/-- SIN or COS of a finite value. -/
def specTrig (f : FFmt) (cosine : Bool) (neg : Bool) (m : Nat) (e : Int) : Nat × FpFlags :=
  let top : Int := e + (m.log2 : Nat)
  if top < -20 then
    if cosine then justBelow f false 1 0 else justBelow f neg m e
  else
    let (q, r) := reduceArg m e
    let q := if cosine then (q + 1) % 4 else q
    -- sin(x) by quadrant: sin r, cos r, −sin r, −cos r
    let v := if q % 2 = 0 then sinFixed r else cosFixed r
    let sgn := if cosine then 2 ≤ q else (neg != decide (2 ≤ q))
    roundReal f sgn v (-300)

/-- FSPEC.V of one element: function code, format, operand (Table 4.6). -/
def fSpec (f : FFmt) (code : Nat) (a : Nat) : Nat × FpFlags :=
  let x := unpack f a
  let one := f.bias.toNat * 2 ^ f.fbits
  match x with
  | .nan _ => (f.nan, signals x)
  | .inf s =>
    match code with
    | 0 => if s then (f.zero false, 0) else (f.inf false, 0)
    | 1 => if s then (f.nan, flagNV) else (f.inf false, 0)
    | 2 => (f.zero s, 0)
    | 3 => if s then (f.nan, flagNV) else (f.zero false, 0)
    | 4 => (f.zero s + one, 0)
    | _ => (f.nan, flagNV)
  | .num s m e =>
    match code with
    | 0 => if m = 0 then (one, 0) else specExp2 f s m e
    | 1 => if m = 0 then (f.inf true, flagDZ) else if s then (f.nan, flagNV) else specLog2 f m e
    | 2 =>
      if m = 0 then (f.inf s, flagDZ)
      else
        let (q, k, st) := quotBits f.fbits 1 m
        roundSticky f .rne s q (k - e) st
    | 3 =>
      if m = 0 then (f.inf s, flagDZ)
      else if s then (f.nan, flagNV)
      else
        -- 1/√(m · 2^e) = √(2^(2k) / m · 2^(−e − 2k)): a quotient of enough bits, then its root
        let (q, k, st) := quotBits 128 1 m
        let (r, d, st2) := rootBits f.fbits q (k - e)
        roundSticky f .rne false r d (st || st2)
    | 4 => if m = 0 then (f.zero s, 0) else specTanh f s m e
    | 5 => if m = 0 then (f.zero s, 0) else specTrig f false s m e
    | _ => if m = 0 then (one, 0) else specTrig f true s m e

end Sys2Proof.Machine
end

