-- ==== Sys2Proof/Config.lean ====
section
/-!
DEFINITION. The free values of the model: constants without a body for what the manual leaves open. Nothing in Lean can
prove a value of one.
-/

namespace Sys2Proof.Config

/-- A reading of TIME (Table 2.4, Table 13.1); the argument tells one reading from another. -/
opaque timeReading : Nat → BitVec 64

/-- A reading of CYC (Table 2.4, Table 13.1). -/
opaque cycleReading : Nat → BitVec 64

/-- The tree that RUSUM.V or SCANF.V takes: at each step, which two of the values still to add are added (R107). -/
opaque treePick : Nat → Nat → Nat × Nat

/-- The two secret keys K0 and K1 that the security engine draws at a launch (R317); the argument is the task. -/
opaque touchKeys : Nat → BitVec 128 × BitVec 128

/-- The fabric identifier of the device at the other end of a fabric port: the system's wiring (Table 10.2). -/
opaque portPeer : Nat → BitVec 16

/-- The cluster to which Bellows assigns a logical hart of a task when the task starts (R256): task, logical hart. -/
opaque homeCluster : Nat → Nat → Nat

/-- Which stack of its die, and where in it, the Protas kernel has given a logical hart its save area (R298): task, logical hart,
copy. -/
opaque saveArea : Nat → Nat → Nat → Nat

/-- A byte that a save writes and whose contents the manual does not place (Table 15.4): the save, the offset. -/
opaque areaByte : Nat → Nat → BitVec 8

/-- A byte of a register at or above VRS after a restore (R49). -/
opaque staleByte : Nat → BitVec 8

/-- Does the Protas kernel resolve a page fault that Burnish meets (R162)? The argument tells one fault from another. -/
opaque kernelResolves : Nat → Bool

/-- The Protas kernel's version word (Table 15.3). -/
opaque versionWord : BitVec 64

/-- The layout of a firmware image's header (R326): its size, and the version and the body's length that it names. -/
opaque headerSize : Nat
/-- The version in a header. -/
opaque headerVersion : List (BitVec 8) → Nat
/-- The body's length in a header. -/
opaque headerLength : List (BitVec 8) → Nat

/-- The public key of firmware images, and the digest fused into the hub (R326). -/
opaque firmwareKey : Nat × Nat
/-- The fused digest. -/
opaque fusedDigest : List (BitVec 8)

/-- The device serial, and the identity key that the security engine derives (R328). -/
opaque serial : Nat
/-- The identity key. -/
opaque identityKey : Nat
/-- The number that ECDSA draws for a signature. -/
opaque signNonce : Nat → Nat

/-- The bytes of a mailbox report (R320, R328): the command, the values it holds. -/
opaque reportLayout : Nat → List Nat → List (BitVec 8)

/-- What a read of a register that no table names returns. -/
opaque openRegister : Nat → BitVec 64

end Sys2Proof.Config
end

