-- ==== Sys2Proof/Machine/State.lean ====
section
/-!
DEFINITION. The state of the Cylas 940 as plain data: the hart in focus and every other hart, the engines, the
network, memory, the hub, Bellows and the host's view; the reasons a step can stop; and the state right after module
reset. Each field's docstring names the rule that gives it.
-/

namespace Sys2Proof.Machine

/-! ### Harts -/

/-- A cached translation (R182, R304), in a core's TLB or in its die's. `size` is log2 of the page's bytes. -/
structure TlbEntry where
  die  : Nat
  core : Option Nat
  asid : BitVec 16
  page : Nat
  size : Nat
  pa   : Nat
  r    : Bool
  w    : Bool
  x    : Bool
  s    : Bool
  g    : Bool
deriving DecidableEq, Repr

/-- What the race detector keeps of the accesses to one aligned word by one party (R234): the last region of each
kind; `owner` is the party for which it was made, and `handle` says that it went through a tensor handle (R157, R161). -/
structure WordAccess where
  word    : Nat
  party   : Nat
  owner   : Nat
  hartid  : BitVec 64
  region  : Nat
  write   : Bool
  ordinary : Bool
  handle  : Bool
  va      : BitVec 64
  /-- The first word of the unit that made the access (R235). -/
  unit    : BitVec 64
  /-- A record that a conversion has moved is of these bytes of the word alone, towards accesses through handles (R157). -/
  bytes   : Option (BitVec 4)
  /-- The queue that carried the access, for a deferred report (R235). -/
  queue   : Nat
deriving DecidableEq, Repr

/-- The privilege levels (R16, R59). -/
inductive Mode where
  | task
  | supervisor
deriving DecidableEq, Repr

/-- The full/empty state of a physical vector register (R213). -/
inductive FullEmpty where
  | full
  | empty
  | pending
deriving DecidableEq, Repr

/-- One context of the loop sequencer (R37). `start` is the body's first word, `stop` the word after its last one. -/
structure LoopCtx where
  active    : Bool
  remaining : BitVec 64
  count     : BitVec 64
  start     : BitVec 64
  stop      : BitVec 64
  ind       : BitVec 7
  stride    : BitVec 64
  mark      : Mark
deriving DecidableEq, Repr

/-- A tensor handle: the descriptor copy, the virtual and the physical address it was loaded from (R51, R152). -/
structure Handle where
  desc  : BitVec 512
  addr  : BitVec 64
  pa    : Nat
  bound : Bool
deriving DecidableEq, Repr

/-- A bound stream (R197 to R200). `used` says that the unit being executed has popped or pushed its next element or
elements; the position advances by `step` when the unit completes. -/
structure StreamB where
  reg  : BitVec 7
  vec  : Bool
  out  : Bool
  base : BitVec 64
  s0   : BitVec 64
  s1   : BitVec 64
  s2   : BitVec 64
  n0   : BitVec 32
  n1   : BitVec 32
  n2   : BitVec 32
  zext : Bool
  sz   : BitVec 2
  pos  : Nat
  used : Bool
  step : Nat
  /-- What the hart knew at the STRM: no later acquire orders an input element (R202). -/
  clock : List (Nat × Nat)
  /-- Elements that the copy engine has read ahead, the next one first: physical address, value and mark (R202). -/
  ahead : List (Nat × Nat × Mark)
deriving DecidableEq, Repr

/-- A Filigree logical slot (R278, R279, R281): NDIM dimensions (0: empty), 33 words a dimension, a mark a word. -/
structure FSlot where
  ndim  : Nat
  words : List Word
  marks : List Mark
  dirty : Bool
deriving DecidableEq, Repr

/-- A physical slot of a core's Filigree unit, bound to a logical slot of a hart (R280). -/
structure FBinding where
  core  : Nat
  task  : Nat
  lhart : Nat
  copy  : Nat
  slot  : Nat
deriving DecidableEq, Repr

/-- An instruction in the matrix queue that has not completed (R169). -/
structure MqEntry where
  maj : BitVec 7
deriving DecidableEq, Repr

/-- The Swage engine's state, which travels with the hart that holds it (R50, R164, R165). Formats: 0 BF16, 1 INT8,
2 BX7, 3 BX4, 4 BX2 (R166). `saved` says that the save area holds tiles of an earlier save (R299); `scales` holds the
a-scales that a SCACC.M has read, row 0 of R170, until it completes (the model's own latch). -/
structure Swage where
  m     : Nat
  n     : Nat
  k     : Nat
  fmt   : BitVec 4
  mt    : Vector TileBits 8
  mtMark : Vector TileBits 8
  ma    : Vector TileBits 4
  maMark : Vector TileBits 4
  pa    : Vector TileBits 4
  paMark : Vector TileBits 4
  dirty : BitVec 16
  saved : Bool
  scales : List (Byte × Mark)
  queue : List MqEntry
deriving DecidableEq, Repr

/-- A buffered store of the open strip: physical address, virtual address and bytes (R311). -/
structure BufStore where
  pa   : Nat
  va   : BitVec 64
  data : List Byte
  mark : Mark
deriving DecidableEq, Repr

/-- The strip checkpoint (R31, R33, Table 15.4): IMR names the registers of `regs`. -/
structure Checkpoint where
  pc          : BitVec 64
  vl          : BitVec 64
  strn        : BitVec 64
  regs        : List (BitVec 7 × BitVec 64 × Mark)
  valid       : Bool
  unprotected : Bool
deriving DecidableEq, Repr

/-- A prefix that has been read and waits for its word (R73, R74, R76; the model's own latch). -/
inductive Pfx where
  | none
  | v (ovr mz tz dv : Bool) (d : BitVec 7) (rm : BitVec 3) (mask : BitVec 3)
  | o (posted : Bool) (order : BitVec 2) (scope : BitVec 3)
deriving DecidableEq, Repr

/-- What a hart that stays at its instruction waits for. -/
inductive Wait where
  /-- Not waiting. -/
  | no
  /-- The instruction is issued again once an engine or another party has acted (CHKERR, HMWAIT, MWAIT, MWAITALL, CPY,
  PUSH.V, SETE.V and the reads of R56). -/
  | retry
  /-- The unit in flight is held: by a copy or a posted operation of the hart, or while a recheck is pending (R125, R195, R314).
  This wait is no interruptible one (R18, R293). -/
  | stall
  /-- The physical vector register is EMPTY or PENDING (R213). -/
  | register (p : Nat)
  | barwait (c b : Reg)
  | cbres (c b d : Reg)
  | cbacq (c b d : Reg)
  | cred (op : BitVec 3) (c b d : Reg)
  | capp (m : BitVec 1) (s t : Reg)
  | twait (b a : Reg)
  | depw
  | drain (n p c m t v : BitVec 1)
  /-- `n` tasks of the record had completed when the WAITT issued (R261). -/
  | waitt (b d : Reg) (n : Nat)
deriving DecidableEq, Repr

/-- Where a hart slot stands (R42, R252). -/
inductive HartStatus where
  /-- The slot holds no hart. -/
  | idle
  | running
  /-- FINISH has been executed and the queues drain (R42). -/
  | finished
deriving DecidableEq, Repr

/-- A register that the unit in flight overwrites, as it was when the unit issued: an instruction behaves as though its sources
were read before its destination is written (R14). `spared` are the entries of `Hart.spared` of a mask register. -/
structure KeptReg where
  reg    : Nat
  bits   : VBits
  marks  : VBits
  spared : List VBits
deriving DecidableEq, Repr

/-- A unit that a trap has stopped, for the promises that hold on its return up to element VES: no floating-point trap
(`fp`, R93), and no second check against an earlier access that a report has named (`waived`, R235); `kept` is what it had
read (R14). The model's own. -/
structure Suspended where
  pc     : BitVec 64
  ves    : BitVec 64
  fp     : Bool
  waived : List WordAccess
  kept   : List KeptReg
deriving DecidableEq, Repr

/-- A trap found while the stream elements of a unit are popped, or the pushes of its result are checked, ahead of its
elements: it is taken at element `elem`, once the elements below have taken effect (R17, R201; the model's own latch).
`raced` is the earlier access of a memory-model report, with its MMEA and MMEH. -/
structure Late where
  cause : BitVec 8
  tval  : BitVec 64
  elem  : Nat
  raced : Option WordAccess
  mmea  : BitVec 64
  mmeh  : BitVec 64
deriving DecidableEq, Repr

/-- A deferred race report (R235): TVAL, MMEA and MMEH as the report sets them, and the queue that carried the access. -/
structure RaceReport where
  tval : BitVec 64
  mmea : BitVec 64
  mmeh : BitVec 64
  kind : Nat
deriving DecidableEq, Repr

/-- A vector instruction in the Planish queue: the words needed to name it and the marks of R314. -/
structure PlanishEntry where
  pc : BitVec 64
  word : Word
deriving DecidableEq, Repr

/-- The task-level state registers of Table 2.4 that hold a value. -/
structure TaskRegs where
  vl    : BitVec 64
  vt    : BitVec 9
  ves   : BitVec 64
  wbase : BitVec 64
  bsr   : BitVec 23
  cir   : BitVec 8
  fcr   : BitVec 13
  imrLo : BitVec 64
  imrHi : BitVec 64
  strn  : BitVec 64
  pfm   : BitVec 127
  mmea  : BitVec 64
  mmeh  : BitVec 64
  tstat : BitVec 32
  lhart : BitVec 64
  task  : BitVec 64
  drmap : BitVec 192
deriving DecidableEq, Repr

/-- The supervisor state registers of Table 2.5. -/
structure SupRegs where
  tvec   : BitVec 64
  tcause : BitVec 64
  tval   : BitVec 64
  tpc    : BitVec 64
  tves   : BitVec 64
  tsave  : BitVec 64
  vcap   : BitVec 2
  ptb    : BitVec 64
  asid   : BitVec 16
  /-- PSTAT: PIE [2], IE [1], PM [0] (Table 15.1). -/
  pie    : Bool
  ie     : Bool
  pm     : Mode
  pdead  : BitVec 64
  rblog  : BitVec 64
deriving DecidableEq, Repr

/-- A release that a location or an object carries: the releasing hart's core and scope, the knowledge it passes on, one
(party, region) pair each (R231). -/
structure Release where
  core  : Nat
  scope : Nat
  clock : List (Nat × Nat)
deriving DecidableEq, Repr

/-- A contribution's identity (R272): whether the root is this device, the root's fabric identifier, its slot, round and
participant number. -/
structure CredId where
  here : Bool
  root : BitVec 16
  slot : Nat
  gen  : BitVec 32
  pidx : Nat
deriving DecidableEq, Repr

/-- One hart with its whole context. -/
structure Hart where
  status : HartStatus
  wait   : Wait
  /-- The physical hart (R2). -/
  hartid : BitVec 10
  /-- Which registered task the hart belongs to (index of `State.tasks`), and which copy of it under AS (R316). -/
  taskNo : Nat
  copy   : Nat
  /-- The slice of the cluster on which the logical hart was started: its own slice (R111). -/
  home   : Nat
  mode   : Mode
  pc     : BitVec 64
  /-- The prefix latch (R73). -/
  pfx    : Pfx
  /-- The word of the unit being executed, for TVAL (R291). -/
  ir     : Word
  /-- The prefix word of that unit, for TVAL (R85, R78). -/
  irPfx  : Word
  x      : Vector (BitVec 64) 128
  xMark  : Vector Mark 128
  v      : Vector VBits 192
  /-- Byte j of a register's mark is the class set of its byte j (R307). -/
  vMark  : Vector VBits 192
  /-- Bits of the mask registers v0 to v7 to which a class of their byte's mark does not apply: entry 8·r + c is for class
  c of register r (R307). -/
  spared : Vector VBits 64
  fe     : Vector FullEmpty 192
  /-- HW[p] in units of 64 bytes (R299). -/
  hw     : Vector Nat 192
  tr     : TaskRegs
  sr     : SupRegs
  loops  : Vector LoopCtx 6
  /-- A trap has suspended the sequencer (R40). -/
  seqOff : Bool
  handles : Vector Handle 16
  streams : List StreamB
  /-- The parties of the plain copies that have completed since the last DRAIN with `copy` (R196). -/
  copyDone : List (Nat × Nat)
  /-- The parties of the HMV commands that have completed since the last HMWAIT (R225). -/
  hmvDone : List (Nat × Nat)
  filigree : Vector FSlot 4
  /-- The CG remote-access bit (R187). -/
  remote : Bool
  buf    : List BufStore
  ckpt   : Checkpoint
  retries : Nat
  planish : List PlanishEntry
  /-- The instruction at PC has been rechecked and may deliver its result (R314). -/
  rechecked : Bool
  swage  : Option Swage
  /-- The blocks of the hart's own share: first strip and count (R27). -/
  first  : Nat
  count  : Nat
  /-- CRED's answer, once it has arrived (R272). -/
  cred   : Option CredAnswer
  credId : Option CredId
  /-- A pre-emption request that is held or whose save waits for the queues to drain (R293, R295). -/
  preempt : Bool
  /-- The element at which the vector instruction in flight stops for that request (R295). -/
  stopAt  : Option Nat
  /-- Half of PDEAD has passed: the hart executes nothing more before it is saved (R296). -/
  overdue : Bool
  /-- A watchdog trap that is held (R293). -/
  watchdog : Bool
  races  : List RaceReport
  /-- What the hart knows of other parties, and its own region (R230, R233). -/
  clock  : List (Nat × Nat)
  region : Nat
  /-- FENCEs of kind 2 or 0, waiting for the next RMW or release store (R238); `core` is set when one takes them. -/
  fenceRel : List Release
  /-- What the last RMW or acquire read, for FENCE of kind 1 or 0, and the core on which it was performed (R238, R232). -/
  lastAcq : List Release
  lastCore : Nat
  /-- The number of RMWs and acquires so far: it tells whether a posted one is still the last (the model's own). -/
  lastNo  : Nat
  suspended : List Suspended
  resumed : Option Suspended
  /-- What the unit that has stopped at an element had read of its destination (R14; the model's own latch). -/
  kept    : List KeptReg
  /-- The poison marks of state registers, by register number (R313, R307). -/
  srMark  : List (Nat × Mark)
  /-- Translations that the TLBs hold for element VES of the resumed unit until it has completed (R18). -/
  held    : List TlbEntry
  /-- The earlier access that a memory-model trap about to be taken names, and a trap at a later element (the model's own
  latches). -/
  raced   : Option WordAccess
  late    : Option Late
deriving DecidableEq, Repr

/-- Why a hart is saved, and what ends its wait (R261, R262, R295, R253). -/
inductive SaveCause where
  | preempt
  | yield
  | waitt (rec n : Nat)
  | depw
deriving DecidableEq, Repr

/-- A save (R298): the hart's context and the header's own fields (Table 15.5). `SavedHart.areaByte` lays it out as Tables 15.4
and 15.5 do. `wrote` says that this save writes the tiles, `fwrote` which Filigree slots (R299); `stamp` tells one save's free
bytes from another's, and `context` those of one writing of the CRED and push context. -/
structure SavedHart where
  hart   : Hart
  cause  : SaveCause
  vcaps  : BitVec 2
  mat    : Bool
  tiles  : Bool
  crw    : Bool
  fload  : BitVec 4
  fsaved : BitVec 4
  rpc    : BitVec 64
  rves   : BitVec 64
  rmode  : Mode
  region : Nat
  stime  : BitVec 64
  die    : Nat
  wrote  : Bool
  fwrote : BitVec 4
  stamp  : Nat
  context : Nat
deriving DecidableEq, Repr

/-! ### Tasks and Bellows -/

/-- A launch record as Bellows reads it (Table 1.2). -/
structure LaunchRec where
  code  : BitVec 64
  args  : BitVec 64
  n     : BitVec 64
  s     : BitVec 64
  fw    : BitVec 36
  attr  : BitVec 32
  p     : BitVec 32
  wa    : BitVec 32
  wb    : BitVec 32
  prod  : BitVec 64
  caddr : BitVec 64
deriving DecidableEq, Repr

/-- The states of Table 12.2 after registration. `over` is a task that has completed and left the table. -/
inductive TaskState where
  | waiting
  | ready
  | running
  | done
  | over
deriving DecidableEq, Repr

/-- A registered task (R248). `recVa` is the virtual address of its record, `depc` the physical address of its DEPC word. -/
structure Task where
  recVa     : BitVec 64
  depc      : Nat
  asid      : BitVec 16
  queue     : Nat
  /-- The order in which tasks started (R252); the order of registration is the order of `State.tasks`. -/
  order     : Nat
  desc      : LaunchRec
  state     : TaskState
  status    : BitVec 8
  /-- Logical harts not yet started, ascending. -/
  unstarted : List Nat
  started   : List Nat
  ended     : List Nat
  /-- Clusters to which R256 has moved a logical hart's block. -/
  stolen    : List (Nat × Nat)
  published : List Nat
  wmark     : BitVec 64
  poisoned  : Bool
  killed    : Bool
  group     : List Nat
  die       : Nat
  /-- Bytes of the group barrier (R188): GEN, EXPA, ARRV, EXPB, NBYT in the layout of Table 9.3. -/
  barrier   : BitVec 128
  /-- The same of the second copies under AS. -/
  barrier2  : BitVec 128
  /-- The releases of its arrivals, each with the copy that arrived (R192, R316). -/
  barRel    : List (Nat × Release)
  /-- What the task's harts release at FINISH, towards its completion (R242). -/
  finRel    : List Release
  /-- What the task's harts acquire at their start (R242, R259). -/
  startRel  : List Release
  strips    : List (Nat × Release)
  /-- Assay: the touchmarks of the two copies, and what each has ended (R317, R318). -/
  touch     : BitVec 128 × BitVec 128
  ended2    : List Nat
deriving DecidableEq, Repr

/-- A queue configuration block (Table 12.1). -/
structure QueueBlock where
  rbase  : BitVec 64
  ovbase : BitVec 64
  rsize  : BitVec 32
  ovcap  : BitVec 32
  head   : BitVec 32
  tail   : BitVec 32
  ovcnt  : BitVec 32
  asid   : BitVec 16
  ceil   : BitVec 3
  mode   : BitVec 2
  ovhead : BitVec 32
deriving DecidableEq, Repr

/-- An address-space block (Table 15.8). -/
structure AsBlock where
  tvec   : BitVec 64
  ptb    : BitVec 64
  tsaveb : BitVec 64
  pdead  : BitVec 32
  valid  : Bool
  vcap   : BitVec 2
deriving DecidableEq, Repr

/-! ### Engines and the network -/

/-- What a copy does on completion (Table 9.5). -/
inductive CopyEnd where
  | bar (pa : Nat) (va : BitVec 64)
  | dep (pa : Nat)
  | nothing
deriving DecidableEq, Repr

/-- A copy in a hart's copy queue (R193, R194): the source bytes as read, the destination as runs of physical addresses,
and who acts: the issuing logical hart, the party of the engine's writes and what the issuing region had seen (R196). -/
structure CopyJob where
  task   : Nat
  lhart  : Nat
  copy   : Nat
  assay  : Bool
  asid   : BitVec 16
  hartid : BitVec 10
  data   : List (Byte × Mark)
  /-- Destination runs: physical address, byte count. -/
  dst    : List (Nat × Nat)
  srcVa  : BitVec 64
  dstVa  : BitVec 64
  count  : Nat
  fin    : CopyEnd
  party  : Nat
  owner  : Nat
  clock  : List (Nat × Nat)
  unit   : BitVec 64
  /-- The queue that a deferred report names. -/
  kind   : Nat
deriving DecidableEq, Repr

/-- A delivery in a hart's push queue (R215). -/
structure PushJob where
  task  : Nat
  lhart : Nat
  peer  : Nat
  /-- The copy of the task that both belong to under AS (R316). -/
  copy  : Nat
  reg   : Nat
  bytes : Nat
  data  : VBits
  mark  : VBits
deriving DecidableEq, Repr

/-- One constituent of a reduction packet: who issued it, and its operand (R207, R235). -/
structure PacketPart where
  task   : Nat
  lhart  : Nat
  copy   : Nat
  assay  : Bool
  operand : BitVec 64
  mark   : Mark
  hartid : BitVec 10
  region : Nat
  clock  : List (Nat × Nat)
  rel    : List Release
  va     : BitVec 64
  unit   : BitVec 64
  /-- `Hart.lastNo` at the issue. -/
  no     : Nat
deriving DecidableEq, Repr

/-- A reduction packet on its way to its home (R207): AMO operation code, width in bytes, combined operand. -/
structure Packet where
  asid    : BitVec 16
  pa      : Nat
  op      : BitVec 4
  bytes   : Nat
  operand : BitVec 64
  mark    : Mark
  det     : Bool
  parts   : List PacketPart
deriving DecidableEq, Repr

/-- A row of an HMV command that has not ended: its pseudo-channel (64·stack + channel), its result slot, and its weights
as read, with their mark (R224). -/
structure HmvRow where
  chan    : Nat
  slotPa  : Nat
  slotVa  : BitVec 64
  weights : List (BitVec 16)
  mark    : Mark
deriving DecidableEq, Repr

/-- An HMV command in flight (R224): x and the rows as read, and what its slot writes and its barrier update carry.
`seq` orders commands and loads. -/
structure HmvJob where
  task   : Nat
  lhart  : Nat
  hartid : BitVec 10
  seq    : Nat
  entry  : Nat
  x      : List (BitVec 16)
  xMark  : Mark
  rows   : List HmvRow
  /-- The result slots as runs: physical address, byte count. -/
  dst    : List (Nat × Nat)
  bar    : CopyEnd
  bytes  : Nat
  party  : Nat
  owner  : Nat
  clock  : List (Nat × Nat)
  unit   : BitVec 64
deriving DecidableEq, Repr

/-- An HMLOAD in flight (R222); `copy` is its hart's under AS (R316). -/
structure HmloadJob where
  task  : Nat
  lhart : Nat
  copy  : Nat
  seq   : Nat
  /-- The named pseudo-channels, 64·stack + channel. -/
  chans : List Nat
  first : Nat
  words : List Word
  mark  : Mark
deriving DecidableEq, Repr

/-- A pseudo-channel's instruction store, words written so far (R218): pseudo-channel, entry, word, and its mark (R307). -/
structure StoreWord where
  chan  : Nat
  idx   : Nat
  word  : Word
  mark  : Mark
deriving DecidableEq, Repr

/-- The row program in progress, if any (R219, R224): the command's `seq`, the pseudo-channel, the next entry, the
microwords done, y with its mark, and what EMIT has left for the slot. -/
structure RowUnit where
  active : Bool
  job    : Nat
  chan   : Nat
  idx    : Nat
  done   : Nat
  y      : BitVec 32
  mark   : Mark
  out    : Option (BitVec 32 × Mark)
deriving DecidableEq, Repr

/-- A waiting CBRES or CBACQ at a control block's home, in arrival order (R204); `copy` is its hart's under AS (R316). -/
structure CbWaiter where
  pa    : Nat
  task  : Nat
  lhart : Nat
  copy  : Nat
  acq   : Bool
  n     : Nat
deriving DecidableEq, Repr

/-- A tensor conversion of a die's Burnish engine (R158, R159, R162), kept with its flips until the descriptor's next
RETAG. `desc` is the descriptor as the RETAG left it, `tile` the next tile, `failed` the failing address; `party` is the
order party of tile 0's copy. -/
structure Conversion where
  die    : Nat
  asid   : BitVec 16
  desc   : BitVec 512
  descPa : Nat
  tile   : Nat
  failed : Option (BitVec 64)
  rel    : Release
  party  : Nat
deriving DecidableEq, Repr

/-- A message of the collective unit that has left for another device: a contribution to its root (R272), or this root's answer
to a contribution of that device (R273). -/
inductive CollMessage where
  | contribution (root : BitVec 16) (c : Contribution)
  | answer (c : Contribution) (a : CredAnswer)
deriving DecidableEq, Repr

/-- The state of a collective slot (R269, R273). -/
inductive SlotPhase where
  | free
  | isOpen
  | closed
deriving DecidableEq, Repr

/-- A slot of the collective reduction unit (R269 to R275). `acc` is the accumulator in units of 2^−330, `special` the
sticky marks (1 +Inf, 2 −Inf, 4 NaN, 8 signalling NaN, 16 a value that is no NaN), `best` the extreme or the integer sum so
far. `waiting` holds the counted contributions, `prev` the round before this one. -/
structure CollSlot where
  allotted : Bool
  asid     : BitVec 16
  phase    : SlotPhase
  gen      : BitVec 32
  op       : BitVec 3
  expm     : BitVec 64
  cmask    : BitVec 64
  tmo      : BitVec 32
  acc      : Int
  special  : BitVec 8
  best     : BitVec 64
  mark     : Mark
  waiting  : List Contribution
  prev     : Option (BitVec 32 × CredAnswer)
deriving DecidableEq, Repr

/-! ### Reliability, order and the host -/

/-- A black-box record (Table 16.4). -/
structure BlackBox where
  die  : Nat
  time : BitVec 64
  code : BitVec 16
  src  : BitVec 16
  data : BitVec 128
deriving DecidableEq, Repr

/-- The releases whose sequences a byte's value continues (R231, R241). -/
structure ByteRelease where
  pa   : Nat
  rels : List Release
deriving DecidableEq, Repr

/-- A shadow page of an Assay copy (R316): task, copy, the page's physical start and length, its bytes and word marks, and
the words that the copy has written. -/
structure ShadowPage where
  task    : Nat
  copy    : Nat
  base    : Nat
  size    : Nat
  cells   : List Host.Cell
  marks   : List (Nat × Mark)
  written : List Nat
deriving DecidableEq, Repr

/-- A Golrok access-control entry (R227). -/
structure GolrokEntry where
  stack : Nat
  idx   : Nat
  entry : BitVec 128
deriving DecidableEq, Repr

/-- The last answer that left the module (the model's own record): for a Golrok read, a BAR 2 access, a fabric request;
or the last MSI-X message, with its vector (R324). -/
inductive PortAnswer where
  | none
  /-- Bytes, and for each aligned word they touch whether it is poisoned. -/
  | data (bytes : List Byte) (poison : List Bool)
  | done
  | message (vector : Nat)
  | refused (code : Nat)
deriving DecidableEq, Repr

/-- A mailbox command in progress and what it found (R324); `rel` is what its completion passes on to the host (R325). -/
structure Mailbox where
  cmd   : BitVec 32
  stat  : BitVec 8
  maddr : BitVec 64
  mlen  : BitVec 32
  marg  : BitVec 64
  ok    : Bool
  rel   : List (Nat × Nat)
deriving DecidableEq, Repr

/-- One queued step of the outside world: the hart that steps next, or an event that comes next (the model's own). -/
inductive Act where
  | switch (hartid : BitVec 10)
  | event (i : Instr)
deriving DecidableEq, Repr

/-- Memory: (address, byte) pairs, addresses strictly rising, no byte equal to what an unlisted address reads as. -/
abbrev Memory := List Host.Cell

/-- What an address that is not listed reads as: bring-up clears all device memory (R327). -/
def unlisted : Byte := 0

/-- The canonical form of memory. -/
def Memory.wf : Memory → Bool
  | [] => true
  | [c] => c.2 != unlisted
  | c :: d :: rest => c.2 != unlisted && decide (c.1 < d.1) && Memory.wf (d :: rest)

/-- The whole machine. -/
structure State where
  /-- The hart in focus: the one a step runs. -/
  hart    : Hart
  /-- The harts in the other slots. -/
  others  : List Hart
  /-- Saved harts (R298). -/
  saved   : List SavedHart
  mem     : Memory
  /-- The poison mark of each aligned word that has one, by word address (R307). -/
  marks   : List (Nat × Mark)
  /-- Words whose storage error has not been found yet (R127, R307). -/
  latent  : List Nat
  tlb     : List TlbEntry
  tasks   : List Task
  queues  : List (Nat × QueueBlock)
  spaces  : List (Nat × AsBlock)
  rotation : Nat
  copies  : List CopyJob
  pushes  : List PushJob
  packets : List Packet
  hmvs    : List HmvJob
  hmloads : List HmloadJob
  stores  : List StoreWord
  row     : RowUnit
  cbWait  : List CbWaiter
  convs   : List Conversion
  /-- The bound physical slots of the cores' Filigree units, the latest used first (R280). -/
  bound   : List FBinding
  slots   : List (Nat × CollSlot)
  /-- Contributions on their way to this device's root (R272). -/
  contribs : List Contribution
  /-- What the collective unit has sent to other devices, the oldest first (R272, R273). -/
  collOut : List CollMessage
  accesses : List WordAccess
  releases : List ByteRelease
  objRels : List (Nat × Release)
  shadows : List ShadowPage
  blackBox : List BlackBox
  golrok  : List GolrokEntry
  windows : List (Nat × BitVec 16)
  /-- Links that are fenced, and the flit that each last replayed, with how often in a row (R210, R211). -/
  fencedLinks : List LinkId
  replays : List (LinkId × BitVec 12 × Nat)
  fencedClusters : List Nat
  fencedDies : List Nat
  /-- Memories that failed at bring-up (R327): stacks 0 to 15, 16 the second tier. -/
  fencedMems : List Nat
  /-- Words fetched ahead into a core's instruction cache with an uncorrectable error: core, virtual address (R306). -/
  badFetches : List (Nat × BitVec 64)
  /-- Bank repair (R127, R129): slice and the bank the spare stands for; slice and retired bank. -/
  spares  : List (Nat × Nat)
  retired : List (Nat × Nat)
  /-- Invalidation registers: die, DONE, kind, ASID, virtual address (R304, Table 17.4). -/
  inval   : List (Nat × Bool × BitVec 2 × BitVec 16 × BitVec 64)
  /-- Arithmetic clock of each die in MHz (R3, R329). -/
  clocks  : Vector Nat 4
  /-- The dies above 105 °C (R329). -/
  hotDies : List Nat
  powerLimit : Nat
  watchLimit : BitVec 64
  /-- BAR 0 (Table 17.1): 0 BOOTING, 1 READY, 2 RECOVERY, 3 BOOTFAIL. -/
  hubState : BitVec 4
  fwver   : BitVec 16
  fid     : BitVec 16
  mailbox : Mailbox
  flash   : List (Nat × FirmwareImage)
  running : Option FirmwareImage
  minVersion : Nat
  /-- NVMe storage by byte of the namespace, and the poison marks that SSAVE carried there (R325, R307). -/
  nvme    : List (Nat × Byte)
  nvmeMarks : List (Nat × Mark)
  /-- What the host knows of other parties: completions and mailbox commands that have released to it (R26, R325). -/
  hostClock : List (Nat × Nat)
  port    : PortAnswer
  /-- Data-rate changes requested and deferred, by stack (R297). -/
  rates   : List Nat
  /-- The counter that keeps two free values apart (the model's own). -/
  free    : Nat
  agenda  : List Act
deriving DecidableEq, Repr

/-! ### Why a step stops -/

/-- A fault of the model: there is none. The traps of the manual are next states, and an event that names a part which the device
does not have changes nothing (log 87). -/
inductive Fault where
deriving DecidableEq, Repr

/-- A refusal of the model. -/
inductive Refusal where
  /-- Raised by an arm of `exec` whose instruction has no meaning yet. Safe: nothing is claimed of it. -/
  | notModelled (mnemonic : String)
deriving DecidableEq, Repr

/-! ### Reset -/

/-- A loop context that is not active (Table 1.3). -/
def LoopCtx.reset : LoopCtx := ⟨false, 0, 0, 0, 0, 0, 0, 0⟩

/-- A handle at hart start (R51). -/
def Handle.reset : Handle := ⟨0, 0, 0, false⟩

/-- An empty Filigree slot (R279). -/
def FSlot.reset : FSlot := ⟨0, [], [], false⟩

/-- The task-level registers before any hart start: the constants of Table 1.3, and 0 where it names the task. -/
def TaskRegs.reset : TaskRegs :=
  ⟨0, 2, 0, 0, 0x017F00, 0, 0, 0, 0, 0, 0, 0, 0, 0, 0, 0, 0⟩

/-- The supervisor registers before any hart start: VCAP 3 (Table 2.5), PSTAT as Table 1.3. -/
def SupRegs.reset : SupRegs :=
  ⟨0, 0, 0, 0, 0, 0, 3, 0, 0, false, true, .task, 0, 0⟩

/-- A slot that holds no hart, every register at the value a hart start gives it (Table 1.3). -/
def Hart.reset (id : BitVec 10) : Hart :=
  { status := .idle, wait := .no, hartid := id, taskNo := 0, copy := 0, home := 0, mode := .task, pc := 0, pfx := .none, ir := 0, irPfx := 0
    x := Vector.replicate 128 0, xMark := Vector.replicate 128 0
    v := Vector.replicate 192 0, vMark := Vector.replicate 192 0, spared := Vector.replicate 64 0
    fe := Vector.replicate 192 .full, hw := Vector.replicate 192 0
    tr := TaskRegs.reset, sr := SupRegs.reset
    loops := Vector.replicate 6 LoopCtx.reset, seqOff := false
    handles := Vector.replicate 16 Handle.reset, streams := [], copyDone := [], hmvDone := []
    filigree := Vector.replicate 4 FSlot.reset, remote := false
    buf := [], ckpt := ⟨0, 0, 0, [], false, false⟩, retries := 0, planish := [], rechecked := false, swage := none
    first := 0, count := 0, cred := none, credId := none, preempt := false, stopAt := none, overdue := false, watchdog := false, races := []
    clock := [], region := 1, fenceRel := [], lastAcq := [], lastCore := 0, lastNo := 0, suspended := [], resumed := none, kept := []
    srMark := [], held := [], raced := none, late := none }

/-- The machine right after module reset (R326): the boot ROM has not run, every hart slot is idle. -/
def State.reset : State :=
  { hart := Hart.reset 0, others := [], saved := [], mem := [], marks := [], latent := [], tlb := []
    tasks := [], queues := [], spaces := [], rotation := 63
    copies := [], pushes := [], packets := [], hmvs := [], hmloads := [], stores := []
    row := ⟨false, 0, 0, 0, 0, 0, 0, none⟩
    cbWait := [], convs := [], bound := [], slots := [], contribs := [], collOut := []
    accesses := [], releases := [], objRels := [], shadows := [], blackBox := []
    golrok := [], windows := [], fencedLinks := [], replays := [], fencedClusters := [], fencedDies := [], fencedMems := [], badFetches := []
    spares := [], retired := [], inval := [], clocks := Vector.replicate 4 3600, hotDies := []
    powerLimit := 2600, watchLimit := 2000000000
    hubState := 0, fwver := 0, fid := 0, mailbox := ⟨0, 0, 0, 0, 0, false, []⟩
    flash := [], running := none, minVersion := 0, nvme := [], nvmeMarks := [], hostClock := [], port := .none, rates := []
    free := 0, agenda := [] }

end Sys2Proof.Machine
end

