-- ==== Sys2Proof/Machine/Ops.lean ====
section
/-!
DEFINITION. The named operations over a state: registers, streams, translation, memory with its poison marks, buffers and
shadows, the order bookkeeping of race detection, taking a trap (R288), returning from one (R289), and completing a unit
(R17, R38). Every meaning is written over these.
-/

namespace Sys2Proof.Machine

/-! ### The outcome of a unit's effect -/

/-- Why the effect of a unit ends before it completes. -/
inductive Stop where
  /-- A trap (R288) at an element, or with VES as it stands. -/
  | trap (cause : BitVec 8) (tval : DWord) (ves : Option Nat)
  /-- The unit waits, with VES at an element, or as it stands. -/
  | wait (w : Wait) (ves : Option Nat)
deriving DecidableEq, Repr

/-- How a completed effect goes on. -/
inductive Flow where
  /-- The next unit in sequence (R38). -/
  | seq
  /-- As `seq`, but VES keeps its value (R17: an MTS to VES). -/
  | seqKeepVes
  /-- A taken branch or jump (R40). -/
  | jump (target : DWord)
  /-- The unit has set PC and VES itself (ERET, FINISH). -/
  | placed
  /-- The prefix has been latched and its word comes next (R78). -/
  | latched
  /-- The unit completes and the `n` words after it are skipped (R38, R41). -/
  | skip (n : Nat)
  /-- The unit completes, then a trap is entered (TRAP, R292). -/
  | seqTrap (cause : BitVec 8) (tval : DWord)
deriving DecidableEq, Repr

/-- The effect of a unit: it changes the state and may stop. -/
abbrev M := EStateM Stop State

/-- Trap causes (Table 15.2). -/
def causeIllegal : BitVec 8 := 0x01
/-- Privileged. -/
def causePrivileged : BitVec 8 := 0x02
/-- Misaligned. -/
def causeMisaligned : BitVec 8 := 0x03
/-- Load page fault. -/
def causeLoadPage : BitVec 8 := 0x04
/-- Store page fault. -/
def causeStorePage : BitVec 8 := 0x05
/-- Fetch fault. -/
def causeFetch : BitVec 8 := 0x06
/-- Access fault. -/
def causeAccess : BitVec 8 := 0x07
/-- Memory-model. -/
def causeRace : BitVec 8 := 0x08
/-- Deterministic. -/
def causeDet : BitVec 8 := 0x09
/-- Plural partial fault. -/
def causePlural : BitVec 8 := 0x0A
/-- Floating-point. -/
def causeFp : BitVec 8 := 0x0B
/-- Launch overflow. -/
def causeLaunch : BitVec 8 := 0x0C
/-- Stream. -/
def causeStream : BitVec 8 := 0x0D
/-- Uncorrectable kill. -/
def causeKill : BitVec 8 := 0x0E
/-- Tensor layout. -/
def causeTensor : BitVec 8 := 0x0F
/-- TRAP service. -/
def causeService : BitVec 8 := 0x10
/-- No matrix engine. -/
def causeNoMatrix : BitVec 8 := 0x12
/-- Watchdog. -/
def causeWatchdog : BitVec 8 := 0x13

/-- A trap at element `ves`, or with VES as it stands. DEDUCED (log 107): a trap whose rule gives no VES of its own reports the VES
with which its unit issued. -/
def raise {α : Type} (cause : BitVec 8) (tval : DWord) (ves : Option Nat := none) : M α := throw (.trap cause tval ves)

/-- The unit waits. -/
def waitFor {α : Type} (w : Wait) (ves : Option Nat := none) : M α := throw (.wait w ves)

/-- The hart in focus. -/
def getH : M Hart := fun s => .ok s.hart s

/-- Changes the hart in focus. -/
def modH (f : Hart → Hart) : M Unit := fun s => .ok () { s with hart := f s.hart }

/-- Changes the task-level state registers of the hart in focus. -/
def modT (f : TaskRegs → TaskRegs) : M Unit := modH fun h => { h with tr := f h.tr }

/-- Changes the supervisor registers of the hart in focus. -/
def modS (f : SupRegs → SupRegs) : M Unit := modH fun h => { h with sr := f h.sr }

/-- A part of the state. -/
def getS {α : Type} (f : State → α) : M α := fun s => .ok (f s) s

/-- Changes the state. -/
def modM (f : State → State) : M Unit := fun s => .ok () (f s)

/-- Runs an action for each element of a list, in order. -/
def forEach {α : Type} (l : List α) (f : α → M Unit) : M Unit :=
  match l with
  | [] => pure ()
  | a :: rest => do f a; forEach rest f

/-- A left fold in the monad. -/
def foldL {α β : Type} (f : β → α → M β) (b : β) (l : List α) : M β :=
  match l with
  | [] => pure b
  | a :: rest => do let b ← f b a; foldL f b rest

/-! ### Reading the hart's attributes -/

/-- TSTAT.DET (Table 1.2). -/
def Hart.det (h : Hart) : Bool := h.tr.tstat.getLsbD 0
/-- TSTAT.RD. -/
def Hart.rd (h : Hart) : Bool := h.tr.tstat.getLsbD 1
/-- TSTAT.RB. -/
def Hart.rb (h : Hart) : Bool := h.tr.tstat.getLsbD 2
/-- TSTAT.RC. -/
def Hart.rc (h : Hart) : Bool := h.tr.tstat.getLsbD 3
/-- TSTAT.AS. -/
def Hart.assay (h : Hart) : Bool := h.tr.tstat.getLsbD 4
/-- TSTAT.CG. -/
def Hart.cg (h : Hart) : Nat := (h.tr.tstat.extractLsb' 8 4).toNat
/-- SLEN (Table 1.2). -/
def Hart.slen (h : Hart) : Nat := 2 ^ (h.tr.tstat.extractLsb' 12 4).toNat
/-- The core on which the hart runs (R2). -/
def Hart.core (h : Hart) : Nat := h.hartid.toNat / 4
/-- The cluster on which the hart runs, numbered over the device. -/
def Hart.cluster (h : Hart) : Nat := h.hartid.toNat / 32
/-- The die on which the hart runs. -/
def Hart.die (h : Hart) : Nat := h.hartid.toNat / 256
/-- VRS (R48). -/
def Hart.vrs (h : Hart) : Nat := 256 * 2 ^ h.sr.vcap.toNat

/-- The party number of a logical hart in the order bookkeeping; engines have numbers of their own. -/
def partyNo (task lhart copy : Nat) : Nat := 16 + 4 * ((task * 65536 + lhart) * 2 + copy)
/-- The party of the hart. -/
def Hart.party (h : Hart) : Nat := partyNo h.taskNo h.tr.lhart.toNat h.copy
/-- A party of its own for an engine's next operation, so that no operation of an engine is ordered before another by the
engine alone (R233). -/
def engineParty (s : State) : Nat := 17 + 4 * s.free
/-- The code of Burnish (R235). -/
def codeBurnish : BitVec 64 := 0xFFFFFFFFFFFFFFFF
/-- The code of the hub's copy engine (R235). -/
def codeHubCopy : BitVec 64 := 0xFFFFFFFFFFFFFFFE
/-- The code of Bellows (R235). -/
def codeBellows : BitVec 64 := 0xFFFFFFFFFFFFFFFD
/-- The queues of DRAIN's list (Table 1.9), and HMV, as a deferred report names the one that carried the access. -/
def queueMat : Nat := 1
/-- Loads and stores. -/
def queueMem : Nat := 2
/-- Copies. -/
def queueCopy : Nat := 3
/-- Network reductions. -/
def queueNet : Nat := 5
/-- HMV. -/
def queueHmv : Nat := 6

/-- Is the hart's strip under rollback, open and protected (R311, R312)? -/
def Hart.protectedStrip (h : Hart) : Bool := h.rb && h.ckpt.valid && !h.ckpt.unprotected

/-- The registered task of an index. -/
def taskAt (s : State) (n : Nat) : Option Task := s.tasks[n]?

/-- The state with the task of an index changed. -/
def modTask (n : Nat) (f : Task → Task) (s : State) : State := { s with tasks := s.tasks.modify n f }

/-- A fresh number for a free value or an engine's job (the model's own counter). -/
def fresh : M Nat := fun s => .ok s.free { s with free := s.free + 1 }

/-- Appends a record to a die's black box, which keeps its last 4,096 events (R319). -/
def logBlack (die : Nat) (code src : BitVec 16) (data : BitVec 128) (s : State) : State :=
  let r : BlackBox := ⟨die, Config.timeReading s.free, code, src, data⟩
  let mine := s.blackBox.filter (fun b => b.die = die)
  let kept := if mine.length < 4096 then s.blackBox
    else match s.blackBox.findIdx? (fun b => b.die = die) with
      | some i => s.blackBox.eraseIdx i
      | none => s.blackBox
  { s with blackBox := kept ++ [r], free := s.free + 1 }

/-- A black-box record of the hart in focus. -/
def logHart (code : BitVec 16) (data : BitVec 128) : M Unit := fun s =>
  .ok () (logBlack s.hart.die code (s.hart.hartid.setWidth 16) data s)

/-! ### Poison (R307 to R309) -/

/-- The hart consumes a value with these marks (R308). -/
def consume (m : Mark) : M Unit :=
  if m = 0 then pure () else modT fun t => { t with cir := t.cir ||| m }

/-- A poisoned value would steer the machine (R309). -/
def steerCheck (m : Mark) (ves : Option Nat := none) : M Unit := do
  consume m
  if m = 0 then pure () else
    let h ← getH
    raise causeKill ((2 : BitVec 4) ++ (0 : BitVec 52) ++ h.tr.cir) ves

/-- The poison mark of a state register (R313). -/
def Hart.sm (h : Hart) (n : Nat) : Mark := (getKey n h.srMark).getD 0

/-- The hart with its state registers of some numbers written: their marks end. -/
def Hart.cleanRegs (ns : List Nat) (h : Hart) : Hart := { h with srMark := h.srMark.filter fun r => !ns.contains r.1 }

/-- State registers that say which registers and elements a unit works on, or where it goes, must not be poisoned. DEDUCED
(log 73): R309 does not name them one by one. -/
def steerRegs (ns : List Nat) : M Unit := do
  let h ← getH
  steerCheck (ns.foldl (fun m n => m ||| h.sm n) 0)

/-- The class of an error in storage at a physical address (Table 16.1, Table 9.1). -/
def classAt (pa : Nat) : Mark :=
  if pa < 0xC000000000 then 1
  else if pa < 0x20000000000 then 4
  else if pa < 0x38000000000 then 2
  else if pa < 0x80000000000 then 32
  else 16

/-! ### The physical address map (R111, R183) -/

/-- The size of a stack. -/
def stackBytes : Nat := 0xC00000000

/-- The start of the SRAM window. -/
def sramBase : Nat := 0x1F000000000

/-- Does the address lie in the SRAM window (Table 9.1)? -/
def inSram (pa : Nat) : Bool := sramBase ≤ pa ∧ pa < sramBase + 0x10000000

/-- The slice of an address of the SRAM window (R111). -/
def sliceOf (pa : Nat) : Nat := (pa - sramBase) / 0x800000

/-- The bank of an address of the SRAM window (R112). -/
def bankOf (pa : Nat) : Nat := ((pa - sramBase) % 0x800000 / 4) % 127

/-- Does a physical address exist (Table 9.1, R111, R183)? Hub control space is mapped only for the Protas kernel: DESIGN CHOICE
(log 105), no access of a hart reaches it, a handler's included, and the kernel's own come as HUB_REGISTER_WRITE. DESIGN CHOICE
(log 106): a memory that failed at bring-up does not answer. -/
def physMapped (s : State) (pa : Nat) : Bool :=
  if pa < 0xC000000000 then !s.fencedMems.contains (pa / stackBytes)
  else if inSram pa then (pa - sramBase) % 0x800000 < 8323072
  else if 0x20000000000 ≤ pa ∧ pa < 0x38000000000 then !s.fencedMems.contains 16
  else if 0x40000000000 ≤ pa ∧ pa < 0x80000000000 then true
  else if 0x800000000000 ≤ pa ∧ pa < 0x1000000000000 then
    (getKey ((pa - 0x800000000000) / 2 ^ 42) s.windows).isSome
  else false

/-- Does race detection check the address (R234)? -/
def raceChecked (pa : Nat) : Bool := pa < 0xC000000000 || inSram pa || (0x20000000000 ≤ pa && pa < 0x38000000000)

/-! ### Memory (R9, R183, R307) -/

/-- One byte of memory. -/
def memByte (m : Memory) (a : Nat) : Byte := (getKey a m).getD unlisted

/-- Memory with one byte written; the canonical form is kept. -/
def setByte (m : Memory) (a : Nat) (b : Byte) : Memory := if b = unlisted then delKey a m else putKey a b m

/-- `n` bytes from an address up. -/
def memBytes (m : Memory) (a : Nat) : Nat → List Byte
  | 0 => []
  | n + 1 => memByte m a :: memBytes m (a + 1) n

/-- Memory with a run of bytes written. -/
def setBytes (m : Memory) (a : Nat) : List Byte → Memory
  | [] => m
  | b :: bs => setBytes (setByte m a b) (a + 1) bs

/-- The little-endian number of `n` bytes. -/
def memNat (m : Memory) (a n : Nat) : Nat := leNat (memBytes m a n)

/-- Memory with an `n`-byte number written. -/
def setNat (m : Memory) (a n v : Nat) : Memory := setBytes m a (leBytes n v)

/-- The mark of the word an address lies in. -/
def wordMark (s : State) (a : Nat) : Mark := (getKey (a / 4 * 4) s.marks).getD 0

/-- The words that `n` bytes from `a` touch. -/
def wordsOf (a n : Nat) : List Nat := (fromTo (a / 4) ((a + n + 3) / 4)).map (4 * ·)

/-- The marks of the words that `n` bytes from `a` touch. -/
def markOfRange (s : State) (a n : Nat) : Mark := (wordsOf a n).foldl (fun m w => m ||| wordMark s w) 0

/-- The marks after a store of `n` bytes with mark `mk` (R307): a poisoned value marks each word it touches, an unpoisoned
one clears the words it covers whole. -/
def markStore (mk : Mark) (a n : Nat) (marks : List (Nat × Mark)) : List (Nat × Mark) :=
  (wordsOf a n).foldl (fun ms w =>
    let whole := a ≤ w ∧ w + 4 ≤ a + n
    if mk ≠ 0 then putKey w (if whole then mk else mk ||| (getKey w ms).getD 0) ms
    else if whole then delKey w ms else ms) marks

/-- A store performed at its home. -/
def performStore (a : Nat) (data : List Byte) (mk : Mark) (s : State) : State :=
  { s with mem := setBytes s.mem a data, marks := markStore mk a data.length s.marks
           latent := s.latent.filter (fun w => !(a ≤ w ∧ w + 4 ≤ a + data.length)) }

/-- An uncorrectable error found when a word is read by the party `src` of a die: the word is marked and the error
recorded (R307, R319). -/
def findErrorBy (die : Nat) (src : BitVec 16) (w : Nat) (s : State) : State :=
  if s.latent.contains w then
    let s := { s with latent := s.latent.filter (· ≠ w), marks := putKey w (classAt w) s.marks }
    logBlack die 0x02 src (BitVec.ofNat 128 w) s
  else s

/-- An uncorrectable error found by the hart in focus. -/
def findError (w : Nat) (s : State) : State := findErrorBy s.hart.die (s.hart.hartid.setWidth 16) w s

/-- A bank that is out of service and that no spare stands in for (R127, R129). -/
def bankRetired (s : State) (slice bank : Nat) : Bool := s.retired.contains (slice, bank)

/-- Does a range touch a word of a retired bank (R129)? -/
def touchesRetired (s : State) (pa n : Nat) : Bool :=
  (wordsOf pa n).any fun w => inSram w && bankRetired s (sliceOf w) (bankOf w)

/-! ### Translation (R182, R302, R303) -/

/-- A page of a translation. -/
structure Page where
  pa   : Nat
  size : Nat
  page : Nat
  r    : Bool
  w    : Bool
  x    : Bool
  s    : Bool
  g    : Bool
deriving DecidableEq, Repr

/-- How a walk can fail (R302). -/
inductive WalkFail where
  | page
  | access
deriving DecidableEq, Repr

/-- The four levels of the walk (R302). -/
def walkLevels : List (Nat × Nat × Nat) := [(3, 39, 48), (2, 30, 38), (1, 21, 29), (0, 16, 20)]

/-- The walk of R302 over the levels still to visit, from the table at `t`. -/
def walk (s : State) (va : Nat) (t : Nat) : List (Nat × Nat × Nat) → Except WalkFail Page
  | [] => .error .access
  | (lvl, lo, hi) :: rest =>
    let a := t + 8 * (va / 2 ^ lo % 2 ^ (hi - lo + 1))
    if !physMapped s a || touchesRetired s a 8 then .error .access
    else
      let e := memNat s.mem a 8
      let v := e % 2 = 1
      let leaf := e / 2 % 2 = 1
      if !v then .error .page
      else if e / 2 ^ 48 ≠ 0 ∨ e / 128 % 2 = 1 ∨ (lvl = 3 ∧ leaf) ∨ (lvl = 0 ∧ ¬ leaf) then .error .access
      else if leaf then
        if e / 256 % 2 ^ (lo - 8) ≠ 0 then .error .access
        else .ok ⟨e / 2 ^ lo % 2 ^ (48 - lo) * 2 ^ lo, lo, va / 2 ^ lo, e / 4 % 2 = 1, e / 8 % 2 = 1, e / 16 % 2 = 1,
          e / 32 % 2 = 1, e / 64 % 2 = 1⟩
      else walk s va (e / 256 % 2 ^ 40 * 256) rest

/-- The page of a cached translation. -/
def TlbEntry.toPage (t : TlbEntry) : Page := ⟨t.pa, t.size, t.page, t.r, t.w, t.x, t.s, t.g⟩

/-- Does a cached translation serve an address of an address space (R304)? -/
def TlbEntry.serves (t : TlbEntry) (asid : BitVec 16) (va : Nat) : Bool :=
  (t.g || t.asid = asid) && t.page = va / 2 ^ t.size

/-- The cached translation of an address for a core: its own TLB's, else its die's (R182). -/
def tlbFind (s : State) (core : Nat) (asid : BitVec 16) (va : Nat) : Option TlbEntry :=
  match s.tlb.find? (fun t => t.core = some core && t.serves asid va) with
  | some t => some t
  | none => s.tlb.find? (fun t => t.core = none && t.die = core / 64 && t.serves asid va)

/-- A translation put at the front of one TLB, which keeps its `n` latest. -/
def tlbPush (t : TlbEntry) (n : Nat) (l : List TlbEntry) : List TlbEntry :=
  let same := fun (o : TlbEntry) => decide (o.core = t.core ∧ o.die = t.die)
  t :: (if (l.filter same).length < n then l else (l.reverse.eraseP same).reverse)

/-- The state with a translation cached in a core's TLB of 512 entries (R182). -/
def tlbFillCore (core : Nat) (t : TlbEntry) (s : State) : State :=
  { s with tlb := tlbPush { t with core := some core } 512 s.tlb }

/-- The state with a walk's page cached in the core's TLB and in its die's, of 32,768 entries (R182). -/
def tlbFill (core : Nat) (asid : BitVec 16) (p : Page) (s : State) : State :=
  let t : TlbEntry := ⟨core / 64, none, asid, p.page, p.size, p.pa, p.r, p.w, p.x, p.s, p.g⟩
  tlbFillCore core t { s with tlb := tlbPush t 32768 s.tlb }

/-- Is a virtual address canonical at bit 48 (R182)? -/
def canonical (va : DWord) : Bool := va.extractLsb' 48 16 = 0 || va.extractLsb' 48 16 = 0xFFFF

/-- The page of a virtual address for a core's hart, from a TLB or by a walk. -/
def findPage (core : Nat) (asid : BitVec 16) (ptb va : DWord) (s : State) : Except WalkFail (Page × State) :=
  let a := (va.extractLsb' 0 49).toNat
  match tlbFind s core asid a with
  | some t => .ok (t.toPage, if t.core = none then tlbFillCore core t s else s)
  | none =>
    match walk s a ((ptb.extractLsb' 13 35).toNat * 8192) walkLevels with
    | .error e => .error e
    | .ok p => .ok (p, tlbFill core asid p s)

/-- On whose behalf memory is read or written: a task without Assay, or one of the two copies of one with it (R316). -/
structure Side where
  assay : Bool
  task  : Nat
  copy  : Nat
deriving DecidableEq, Repr

/-- The side of a hart. -/
def Hart.side (h : Hart) : Side := ⟨h.assay, h.taskNo, h.copy⟩

/-- What names an address of a copy's shadow pages where addresses of memory and of shadows stand side by side. -/
def Side.key (d : Side) (a : Nat) : Nat := a + 2 ^ 50 * (1 + 2 * d.task + d.copy)

/-- What names an address that a side writes: outside the SRAM window, a copy under AS writes shadow pages only (R316). -/
def Side.home (d : Side) (a : Nat) : Nat := if d.assay && !inSram a then d.key a else a

/-! ### A hart's accesses -/

/-- Which slices an access may reach: the rows of Table 9.2. -/
inductive Reach where
  | plural
  | gather
  | single
  | control
  | any
deriving DecidableEq, Repr

/-- How an access takes part in race detection (R229, R234). -/
inductive Order where
  | ordinary
  /-- An ordinary access through a tensor handle (R157): Burnish's own accesses never race with it. -/
  | handle
  | sync
  /-- A synchronising access that never raises the memory-model exception itself (R145). -/
  | quiet
  /-- An access that takes no part. -/
  | unchecked
deriving DecidableEq, Repr

/-- What an access does and how its faults are reported. -/
structure Access where
  read  : Bool
  write : Bool
  reach : Reach
  order : Order
  ves   : Option Nat
  /-- Its access faults name its first address, whichever of its words fails: the access of a structure. -/
  whole : Bool
  /-- The queue that carries it, for a deferred report (R235). -/
  queue : Nat
deriving DecidableEq, Repr

/-- Is the access an ordinary one (R229)? -/
def Access.plain (a : Access) : Bool := a.order = .ordinary || a.order = .handle

/-- A load, of element `ves` where it is one of an element. -/
def loadAcc (reach : Reach) (ves : Option Nat := none) : Access := ⟨true, false, reach, .ordinary, ves, false, queueMem⟩
/-- A store, of element `ves` where it is one of an element. -/
def storeAcc (reach : Reach) (ves : Option Nat := none) : Access := ⟨false, true, reach, .ordinary, ves, false, queueMem⟩
/-- A read-modify-write, of element `ves` where it is one of an element. -/
def rmwAcc (reach : Reach) (ves : Option Nat := none) : Access := ⟨true, true, reach, .sync, ves, false, queueMem⟩

/-- The page-fault cause of an access (R303). -/
def Access.pageCause (a : Access) : BitVec 8 := if a.write then causeStorePage else causeLoadPage

/-- The slice check of Table 9.2 for a hart. DEDUCED (log 120): the die of a hart that runs on another one than that of its slice is
that of its slice. -/
def reachOk (s : State) (r : Reach) (pa : Nat) : Bool :=
  let h := s.hart
  let sl := sliceOf pa
  match r with
  | .plural => sl = h.home
  | .gather => sl / 8 = h.home / 8
  | .control => sl / 8 = h.home / 8
  | .any => true
  | .single =>
    sl = h.home || (h.cg ≠ 0 && match taskAt s h.taskNo with
      | some t => t.group.contains sl
      | none => false)

/-- Under AS, the SRAM window shows the slices of the copy's own die (R316). -/
def assayAddr (h : Hart) (pa : Nat) : Nat :=
  if h.assay && inSram pa then
    sramBase + (h.home / 8 * 8 + sliceOf pa % 8) * 0x800000 + (pa - sramBase) % 0x800000
  else pa

/-- The page of a hart's access: a translation held for element VES of a resumed unit comes before the TLBs (R18). -/
def hartPage (h : Hart) (va : DWord) (s : State) : Except WalkFail (Page × State) :=
  match h.held.find? (·.serves h.sr.asid (va.extractLsb' 0 49).toNat) with
  | some t => .ok (t.toPage, s)
  | none => findPage h.core h.sr.asid h.sr.ptb va s

/-- The translation that element VES of a resumed unit has used is held until that element has completed (R18, R304). -/
def holdPage (a : Access) (p : Page) : M Unit := modH fun h =>
  let t : TlbEntry := ⟨h.die, none, h.sr.asid, p.page, p.size, p.pa, p.r, p.w, p.x, p.s, p.g⟩
  if h.resumed.isSome && (a.ves.getD h.tr.ves.toNat = h.tr.ves.toNat) && !h.held.contains t then
    { h with held := t :: h.held } else h

/-- The physical address of a hart's access, with every check of R182, R183, R185, R212 and R303. -/
def translate (a : Access) (va : DWord) : M Nat := do
  if !canonical va then raise causeAccess va a.ves
  let s ← getS id
  let h := s.hart
  match hartPage h va s with
  | .error .page => raise a.pageCause va a.ves
  | .error .access => raise causeAccess va a.ves
  | .ok (p, s') =>
    set s'
    holdPage a p
    if (p.s && h.mode = .task) || (a.read && !p.r) || (a.write && !p.w) then raise causeAccess va a.ves
    let pa := assayAddr h (p.pa + va.toNat % 2 ^ p.size)
    if !physMapped s pa then raise causeAccess va a.ves
    if inSram pa && (!reachOk s a.reach pa || s.fencedClusters.contains (sliceOf pa)) then raise causeAccess va a.ves
    if h.assay && a.write && 0x40000000000 ≤ pa then raise causeAccess va a.ves
    pure pa

/-! ### Order bookkeeping (R229 to R243) -/

/-- The region up to which a clock knows a party. -/
def clockOf (c : List (Nat × Nat)) (party : Nat) : Nat := (getKey party c).getD 0

/-- Two clocks joined. -/
def joinClock (a b : List (Nat × Nat)) : List (Nat × Nat) :=
  b.foldl (fun c pr => if clockOf c pr.1 < pr.2 then putKey pr.1 pr.2 c else c) a

/-- What the hart passes on by a release now: what it knows, and its own region. -/
def Hart.snapshot (h : Hart) : List (Nat × Nat) := putKey h.party h.region h.clock

/-- Does a scope on core `a` contain core `b` (R232)? -/
def scopeHolds (scope a b : Nat) : Bool :=
  match scope with
  | 0 => a = b
  | 1 => a / 8 = b / 8
  | 2 => a / 64 = b / 64
  | _ => true

/-- Does a release pair with an acquire of scope `scope` on core `core` (R231)? -/
def Release.pairs (r : Release) (scope core : Nat) : Bool := scopeHolds r.scope r.core core && scopeHolds scope core r.core

/-- The releases that a byte's value carries (R231, R241). -/
def relsAt (s : State) (a : Nat) : List Release :=
  match s.releases.find? (fun r => r.pa = a) with
  | some r => r.rels
  | none => []

/-- The releases that a read of `n` bytes meets, each once. -/
def relsOf (s : State) (pa n : Nat) : List Release :=
  (fromTo pa (pa + n)).foldl (fun rs a => rs ++ (relsAt s a).filter fun r => !rs.contains r) []

/-- The state with the releases of `n` bytes replaced: what a store leaves. -/
def setRels (pa n : Nat) (rs : List Release) (s : State) : State :=
  let rest := s.releases.filter (fun r => !(pa ≤ r.pa ∧ r.pa < pa + n))
  { s with releases := (if rs.isEmpty then [] else (fromTo pa (pa + n)).map fun a => ⟨a, rs⟩) ++ rest }

/-- The state after a read-modify-write of `n` bytes: each continues its release sequences, and joins its own releases
(R240). -/
def joinRels (pa n : Nat) (rs : List Release) (s : State) : State :=
  (fromTo pa (pa + n)).foldl (fun s a => setRels a 1 (rs ++ relsAt s a) s) s

/-- A synchronising operation ends the hart's region and begins the next (R230). -/
def newRegion : M Unit := modH fun h => { h with region := h.region + 1 }

/-- What the hart knows with the releases that pair with an acquire of a scope on core `core` (R231, R232). -/
def Hart.acquired (h : Hart) (core : Nat) (rs : List Release) (scope : Nat) : List (Nat × Nat) :=
  (rs.filter (·.pairs scope core)).foldl (fun c r => joinClock c r.clock) h.clock

/-- The hart acquires, by an operation on core `core`, the releases that pair with its scope. -/
def acquireOn (core : Nat) (rs : List Release) (scope : Nat) : M Unit := modH fun h =>
  { h with clock := h.acquired core rs scope }

/-- The hart acquires the releases that pair with its scope on the core on which it runs. -/
def acquireRels (rs : List Release) (scope : Nat) : M Unit := do acquireOn (← getH).core rs scope

/-- The key of a word in the race detector: a shadowed word of an Assay copy is a word of its own (R316). -/
def raceKey (h : Hart) (w : Nat) (own : Bool) : Nat :=
  if own then h.side.key w else w

/-- The bytes of the word `w` that lie in `n` bytes from `pa`. -/
def lanesOf (pa n w : Nat) : BitVec 4 :=
  (upTo 4).foldl (fun k i => if pa ≤ w + i ∧ w + i < pa + n then k ||| BitVec.ofNat 4 (2 ^ i) else k) 0

/-- Does an earlier access meet one through a handle to these bytes of its word? Burnish's own never does; one that a
conversion has moved stands for its element alone (R157). -/
def WordAccess.meets (a : WordAccess) (lanes : BitVec 4) : Bool :=
  a.hartid ≠ codeBurnish && ((a.bytes.map (· &&& lanes)).getD 1 ≠ 0)

/-- The earlier accesses that an access made for a party would conflict with (R234); `handle` names the bytes of one through a
tensor handle. -/
def conflicts (s : State) (key owner : Nat) (clock : List (Nat × Nat)) (write ordinary : Bool) (handle : Option (BitVec 4)) :
    List WordAccess :=
  s.accesses.filter fun a => a.word = key && a.owner ≠ owner && (a.write || write) && (a.ordinary || ordinary) &&
    (handle.map a.meets).getD true && clockOf clock a.party < a.region

/-- The access record of a party, its latest region of each kind. -/
def recordAccess (w : WordAccess) (s : State) : State :=
  let rest := s.accesses.filter fun a =>
    !(a.word = w.word && a.party = w.party && a.write = w.write && a.ordinary = w.ordinary && a.handle = w.handle &&
      a.bytes = w.bytes)
  { s with accesses := w :: rest }

/-- The keys of a word for an access of a hart: a word outside the SRAM window has a shadow of its own under AS. -/
def raceKeys (a : Access) (h : Hart) (w : Nat) : List Nat :=
  if h.assay && !inSram w then (if a.write then [raceKey h w true] else [raceKey h w true, w]) else [w]

/-- The earlier accesses that the unit which resumes completes against without a second check (R235). -/
def Hart.waived (h : Hart) : List WordAccess := match h.resumed with
  | some r => r.waived
  | none => []

/-- The earlier accesses that a hart's access to `n` bytes conflicts with in a word. -/
def raceHits (s : State) (a : Access) (pa n w : Nat) : List WordAccess :=
  (raceKeys a s.hart w).flatMap fun k =>
    conflicts s k s.hart.party s.hart.clock a.write a.plain (if a.order = .handle then some (lanesOf pa n w) else none)

/-- The first of them that no report has named to the unit that resumes (R235). -/
def raceHit (s : State) (a : Access) (pa n w : Nat) : Option WordAccess :=
  (raceHits s a pa n w).find? fun c => !s.hart.waived.contains c

/-- The record of a hart's access to a word. -/
def raceNote (a : Access) (wva : DWord) (w : Nat) (s : State) : State :=
  let h := s.hart
  (raceKeys a h w).foldl (fun s k =>
    let r : WordAccess := ⟨k, h.party, h.party, h.hartid.setWidth 64, h.region, false, a.plain, a.order = .handle, wva, h.pc, none, a.queue⟩
    let s := if a.read then recordAccess r s else s
    if a.write then recordAccess { r with write := true } s else s) s

/-- Does race detection look at a word of a hart's access (R234)? -/
def Access.checks (a : Access) (w : Nat) : Bool := a.order ≠ .unchecked && raceChecked w

/-- The virtual address of a word of a run of bytes: the address itself where the run begins inside the word. -/
def wordVa (va : DWord) (pa w : Nat) : DWord := va + BitVec.ofNat 64 (w - pa)

/-- Race detection of one word of a hart's access, before the access takes effect (R234, R235). -/
def raceWord (a : Access) (va : DWord) (pa n w : Nat) : M Unit := do
  let s ← getS id
  if a.checks w then
    match raceHit s a pa n w with
    | some c =>
      if s.hart.rd && a.order ≠ .quiet then
        modH fun h => { h with raced := some c, tr := { h.tr with mmea := wordVa va pa w, mmeh := c.hartid } }
        raise causeRace (wordVa va pa w) a.ves
    | none => pure ()

/-- The access is recorded, word by word. -/
def raceRecord (a : Access) (va : DWord) (pa n : Nat) (s : State) : State :=
  ((wordsOf pa n).filter a.checks).foldl (fun s w => raceNote a (wordVa va pa w) w s) s

/-- Race detection of one word of a matrix read, whose report is deferred (R181). -/
def raceWordLate (a : Access) (va : DWord) (pa n w : Nat) (kind : Nat) : M Unit := do
  let s ← getS id
  if raceChecked w then
    let h := s.hart
    let wva := wordVa va pa w
    let rs := ((raceHits s a pa n w).map fun c => (⟨h.pc, wva, c.hartid, kind⟩ : RaceReport)).filter (!h.races.contains ·)
    if h.rd then modH fun h => { h with races := h.races ++ rs }
    modM (raceNote a wva w)

/-- A single access to a word of a retired bank raises the access fault (R129), at that word, or at the first address of a
structure. -/
def bankCheck (a : Access) (va : DWord) (pa n : Nat) : M Unit := do
  let s ← getS id
  if a.reach ≠ .plural then
    match (wordsOf pa n).find? fun w => touchesRetired s w 4 with
    | some w => raise causeAccess (if a.whole then va else wordVa va pa w) a.ves
    | none => pure ()

/-- A store of the hart to the destination of one of its own copies is held until the copy completes (R195). -/
def copyHold (a : Access) (pa n : Nat) : M Unit := do
  let s ← getS id
  let h := s.hart
  let meets := fun (r : Nat × Nat) => decide (r.1 < pa + n ∧ pa < r.1 + r.2)
  let mine := fun (t l : Nat) => t = h.taskNo && l = h.tr.lhart.toNat
  if a.write && (s.copies.any (fun c => mine c.task c.lhart && c.copy = h.copy && c.dst.any meets) ||
      s.hmvs.any (fun j => j.owner = h.party && j.dst.any meets)) then
    waitFor .stall a.ves

/-- Is a packet one that the hart has posted? -/
def Packet.ofHart (p : Packet) (h : Hart) : Bool :=
  p.parts.any fun q => q.task = h.taskNo && q.lhart = h.tr.lhart.toNat && q.copy = h.copy

/-- Does a packet of the hart that has not been applied touch a word of a range? -/
def packetMeets (s : State) (h : Hart) (pa n : Nat) : Bool :=
  s.packets.any fun p => p.ofHart h && (wordsOf p.pa p.bytes).any (wordsOf pa n).contains

/-- An access of the hart to a word of an operation that it has posted is held until that has been applied (R125). -/
def packetHold (a : Access) (pa n : Nat) : M Unit := do
  if (← getS fun s => packetMeets s s.hart pa n) then waitFor .stall a.ves

/-- A write of the hart ends the reading ahead of an input stream at the first element whose word it touches (R125). -/
def dropAhead (pa n : Nat) (h : Hart) : Hart :=
  { h with streams := h.streams.map fun b =>
      { b with ahead := b.ahead.takeWhile fun x => !(wordsOf x.1 (2 ^ b.sz.toNat)).any (wordsOf pa n).contains } }

/-- What an access of the hart waits for, and its race detection, before it takes effect. -/
def raceLook (a : Access) (va : DWord) (pa n : Nat) : M Unit := do
  bankCheck a va pa n
  copyHold a pa n
  packetHold a pa n
  forEach (wordsOf pa n) (raceWord a va pa n)

/-- The hart after an access that has passed its checks: a single one to another slice of its group sets the remote-access bit
(R187). -/
def Hart.reached (a : Access) (pa : Nat) (h : Hart) : Hart :=
  { h with remote := h.remote || (a.reach = .single && inSram pa && sliceOf pa ≠ h.home) }

/-- What an access that has passed its checks leaves on record: its words, the remote-access bit, and the end of the reading ahead
of what it writes. -/
def raceDone (a : Access) (va : DWord) (pa n : Nat) : M Unit := do
  modM (raceRecord a va pa n)
  modH (Hart.reached a pa)
  if a.write then modH (dropAhead pa n)

/-- The checks of a hart's access to `n` bytes that need its length: its banks, its own copies and posted operations, race
detection; and its record. -/
def raceCheck (a : Access) (va : DWord) (pa n : Nat) : M Unit := do
  raceLook a va pa n
  raceDone a va pa n

/-- The same for an access in several runs: every run is checked before any is on record. -/
def raceRuns (a : Access) (runs : List (DWord × Nat × Nat)) : M Unit := do
  forEach runs fun c => raceLook a c.1 c.2.1 c.2.2
  forEach runs fun c => raceDone a c.1 c.2.1 c.2.2

/-- A run of bytes cut at the boundaries of the smallest pages. -/
def pageRuns (va : DWord) (n : Nat) : List (DWord × Nat) :=
  let room := 65536 - va.toNat % 65536
  if n ≤ room then [(va, n)] else [(va, room), (va + BitVec.ofNat 64 room, n - room)]

/-- The checks of every byte of a run: its page runs with their physical addresses. -/
def rowRuns (a : Access) (va : DWord) (n : Nat) : M (List (DWord × Nat × Nat)) :=
  foldL (fun r c => do
    let pa ← translate a c.1
    bankCheck a c.1 pa c.2
    pure (r ++ [(c.1, pa, c.2)])) [] (pageRuns va n)

/-- Changes the hart that runs a party, wherever it is (R230). -/
def modParty (party : Nat) (f : Hart → Hart) (s : State) : State :=
  if s.hart.status ≠ .idle && s.hart.party = party then { s with hart := f s.hart }
  else
    { s with
      others := s.others.map fun h => if h.status ≠ .idle && h.party = party then f h else h
      saved := s.saved.map fun v => if v.hart.party = party then { v with hart := f v.hart } else v }

/-- The hart that runs a party, wherever it is. -/
def hartOf (s : State) (party : Nat) : Option Hart :=
  ((s.hart :: s.others).filter (·.status ≠ .idle) ++ s.saved.map (·.hart)).find? (·.party = party)

/-- Does the task of a party have RD set (R234)? -/
def partyRd (s : State) (party : Nat) : Bool :=
  match hartOf s party with
  | some h => h.rd
  | none => false

/-- An engine's access that belongs to no hart meets an earlier access: a hart's ordinary one is reported to that hart,
deferred (R235). Burnish's own accesses never meet one through a handle (R157). -/
def engineMeets (code : BitVec 64) (s : State) (a : WordAccess) : State :=
  if a.ordinary && !(a.handle && code = codeBurnish) && partyRd s a.owner then
    modParty a.owner (fun h => { h with races := h.races ++ [⟨a.unit, a.va, code, a.queue⟩] }) s
  else s

/-- An ordinary access of an engine that belongs to no hart, performed and recorded; every earlier conflicting one is reported
(R229, R234, R235). DEDUCED (log 15): Bellows' operations on one word follow each other, so the last stands for those before
it. -/
def engineAccess (party : Nat) (code : BitVec 64) (clock : List (Nat × Nat)) (pa n : Nat) (write : Bool) (s : State) :
    State :=
  (wordsOf pa n).foldl (fun s w =>
    if !raceChecked w then s
    else
      let s := (conflicts s w party clock write true none).foldl (engineMeets code) s
      let s := if code ≠ codeBellows then s
        else { s with accesses := s.accesses.filter fun a => !(a.word = w && a.hartid = code && (write || !a.write)) }
      recordAccess ⟨w, party, party, code, 1, write, true, false, BitVec.ofNat 64 w, 0, none, queueMem⟩ s) s

/-- The shadow page of a side that holds a physical address (R316). -/
def shadowOf (s : State) (d : Side) (pa : Nat) : Option ShadowPage :=
  if d.assay then s.shadows.find? fun p => p.task = d.task && p.copy = d.copy && p.base ≤ pa && pa < p.base + p.size
  else none

/-- What names an address that a side reads. -/
def Side.seen (d : Side) (s : State) (a : Nat) : Nat := if (shadowOf s d a).isSome then d.key a else a

/-- A byte at its home, or in the side's shadow page (R316). -/
def homeByte (s : State) (d : Side) (pa : Nat) : Byte :=
  match shadowOf s d pa with
  | some p => memByte p.cells pa
  | none => memByte s.mem pa

/-- The latest buffered byte at a physical address, if the open strip holds one (R311). -/
def bufByte (buf : List BufStore) (pa : Nat) : Option (Byte × Mark) :=
  buf.foldl (fun r b => if b.pa ≤ pa ∧ pa < b.pa + b.data.length then
    some ((b.data[pa - b.pa]?).getD 0, b.mark) else r) none

/-- A byte as the hart in focus reads it: its buffered stores, its copy's shadow, then memory (R125, R311, R316). -/
def viewByte (s : State) (pa : Nat) : Byte :=
  match bufByte s.hart.buf pa with
  | some (b, _) => b
  | none => homeByte s s.hart.side pa

/-- The mark that a word of memory gives what reads it: poison from host memory or from a peer device has that source's class
alone (Table 16.1). -/
def readMark (s : State) (w : Nat) : Mark :=
  let m := wordMark s w
  if m ≠ 0 ∧ 0x40000000000 ≤ w then classAt w else m

/-- The mark of a word at its home or in the side's shadow page. -/
def homeMark (s : State) (d : Side) (w : Nat) : Mark :=
  match shadowOf s d w with
  | some p => (getKey w p.marks).getD 0
  | none => readMark s w

/-- A word's mark after a store of a range with mark `mk` (R307): a poisoned value marks the word, an unpoisoned one clears
it where it covers the word whole. -/
def storedMark (mk : Mark) (a n w : Nat) (old : Mark) : Mark :=
  if wordsOf a n |>.contains w then
    if a ≤ w ∧ w + 4 ≤ a + n then mk else mk ||| old
  else old

/-- The mark of a range as the hart in focus reads it: each word's mark at its home, then its buffered stores (R307,
R311). -/
def viewMark (s : State) (pa n : Nat) : Mark :=
  (wordsOf pa n).foldl (fun m w =>
    m ||| s.hart.buf.foldl (fun k b => storedMark b.mark b.pa b.data.length w k) (homeMark s s.hart.side w)) 0

/-- The bytes and the mark a hart reads at a physical address; a latent error is found (R307). -/
def readPhys (pa n : Nat) : M (List Byte × Mark) := do
  forEach (wordsOf pa n) fun w => modM (findError w)
  getS fun s => ((fromTo pa (pa + n)).map (viewByte s), viewMark s pa n)

/-- The instruction word at an address, with the state after its translation; none where the fetch faults (R68, R129, R303,
R307). The hart fetches what it would load: its own stores are visible to it (R80). -/
def fetchWord (s : State) (va : DWord) : Option (Word × State) :=
  if !canonical va || s.badFetches.contains (s.hart.core, va) then none
  else
    match findPage s.hart.core s.hart.sr.asid s.hart.sr.ptb va s with
    | .error _ => none
    | .ok (p, s') =>
      let pa := p.pa + va.toNat % 2 ^ p.size
      if !p.x || (p.s && s.hart.mode = .task) || !physMapped s pa || touchesRetired s pa 4 || viewMark s pa 4 ≠ 0 ||
        s.latent.contains (pa / 4 * 4) then none
      else some (BitVec.ofNat 32 (leNat ((fromTo pa (pa + 4)).map (viewByte s))), s')

/-- The bytes of a page of an address space that a physical address lies in: its start and length. -/
def pageSpan (s : State) (asid : BitVec 16) (va : DWord) (pa : Nat) : Nat × Nat :=
  let ptb := ((getKey asid.toNat s.spaces).map (·.ptb)).getD 0
  match walk s (va.extractLsb' 0 49).toNat ((ptb.extractLsb' 13 35).toNat * 8192) walkLevels with
  | .ok p => if p.pa ≤ pa ∧ pa < p.pa + 2 ^ p.size then (p.pa, 2 ^ p.size) else (pa / 65536 * 65536, 65536)
  | .error _ => (pa / 65536 * 65536, 65536)

/-- The first write of a copy to a page gives it a private copy of the page (R316). -/
def openShadow (d : Side) (va : DWord) (pa : Nat) (s : State) : State :=
  match shadowOf s d pa with
  | some _ => s
  | none =>
    let asid := match taskAt s d.task with
      | some t => t.asid
      | none => 0
    let (base, size) := pageSpan s asid va pa
    let inside := fun a => decide (base ≤ a ∧ a < base + size)
    let s := (s.latent.filter inside).foldl (fun s w => findErrorBy 0 0xFFFF w s) s
    let page : ShadowPage :=
      ⟨d.task, d.copy, base, size, s.mem.filter fun c => inside c.1, s.marks.filter fun c => inside c.1, []⟩
    let rels := (s.releases.filter fun r => inside r.pa).map fun r => { r with pa := d.key r.pa }
    let objs := (s.objRels.filter fun p => p.1 % 16 = 1 && inside (p.1 - 1)).map fun p => (d.key p.1, p.2)
    { s with shadows := s.shadows ++ [page], releases := s.releases ++ rels, objRels := objs ++ s.objRels }

/-- A store to a shadow page. -/
def ShadowPage.store (p : ShadowPage) (pa : Nat) (data : List Byte) (mk : Mark) : ShadowPage :=
  { p with cells := setBytes p.cells pa data, marks := markStore mk pa data.length p.marks
           written := p.written ++ (wordsOf pa data.length).filter fun w => !p.written.contains w }

/-- The touchmark terms of a committed write: one message for each aligned word it touches (R317). -/
def touchTerm (task : Nat) (va : DWord) (data : List Byte) : BitVec 128 :=
  let a := va.toNat
  let (k0, k1) := Config.touchKeys task
  (wordsOf a data.length).foldl (fun t w =>
    let lanes := fromTo w (w + 4)
    let inside := fun x => decide (a ≤ x ∧ x < a + data.length)
    let bytes := leNat (lanes.map fun x => if inside x then (data[x - a]?).getD 0 else 0)
    let enable := lanes.foldl (fun k x => if inside x then k + 2 ^ (x - w) else k) 0
    let lo := BitVec.ofNat 64 w
    let hi := BitVec.ofNat 64 (bytes + enable * 2 ^ 32)
    t + (sipHash k1 lo hi ++ sipHash k0 lo hi)) 0

/-- A store takes effect at its home, or in the side's shadow pages under AS (R316, R317). -/
def commitSide (d : Side) (pa : Nat) (va : DWord) (data : List Byte) (mk : Mark) (s : State) : State :=
  if d.assay && !inSram pa then
    let s := openShadow d va pa s
    let s := { s with shadows := s.shadows.map fun p =>
      if p.task = d.task && p.copy = d.copy && p.base ≤ pa && pa < p.base + p.size then p.store pa data mk else p }
    modTask d.task (fun t =>
      let x := touchTerm d.task va data
      { t with touch := if d.copy = 0 then (t.touch.1 + x, t.touch.2) else (t.touch.1, t.touch.2 + x) }) s
  else performStore pa data mk s

/-- A store of the hart in focus takes effect. -/
def commitStore (pa : Nat) (va : DWord) (data : List Byte) (mk : Mark) (s : State) : State :=
  commitSide s.hart.side pa va data mk s

/-- An ordinary store of the hart in focus is performed: its value continues no release sequence of the bytes (R231). -/
def plainStore (pa : Nat) (va : DWord) (data : List Byte) (mk : Mark) (s : State) : State :=
  setRels (s.hart.side.home pa) data.length [] (commitStore pa va data mk s)

/-- A buffered store is performed. One to a window that has been unmapped since is lost, with the fabric class set in CIR
(Table 10.2). DEDUCED (log 114): one to a slice that is out of service since is performed there. -/
def landStore (b : BufStore) (s : State) : State :=
  if physMapped s b.pa then plainStore b.pa b.va b.data b.mark s
  else { s with hart := { s.hart with tr := { s.hart.tr with cir := s.hart.tr.cir ||| 16 } } }

/-- The open strip's buffered stores become performed, in program order (R31, R311). -/
def commitBuffer : M Unit := do
  let h ← getH
  modM fun s => h.buf.foldl (fun s b => landStore b s) s
  modH fun h => { h with buf := [] }

/-- The open strip becomes unprotected: the buffer commits (R312). -/
def unprotect : M Unit := do
  let h ← getH
  if h.protectedStrip then
    commitBuffer
    modH fun h => { h with ckpt := { h.ckpt with unprotected := true } }

/-- A buffered store (R311): held in the strip store buffer of a protected strip, else performed. -/
def bufferedStore (pa : Nat) (va : DWord) (data : List Byte) (mk : Mark) : M Unit := do
  let h ← getH
  if h.protectedStrip then
    let held := h.buf.foldl (fun n b => n + b.data.length) 0
    if held + data.length ≤ 65536 then modH fun h => { h with buf := h.buf ++ [⟨pa, va, data, mk⟩] }
    else do
      unprotect
      modM (plainStore pa va data mk)
  else modM (plainStore pa va data mk)

/-- A load of `n` bytes by the hart in focus: the bytes and their mark. -/
def loadBytes (a : Access) (va : DWord) (n : Nat) : M (List Byte × Mark) := do
  let pa ← translate a va
  raceCheck a va pa n
  readPhys pa n

/-- A load of an `n`-byte number. -/
def loadNat (a : Access) (va : DWord) (n : Nat) : M (Nat × Mark) := do
  let (bs, m) ← loadBytes a va n
  pure (leNat bs, m)

/-- An ordinary store by the hart in focus. -/
def storeNat (a : Access) (va : DWord) (n v : Nat) (mk : Mark) : M Unit := do
  let pa ← translate a va
  raceCheck a va pa n
  bufferedStore pa va (leBytes n v) mk

/-- A load that touches more than one page's worth of checks is one structure read: `n` bytes at an aligned address whose
poison may steer an engine (R309). -/
def loadStruct (a : Access) (va : DWord) (n : Nat) : M Nat := do
  let (v, m) ← loadNat { a with whole := true } va n
  steerCheck m a.ves
  pure v

/-- Does the hart have posted operations that a release waits for (R238)? -/
def releasePending (s : State) : Bool := s.packets.any (·.ofHart s.hart)

/-- A release waits until every earlier access of its region has been performed (R238). -/
def releaseGate : M Unit := do
  if (← getS releasePending) then waitFor .retry

/-- An acquire is performed before the hart goes on, and not before an earlier release of the hart (R239): it waits for the
posted operations that release. -/
def acquireGate (ves : Option Nat := none) : M Unit := do
  if (← getS fun s => s.packets.any fun p => p.ofHart s.hart && p.parts.any fun q => !q.rel.isEmpty) then waitFor .retry ves

/-- The FENCEs that wait for the hart's next RMW or release store, as releases of the core that performs it (R238, R232). -/
def fencesNow (h : Hart) : List Release := h.fenceRel.map fun r => { r with core := h.core }

/-- The hart's release at a scope, for the value it is about to write: what it passes on, and the pending FENCEs (R231,
R238). -/
def relsNow (h : Hart) (order : Nat) (scope : Nat) : List Release :=
  (if order = 2 ∨ order = 3 then [⟨h.core, scope, h.snapshot⟩] else []) ++ fencesNow h

/-- The RMW or release store has taken the pending FENCEs. -/
def takeFences : M Unit := modH fun h => { h with fenceRel := [] }

/-- What the hart's last RMW or acquire has read: FENCE of kind 1 may use it later (R238). -/
def noteAcquire (rs : List Release) : M Unit := modH fun h =>
  { h with lastAcq := rs, lastCore := h.core, lastNo := h.lastNo + 1 }

/-! ### Deferred race reports (R235) -/

/-- A synchronising operation, DRAIN, CHKERR or FINISH raises a deferred report first. -/
def raceReports (which : RaceReport → Bool) : M Unit := do
  let h ← getH
  match h.races.find? which with
  | none => pure ()
  | some r =>
    modH fun h => { h with races := h.races.erase r, tr := { h.tr with mmea := r.mmea, mmeh := r.mmeh } }
    raise causeRace r.tval

/-- What every synchronising operation does first: deferred reports, and the open strip becomes unprotected (R235,
R312). -/
def syncStart : M Unit := do
  raceReports fun _ => true
  unprotect

/-! ### Scalar registers and streams (R45, R200, R201) -/

/-- The length of a stream (R197). -/
def StreamB.len (b : StreamB) : Nat := b.n0.toNat * b.n1.toNat * b.n2.toNat

/-- The address of a stream's element (R197). -/
def StreamB.addr (b : StreamB) (i : Nat) : DWord :=
  let i0 := i % b.n0.toNat
  let i1 := i / b.n0.toNat % b.n1.toNat
  let i2 := i / (b.n0.toNat * b.n1.toNat)
  b.base + b.s0 * BitVec.ofNat 64 i0 + b.s1 * BitVec.ofNat 64 i1 + b.s2 * BitVec.ofNat 64 i2

/-- The stream bound to a register, if any. -/
def streamOf (h : Hart) (vec : Bool) (r : Reg) : Option StreamB := h.streams.find? fun b => b.vec = vec && b.reg = r

/-- The stream trap (R201): TVAL holds the instruction word. -/
def streamTrap {α : Type} : M α := do
  let h ← getH
  raise causeStream (zext h.ir)

/-- The unit has popped or pushed `n` elements of the stream bound to a register; the position advances when the unit
completes (R200). -/
def useStream (vec : Bool) (r : Reg) (n : Nat) : M Unit := modH fun h =>
  { h with streams := h.streams.map fun b => if b.vec = vec ∧ b.reg = r then { b with used := true, step := n } else b }

/-- The value of a scalar input element (R200). -/
def StreamB.extend (b : StreamB) (v : Nat) : DWord :=
  let w := 8 * 2 ^ b.sz.toNat
  if b.zext then BitVec.ofNat 64 v else dw (signedOf w v)

/-- Runs an action with another knowledge of other parties in place of the hart's. -/
def withClock {α : Type} (c : List (Nat × Nat)) (m : M α) : M α := fun s =>
  let back := fun (t : State) => { t with hart := { t.hart with clock := s.hart.clock } }
  match m { s with hart := { s.hart with clock := c } } with
  | .ok x t => .ok x (back t)
  | .error e t => .error e (back t)

/-- The element `i` places on from the stream's position, as one pop takes it: read ahead, or loaded now (R200). Nothing that
the hart has acquired since the STRM orders it (R202). -/
def popElem (b : StreamB) (i : Nat) : M (Nat × Mark) := do
  let x ← withClock b.clock (loadNat (loadAcc .single) (b.addr (b.pos + i)) (2 ^ b.sz.toNat))
  pure (((b.ahead[i]?).map (·.2)).getD x)

/-- Runs an action of element `e` of a stream ahead of the elements of the unit: a trap of it is latched, the lowest element's
before others; none then (R17, R201). A wait ends the unit as ever. -/
def latched {α : Type} (e : Nat) (m : M α) : M (Option α) := fun s =>
  match m s with
  | .ok x t => .ok (some x) t
  | .error (.trap c v _) t =>
    let l : Late := ⟨c, v, e, t.hart.raced, t.hart.tr.mmea, t.hart.tr.mmeh⟩
    let late := match s.hart.late with
      | some o => if e < o.elem then l else o
      | none => l
    .ok none { t with hart := { t.hart with
      late := some late, raced := s.hart.raced, tr := { t.hart.tr with mmea := s.hart.tr.mmea, mmeh := s.hart.tr.mmeh } } }
  | .error e t => .error e t

/-- The latched trap is taken, if it is of an element below `n`. -/
def lateTrap (n : Nat) : M Unit := do
  match (← getH).late with
  | some l =>
    if l.elem < n then
      modH fun h => { h with raced := l.raced, tr := { h.tr with
        mmea := if l.raced.isSome then l.mmea else h.tr.mmea, mmeh := if l.raced.isSome then l.mmeh else h.tr.mmeh } }
      raise l.cause l.tval l.elem
  | none => pure ()

/-- An instruction that does not go element by element takes a latched trap at once, before it takes any effect. -/
def settle : M Unit := do
  match (← getH).late with
  | some l => lateTrap (l.elem + 1)
  | none => pure ()

/-- A register of the file; x0 reads as zero (R45). -/
def Hart.xr (h : Hart) (n : Nat) : DWord := if n = 0 then 0 else (h.x[n]?).getD 0

/-- The poison mark of a register. -/
def Hart.xm (h : Hart) (n : Nat) : Mark := if n = 0 then 0 else (h.xMark[n]?).getD 0

/-- A register of the file written; writes to x0 are discarded (R45). -/
def Hart.setX (h : Hart) (n : Nat) (v : DWord) (m : Mark) : Hart :=
  if n = 0 then h else { h with x := h.x.setIfInBounds n v, xMark := h.xMark.setIfInBounds n m }

/-- A source register: its value and mark. A bound input register pops its next element once (R200). The hart consumes
any poison it reads (R308). -/
def srcXBy (take : Mark → M Unit) (r : Reg) : M (DWord × Mark) := do
  let h ← getH
  match streamOf h false r with
  | none =>
    take (h.xm r.toNat)
    pure (h.xr r.toNat, h.xm r.toNat)
  | some b =>
    if b.out || b.pos ≥ b.len then streamTrap
    let (v, m) ← popElem b 0
    take m
    unprotect
    useStream false r 1
    modH fun h => h.setX r.toNat (b.extend v) m
    pure (b.extend v, m)

/-- A source register: its value and mark, consumed. -/
def srcX (r : Reg) : M (DWord × Mark) := srcXBy consume r

/-- A source register whose value must not be poisoned: the trap comes before any effect (R309). -/
def steerX (r : Reg) : M DWord := do
  let (v, _) ← srcXBy (steerCheck ·) r
  pure v

/-- Runs an action for its trap of a poisoned value alone, which comes before any effect (R309): whatever else it does or stops it is
left to its own turn. -/
def lookAhead (m : M Unit) : M Unit := fun s =>
  match m s with
  | .ok _ _ => .ok () s
  | .error (.trap c v _) t => if c = causeKill then .error (.trap c v none) t else .ok () s
  | .error _ _ => .ok () s

/-- The value and the mark that a source register is about to give: those of its next element where a stream is bound to it. -/
def nextX (r : Reg) : M (DWord × Mark) := do
  let h ← getH
  match streamOf h false r with
  | none => pure (h.xr r.toNat, h.xm r.toNat)
  | some b =>
    if b.out || b.pos ≥ b.len then streamTrap
    let (v, m) ← popElem b 0
    pure (b.extend v, m)

/-- An instruction that pops a stream looks first at every value that would steer it (R309): those of the registers `rs`, and
what `more` checks. -/
def steerLook (rs : List Reg) (more : M Unit := pure ()) : M Unit := do
  let h ← getH
  if h.streams.isEmpty then pure ()
  else do
    forEach rs fun r => lookAhead (do steerCheck (← nextX r).2)
    lookAhead more

/-- The `n` bytes that an instruction reads at a distance from x[B], where that is aligned as it must be: they must not be
poisoned. -/
def lookStruct (b : Reg) (align off n : Nat) : M Unit := do
  let (x, _) ← nextX b
  if x.toNat % align = 0 then
    let _ ← loadStruct { loadAcc .any with order := .unchecked } (x + BitVec.ofNat 64 off) n

/-- The register of a number, for runs of registers. -/
def regOf (n : Nat) : Reg := BitVec.ofNat 7 n

/-- The checks of one push before the unit takes effect (R201): its address, what it waits for, and race detection. -/
def pushLook (b : StreamB) (i : Nat) : M Unit := do
  let va := b.addr (b.pos + i)
  let pa ← translate (storeAcc .single) va
  raceLook (storeAcc .single) va pa (2 ^ b.sz.toNat)

/-- The checks of a scalar destination before the unit takes effect: an input stream register may not be written, and a
push checks its address (R201). -/
def destX (r : Reg) : M Unit := do
  let h ← getH
  match streamOf h false r with
  | none => pure ()
  | some b =>
    if !b.out || b.pos ≥ b.len then streamTrap
    pushLook b 0

/-- A scalar destination written; a bound output register pushes the value (R200). -/
def setX (r : Reg) (v : DWord) (m : Mark) : M Unit := do
  let h ← getH
  modH fun h => h.setX r.toNat v m
  match streamOf h false r with
  | none => pure ()
  | some b =>
    unprotect
    storeNat (storeAcc .single) (b.addr b.pos) (2 ^ b.sz.toNat) (v.toNat % 2 ^ (8 * 2 ^ b.sz.toNat)) m
    useStream false r 1

/-! ### FCR (R58, R93) -/

/-- The trap enables of FCR. -/
def fcrEnables (fcr : BitVec 13) : FpFlags := fcr.extractLsb' 8 5

/-- Flags raised: FCR keeps them; the enabled ones among them are returned. -/
def raiseFlags (fl : FpFlags) : M FpFlags := do
  let h ← getH
  modT fun t => { t with fcr := t.fcr ||| fl.setWidth 13 }
  pure (fl &&& fcrEnables h.tr.fcr)

/-- Is the floating-point trap of element `e` held back because the unit resumes from one (R18, R93)? -/
def fpHeld (h : Hart) (e : Nat) : Bool :=
  match h.resumed with
  | some r => r.fp && e ≤ r.ves.toNat
  | none => false

/-- Flags of one element, or of a scalar instruction, with the trap of an enabled one (R58, R93). -/
def fpFlags (fl : FpFlags) (e : Option Nat := none) : M Unit := do
  let en ← raiseFlags fl
  let h ← getH
  if en ≠ 0 && !fpHeld h (e.getD h.tr.ves.toNat) then raise causeFp (zext en) e

/-! ### The loop sequencer (R37 to R41) -/

/-- The step of the levels whose body ends where the unit ended, the innermost first: contexts, registers and PC (R38,
R39). DEDUCED (log 113): the step writes its register as the sequencer's own act: one that a stream is bound to neither pops nor
pushes. -/
def loopLevels (h : Hart) (next : DWord) : List Nat → Hart × DWord
  | [] => (h, next)
  | l :: rest =>
    let c := (h.loops[l]?).getD LoopCtx.reset
    if c.active && c.stop = next then
      let h := if c.ind = 0 then h
        else h.setX c.ind.toNat (h.xr c.ind.toNat + c.stride) (h.xm c.ind.toNat ||| c.mark)
      if 1 < c.remaining.toNat then
        ({ h with loops := h.loops.setIfInBounds l { c with remaining := c.remaining - 1 } }, c.start)
      else loopLevels { h with loops := h.loops.setIfInBounds l { c with active := false } } next rest
    else loopLevels h next rest

/-- The hart and the PC after a word ending at `next` has completed (R38). -/
def loopStep (h : Hart) (next : DWord) : Hart × DWord :=
  if h.seqOff then (h, next) else loopLevels h next [0, 1, 2, 3, 4, 5]

/-- A context lies around a target. -/
def LoopCtx.holds (c : LoopCtx) (t : DWord) : Bool := c.start.toNat ≤ t.toNat && t.toNat < c.stop.toNat

/-- The contexts after a taken branch to `t`: a level whose body `t` leaves ends, with every lower level (R40). -/
def loopJump (h : Hart) (t : DWord) : Hart :=
  if h.seqOff then h
  else
    let out := (upTo 6).foldl (fun (r : Option Nat) l =>
      let c := (h.loops[l]?).getD LoopCtx.reset
      if c.active && !c.holds t then some l else r) none
    match out with
    | none => h
    | some top => { h with loops := (upTo (top + 1)).foldl (fun ls l =>
        ls.setIfInBounds l { (ls[l]?).getD LoopCtx.reset with active := false }) h.loops }

/-- Does an active body end with the word at `pc` (R78)? -/
def lastOfBody (h : Hart) (pc : DWord) : Bool :=
  !h.seqOff && h.loops.toList.any fun c => c.active && c.stop = pc + 4

/-! ### Completing, trapping and returning -/

/-- The words of the unit being executed (R78). -/
def Hart.unitLen (h : Hart) : DWord := if h.pfx = .none then 4 else 8

/-- The streams the unit used move on; every stream forgets its use (R200). -/
def advanceStreams (commit : Bool) (l : List StreamB) : List StreamB :=
  l.map fun b => 
    if commit && b.used then { b with pos := b.pos + b.step, ahead := b.ahead.drop b.step, used := false, step := 0 }
    else { b with used := false, step := 0 }

/-- What a unit's completion leaves, but for PC and VES (R17, R78, R200). -/
def Hart.complete (h : Hart) : Hart :=
  { h with pfx := .none, wait := .no, resumed := none, stopAt := none, rechecked := false, held := [], late := none, kept := []
           streams := advanceStreams true h.streams }

/-- The promises of the unit that resumes, if it is stopped again at the element at which it resumed (R18). -/
def Hart.promises (h : Hart) (ves : DWord) : Bool × List WordAccess :=
  match h.resumed with
  | some r => if r.pc = h.pc && r.ves = ves then (r.fp, r.waived) else (false, [])
  | none => (false, [])

/-- The unit that a trap stops, with what holds on its return: no second floating-point trap, and no second check against
the earlier access that a memory-model trap names (R93, R235). -/
def Hart.stopped (h : Hart) (cause : BitVec 8) (ves : DWord) : Suspended :=
  let (fp, waived) := h.promises ves
  ⟨h.pc, ves, fp || cause = causeFp, h.raced.toList ++ waived, h.kept⟩

/-- Taking a trap (R288): the cause, TVAL and the element are given; TPC is the unit's first word. -/
def takeTrap (cause : BitVec 8) (tval : DWord) (ves : DWord) (h : Hart) : Hart :=
  { h with
    sr := { h.sr with tcause := cause.setWidth 64, tval := tval, tpc := h.pc, tves := ves
                      pm := h.mode, pie := h.sr.ie, ie := false }
    tr := { h.tr with ves := 0 }
    mode := .supervisor, pc := h.sr.tvec &&& ~~~3
    pfx := .none, wait := .no, seqOff := true, resumed := none, stopAt := none, rechecked := false
    held := [], raced := none, late := none, kept := []
    srMark := h.srMark.filter fun r => !([0x002, 0x101, 0x102, 0x103, 0x104, 0x109].contains r.1)
    streams := advanceStreams false h.streams
    suspended := h.stopped cause ves :: h.suspended }

/-- Returning from a trap (R289), and what holds for the unit that resumes: its promises (R18), and what it had read (R14). DESIGN CHOICE (log 96): an ERET that
returns into an outer handler resumes the sequencer as well (R40 does not say). -/
def returnTrap (h : Hart) : Hart :=
  let kept := match h.suspended with
    | r :: _ => if r.pc = h.sr.tpc && h.sr.tves ≠ 0 && r.ves.toNat ≤ h.sr.tves.toNat then r.kept else []
    | [] => []
  let anew : Suspended := ⟨h.sr.tpc, h.sr.tves, false, [], []⟩
  let back := match h.suspended with
    | r :: _ => if r.pc = h.sr.tpc && r.ves = h.sr.tves then r else anew
    | [] => anew
  { h with
    pc := h.sr.tpc &&& ~~~3
    tr := { h.tr with ves := h.sr.tves }
    mode := h.sr.pm
    sr := { h.sr with ie := h.sr.pie }
    pfx := .none, wait := .no, seqOff := false, resumed := some back, stopAt := none, suspended := h.suspended.tail
    held := [], late := none, kept := kept
    streams := advanceStreams true h.streams }

/-- The hart after its unit has completed in sequence: the sequencer's step gives PC (R38). -/
def retireSeq (keepVes : Bool) (h : Hart) : Hart :=
  let (h', pc) := loopStep h (h.pc + h.unitLen)
  { h'.complete with pc := pc, tr := { h'.tr with ves := if keepVes then h'.tr.ves else 0 } }

/-- The hart after a taken branch or jump (R40). -/
def retireJump (t : DWord) (h : Hart) : Hart :=
  { (loopJump h t).complete with pc := t, tr := { h.tr with ves := 0 } }

/-- Words that are skipped complete for the sequencer, one by one, until a body steps back (R38, R41). -/
def skipWords : Nat → Hart → DWord → Hart × DWord
  | 0, h, pc => (h, pc)
  | n + 1, h, pc =>
    let (h', pc') := loopStep h (pc + 4)
    if pc' = pc + 4 then skipWords n h' pc' else (h', pc')

/-- The hart after a unit that skips the `n` words after it. -/
def retireSkip (n : Nat) (h : Hart) : Hart :=
  let (h', pc) := skipWords (n + 1) h h.pc
  { h'.complete with pc := pc, tr := { h'.tr with ves := 0 } }

/-- VES where a unit stops at an element, or as it stands. -/
def Hart.vesAt (h : Hart) (n : Option Nat) : DWord := match n with
  | some e => BitVec.ofNat 64 e
  | none => h.tr.ves

/-- VES as a stop gives it. -/
def Stop.ves : Stop → Option Nat
  | .trap _ _ v => v
  | .wait _ v => v

/-- The hart after its unit has stopped. A pre-emption that names an element stands only while the unit waits for an engine:
a hart that waits in an interruptible instruction is pre-empted there (R294). -/
def stopHart (e : Stop) (h : Hart) : Hart :=
  match e with
  | .trap c v n => takeTrap c v (h.vesAt n) h
  | .wait w n =>
    { h with wait := w, tr := { h.tr with ves := h.vesAt n }, streams := advanceStreams false h.streams
             stopAt := if w = .retry ∨ w = .stall then h.stopAt else none
             resumed := if w = .no then none else h.resumed
             held := if w = .no then [] else h.held
             late := none }

/-- The hart after its unit's effect has run to its end. -/
def flowHart (f : Flow) (h : Hart) : Hart :=
  match f with
  | .seq => retireSeq false h
  | .seqKeepVes => retireSeq true h
  | .jump t => retireJump t h
  | .placed => h
  | .latched => h
  | .skip n => retireSkip n h
  | .seqTrap c v => takeTrap c v 0 (retireSeq false h)

/-- The outcome of a unit's effect: every trap, every wait and every completion is a next state. -/
def runUnit (m : M Flow) (s : State) : Host.Outcome State Fault Refusal :=
  match m s with
  | .ok f s' => .next { s' with hart := flowHart f s'.hart }
  | .error e s' => .next { s' with hart := stopHart e s'.hart }

/-- A unit that waits looks again: it goes on waiting, unchanged, or ends as `runUnit` ends it. -/
def resumeUnit (m : M Flow) (s : State) : Host.Outcome State Fault Refusal :=
  match m s with
  | .error (.wait _ _) _ => .next s
  | _ => runUnit m s

/-! ### What every unit checks first (R78, R84, R85) -/

/-- A prefix that issues as the last word of an active body traps at the prefix (R78). -/
def prefixPlace : M Unit := do
  let h ← getH
  if h.pfx ≠ .none && lastOfBody h h.pc then raise causeIllegal (zext h.irPfx) (some 0)

/-- The deterministic trap (R84): TVAL holds the instruction word, and VES is 0. -/
def detTrap : M Unit := do
  let h ← getH
  if h.det then raise causeDet (zext h.ir) (some 0)

/-- The checks before a unit's effect, in the order of R85: the deterministic trap where R84 names the instruction, then
the prefix's place. -/
def unitStart (det : Bool) : M Unit := do
  if det then detTrap
  prefixPlace

/-- Under RC no value reaches memory, a scalar register or a synchronising operation while a recheck is pending (R314). -/
def planishGate : M Unit := do
  let h ← getH
  if !h.planish.isEmpty then waitFor .stall

/-- An illegal-instruction trap of execution: TVAL holds the instruction word (R85 step 6), and VES is 0. DEDUCED (log 107): so it
is for every illegal-instruction trap, also of a unit that issues with a VES that is not 0. -/
def illegal {α : Type} : M α := do
  let h ← getH
  raise causeIllegal (zext h.ir) (some 0)

end Sys2Proof.Machine
end

