-- ==== Sys2Proof/Machine/Operands.lean ====
section
/-!
DEFINITION. Operand forms: addresses of the scalar forms (R70, R71), vector registers and windows (R46, R48, R53), masks,
policies (R54), vector streams (R200), and the loops over the elements of a vector instruction (R17, R23).
-/

namespace Sys2Proof.Machine

/-! ### Scalar operands -/

/-- The address of an M-form operand: base plus the scaled offset (R71). -/
def scaledAddr (base : DWord) {n : Nat} (off : BitVec n) (sz : Nat) : DWord := base + sext off * BitVec.ofNat 64 (2 ^ sz)

/-- A target or value relative to PC, in words (R71). -/
def pcRel (pc : DWord) {n : Nat} (off : BitVec n) : DWord := pc + sext off * 4

/-- A scalar result of two sources (R14): the checks of the destination, the sources, then the write. -/
def binX (d b c : Reg) (f : DWord → DWord → DWord) : M Flow := do
  destX d
  let (x, mx) ← srcX b
  let (y, my) ← srcX c
  setX d (f x y) (mx ||| my)
  pure .seq

/-- A scalar result of one source. -/
def unX (d b : Reg) (f : DWord → DWord) : M Flow := do
  destX d
  let (x, mx) ← srcX b
  setX d (f x) mx
  pure .seq

/-! ### Formats -/

/-- The element width of a format code of Table 2.2 (Table 2.1). -/
def fmtWidth (fmt : Nat) : Nat :=
  match fmt with
  | 0 => 8
  | 1 => 16
  | 2 => 32
  | 3 => 64
  | 4 => 16
  | 5 => 32
  | 6 => 64
  | _ => 8

/-- Is the code an integer format? -/
def fmtIsInt (fmt : Nat) : Bool := fmt ≤ 3

/-- Is the code an IEEE format? -/
def fmtIsFloat (fmt : Nat) : Bool := 4 ≤ fmt && fmt ≤ 6

/-- The IEEE format of a code. -/
def floatFmt (fmt : Nat) : FFmt :=
  match fmt with
  | 4 => bf16
  | 5 => fp32
  | _ => fp64

/-- VT.FMT (Table 2.2). -/
def Hart.fmt (h : Hart) : Nat := (h.tr.vt.extractLsb' 0 4).toNat

/-- VT.RM (Table 2.2). -/
def Hart.vtRm (h : Hart) : RMode := rmodeOf (h.tr.vt.extractLsb' 4 3).toNat

/-- The rounding mode of an instruction that takes one: PFX.V RM, else VT.RM (R91, Table 3.3). -/
def Hart.rm (h : Hart) : RMode :=
  match h.pfx with
  | .v _ _ _ _ _ rm _ => if rm = 7 then h.vtRm else rmodeOf rm.toNat
  | _ => h.vtRm

/-- VLMAX of a width in bits (R48). -/
def Hart.vlmaxW (h : Hart) (w : Nat) : Nat := h.vrs * 8 / w

/-- vl = min(VL, VLMAX(VT.FMT)) (R53). -/
def Hart.effVl (h : Hart) : Nat := min h.tr.vl.toNat (h.vlmaxW (fmtWidth h.fmt))

/-! ### Vector registers -/

/-- The physical register of a name (R46). -/
def Hart.phys (h : Hart) (n : Nat) : Nat := if n < 8 then n else n + h.tr.wbase.toNat

/-- The bits of a physical register. -/
def Hart.vreg (h : Hart) (p : Nat) : VBits := (h.v[p]?).getD 0

/-- The byte marks of a physical register. -/
def Hart.vmark (h : Hart) (p : Nat) : VBits := (h.vMark[p]?).getD 0

/-- A physical register put back as it was when the unit issued. -/
def Hart.putBack (h : Hart) (k : KeptReg) : Hart :=
  { h with v := h.v.setIfInBounds k.reg k.bits, vMark := h.vMark.setIfInBounds k.reg k.marks
           spared := h.spared.mapIdx fun i v => if k.reg < 8 ∧ i / 8 = k.reg then (k.spared[i % 8]?).getD 0 else v }

/-- The hart as the unit's sources and its mask find it: a unit that resumes reads its own destination as it was when it issued
(R14). -/
def Hart.issued (h : Hart) : Hart := h.kept.foldl Hart.putBack h

/-- A physical register as it stands. -/
def Hart.keepReg (h : Hart) (p : Nat) : KeptReg :=
  ⟨p, h.vreg p, h.vmark p, if p < 8 then (upTo 8).map fun c => (h.spared[8 * p + c]?).getD 0 else []⟩

/-- Runs the pass of a unit over its destination. Where it stops at an element above 0, the register is kept as the unit found it
when it issued. DESIGN CHOICE (log 89): what a handler writes to that register in between is not read by the elements left. -/
def keeping {α : Type} (p : Nat) (m : M α) : M α := fun s =>
  match m s with
  | .ok x t => .ok x t
  | .error e t =>
    let kept := if t.hart.vesAt e.ves = 0 then []
      else if s.hart.kept.isEmpty then [s.hart.keepReg p] else s.hart.kept
    .error e { t with hart := { t.hart with kept := kept } }

/-- The marks of the bytes of element `e` of width `w` bits, joined. -/
def elemMark (mk : VBits) (w e : Nat) : Mark :=
  let v := elemOf mk w e
  (upTo (w / 8)).foldl (fun m i => m ||| BitVec.ofNat 8 (v / 256 ^ i)) 0

/-- `n` bytes each holding a mark, as a number. -/
def spread (m : Mark) : Nat → Nat
  | 0 => 0
  | n + 1 => m.toNat + 256 * spread m n

/-- The marks of `n` bytes from byte `lo` of a register joined with a class. -/
def markBytes {k : Nat} (m : Mark) (v : BitVec k) (lo n : Nat) : BitVec k := v ||| BitVec.ofNat k (spread m n * 2 ^ (8 * lo))

/-- Bytes of a vector register marked; in a mask register each class is that of every bit of them. -/
def Hart.markV (h : Hart) (m : Mark) (p lo n : Nat) : Hart :=
  let all := fun (v : VBits) => v &&& ~~~BitVec.ofNat 16384 ((2 ^ (8 * n) - 1) * 2 ^ (8 * lo))
  { h with
    vMark := h.vMark.setIfInBounds p (markBytes m (h.vmark p) lo n)
    spared := if 8 ≤ p then h.spared else (upTo 8).foldl (fun l c =>
      if m.getLsbD c then l.setIfInBounds (8 * p + c) (all ((l[8 * p + c]?).getD 0)) else l) h.spared }

/-- Bits `lo` to `hi − 1` of every class's spared bits of a mask register replaced (R307). -/
def Hart.setSpared (h : Hart) (p lo hi : Nat) (f : Nat → Nat) : Hart :=
  if p < 8 then
    { h with spared := h.spared.mapIdx fun k v => if k / 8 = p then
        BitVec.ofNat 16384 (v.toNat % 2 ^ lo + f (k % 8) % 2 ^ (hi - lo) * 2 ^ lo + v.toNat / 2 ^ hi * 2 ^ hi) else v }
  else h

/-- Bytes `lo` to `hi − 1` of a register were written as elements: their marks apply to every bit of them (R307). -/
def Hart.wholeBytes (h : Hart) (p lo hi : Nat) : Hart := h.setSpared p (8 * lo) (8 * hi) fun _ => 0

/-- A physical register written up to byte `top`: DRMAP and HW follow (Table 2.4, R299). -/
def Hart.touchV (h : Hart) (p top : Nat) : Hart :=
  { h with tr := { h.tr with drmap := h.tr.drmap ||| BitVec.ofNat 192 (2 ^ p) }
           hw := h.hw.setIfInBounds p (max ((h.hw[p]?).getD 0) ((top + 63) / 64)) }

/-- One element of a physical register written, with its mark. -/
def Hart.setElem (h : Hart) (p w e x : Nat) (m : Mark) : Hart :=
  ({ h with v := h.v.setIfInBounds p (setElemOf (h.vreg p) w e x)
            vMark := h.vMark.setIfInBounds p (setElemOf (h.vmark p) w e (spread m (w / 8))) }).touchV p ((e + 1) * (w / 8))
    |>.wholeBytes p (e * (w / 8)) ((e + 1) * (w / 8))

/-- Bytes `lo` to `hi − 1` of a physical register cleared. -/
def Hart.zeroBytes (h : Hart) (p lo hi : Nat) : Hart :=
  if hi ≤ lo then h
  else
    let keep := fun (v : VBits) => BitVec.ofNat 16384 (v.toNat % 2 ^ (8 * lo) + v.toNat / 2 ^ (8 * hi) * 2 ^ (8 * hi))
    ({ h with v := h.v.setIfInBounds p (keep (h.vreg p)), vMark := h.vMark.setIfInBounds p (keep (h.vmark p)) }).touchV p hi
      |>.wholeBytes p lo hi

/-- Bytes 0 to `n − 1` of a physical register replaced, with their marks. -/
def Hart.setLow (h : Hart) (p n : Nat) (v m : Nat) : Hart :=
  let join := fun (old : VBits) (new : Nat) =>
    BitVec.ofNat 16384 (new % 2 ^ (8 * n) + old.toNat / 2 ^ (8 * n) * 2 ^ (8 * n))
  ({ h with v := h.v.setIfInBounds p (join (h.vreg p) v), vMark := h.vMark.setIfInBounds p (join (h.vmark p) m) }).touchV p n
    |>.wholeBytes p 0 n

/-- An instruction that names a register in EMPTY or PENDING waits (R213). -/
def needFull (r : Reg) : M Unit := do
  let h ← getH
  let p := h.phys r.toNat
  if 8 ≤ p && (h.fe[p]?).getD .full ≠ .full then waitFor (.register p)

/-- How the elements of a stream stand to those of the instruction: `per` of the stream for each `block` of the
instruction's (1 and 1, but for the bytes and the elements of BX blocks, R137). -/
structure Pace where
  per   : Nat
  block : Nat

/-- One for one. -/
def Pace.one : Pace := ⟨1, 1⟩

/-- The element of the instruction to which a stream's element belongs. -/
def Pace.elem (p : Pace) (i : Nat) : Nat := i / p.per * p.block

/-- The first stream element of an instruction that starts at element `ves`. -/
def Pace.first (p : Pace) (ves : Nat) : Nat := ves / p.block * p.per

/-- Elements of a vector input stream popped into its register until one traps, whose trap waits for its element. DESIGN CHOICE
(log 101): an element for which the register has no place is popped and dropped. -/
def popElems (b : StreamB) (p w : Nat) (pace : Pace) : List Nat → M Unit
  | [] => pure ()
  | i :: rest => do
    match (← latched (pace.elem i) (popElem b i)) with
    | some x =>
      modH fun h => if (i + 1) * w ≤ 8 * h.vrs then h.setElem p w i x.1 x.2 else h
      popElems b p w pace rest
    | none => pure ()

/-- The checks of the pops of a vector source before any element is popped (R201). -/
def popCheck (b : StreamB) (w n : Nat) : M Unit := do
  if b.out || w ≠ 8 * 2 ^ b.sz.toNat || b.pos + n > b.len then streamTrap

/-- The elements of a vector input stream popped into its register (R200, R201): elements VES to `n − 1` of `w` bits; the
ones below are there since the instruction first executed. -/
def popV (b : StreamB) (r : Reg) (w n : Nat) (pace : Pace) : M Unit := do
  popCheck b w n
  let h ← getH
  let p := h.phys r.toNat
  let first := min n (pace.first h.tr.ves.toNat)
  unprotect
  modH fun h => h.zeroBytes p (first * (w / 8)) h.vrs
  popElems b p w pace (fromTo first n)
  useStream true r n

/-- A vector source read at `w` bits an element over `n` elements: the register's bits and byte marks. -/
def srcV (r : Reg) (w n : Nat) (pace : Pace := .one) : M (VBits × VBits) := do
  needFull r
  let h ← getH
  match streamOf h true r with
  | none => pure ()
  | some b => if b.used then pure () else popV b r w n pace
  let h := (← getH).issued
  pure (h.vreg (h.phys r.toNat), h.vmark (h.phys r.toNat))

/-- No element of a vector source that steers may be poisoned, from element `lo` on where `on` holds: the trap comes before any
effect, a pop's included (R309). -/
def steerV (r : Reg) (w lo n : Nat) (on : Nat → Bool) : M Unit := do
  needFull r
  let h ← getH
  let els := (fromTo lo n).filter on
  match streamOf h true r with
  | some b =>
    if b.used then steerCheck (els.foldl (fun m e => m ||| elemMark (h.vmark (h.phys r.toNat)) w e) 0)
    else do
      popCheck b w n
      forEach els fun e => lookAhead (do steerCheck (← popElem b e).2)
  | none =>
    let i := h.issued
    steerCheck (els.foldl (fun m e => m ||| elemMark (i.vmark (i.phys r.toNat)) w e) 0)

/-- A vector source of an instruction that does not go element by element: a pop's trap comes before any effect. -/
def srcAll (r : Reg) (w n : Nat) : M (VBits × VBits) := do
  let a ← srcV r w n
  settle
  pure a

/-- The checks of a vector destination of `n` elements of `w` bits, from element `ves` up, before any element takes effect
(R201, R213): the trap of a push waits for its element, or for element `floor` where that comes later. -/
def destV (r : Reg) (w n ves : Nat) (pace : Pace := .one) (floor : Nat := 0) : M Unit := do
  needFull r
  let h ← getH
  match streamOf h true r with
  | none => pure ()
  | some b =>
    if !b.out || w ≠ 8 * 2 ^ b.sz.toNat || b.pos + n > b.len then streamTrap
    forEach (fromTo (min n (pace.first ves)) n) fun i => do
      let _ ← latched (max floor (pace.elem i)) (pushLook b i)

/-- The push of element `i` of a vector output stream, which has its final value: it is part of the element's effect (R17,
R200). -/
def pushElem (r : Reg) (w i : Nat) : M Unit := do
  let h ← getH
  match streamOf h true r with
  | none => pure ()
  | some b =>
    unprotect
    let p := h.phys r.toNat
    storeNat (storeAcc .single) (b.addr (b.pos + i)) (w / 8) (elemOf (h.vreg p) w i) (elemMark (h.vmark p) w i)

/-- The unit has pushed `n` elements of a vector output stream. -/
def pushEnd (r : Reg) (n : Nat) : M Unit := do
  if (streamOf (← getH) true r).isSome then useStream true r n

/-- The pushes of an instruction that writes its destination as a whole (R200). -/
def pushDest (r : Reg) (w n : Nat) : M Unit := do
  forEach (upTo n) (pushElem r w)
  pushEnd r n

/-- One element of a vector destination written. -/
def putElem (r : Reg) (w e x : Nat) (m : Mark) : M Unit := modH fun h => h.setElem (h.phys r.toNat) w e x m

/-! ### Masks and policies -/

/-- What an instruction's fields and prefix say of its elements. -/
structure VCtx where
  /-- vl. -/
  vl : Nat
  /-- Masked (M = 1). -/
  masked : Bool
  mask : VBits
  /-- The poison mark of each mask bit (R307). -/
  bitMark : Nat → Mark
  tz : Bool
  mz : Bool
  /-- The first element to perform (R17). -/
  ves : Nat

/-- The mark of one bit of a mask register: the classes of its byte's mark from which the bit is not spared (R307). -/
def Hart.bitMark (h : Hart) (p e : Nat) : Mark :=
  let m := elemMark (h.vmark p) 8 (e / 8)
  if m = 0 then 0
  else (upTo 8).foldl (fun k c =>
    if m.getLsbD c && !(((h.spared[8 * p + c]?).getD 0).getLsbD e) then k ||| BitVec.ofNat 8 (2 ^ c) else k) 0

/-- The marks of the low `n` bits of a mask register, joined. -/
def Hart.bitMarks (h : Hart) (p n : Nat) : Mark := (upTo n).foldl (fun m e => m ||| h.bitMark p e) 0

/-- The mask register number: PFX.V MASK, else v0 (R47, Table 3.3). -/
def Hart.maskReg (h : Hart) : Nat :=
  match h.pfx with
  | .v _ _ _ _ _ _ k => k.toNat
  | _ => 0

/-- The tail and masked-off policies, zero or undisturbed (Table 2.3). -/
def Hart.policies (h : Hart) (p : Bool) : Bool × Bool :=
  let dflt := (p || h.tr.vt.getLsbD 7, p || h.tr.vt.getLsbD 8)
  match h.pfx with
  | .v ovr mz tz _ _ _ _ => if ovr then (tz, mz) else dflt
  | _ => dflt

/-- The element context that a hart gives an instruction with fields P and M. -/
def Hart.vecCtx (h : Hart) (p m : BitVec 1) : VCtx :=
  let k := h.maskReg
  let (tz, mz) := h.policies (p = 1)
  ⟨h.effVl, m = 1, h.vreg k, h.bitMark k, tz, mz, h.tr.ves.toNat⟩

/-- The element context of a vector instruction with fields P and M; VL, VT and WBASE must not be poisoned. -/
def vecCtx (p m : BitVec 1) : M VCtx := do
  steerRegs [0x000, 0x001, 0x003]
  pure ((← getH).issued.vecCtx p m)

/-- Is element `e` active (R47, R54)? -/
def VCtx.active (c : VCtx) (e : Nat) : Bool := !c.masked || c.mask.getLsbD e

/-- The mark of element `e`'s mask bit. -/
def VCtx.maskMk (c : VCtx) (e : Nat) : Mark := if c.masked then c.bitMark e else 0

/-- The marks of the mask's bits below `n`, joined. -/
def VCtx.maskMarks (c : VCtx) (n : Nat) : Mark := if c.masked then (upTo n).foldl (fun m e => m ||| c.bitMark e) 0 else 0

/-- The mask of a store, of a plural instruction or of CAPP.V must not be poisoned (R309): its bits below `n`. -/
def maskSteer (c : VCtx) (n : Nat) : M Unit := steerCheck (c.maskMarks n)

/-- Before element `e`: a trap that a stream's element has met is taken there, and a pre-emption request stops the unit at an
element (R17, R295), with VES at the element. -/
def stopHere (e : Nat) : M Unit := do
  lateTrap (e + 1)
  let h ← getH
  match h.stopAt with
  | some k => if k ≤ e then waitFor .no e
  | none => pure ()

/-- The elements from VES up to `n`, in ascending order (R17). -/
def forElems (ves n : Nat) (body : Nat → M Unit) : M Unit := forEach (fromTo ves n) fun e => do
  stopHere e
  body e

/-- The turn of element `e` of a destination: an active one has its effect, a masked-off one follows its policy (R23, R54), and a
bound destination pushes it. A poisoned mask bit poisons the element either way: that it stays as it was is computed from the bit
(R307). -/
def turnElem (c : VCtx) (d : Reg) (w : Nat) (body : Nat → M (Nat × Mark)) (e : Nat) : M Unit := do
  consume (c.maskMk e)
  if c.active e then do
    let (x, m) ← body e
    putElem d w e x (m ||| c.maskMk e)
  else if c.mz then putElem d w e 0 (c.maskMk e)
  else if c.maskMk e ≠ 0 then modH fun h => h.markV (c.maskMk e) (h.phys d.toNat) (e * (w / 8)) (w / 8)
  else pure ()
  pushElem d w e

/-- The tail of a destination, from VES up, follows its policy (R54, R17). -/
def tailV (c : VCtx) (d : Reg) (w : Nat) : M Unit :=
  if c.tz then modH fun h => h.zeroBytes (h.phys d.toNat) (max c.vl c.ves * (w / 8)) h.vrs else pure ()

/-- The element-wise skeleton: destination checks, the elements from VES up in ascending order (R17), and the tail. The sources and
the mask are read once, when the instruction issues (R14). -/
def elementwise (c : VCtx) (d : Reg) (w : Nat) (body : Nat → M (Nat × Mark)) : M Flow := do
  destV d w c.vl c.ves
  let h ← getH
  keeping (h.phys d.toNat) (forElems c.ves c.vl (turnElem c d w body))
  tailV c d w
  pushEnd d c.vl
  pure .seq

/-- Element `e` of a source, consumed (R308): its bits and its mark. -/
def takeElem (v : VBits × VBits) (w e : Nat) : M (Nat × Mark) := do
  let m := elemMark v.2 w e
  consume m
  pure (elemOf v.1 w e, m)

/-- An index, an address or an offset from a vector register must not be poisoned (R309). -/
def steerElem (v : VBits × VBits) (w e : Nat) : M Nat := do
  steerCheck (elemMark v.2 w e) e
  pure (elemOf v.1 w e)

/-! ### Passes that no element stops -/

/-- The pass of an instruction that delivers its destination only when it completes (R21): a pre-emption stops it at no
element. -/
def wholeElems (c : VCtx) (d : Reg) (w : Nat) (body : Nat → M (Nat × Mark)) : M Flow := do
  destV d w c.vl c.ves
  let h ← getH
  keeping (h.phys d.toNat) (forEach (fromTo c.ves c.vl) fun e => do
    lateTrap (e + 1)
    turnElem c d w body e)
  tailV c d w
  pushEnd d c.vl
  pure .seq

/-! ### The Planish queue at issue (R314) -/

/-- Issue of a rechecked instruction stalls while the queue is full. -/
def planishIssue : M Unit := do
  let h ← getH
  if h.rc && 32 ≤ h.planish.length then waitFor .retry

/-- A vector destination that pushes to memory takes a value only once the results it may derive from have agreed (R314). -/
def planishOut (d : Reg) : M Unit := do
  let h ← getH
  if (streamOf h true d).isSome then planishGate

/-- The instruction enters the queue. -/
def planishPush : M Unit := modH fun h => if h.rc then { h with planish := h.planish ++ [⟨h.pc, h.ir⟩] } else h

/-- An instruction of R314's majors whose result goes to a scalar register: the result stands only once its own two runs,
and those before it, have agreed. -/
def planishScalar : M Unit := do
  let h ← getH
  if h.rc && !h.rechecked then
    planishGate
    planishPush
    waitFor .retry

/-- Runs the effect of an instruction of R314's majors with a vector destination. Where that destination pushes to memory,
the result stands only once the runs have agreed, as one that goes to a scalar register. -/
def rechecked (d : Reg) (m : M Flow) : M Flow := do
  let h ← getH
  if 8 ≤ d.toNat && (streamOf h true d).isSome then
    planishScalar
    m
  else
    planishIssue
    let f ← m
    planishPush
    pure f

/-! ### Mask destinations -/

/-- The mark of byte `i` of a mask register given anew from the marks of its eight bits (R307): the byte's mark is their join,
and each bit is spared the classes it does not have. -/
def Hart.setBitMarks (h : Hart) (p i : Nat) (bits : Nat → Mark) : Hart :=
  let l := upTo 8
  let mk := l.foldl (fun m k => m ||| bits k) 0
  let old := elemMark (h.vmark p) 8 i
  if mk = 0 ∧ old = 0 then h
  else
    ({ h with vMark := h.vMark.setIfInBounds p (setElemOf (h.vmark p) 8 i mk.toNat) }).setSpared p (8 * i) (8 * i + 8)
      fun c => l.foldl (fun n k => if mk.getLsbD c && !(bits k).getLsbD c then n + 2 ^ k else n) 0

/-- One bit of a mask register written, with its mark. -/
def Hart.setBit (h : Hart) (p e : Nat) (b : Bool) (m : Mark) : Hart :=
  let old := (h.vreg p).getLsbD e
  let v := if old = b then h.vreg p else h.vreg p ^^^ BitVec.ofNat 16384 (2 ^ e)
  let bits := fun k => if k = e % 8 then m else h.bitMark p (e / 8 * 8 + k)
  (({ h with v := h.v.setIfInBounds p v }).setBitMarks p (e / 8) bits).touchV p (e / 8 + 1)

/-- One bit of a mask register written by an instruction. -/
def setMaskBit (r : Reg) (e : Nat) (b : Bool) (m : Mark) : M Unit := modH fun h => h.setBit r.toNat e b m

/-- One bit of a mask register with a mark joined to its own. -/
def Hart.joinBit (h : Hart) (p e : Nat) (m : Mark) : Hart :=
  h.setBitMarks p (e / 8) fun k => h.bitMark p (e / 8 * 8 + k) ||| if k = e % 8 then m else 0

/-- The bits of a mask register from `lo` up to the visible end cleared, with their marks. -/
def Hart.zeroBits (h : Hart) (p lo : Nat) : Hart :=
  let lim := h.vrs * 8
  let lo := min lo lim
  let keep := fun (v : VBits) (lo : Nat) => BitVec.ofNat 16384 (v.toNat % 2 ^ lo + v.toNat / 2 ^ lim * 2 ^ lim)
  let h' := if lo % 8 = 0 then h
    else h.setBitMarks p (lo / 8) fun k => if k < lo % 8 then h.bitMark p (lo / 8 * 8 + k) else 0
  ({ h' with v := h'.v.setIfInBounds p (keep (h'.vreg p) lo)
             vMark := h'.vMark.setIfInBounds p (keep (h'.vmark p) (8 * ((lo + 7) / 8))) }).touchV p h'.vrs

/-- The pass over a mask destination (R133): the elements from VES up, then the tail. -/
def maskPass (c : VCtx) (d : Reg) (body : Nat → M (Bool × Mark)) : M Flow := do
  keeping d.toNat (forElems c.ves c.vl fun e => do
    consume (c.maskMk e)
    if c.active e then
      let (b, m) ← body e
      setMaskBit d e b (m ||| c.maskMk e)
    else if c.mz then setMaskBit d e false (c.maskMk e)
    else if c.maskMk e ≠ 0 then modH fun h => h.joinBit d.toNat e (c.maskMk e)
    else pure ())
  if c.tz then modH fun h => h.zeroBits d.toNat (max c.vl c.ves)
  pure .seq

end Sys2Proof.Machine
end

