-- ==== Sys2Proof/Machine/SaveArea.lean ====
section
/-!
DEFINITION. The bytes of a save area (R298, R299, Tables 15.4 and 15.5): what a save writes at each offset, and the area of a
hart in the memory of its die. The area lies in no program's address space; a saved hart is restored from `State.saved`, the
same values as plain data.
-/

namespace Sys2Proof.Machine

/-! ### State registers by number (Tables 2.4 and 2.5) -/

/-- PSTAT as Table 15.1 lays it out. -/
def SupRegs.pstat (r : SupRegs) : DWord :=
  flag r.pie <<< 2 ||| flag r.ie <<< 1 ||| (if r.pm = .supervisor then 1 else 0)

/-- The value of a state register, but for the two clocks. -/
def readStateReg (h : Hart) (n : Nat) : DWord :=
  let t := h.tr
  let r := h.sr
  match n with
  | 0x000 => t.vl
  | 0x001 => zext t.vt
  | 0x002 => t.ves
  | 0x003 => t.wbase
  | 0x004 => zext t.bsr
  | 0x005 => zext t.cir
  | 0x006 => zext t.fcr
  | 0x007 => t.imrLo
  | 0x008 => t.imrHi
  | 0x009 => t.strn
  | 0x00A => if t.ves = 1 then zext (t.pfm.extractLsb' 64 63) else t.pfm.extractLsb' 0 64
  | 0x00B => t.mmea
  | 0x00C => t.mmeh
  | 0x00D => zext t.tstat
  | 0x00E => zext h.hartid
  | 0x00F => t.lhart
  | 0x010 => t.task
  | 0x013 => t.drmap.extractLsb' 0 64
  | 0x014 => t.drmap.extractLsb' 64 64
  | 0x015 => t.drmap.extractLsb' 128 64
  | 0x100 => r.tvec
  | 0x101 => r.tcause
  | 0x102 => r.tval
  | 0x103 => r.tpc
  | 0x104 => r.tves
  | 0x105 => r.tsave
  | 0x106 => zext r.vcap
  | 0x107 => r.ptb
  | 0x108 => zext r.asid
  | 0x109 => r.pstat
  | 0x10A => r.pdead
  | _ => r.rblog

/-! ### The layout -/

/-- Byte j of a value, byte 0 at the least significant end (R9). -/
def areaOf {n : Nat} (v : BitVec n) (j : Nat) : Option Byte := some (v.extractLsb' (8 * j) 8)

/-- The header's doublewords (Table 15.5). CAUSE is 0x11 for a pre-emption and 0 for the suspensions. -/
def SavedHart.header (v : SavedHart) (i : Nat) : DWord :=
  let ndim := fun (q : Nat) => BitVec.ofNat 64 ((v.hart.filigree[q]?).getD FSlot.reset).ndim <<< (8 * q)
  match i with
  | 0 => zext v.vcaps <<< 32 ||| (if v.cause = .preempt then 0x110000 else 0) ||| 1
  | 1 => zext v.fload <<< 12 ||| zext v.fsaved <<< 8 ||| flag v.hart.remote <<< 4 ||| flag v.crw <<< 3 |||
      flag v.hart.ckpt.valid <<< 2 ||| flag v.tiles <<< 1 ||| flag v.mat
  | 2 => ndim 0 ||| ndim 1 ||| ndim 2 ||| ndim 3
  | 3 => v.rpc
  | 4 => v.rves
  | 5 => if v.rmode = .supervisor then 1 else 0
  | 6 => BitVec.ofNat 64 v.region
  | 7 => v.stime
  | _ => 0

/-- A byte of the area that a save writes and whose contents the tables do not place, or of a reading of CYC or TIME: a free
value. -/
def SavedHart.openByte (v : SavedHart) (off : Nat) : Option Byte := some (Config.areaByte v.stamp off)

/-- How many bytes of a physical vector register a save writes and a restore reads: VRS of v0 to v7, up to 64·HW of the others where
DRMAP names them (R299, R300), none of them at or above VRS (R49). -/
def SavedHart.kept (v : SavedHart) (p : Nat) : Nat :=
  let vrs := 256 * 2 ^ v.vcaps.toNat
  if p < 8 then vrs
  else if v.hart.tr.drmap.getLsbD p then min vrs (64 * (v.hart.hw[p]?).getD 0) else 0

/-- A level's context: remaining count, body start, body end (Table 15.4); the table does not place the rest in the last
doubleword. -/
def LoopCtx.area (c : LoopCtx) (j : Nat) : Option Byte :=
  match j / 8 with
  | 0 => areaOf c.remaining (j % 8)
  | 1 => areaOf c.start (j % 8)
  | 2 => areaOf c.stop (j % 8)
  | _ => none

/-- A stream record (R299): the descriptor's fields as Table 9.7 lays them out, the position, the binding. -/
def StreamB.area (b : StreamB) (j : Nat) : Option Byte :=
  match j / 8 with
  | 0 => areaOf b.base (j % 8)
  | 1 => areaOf b.s0 (j % 8)
  | 2 => areaOf b.s1 (j % 8)
  | 3 => areaOf b.s2 (j % 8)
  | 4 => areaOf (b.n1 ++ b.n0) (j % 8)
  | 5 => areaOf (flag b.zext <<< 34 ||| b.sz.setWidth 64 <<< 32 ||| b.n2.setWidth 64) (j % 8)
  | 6 => areaOf (BitVec.ofNat 64 b.pos) (j % 8)
  | _ => areaOf (b.reg.setWidth 64 ||| flag b.vec <<< 8 ||| flag b.out <<< 9 ||| 0x8000) (j % 8)

/-- A task-level register at its number but for the two clocks; PFM's halves stand apart (Table 15.4). -/
def SavedHart.taskReg (v : SavedHart) (n : Nat) : Option DWord :=
  if n = 0x011 || n = 0x012 then none
  else if n = 0x00A then some (v.hart.tr.pfm.extractLsb' 0 64)
  else if n = 0x016 then some (zext (v.hart.tr.pfm.extractLsb' 64 63))
  else if n ≤ 0x015 then some (readStateReg v.hart n)
  else none

/-- The strip checkpoint from 0xB00: PC, VL, STRN, the valid and unprotected bits, and the IMR registers at their
numbers from 0xC00. -/
def Checkpoint.area (c : Checkpoint) (j : Nat) : Option Byte :=
  if j < 0x100 then
    match j / 8 with
    | 0 => areaOf c.pc (j % 8)
    | 1 => areaOf c.vl (j % 8)
    | 2 => areaOf c.strn (j % 8)
    | 3 => areaOf (flag c.unprotected <<< 1 ||| flag c.valid) (j % 8)
    | _ => none
  else
    (c.regs.find? fun r => r.1.toNat = (j - 0x100) / 8).bind fun r => areaOf r.2.1 (j % 8)

/-- A Filigree slot's region: dimension d at 132·d, its direction words and its shift word. -/
def FSlot.area (f : FSlot) (j : Nat) : Option Byte := (f.words[j / 4]?).bind fun w => areaOf w (j % 4)

/-- The bytes of the physical vector registers that have been written. -/
def SavedHart.vecArea (v : SavedHart) (j : Nat) : Option Byte :=
  if j % 2048 < v.kept (j / 2048) then (v.hart.v[j / 2048]?).bind fun r => areaOf r (j % 2048) else none

/-- The byte at an offset of the save area; none where Tables 15.4 and 15.5 place nothing or no save has written. -/
def SavedHart.areaByte (v : SavedHart) (off : Nat) : Option Byte :=
  let h := v.hart
  let tile := fun (j : Nat) (t : Swage → Option TileBits) =>
    if v.wrote then (h.swage.bind t).bind fun b => areaOf b (j % 16384) else none
  if off < 0x100 then areaOf (v.header (off / 8)) (off % 8)
  else if off < 0x1C0 then
    if off % 32 < 24 then (h.loops[(off - 0x100) / 32]?).bind fun c => c.area (off % 32) else v.openByte off
  else if off < 0x200 then some (Config.areaByte v.context off)
  else if off < 0x400 then
    match h.streams[(off - 0x200) / 64]? with
    | some b => b.area (off % 64)
    | none => some 0
  else if off < 0x800 then (h.x[(off - 0x400) / 8]?).bind fun x => areaOf (if off < 0x408 then 0 else x) (off % 8)
  else if 0x888 ≤ off && off < 0x898 then v.openByte off
  else if off < 0x900 then (v.taskReg ((off - 0x800) / 8)).bind fun r => areaOf r (off % 8)
  else if off < 0xA00 then
    let n := 0x100 + (off - 0x900) / 8
    if n ≤ 0x10B then areaOf (readStateReg h n) (off % 8) else none
  else if off < 0xAC0 then some (BitVec.ofNat 8 ((h.hw[off - 0xA00]?).getD 0))
  else if off < 0xAF0 then
    let two := fun (k : Nat) => match (h.fe[4 * (off - 0xAC0) + k]?).getD .full with
      | .full => (0 : Nat)
      | .empty => 1
      | .pending => 2
    some (BitVec.ofNat 8 (two 0 + 4 * two 1 + 16 * two 2 + 64 * two 3))
  else if off < 0xB00 then none
  else if off < 0x1000 then h.ckpt.area (off - 0xB00)
  else if off < 0x1800 then
    (h.handles[(off - 0x1000) / 128]?).bind fun g =>
      if off % 128 < 64 then areaOf g.desc (off % 128) else if off % 128 < 72 then areaOf g.addr (off % 8) else none
  else if off < 0x2000 then if v.wrote then v.openByte off else none
  else if off < 0x12800 then
    let q := (off - 0x2000) / 16896
    if v.fwrote.getLsbD q then (h.filigree[q]?).bind fun f => f.area ((off - 0x2000) % 16896) else none
  else if off < 0x20000 then none
  else if off < 0x40000 then tile off fun w => w.mt[(off - 0x20000) / 16384]?
  else if off < 0x50000 then tile off fun w => w.ma[(off - 0x40000) / 16384]?
  else if off < 0x60000 then tile off fun w => w.pa[(off - 0x50000) / 16384]?
  else if off < 0xC0000 then v.vecArea (off - 0x60000)
  else none

/-- The state register whose doubleword stands at an offset of an area. -/
def areaReg (off : Nat) : Nat :=
  if off < 0x900 then (if (off - 0x800) / 8 = 0x016 then 0x00A else (off - 0x800) / 8) else 0x100 + (off - 0x900) / 8

/-- The mark of the word at an offset: the join of what the save writes there (R281, R307). -/
def SavedHart.areaMark (v : SavedHart) (off : Nat) : Mark :=
  let h := v.hart
  let join := fun {n : Nat} (m : BitVec n) (j : Nat) =>
    (upTo 4).foldl (fun (k : Mark) i => k ||| m.extractLsb' (8 * (j / 4 * 4 + i)) 8) 0
  let tile := fun (j : Nat) (t : Swage → Option TileBits) => match h.swage.bind t with
    | some m => join m (j % 16384)
    | none => 0
  if off < 0x400 then 0
  else if off < 0x800 then h.xm ((off - 0x400) / 8)
  else if off < 0xA00 then h.sm (areaReg off)
  else if off < 0xC00 then 0
  else if off < 0x1000 then ((h.ckpt.regs.find? fun r => r.1.toNat = (off - 0xC00) / 8).map (·.2.2)).getD 0
  else if off < 0x2000 then 0
  else if off < 0x12800 then
    ((h.filigree[(off - 0x2000) / 16896]?).bind fun f => f.marks[(off - 0x2000) % 16896 / 4]?).getD 0
  else if off < 0x20000 then 0
  else if off < 0x40000 then tile off fun w => w.mtMark[(off - 0x20000) / 16384]?
  else if off < 0x50000 then tile off fun w => w.maMark[(off - 0x40000) / 16384]?
  else if off < 0x60000 then tile off fun w => w.paMark[(off - 0x50000) / 16384]?
  else join (h.vmark ((off - 0x60000) / 2048)) (off % 2048)

/-! ### The area in memory -/

/-- The bytes of a part of an area that are written there, each with its word's mark. -/
def areaWrites (lo hi : Nat) (byte : Nat → Option Byte) (mark : Nat → Mark) : List (Nat × Byte × Mark) :=
  (fromTo lo hi).filterMap fun o => (byte o).map fun b => (o, b, mark o)

/-- The state with bytes written from an area's base on; no access of the ordering model (R298). -/
def writeArea (base : Nat) (l : List (Nat × Byte × Mark)) (s : State) : State :=
  let word := fun o => (base + o) / 4 * 4
  { s with
    mem := l.foldl (fun m b => setByte m (base + b.1) b.2.1) s.mem
    marks := l.foldl (fun ms b => if b.2.2 = 0 then delKey (word b.1) ms else putKey (word b.1) b.2.2 ms) s.marks
    latent := s.latent.filter fun w => !l.any fun b => word b.1 = w }

/-- Where the save area of a logical hart lies (R298): 768 KiB from a multiple of 64 KiB on, in a stack of its die that the kernel
has chosen. DESIGN CHOICE (log 93): its die is the one on which it was started. -/
def Hart.areaBase (h : Hart) : Nat :=
  let k := Config.saveArea h.taskNo h.tr.lhart.toNat h.copy
  (h.home / 8 * 4 + k % 4) * stackBytes + k / 4 % ((stackBytes - 0xC0000) / 0x10000 + 1) * 0x10000

/-- The state with parts of an area, each an offset and a length, written as a saved hart has them. -/
def SavedHart.storeParts (v : SavedHart) (parts : List (Nat × Nat)) (s : State) : State :=
  writeArea v.hart.areaBase (parts.flatMap fun r => areaWrites r.1 (r.1 + r.2) v.areaByte v.areaMark) s

/-- The state with a save written to the hart's area: parts that it does not write keep their earlier contents. -/
def SavedHart.store (v : SavedHart) (s : State) : State := v.storeParts [(0, 0xC0000)] s

/-! ### What a restore finds in the area (R307) -/

/-- Does a restore read the word at an offset: below the Filigree images, of the tiles where they are current, of the vector registers
where they were written? -/
def SavedHart.reads (v : SavedHart) (off : Nat) : Bool :=
  off < 0x1800 || (0x20000 ≤ off && off < 0x60000 && v.tiles) ||
    (0x60000 ≤ off && off < 0xC0000 && (off - 0x60000) % 2048 < v.kept ((off - 0x60000) / 2048))

/-- Is a word of memory one that the restore of a hart reads? -/
def SavedHart.looksAt (v : SavedHart) (w : Nat) : Bool :=
  let base := v.hart.areaBase
  base ≤ w && w < base + 0xC0000 && v.reads (w - base)

/-- The errors that a restore on a die finds. -/
def SavedHart.findErrors (v : SavedHart) (die : Nat) (s : State) : State :=
  (s.latent.filter v.looksAt).foldl (fun s w => findErrorBy die 0xFFFF w s) s

/-- A tile of a kind. -/
def tileAt {n : Nat} (t : Vector TileBits n) (i : Nat) : TileBits := (t[i]?).getD 0

/-- A tile, of three kinds, with `n` bytes from byte `lo` marked. -/
def Swage.markTile (w : Swage) (m : Mark) (kind t lo n : Nat) : Swage :=
  let mark := fun {k : Nat} (l : Vector TileBits k) => l.setIfInBounds t (markBytes m (tileAt l t) lo n)
  match kind with
  | 0 => { w with mtMark := mark w.mtMark }
  | 1 => { w with maMark := mark w.maMark }
  | _ => { w with paMark := mark w.paMark }

/-- A hart with the mark of a word of its area joined to what a restore makes of the word. HARTID, the clocks and TSAVE are no values of
the area's (R300). -/
def Hart.markArea (h : Hart) (off : Nat) (m : Mark) : Hart :=
  let tile := fun (kind base : Nat) =>
    let j := off - base
    { h with swage := h.swage.map (·.markTile m kind (j / 16384) (j % 16384) 4) }
  if off < 0x408 then h
  else if off < 0x800 then
    let n := (off - 0x400) / 8
    { h with xMark := h.xMark.setIfInBounds n (h.xm n ||| m) }
  else if off < 0xA00 then
    let n := areaReg off
    if n = 0x00E || n = 0x011 || n = 0x012 || n = 0x105 || 0x10B < n then h
    else { h with srMark := putKey n (h.sm n ||| m) h.srMark }
  else if off < 0xC00 then h
  else if off < 0x1000 then { h with ckpt := { h.ckpt with regs := h.ckpt.regs.map fun r =>
    if r.1.toNat = (off - 0xC00) / 8 then (r.1, r.2.1, r.2.2 ||| m) else r } }
  else if off < 0x20000 then h
  else if off < 0x40000 then tile 0 0x20000
  else if off < 0x50000 then tile 1 0x40000
  else if off < 0x60000 then tile 2 0x50000
  else h.markV m ((off - 0x60000) / 2048) ((off - 0x60000) % 2048) 4

/-- A restored hart with the marks of the words that its restore has read. -/
def SavedHart.takeMarks (v : SavedHart) (s : State) (h : Hart) : Hart :=
  (s.marks.filter fun p => v.looksAt p.1).foldl (fun h p => h.markArea (p.1 - v.hart.areaBase) p.2) h

/-! ### Filigree images -/

/-- A Filigree slot with its image and the image's marks as the area holds them (R280, R281); it is clean. -/
def loadSlot (h : Hart) (q : Nat) (f : FSlot) (s : State) : FSlot :=
  let lo := h.areaBase + 0x2000 + 16896 * q
  { f with words := (upTo (33 * f.ndim)).map fun i => BitVec.ofNat 32 (memNat s.mem (lo + 4 * i) 4)
           marks := (upTo (33 * f.ndim)).map fun i => wordMark s (lo + 4 * i), dirty := false }

/-- The state with the image of a Filigree slot written to its owner's area (R280, R281). -/
def storeSlot (h : Hart) (q : Nat) (f : FSlot) (s : State) : State :=
  let lo := 0x2000 + 16896 * q
  writeArea h.areaBase (areaWrites lo (lo + 16896) (fun o => f.area (o - lo)) fun o => (f.marks[(o - lo) / 4]?).getD 0) s

end Sys2Proof.Machine
end

