-- ==== Sys2Proof/Machine/Context.lean ====
section
/-!
DEFINITION. What Bellows and the engines do around a hart: reading and writing memory through an address space, finding
the task of a launch record, the queues a wait looks at (R42, R44, R295), publishing a strip (R32), saving and restoring a
hart (R295 to R300), the hart slots (R2, R252 to R254), starting a hart (R29) and ending a task (R26).
-/

namespace Sys2Proof.Machine

/-- An operation that never stops, as a change of the state. -/
def quiet (m : M Unit) (s : State) : State :=
  match m s with
  | .ok _ s' => s'
  | .error _ s' => s'

/-! ### Memory as an engine reaches it -/

/-- The block of an address space (R290); an absent one is not valid. -/
def spaceBlock (s : State) (asid : BitVec 16) : AsBlock := (getKey asid.toNat s.spaces).getD ⟨0, 0, 0, 0, false, 0⟩

/-- The block of a queue (R245); an absent one is off. -/
def queueBlock (s : State) (q : Nat) : QueueBlock := (getKey q s.queues).getD ⟨0, 0, 0, 0, 0, 0, 0, 0, 0, 0, 0⟩

/-- The physical address of `n` bytes within a page of an address space, where they can be read, or written, by a task or by
an engine of its own (R129, R212, R302, R303); else the address that fails. -/
def spaceRun (s : State) (asid : BitVec 16) (va : DWord) (n : Nat) (write task : Bool) : Except DWord Nat :=
  if !canonical va then .error va
  else
    match walk s (va.extractLsb' 0 49).toNat (((spaceBlock s asid).ptb.extractLsb' 13 35).toNat * 8192) walkLevels with
    | .error _ => .error va
    | .ok p =>
      let pa := p.pa + va.toNat % 2 ^ p.size
      if !(if write then p.w else p.r) || (task && p.s) then .error va
      else
        match (wordsOf pa n).find? fun w => !physMapped s w || touchesRetired s w 4 ||
            (inSram w && s.fencedClusters.contains (sliceOf w)) with
        | some w => .error (wordVa va pa w)
        | none => .ok pa

/-- The physical address of `n` aligned bytes of an address space, where an engine can read them, or write them. -/
def spaceAddr (s : State) (asid : BitVec 16) (va : DWord) (n : Nat) (write : Bool) : Option Nat :=
  (spaceRun s asid va n write false).toOption

/-- An aligned number read through an address space. -/
def spaceNat (s : State) (asid : BitVec 16) (va : DWord) (n : Nat) : Option Nat :=
  (spaceAddr s asid va n false).map fun pa => memNat s.mem pa n

/-- The clocks of some releases, joined. -/
def relClock (rs : List Release) : List (Nat × Nat) := rs.foldl (fun c r => joinClock c r.clock) []

/-- Bellows writes an aligned number at a physical address, as a release (R26, R235, R243). -/
def bellowsStoreAt (pa n v : Nat) (rels : List Release) (s : State) : State :=
  let p := engineParty s
  let s := engineAccess p codeBellows (relClock rels) pa n true { s with free := s.free + 1 }
  let s := performStore pa (leBytes n v) 0 s
  setRels pa n (rels.map fun r => { r with clock := putKey p 1 r.clock }) s

/-- Bellows reads through an address space: the number, with its access on record (R235); none where it cannot be read. -/
def bellowsLoad (asid : BitVec 16) (va : DWord) (n : Nat) (clock : List (Nat × Nat)) (s : State) : Option Nat × State :=
  match spaceAddr s asid va n false with
  | none => (none, s)
  | some pa => (some (memNat s.mem pa n), engineAccess (engineParty s) codeBellows clock pa n false { s with free := s.free + 1 })

/-- Bellows writes an aligned number through an address space; none where it cannot be written (R26). -/
def bellowsStore (asid : BitVec 16) (va : DWord) (n v : Nat) (rels : List Release) (s : State) : Option State :=
  (spaceAddr s asid va n true).map fun pa => bellowsStoreAt pa n v rels s

/-- What orders a party after the operations that engines have performed from one state to a later one (R233). -/
def engineRelease (s t : State) : Release := ⟨0, 4, (fromTo s.free t.free).map fun k => (17 + 4 * k, 1)⟩

/-! ### Launch records and tasks -/

/-- What names a record: the physical address of its DEPC word (R193). -/
def recordKey (s : State) (asid : BitVec 16) (va : DWord) : Option Nat := spaceAddr s asid (va + 0x30) 4 false

/-- Is a registered task the one of the record at `va` of an address space? -/
def Task.isRecord (t : Task) (s : State) (asid : BitVec 16) (va : DWord) : Bool :=
  match recordKey s asid va with
  | some k => t.depc = k
  | none => t.recVa = va && t.asid = asid

/-- The task last registered from the record at `va`. -/
def taskOfRecord (s : State) (asid : BitVec 16) (va : DWord) : Option Nat :=
  (upTo s.tasks.length).foldl (fun r i => match s.tasks[i]? with
    | some t => if t.isRecord s asid va then some i else r
    | none => r) none

/-- The virtual addresses submitted to a queue and not yet taken (R246). -/
def submitted (s : State) (q : QueueBlock) : List DWord :=
  let ring := (upTo (q.tail - q.head).toNat).filterMap fun i =>
    spaceNat s q.asid (q.rbase + BitVec.ofNat 64 (8 * ((q.head.toNat + i) % q.rsize.toNat))) 8
  let spilled := (upTo q.ovcnt.toNat).filterMap fun i =>
    spaceNat s q.asid (q.ovbase + BitVec.ofNat 64 (8 * ((q.ovhead.toNat + i) % q.ovcap.toNat))) 8
  (ring ++ spilled).map (BitVec.ofNat 64)

/-- The tasks of the record at `va` that have completed, in the order of their registration. -/
def completedOf (s : State) (asid : BitVec 16) (va : DWord) : List Task :=
  s.tasks.filter fun t => t.state = .over && t.isRecord s asid va

/-- Is the record at `va` pending (R246)? -/
def recordPending (s : State) (asid : BitVec 16) (va : DWord) : Bool :=
  (s.tasks.any fun t => t.state ≠ .over && t.isRecord s asid va) ||
  s.queues.any fun q => (submitted s q.2).any fun r =>
    match recordKey s q.2.asid r, recordKey s asid va with
    | some a, some b => a = b
    | _, _ => r = va && q.2.asid = asid

/-- A bit of a launch record's attributes (Table 1.2). -/
def LaunchRec.attrBit (r : LaunchRec) (i : Nat) : Bool := r.attr.getLsbD i
/-- SLEN of a launch record. -/
def LaunchRec.slen (r : LaunchRec) : Nat := 2 ^ (r.attr.extractLsb' 12 4).toNat
/-- CG of a launch record. -/
def LaunchRec.cg (r : LaunchRec) : Nat := (r.attr.extractLsb' 8 4).toNat

/-- The first strip of a logical hart's block (R27). -/
def LaunchRec.blockFirst (r : LaunchRec) (h : Nat) : Nat := h * r.s.toNat / r.p.toNat
/-- The number of strips in it. -/
def LaunchRec.blockCount (r : LaunchRec) (h : Nat) : Nat := r.blockFirst (h + 1) - r.blockFirst h

/-- The logical harts whose block is not empty (R27). -/
def LaunchRec.harts (r : LaunchRec) : List Nat := (upTo r.p.toNat).filter fun h => r.blockCount h ≠ 0

/-! ### A hart's queues -/

/-- Is a logical hart of a task the hart? -/
def Hart.owns (h : Hart) (task lhart : Nat) : Bool := task = h.taskNo && lhart = h.tr.lhart.toNat

/-- Vector instructions of the hart that have not retired (R314). -/
def vecPending (h : Hart) : Bool := !h.planish.isEmpty
/-- Matrix instructions of the hart that have not completed (R169). -/
def matPending (h : Hart) : Bool := match h.swage with
  | some w => !w.queue.isEmpty
  | none => false
/-- Copies of the hart that have not completed (R193). -/
def copyPending (s : State) (h : Hart) : Bool :=
  s.copies.any fun c => h.owns c.task c.lhart && c.copy = h.copy
/-- Pushes of the hart that have not been delivered (R215). -/
def pushPending (s : State) (h : Hart) : Bool := s.pushes.any fun p => h.owns p.task p.lhart && p.copy = h.copy
/-- Posted reductions of the hart that have not been applied (R207). -/
def netPending (s : State) (h : Hart) : Bool := s.packets.any (·.ofHart h)

/-- Is an HMLOAD one that the hart has issued? -/
def HmloadJob.isOf (j : HmloadJob) (h : Hart) : Bool := h.owns j.task j.lhart && j.copy = h.copy

/-- Commands of the hart to the stack-side units that have not completed (R225). -/
def hmvPending (s : State) (h : Hart) : Bool := s.hmvs.any (·.owner = h.party) || s.hmloads.any (·.isOf h)

/-- Is a kind of DRAIN's list still pending (Table 1.9, R225)? Loads and stores complete with their instruction. -/
def drainPending (s : State) (h : Hart) (net push copy mem mat vec : Bool) : Bool :=
  (net && netPending s h) || (mem && hmvPending s h) || (push && pushPending s h) || (copy && copyPending s h) || (mat && matPending h) ||
  (vec && vecPending h)

/-- Has the hart drained what a save drains (R295)? -/
def saveReady (s : State) (h : Hart) : Bool := !drainPending s h true true false true true true

/-! ### Publishing a strip (R32) -/

/-- The watermark: the largest w with strips 0 to w − 1 published. -/
def watermark (published : List Nat) : Nat → Nat → Nat
  | 0, w => w
  | n + 1, w => if published.contains w then watermark published n (w + 1) else w

/-- A strip of a task is published, as a release at DEV; WMARK follows (R32, R243). -/
def publishStrip (idx : Nat) (strip : Nat) (r : Release) (s : State) : State :=
  match taskAt s idx with
  | none => s
  | some t =>
    let both := !t.desc.attrBit 4 || t.strips.any fun p => p.1 = strip
    let pub := if both && !t.published.contains strip then strip :: t.published else t.published
    let w := watermark pub (pub.length + 1) t.wmark.toNat
    let strips := (strip, r) :: t.strips
    let s := modTask idx (fun t => { t with published := pub, wmark := BitVec.ofNat 64 w, strips := strips }) s
    if w = t.wmark.toNat then s
    else
      let rels := (strips.filter fun p => p.1 < w).map (·.2)
      let u := (bellowsStore t.asid (t.recVa + 0x50) 8 w rels s).getD s
      modTask idx (fun t => { t with finRel := engineRelease s u :: t.finRel }) u

/-- The release of a hart at a scope, as it stands. -/
def Hart.release (h : Hart) (scope : Nat) : Release := ⟨h.core, scope, h.snapshot⟩

/-! ### Hart slots (R2) -/

/-- The hart in a slot. -/
def slotHart (s : State) (id : Nat) : Option Hart := (s.hart :: s.others).find? fun h => h.hartid.toNat = id && h.status ≠ .idle

/-- The state with a hart in its slot. -/
def putHart (h : Hart) (s : State) : State :=
  if s.hart.hartid = h.hartid then { s with hart := h }
  else { s with others := s.others.filter (fun o => o.hartid ≠ h.hartid && o.status ≠ .idle) ++ [h] }

/-- The state with a slot emptied. -/
def clearSlot (id : BitVec 10) (s : State) : State :=
  if s.hart.hartid = id then { s with hart := Hart.reset id }
  else { s with others := s.others.filter (·.hartid ≠ id) }

/-- The state with the hart of a slot in focus. -/
def focusOn (id : BitVec 10) (s : State) : State :=
  if s.hart.hartid = id then s
  else
    let rest := s.others.filter (·.hartid ≠ id)
    { s with
      hart := ((s.others.find? (·.hartid = id))).getD (Hart.reset id)
      others := if s.hart.status = .idle then rest else rest ++ [s.hart] }

/-- Is a slot in service and free? -/
def slotFree (s : State) (id : Nat) : Bool :=
  id < 1024 && (slotHart s id).isNone && !s.fencedClusters.contains (id / 32) && !s.fencedDies.contains (id / 256)

/-- Is the Swage engine of a slot's core held (R164)? -/
def engineHeld (s : State) (id : Nat) : Bool :=
  (s.hart :: s.others).any fun h => h.status ≠ .idle && h.core = id / 4 && h.swage.isSome

/-- The slot of the first copy for a logical hart that a slot hosts: under AS a pair of slots, the first on the even die (R254). -/
def Task.firstSlot (t : Task) (id : Nat) : Nat := if t.desc.attrBit 4 && id / 256 % 2 = 1 then id - 256 else id

/-- The slots that a logical hart takes with a slot: its own, and under AS the other of the pair (R254). -/
def Task.slotsWith (t : Task) (id : Nat) : List Nat :=
  if t.desc.attrBit 4 then [t.firstSlot id, t.firstSlot id + 256] else [id]

/-- Can a slot host a new logical hart of a task (R254)? -/
def canHost (s : State) (t : Task) (id : Nat) : Bool :=
  let one := fun i => slotFree s i && (!t.desc.attrBit 5 || !engineHeld s i)
  (t.slotsWith id).all one && (t.desc.cg = 0 || t.group.contains (id / 32))

/-! ### Starting a hart (R29) -/

/-- A Swage engine as it is granted: every tile zero (R50). -/
def Swage.granted : Swage :=
  { m := 0, n := 0, k := 0, fmt := 0
    mt := Vector.replicate 8 0, mtMark := Vector.replicate 8 0, ma := Vector.replicate 4 0, maMark := Vector.replicate 4 0
    pa := Vector.replicate 4 0, paMark := Vector.replicate 4 0, dirty := 0, saved := false, scales := [], queue := [] }

/-- The scratch word of a handler (R290). -/
def tsaveOf (b : AsBlock) (id : BitVec 10) : DWord := b.tsaveb + 256 * id.setWidth 64

/-- The hart that Table 1.3 gives for logical hart `lh` of a task in a slot. -/
def startHart (s : State) (idx : Nat) (t : Task) (lh copy : Nat) (id : BitVec 10) : Hart :=
  let r := t.desc
  let f := r.blockFirst lh
  let c := r.blockCount lh
  let lo := f * r.slen
  let elems := min ((f + c) * r.slen) r.n.toNat - lo
  let b := spaceBlock s t.asid
  let h := Hart.reset id
  let xs := [(1, r.args), (2, BitVec.ofNat 64 f), (3, BitVec.ofNat 64 c), (4, BitVec.ofNat 64 elems), (5, BitVec.ofNat 64 lo)]
  { h with
    status := .running, taskNo := idx, copy := copy, home := id.toNat / 32, pc := r.code
    x := xs.foldl (fun x p => x.setIfInBounds p.1 p.2) h.x
    tr := { h.tr with strn := BitVec.ofNat 64 f - 1, lhart := BitVec.ofNat 64 lh, task := t.recVa, tstat := r.attr }
    sr := { h.sr with tvec := b.tvec, ptb := b.ptb, pdead := b.pdead.setWidth 64, vcap := b.vcap, asid := t.asid
                      tsave := tsaveOf b id }
    swage := if r.attrBit 5 then some Swage.granted else none
    first := f, count := c
    clock := relClock t.startRel }

/-- Bellows starts a logical hart in a slot, as a pair of copies under AS (R254). -/
def startLogical (idx lh : Nat) (slot : Nat) (s : State) : State :=
  match taskAt s idx with
  | none => s
  | some t =>
    let id := t.firstSlot slot
    let s := putHart (startHart s idx t lh 0 (BitVec.ofNat 10 id)) s
    let s := if t.desc.attrBit 4 then putHart (startHart s idx t lh 1 (BitVec.ofNat 10 (id + 256))) s else s
    modTask idx (fun t => { t with unstarted := t.unstarted.filter (· ≠ lh), started := t.started ++ [lh], die := id / 256 }) s

/-! ### Saving and restoring (R295 to R300) -/

/-- Is a waiting instruction a hart's? -/
def CbWaiter.isOf (w : CbWaiter) (h : Hart) : Bool := h.owns w.task w.lhart && w.copy = h.copy

/-- The waiters a hart leaves behind at control blocks when its wait is broken off (R204). -/
def dropWaiters (h : Hart) (s : State) : State := { s with cbWait := s.cbWait.filter fun w => !w.isOf h }

/-! ### Filigree residency (R280, R281) -/

/-- Is a binding that of a hart? -/
def FBinding.isOf (b : FBinding) (h : Hart) : Bool := h.owns b.task b.lhart && h.copy = b.copy

/-- The bindings of a hart removed. -/
def unbind (h : Hart) (s : State) : State := { s with bound := s.bound.filter fun b => !b.isOf h }

/-- A victim's binding is removed; a dirty image is first written to its owner's save area and becomes clean (R280). -/
def evict (b : FBinding) (s : State) : State :=
  let party := partyNo b.task b.lhart b.copy
  let s := { s with bound := s.bound.erase b }
  match hartOf s party with
  | none => s
  | some h =>
    let f := (h.filigree[b.slot]?).getD FSlot.reset
    if !f.dirty then s
    else modParty party (fun h => { h with filigree := h.filigree.setIfInBounds b.slot { f with dirty := false } })
      (storeSlot h b.slot f s)

/-- The words of a loaded slot's image in its owner's save area. -/
def imageWords (h : Hart) (q : Nat) (f : FSlot) : List Nat :=
  wordsOf (h.areaBase + 0x2000 + 16896 * q) (132 * f.ndim)

/-- A loaded slot that is not resident comes back from its owner's save area, with what errors have struck there (R280, R281). -/
def reloadSlot (h : Hart) (q : Nat) (s : State) : State :=
  let f := (h.filigree[q]?).getD FSlot.reset
  if f.ndim = 0 || f.dirty then s
  else
    let s := (imageWords h q f).foldl (fun s w => findErrorBy h.die 0xFFFF w s) s
    modParty h.party (fun o => { o with filigree := o.filigree.setIfInBounds q (loadSlot h q f s) }) s

/-- The logical slot that a hart's QLOAD or QGEN.V in flight uses: one that waits, issued and incomplete. -/
def Hart.slotInUse (h : Hart) : Option Nat :=
  if h.wait ≠ .stall then none
  else
    match (fldMaj h.ir).toNat with
    | 0x73 => some (fldA h.ir).toNat
    | 0x5F => some ((h.xr (fldB h.ir).toNat).toNat / 256 % 4)
    | _ => none

/-- Does an instruction in flight use a binding's slot (R280)? -/
def FBinding.inUse (b : FBinding) (s : State) : Bool := s.others.any fun h =>
  h.status = .running && b.isOf h && h.slotInUse = some b.slot

/-- A logical slot of a hart is used: it becomes, or stays, resident, as the latest used of its core's four physical slots; the
least recently used one that no instruction in flight uses gives way. -/
def useSlot (h : Hart) (q : Nat) (s : State) : State :=
  let me : FBinding := ⟨h.core, h.taskNo, h.tr.lhart.toNat, h.copy, q⟩
  let s := if s.bound.contains me then { s with bound := s.bound.erase me } else reloadSlot h q s
  let here := s.bound.filter (·.core = h.core)
  let s := match (here.filter fun b => !b.inUse s).getLast? with
    | some v => if 4 ≤ here.length then evict v s else s
    | none => s
  { s with bound := me :: s.bound }

/-- The hart in focus is saved and gives up its slot (R295, R299). The save and the resumption act on its accesses as an
acquire-release FENCE at DEV, which ends its region (R232). -/
def saveFocus (cause : SaveCause) (keepWait : Bool) (s : State) : State :=
  let s := dropWaiters s.hart (quiet unprotect s)
  let h := s.hart
  let img := { h with
    pfx := .none, wait := if keepWait then h.wait else .no, preempt := false, stopAt := none, overdue := false
    resumed := some ⟨h.pc, h.tr.ves, (h.promises h.tr.ves).1, (h.promises h.tr.ves).2, h.kept⟩
    region := h.region + 1
    held := [], raced := none, late := none
    streams := (advanceStreams false h.streams).map fun b => { b with ahead := [] }
    filigree := h.filigree.map fun f => { f with dirty := false }
    swage := h.swage.map fun w => { w with dirty := 0, saved := w.saved || w.dirty ≠ 0 } }
  let bits := fun (p : FSlot → Bool) => (upTo 4).foldl (fun (m : BitVec 4) q =>
    if p ((h.filigree[q]?).getD FSlot.reset) then m ||| BitVec.ofNat 4 (2 ^ q) else m) 0
  let v : SavedHart :=
    { hart := img, cause := cause, vcaps := h.sr.vcap, mat := h.swage.isSome
      tiles := match h.swage with
        | some w => w.saved || w.dirty ≠ 0
        | none => false
      crw := h.credId.isSome, fload := bits fun f => f.ndim ≠ 0, fsaved := bits fun f => f.ndim ≠ 0
      rpc := h.pc, rves := h.tr.ves, rmode := h.mode, region := h.region, stime := Config.timeReading s.free, die := h.die
      wrote := h.swage.any (·.dirty ≠ 0), fwrote := bits (·.dirty), stamp := s.free
      context := s.free }
  v.store (unbind h { s with hart := Hart.reset h.hartid, saved := s.saved ++ [v], free := s.free + 1 })

/-- The bits of a descriptor that a conversion owns: BASE, ALT, FL, CV, PH, OTAG, TAG and CDONE (Table 7.1, R153). -/
def convMask : BitVec 512 := BitVec.ofNat 512 (2 ^ 128 - 1 + 0xE770 * 2 ^ 256 + (2 ^ 32 - 1) * 2 ^ 288)

/-- A descriptor copy of a hart with the conversion fields taken from the descriptor, in the hart's own memory (R153, R316). -/
def freshDesc (s : State) (d : Side) (h : Handle) : Handle :=
  let v := leNat ((fromTo h.pa (h.pa + 64)).map (homeByte s d))
  if h.bound then { h with desc := (h.desc &&& ~~~convMask) ||| (BitVec.ofNat 512 v &&& convMask) } else h

/-- A bound handle of a restored hart: its descriptor is found anew, as translations stand now (R304), and read (R300). DESIGN CHOICE (log
108): where its address has no translation any more, the handle stays as it was saved. -/
def freshHandle (s : State) (h : Hart) (g : Handle) : Handle :=
  match spaceRun s h.sr.asid g.addr 64 false false with
  | .ok pa => if g.bound then freshDesc s h.side { g with pa := assayAddr h pa } else g
  | .error _ => g

/-- One physical register as a restore leaves it (R300): the bytes that a save has written, zero above them, and bytes at or above
VRS not guaranteed (R49). -/
def restoreReg (free vrs p keep : Nat) (v : VBits) : VBits :=
  BitVec.ofNat 16384 (v.toNat % 2 ^ (8 * keep) +
    (leNat ((fromTo vrs 2048).map fun i => Config.staleByte (free + p * 2048 + i))) * 2 ^ (8 * vrs))

/-- The marks of a restored register. -/
def restoreMark (keep : Nat) (v : VBits) : VBits := BitVec.ofNat 16384 (v.toNat % 2 ^ (8 * keep))

/-- A hart that has been restored: its loaded Filigree slots are made resident again (R281). -/
def rebind (h : Hart) (s : State) : State :=
  (upTo 4).foldl (fun s q => if ((h.filigree[q]?).getD FSlot.reset).ndim = 0 then s else useSlot h q s) s

/-- A saved hart in a slot (R300), with the marks that its area holds (R307). -/
def restoreHart (s : State) (v : SavedHart) (id : BitVec 10) : Hart :=
  let h := v.hart
  let b := spaceBlock s (match taskAt s h.taskNo with
    | some t => t.asid
    | none => h.sr.asid)
  let vrs := 256 * 2 ^ v.vcaps.toNat
  v.takeMarks s { h with
    status := .running, hartid := id, pc := v.rpc, mode := v.rmode, region := h.region + 1
    tr := { h.tr with ves := v.rves }
    sr := { h.sr with tsave := tsaveOf b id, vcap := v.vcaps }
    v := h.v.mapIdx fun p x => if v.kept p = 2048 then x else restoreReg s.free vrs p (v.kept p) x
    vMark := h.vMark.mapIdx fun p x => if v.kept p = 2048 then x else restoreMark (v.kept p) x
    handles := h.handles.map (freshHandle s h) }

/-- Does a slot break the pair of the two copies of an AS hart (R254): dies 0 and 1, or 2 and 3, the first copy on the even one, at
the same numbers? A saved copy counts while its die serves, for it resumes there (R216). -/
def twinElsewhere (s : State) (h : Hart) (id : Nat) : Bool :=
  let twin := fun (o : Hart) => o.taskNo = h.taskNo && o.tr.lhart = h.tr.lhart && o.copy ≠ h.copy
  h.assay && (id / 256 % 2 ≠ h.copy ||
    ((s.hart :: s.others).any fun o => o.status ≠ .idle && twin o &&
      (o.hartid.toNat % 256 ≠ id % 256 || o.hartid.toNat / 512 ≠ id / 512)) ||
    s.saved.any fun v => twin v.hart && !s.fencedDies.contains v.die && v.die / 2 ≠ id / 512)

/-- Can a slot host a saved hart (R164, R216, R254)? -/
def canRestore (s : State) (v : SavedHart) (id : Nat) : Bool :=
  slotFree s id && (!v.mat || !engineHeld s id) && (id / 256 = v.die || s.fencedDies.contains v.die) &&
    !twinElsewhere s v.hart id &&
    (match taskAt s v.hart.taskNo with
      | some t => t.desc.cg = 0 || t.group.contains (id / 32)
      | none => false)

/-! ### Ending -/

/-- A hart that is ended: its queues take nothing more in, and it drains as after FINISH (R42). -/
def Hart.end' (h : Hart) : Hart :=
  { h with status := .finished, wait := .no, planish := [], buf := [], preempt := false, overdue := false, watchdog := false, cred := none
           credId := none, races := [], swage := h.swage.map fun w => { w with queue := [] }
           fe := h.fe.map fun f => if f = .empty then .full else f }

/-- Ends a task with status 0x03 (R26): every hart of it ends, and no logical hart starts any more. -/
def killTask (idx : Nat) (s : State) : State :=
  let mine := fun (h : Hart) => h.status ≠ .idle && h.taskNo = idx
  let fin := fun (h : Hart) => if mine h && h.status = .running then h.end' else h
  let gone := s.saved.filter fun v => v.hart.taskNo = idx
  -- the completion releases what the harts that end have done (R242)
  let rels := ((s.hart :: s.others).filter fun h => mine h && h.status = .running).map (·.release 4) ++
    gone.map (·.hart.release 4)
  let s := modTask idx (fun t => { t with
    killed := true, unstarted := [], finRel := rels ++ t.finRel
    ended := t.ended ++ (gone.filter (·.hart.copy = 0)).map (·.hart.tr.lhart.toNat)
    ended2 := t.ended2 ++ (gone.filter (·.hart.copy ≠ 0)).map (·.hart.tr.lhart.toNat) }) s
  { s with hart := fin s.hart, others := s.others.map fin, saved := s.saved.filter fun v => v.hart.taskNo ≠ idx
           cbWait := s.cbWait.filter fun w => w.task ≠ idx }

/-- Has every started logical hart of a task ended (R43)? -/
def Task.allEnded (t : Task) : Bool :=
  t.unstarted.isEmpty && t.started.all fun l => t.ended.contains l && (!t.desc.attrBit 4 || t.ended2.contains l)

/-- A task's effective priority (R247). -/
def effPrio (s : State) (t : Task) : Nat := min (t.desc.attr.extractLsb' 16 3).toNat (queueBlock s t.queue).ceil.toNat

/-- Strips of the producer that a consumer sees: the watermark, and whether the producer is complete (R31). DEDUCED (log 109): the
producer is the task last registered from PROD's record; while there is none, no strip has been published and it is not complete. -/
def producerMark (s : State) (asid : BitVec 16) (prod : DWord) : Nat × Bool × List Release :=
  match taskOfRecord s asid prod with
  | none => (0, false, [])
  | some i =>
    match taskAt s i with
    | none => (0, false, [])
    | some t =>
      let w := t.wmark.toNat
      let done := t.state = .over
      (w, done, ((t.strips.filter fun p => p.1 < w || done).map (·.2)) ++ if done then t.finRel else [])

/-- Is the bound of a hart's DEPW wait met (R31)? The bound is exact and signed. -/
def depwMet (s : State) (h : Hart) : Bool :=
  match taskAt s h.taskNo with
  | none => true
  | some t =>
    let bound : Int := t.desc.wa.toInt * (h.tr.strn.toNat + 1) + t.desc.wb.toInt
    let (w, done, _) := producerMark s t.asid t.desc.prod
    bound ≤ 0 || done || bound ≤ (w : Int)

end Sys2Proof.Machine
end

