-- ==== Sys2Proof/Machine/Scalar.lean ====
section
/-!
DEFINITION. The scalar integer, immediate, branch, loop, vector-length-free control and scalar FP64 instructions (R332,
R345, R347, R362, R375, R376, R37 to R41, R52, R80, R114).
-/

namespace Sys2Proof.Machine

/-! ### Integer arithmetic (R86, R87, R332) -/

/-- A scalar R-form instruction. -/
def execBinX (d b c : Reg) (f : DWord → DWord → DWord) (s : State) : Host.Outcome State Fault Refusal :=
  runUnit (do unitStart false; binX d b c f) s

/-- A scalar I-form instruction: the second operand is SEXT(imm11, 11). -/
def execImmX (d b : Reg) (i : BitVec 11) (f : DWord → DWord → DWord) (s : State) : Host.Outcome State Fault Refusal :=
  runUnit (do unitStart false; unX d b fun x => f x (sext i)) s

/-- A signed result clamped to 64 bits (R86). -/
def addSat (x y : DWord) : DWord :=
  let v := x.toInt + y.toInt
  dw (if v > 2 ^ 63 - 1 then 2 ^ 63 - 1 else if v < -(2 ^ 63) then -(2 ^ 63) else v)

/-- The quotient of Table 4.1, signed: −1 for a divisor 0, truncated toward zero otherwise; the corner wraps to itself. -/
def divS (x y : DWord) : DWord := if y = 0 then -1 else dw (x.toInt.tdiv y.toInt)
/-- The quotient of Table 4.1, unsigned. -/
def divU (x y : DWord) : DWord := if y = 0 then -1 else BitVec.ofNat 64 (x.toNat / y.toNat)
/-- The remainder of Table 4.1, signed. -/
def remS (x y : DWord) : DWord := if y = 0 then x else dw (x.toInt.tmod y.toInt)
/-- The remainder of Table 4.1, unsigned. -/
def remU (x y : DWord) : DWord := if y = 0 then x else BitVec.ofNat 64 (x.toNat % y.toNat)

/-- ADD (R335). -/
def execAdd (c b d : Reg) (s : State) := execBinX d b c (fun x y => x + y) s
/-- SUB (R432). -/
def execSub (c b d : Reg) (s : State) := execBinX d b c (fun x y => x - y) s
/-- AND (R342). -/
def execAnd (c b d : Reg) (s : State) := execBinX d b c (fun x y => x &&& y) s
/-- OR (R404). -/
def execOr (c b d : Reg) (s : State) := execBinX d b c (fun x y => x ||| y) s
/-- XOR (R442). -/
def execXor (c b d : Reg) (s : State) := execBinX d b c (fun x y => x ^^^ y) s
/-- SHL (R422): the amount is taken modulo 64. -/
def execShl (c b d : Reg) (s : State) := execBinX d b c (fun x y => x <<< (y.toNat % 64)) s
/-- SHR (R422). -/
def execShr (c b d : Reg) (s : State) := execBinX d b c (fun x y => x >>> (y.toNat % 64)) s
/-- SRA (R422). -/
def execSra (c b d : Reg) (s : State) := execBinX d b c (fun x y => x.sshiftRight (y.toNat % 64)) s
/-- SLT (R424). -/
def execSlt (c b d : Reg) (s : State) := execBinX d b c (fun x y => flag (x.slt y)) s
/-- SLTU (R424). -/
def execSltu (c b d : Reg) (s : State) := execBinX d b c (fun x y => flag (x.ult y)) s
/-- MIN (R387). -/
def execMin (c b d : Reg) (s : State) := execBinX d b c (fun x y => if x.slt y then x else y) s
/-- MAX (R387). -/
def execMax (c b d : Reg) (s : State) := execBinX d b c (fun x y => if x.slt y then y else x) s
/-- MINU (R387). -/
def execMinu (c b d : Reg) (s : State) := execBinX d b c (fun x y => if x.ult y then x else y) s
/-- MAXU (R387). -/
def execMaxu (c b d : Reg) (s : State) := execBinX d b c (fun x y => if x.ult y then y else x) s
/-- ADDS (R337). -/
def execAdds (c b d : Reg) (s : State) := execBinX d b c addSat s
/-- MUL (R398). -/
def execMul (c b d : Reg) (s : State) := execBinX d b c (fun x y => x * y) s
/-- MULH (R398). -/
def execMulh (c b d : Reg) (s : State) := execBinX d b c (fun x y => dw (x.toInt * y.toInt / 2 ^ 64)) s
/-- MULHU (R398). -/
def execMulhu (c b d : Reg) (s : State) := execBinX d b c (fun x y => BitVec.ofNat 64 (x.toNat * y.toNat / 2 ^ 64)) s
/-- DIV (R358). -/
def execDiv (c b d : Reg) (s : State) := execBinX d b c divS s
/-- DIVU (R358). -/
def execDivu (c b d : Reg) (s : State) := execBinX d b c divU s
/-- REM (R411). -/
def execRem (c b d : Reg) (s : State) := execBinX d b c remS s
/-- REMU (R411). -/
def execRemu (c b d : Reg) (s : State) := execBinX d b c remU s
/-- CLZ (R352). -/
def execClz (b d : Reg) (s : State) : Host.Outcome State Fault Refusal :=
  runUnit (do unitStart false; unX d b fun x => BitVec.ofNat 64 (leadingZeros 64 x.toNat)) s
/-- POPC (R406). -/
def execPopc (b d : Reg) (s : State) : Host.Outcome State Fault Refusal :=
  runUnit (do unitStart false; unX d b fun x => BitVec.ofNat 64 (popCount 64 x.toNat)) s
/-- ADD.I (R335). -/
def execAddI (i : BitVec 11) (b d : Reg) (s : State) := execImmX d b i (fun x y => x + y) s
/-- AND.I (R342). -/
def execAndI (i : BitVec 11) (b d : Reg) (s : State) := execImmX d b i (fun x y => x &&& y) s
/-- OR.I (R404). -/
def execOrI (i : BitVec 11) (b d : Reg) (s : State) := execImmX d b i (fun x y => x ||| y) s
/-- XOR.I (R442). -/
def execXorI (i : BitVec 11) (b d : Reg) (s : State) := execImmX d b i (fun x y => x ^^^ y) s
/-- SHL.I (R422). -/
def execShlI (i : BitVec 11) (b d : Reg) (s : State) := execImmX d b i (fun x y => x <<< (y.toNat % 64)) s
/-- SHR.I (R422). -/
def execShrI (i : BitVec 11) (b d : Reg) (s : State) := execImmX d b i (fun x y => x >>> (y.toNat % 64)) s
/-- SRA.I (R422). -/
def execSraI (i : BitVec 11) (b d : Reg) (s : State) := execImmX d b i (fun x y => x.sshiftRight (y.toNat % 64)) s
/-- SLT.I (R424). -/
def execSltI (i : BitVec 11) (b d : Reg) (s : State) := execImmX d b i (fun x y => flag (x.slt y)) s

/-- LIM (R384). -/
def execLim (i : BitVec 18) (d : Reg) (s : State) : Host.Outcome State Fault Refusal :=
  runUnit (do
    unitStart false
    destX d
    setX d (sext i) 0
    pure .seq) s

/-- LIH (R383): bits [13:0] of the register stay. -/
def execLih (i : BitVec 18) (d : Reg) (s : State) : Host.Outcome State Fault Refusal :=
  runUnit (do unitStart false; unX d d fun x => (sext i <<< 14) ||| (x &&& 0x3FFF)) s

/-- ADDPC (R336). -/
def execAddpc (i : BitVec 18) (d : Reg) (s : State) : Host.Outcome State Fault Refusal :=
  runUnit (do
    unitStart false
    destX d
    let h ← getH
    setX d (pcRel h.pc i) 0
    pure .seq) s

/-! ### The bank set, VT and the window (R114, R52, R80, R46) -/

/-- The checks of a value for BSR (R114). -/
def bsrOk (v : DWord) : Bool :=
  let first := bitsAt v 0 7
  let count := bitsAt v 8 7
  let step := bitsAt v 16 7
  !(first > 126 || count = 0 || (count > 1 && step % 127 = 0))

/-- BSR from a value: the other bits read back as zero (R114). -/
def bsrOf (v : DWord) : BitVec 23 := v.extractLsb' 0 23 &&& 0x7F7F7F

/-- BSET (R348). -/
def execBset (b : Reg) (s : State) : Host.Outcome State Fault Refusal :=
  runUnit (do
    unitStart false
    let v ← steerX b
    if bsrOk v then
      modH fun h => { h with tr := { h.tr with bsr := bsrOf v } }.cleanRegs [0x004]
      pure .seq
    else illegal) s

/-- SETVT (R421): the immediate's codes have passed decoding. -/
def execSetvt (i : BitVec 9) (s : State) : Host.Outcome State Fault Refusal :=
  runUnit (do
    unitStart false
    modH fun h => { h with tr := { h.tr with vt := i } }.cleanRegs [0x001]
    pure .seq) s

/-- WINB (R441): WBASE plus the immediate, a multiple of 8 from 0 to 64, or the illegal-instruction trap. -/
def execWinb (i : BitVec 11) (s : State) : Host.Outcome State Fault Refusal :=
  runUnit (do
    unitStart false
    let h ← getH
    steerRegs [0x003]
    let v := h.tr.wbase + sext i
    if v.toNat ≤ 64 && v.toNat % 8 = 0 then
      modT fun t => { t with wbase := v }
      pure .seq
    else illegal) s

/-! ### Jumps and branches (R345, R347, R375, R376) -/

/-- J (R375). -/
def execJ (i : BitVec 18) (d : Reg) (s : State) : Host.Outcome State Fault Refusal :=
  runUnit (do
    unitStart false
    destX d
    let h ← getH
    setX d (h.pc + 4) 0
    pure (.jump (pcRel h.pc i))) s

/-- JR (R376): a bound base raises the stream trap, a target with bits [1:0] set the misaligned trap. -/
def execJr (i : BitVec 11) (b d : Reg) (s : State) : Host.Outcome State Fault Refusal :=
  runUnit (do
    unitStart false
    let h ← getH
    if (streamOf h false b).isSome then streamTrap
    let v ← steerX b
    let t := pcRel v i
    if t &&& 3 ≠ 0 then raise causeMisaligned t
    destX d
    setX d (h.pc + 4) 0
    pure (.jump t)) s

/-- A conditional branch on two registers (R345). -/
def branchX (o : BitVec 11) (b a : Reg) (cond : DWord → DWord → Bool) : M Flow := do
  unitStart false
  steerLook [b, a]
  let (x, mx) ← srcX b
  let (y, my) ← srcX a
  steerCheck (mx ||| my)
  let h ← getH
  pure (if cond x y then .jump (pcRel h.pc o) else .seq)

/-- BEQ (R345): the operands are x[A] and x[B]. -/
def execBeq (o : BitVec 11) (b a : Reg) (s : State) := runUnit (branchX o b a fun y x => x = y) s
/-- BNE (R345). -/
def execBne (o : BitVec 11) (b a : Reg) (s : State) := runUnit (branchX o b a fun y x => x ≠ y) s
/-- BLT (R345): x[A] < x[B], signed. -/
def execBlt (o : BitVec 11) (b a : Reg) (s : State) := runUnit (branchX o b a fun y x => x.slt y) s
/-- BGE (R345). -/
def execBge (o : BitVec 11) (b a : Reg) (s : State) := runUnit (branchX o b a fun y x => !x.slt y) s
/-- BLTU (R345). -/
def execBltu (o : BitVec 11) (b a : Reg) (s : State) := runUnit (branchX o b a fun y x => x.ult y) s
/-- BGEU (R345). -/
def execBgeu (o : BitVec 11) (b a : Reg) (s : State) := runUnit (branchX o b a fun y x => !x.ult y) s

/-- A branch on the mask bits below vl (R347). -/
def branchMask (o : BitVec 11) (k : Reg) (wanted : Bool) : M Flow := do
  unitStart false
  steerRegs [0x000, 0x001]
  let h ← getH
  let vl := h.effVl
  steerCheck (h.bitMarks k.toNat vl)
  let some' := (h.vreg k.toNat).toNat % 2 ^ vl ≠ 0
  pure (if some' = wanted then .jump (pcRel h.pc o) else .seq)

/-- BMZ (R347). -/
def execBmz (o : BitVec 11) (k : Reg) (s : State) := runUnit (branchMask o k false) s
/-- BMNZ (R347). -/
def execBmnz (o : BitVec 11) (k : Reg) (s : State) := runUnit (branchMask o k true) s

/-! ### The loop sequencer (R37 to R41) -/

/-- The checks of LOOP that depend on the contexts (R39). -/
def loopRefused (h : Hart) (w : Nat) (l : Nat) : Bool :=
  ((h.loops[l]?).getD LoopCtx.reset).active ||
  (upTo 6).any fun k =>
    let c := (h.loops[k]?).getD LoopCtx.reset
    c.active && c.holds h.pc && (k ≤ l || c.stop.toNat < h.pc.toNat + 4 + 4 * w)

/-- LOOP (R385). DESIGN CHOICE (log 96): in a handler, while a trap has suspended the sequencer, LOOP checks and opens its
context as ever, and ONCE looks at the contexts as they stand; no context steps until the ERET (R40 does not say). -/
def execLoop (w : BitVec 7) (l : BitVec 3) (b c : Reg) (s : State) : Host.Outcome State Fault Refusal :=
  runUnit (do
    unitStart false
    let h ← getH
    if loopRefused h w.toNat l.toNat then illegal
    let n ← steerX c
    let (st, mk) ← if b = 0 then pure (0, 0) else srcX (b + 1)
    if n = 0 then pure (.skip w.toNat)
    else
      let start := h.pc + 4
      let ctx : LoopCtx := ⟨true, n, n, start, start + 4 * BitVec.ofNat 64 w.toNat, b, st, mk⟩
      modH fun h => { h with loops := h.loops.setIfInBounds l.toNat ctx }
      pure .seq) s

/-- The word of a code address without a trap, for ONCE's look at the end of its range (R78). -/
def peekWord (s : State) (va : DWord) : Option Word := (fetchWord s va).map (·.1)

/-- ONCE (R402). -/
def execOnce (w : BitVec 6) (t : BitVec 1) (l : BitVec 3) (s : State) : Host.Outcome State Fault Refusal :=
  runUnit (do
    unitStart false
    let h ← getH
    let c := (h.loops[l.toNat]?).getD LoopCtx.reset
    if c.active && c.stop.toNat < h.pc.toNat + 4 + 4 * w.toNat then illegal
    match (← getS fun s => peekWord s (h.pc + 4 * BitVec.ofNat 64 w.toNat)) with
    | some x => if x &&& 0x7F = 0x7F then illegal
    | none => pure ()
    let holds := if t = 1 then c.remaining = 1 else c.remaining = c.count
    pure (if !c.active || holds then .seq else .skip w.toNat)) s

/-- The width of work-identifier level `l` (R24, R35). -/
def widWidth (fw : BitVec 36) (l : Nat) : Nat := (fw.extractLsb' (6 * l) 6).toNat

/-- WID (R440): one field of the identifier of the strip in STRN. -/
def execWid (l : BitVec 3) (d : Reg) (s : State) : Host.Outcome State Fault Refusal :=
  runUnit (do
    unitStart false
    destX d
    let h ← getH
    let fw ← getS fun s => match taskAt s h.taskNo with
      | some t => t.desc.fw
      | none => 0
    let lo := (upTo l.toNat).foldl (fun n k => n + widWidth fw k) 0
    consume (h.sm 0x009)
    setX d (BitVec.ofNat 64 (h.tr.strn.toNat / 2 ^ lo % 2 ^ widWidth fw l.toNat)) (h.sm 0x009)
    pure .seq) s

/-! ### Scalar FP64 (R362, R363) -/

/-- An FP64 instruction of two sources: the flags, the trap of an enabled one, then the write. -/
def fpBin (d b c : Reg) (f : RMode → Nat → Nat → Nat × FpFlags) : M Flow := do
  unitStart false
  destX d
  let (x, mx) ← srcX b
  let (y, my) ← srcX c
  let h ← getH
  let (r, fl) := f h.rm x.toNat y.toNat
  fpFlags fl
  setX d (BitVec.ofNat 64 r) (mx ||| my)
  pure .seq

/-- An FP64 instruction of one source. -/
def fpUn (d b : Reg) (f : RMode → Nat → Nat × FpFlags) : M Flow := do
  unitStart false
  destX d
  let (x, mx) ← srcX b
  let h ← getH
  let (r, fl) := f h.rm x.toNat
  fpFlags fl
  setX d (BitVec.ofNat 64 r) mx
  pure .seq

/-- FADD (R362). -/
def execFadd (c b d : Reg) (s : State) := runUnit (fpBin d b c (fAdd fp64)) s
/-- FSUB (R362). -/
def execFsub (c b d : Reg) (s : State) := runUnit (fpBin d b c (fSub fp64)) s
/-- FMUL (R362). -/
def execFmul (c b d : Reg) (s : State) := runUnit (fpBin d b c (fMul fp64)) s
/-- FDIV (R362). -/
def execFdiv (c b d : Reg) (s : State) := runUnit (fpBin d b c (fDiv fp64)) s
/-- FSQRT (R362). -/
def execFsqrt (b d : Reg) (s : State) := runUnit (fpUn d b (fSqrt fp64)) s
/-- FMIN (R362). -/
def execFmin (c b d : Reg) (s : State) := runUnit (fpBin d b c fun _ => fMinMax fp64 false) s
/-- FMAX (R362). -/
def execFmax (c b d : Reg) (s : State) := runUnit (fpBin d b c fun _ => fMinMax fp64 true) s

/-- FMAC (R362): a × b + x[A] with one rounding. -/
def execFmac (c b d : Reg) (s : State) : Host.Outcome State Fault Refusal :=
  runUnit (do
    unitStart false
    destX d
    let (x, mx) ← srcX b
    let (y, my) ← srcX c
    let (z, mz) ← srcX d
    let h ← getH
    let (r, fl) := fMa fp64 h.rm x.toNat y.toNat z.toNat
    fpFlags fl
    setX d (BitVec.ofNat 64 r) (mx ||| my ||| mz)
    pure .seq) s

/-- A comparison as 1 or 0 (R363). -/
def fCmpBit (c : FCond) (a b : Nat) : Nat × FpFlags :=
  let (r, fl) := fCmp fp64 c a b
  (if r then 1 else 0, fl)

/-- FEQ (R362). -/
def execFeq (c b d : Reg) (s : State) := runUnit (fpBin d b c fun _ => fCmpBit .eq) s
/-- FLT (R362). -/
def execFlt (c b d : Reg) (s : State) := runUnit (fpBin d b c fun _ => fCmpBit .lt) s
/-- FLE (R362). -/
def execFle (c b d : Reg) (s : State) := runUnit (fpBin d b c fun _ => fCmpBit .le) s
/-- FCVTFI (R362). -/
def execFcvtfi (b d : Reg) (s : State) :=
  runUnit (fpUn d b fun rm x => let r := fToInt fp64 rm 64 x; (truncTo 64 r.1, r.2)) s
/-- FCVTIF (R362). -/
def execFcvtif (b d : Reg) (s : State) := runUnit (fpUn d b fun rm x => fOfInt fp64 rm (signedOf 64 x)) s

end Sys2Proof.Machine
end

