-- ==== Sys2Proof/Machine/System.lean ====
section
/-!
DEFINITION. Prefixes and failed units (R73 to R85), state registers (R55 to R58, R391, R392), the handler instructions
(R289, R292), the waits on a hart's own queues (R44, R310), the ends of a share and of a slot (R42, R258 to R263), and
STRIP (R30 to R34).
-/

namespace Sys2Proof.Machine

/-! ### Prefixes and failed units -/

/-- PFX.V (R74): the fields are held for the word that follows. -/
def execPfxV (o z t v : BitVec 1) (d : Reg) (r k : BitVec 3) (s : State) : Host.Outcome State Fault Refusal :=
  runUnit (do
    modH fun h => { h with pfx := .v (o = 1) (z = 1) (t = 1) (v = 1) d r k, irPfx := h.ir }
    pure .latched) s

/-- PFX.O (R76). -/
def execPfxO (p : BitVec 1) (o : BitVec 2) (sc : BitVec 3) (s : State) : Host.Outcome State Fault Refusal :=
  runUnit (do
    modH fun h => { h with pfx := .o (p = 1) o sc, irPfx := h.ir }
    pure .latched) s

/-- The illegal-instruction trap of decoding; `w` is the word that the first failing check names (R83, R85). DEDUCED (log 107): VES is 0
there also where the unit issues with another VES (R17). -/
def execIllegalInstruction (w : Word) (s : State) : Host.Outcome State Fault Refusal :=
  runUnit (raise causeIllegal (zext w) (some 0)) s

/-- The fetch fault on a word of the unit at `va` (R68, R78). A line of the instruction cache with an error is invalidated (R306). -/
def execFetchFault (va : DWord) (s : State) : Host.Outcome State Fault Refusal :=
  runUnit (raise causeFetch va) { s with badFetches := s.badFetches.filter (· ≠ (s.hart.core, va)) }

/-! ### State registers (R55 to R58) -/

/-- Does an MFS or MTS of the register wait for the hart's vector and matrix operations (R56)? -/
def waitsOnVec (n : Nat) : Bool := [0x002, 0x006, 0x00A, 0x00B, 0x00C, 0x013, 0x014, 0x015].contains n

/-- The wait of R56. -/
def vecWait (n : Nat) : M Unit := do
  let h ← getH
  if waitsOnVec n && (vecPending h || matPending h) then waitFor .retry h.tr.ves.toNat

/-- Is the number that of a register (Tables 2.4 and 2.5)? -/
def isStateReg (n : Nat) : Bool := n ≤ 0x015 || (0x100 ≤ n && n ≤ 0x10B)

/-- May no mode write the register? -/
def readOnlyReg (n : Nat) : Bool := (0x00D ≤ n && n ≤ 0x012) || n = 0x10B

/-- Does Table 2.4 let only supervisor mode write the register? -/
def superWrites (n : Nat) : Bool := [0x000, 0x002, 0x005, 0x009, 0x00B, 0x00C, 0x013, 0x014, 0x015].contains n

/-- The checks on a register number in the order of R55; `write` for an MTS. -/
def checkStateReg (n : Nat) (write : Bool) : M Unit := do
  let h ← getH
  let task := h.mode = .task
  if 0x100 ≤ n && task then raise causePrivileged (zext h.ir)
  if !isStateReg n then illegal
  if write && readOnlyReg n then illegal
  if write && task && superWrites n then raise causePrivileged (zext h.ir)

/-- MFS (R391, R392). CYC and TIME are free values; reading RBLOG clears it. -/
def execMfs (n : BitVec 11) (d : Reg) (s : State) : Host.Outcome State Fault Refusal :=
  runUnit (do
    unitStart false
    checkStateReg n.toNat false
    vecWait n.toNat
    destX d
    let v ← match n.toNat with
      | 0x011 => do let k ← fresh; pure (Config.cycleReading k)
      | 0x012 => do let k ← fresh; pure (Config.timeReading k)
      | k => do let h ← getH; pure (readStateReg h k)
    let mk := (← getH).sm n.toNat
    consume mk
    if n.toNat = 0x10B then modH fun h => { h with sr := { h.sr with rblog := 0 } }.cleanRegs [0x10B]
    setX d v mk
    pure .seq) s

/-- Half of PFM replaced (Table 2.4). -/
def setPfmHalf (pfm : BitVec 127) (upper : Bool) (v : DWord) : BitVec 127 :=
  if upper then v.extractLsb' 0 63 ++ pfm.extractLsb' 0 64 else pfm.extractLsb' 64 63 ++ v

/-- One 64-bit word of DRMAP replaced. -/
def setDrmapWord (m : BitVec 192) (i : Nat) (v : DWord) : BitVec 192 :=
  match i with
  | 0 => m.extractLsb' 64 128 ++ v
  | 1 => m.extractLsb' 128 64 ++ v ++ m.extractLsb' 0 64
  | _ => v ++ m.extractLsb' 0 128

/-- Is a value in the range of the register's fields (R55)? -/
def stateRegOk (n : Nat) (v : DWord) : Bool :=
  match n with
  | 0x001 => bitsAt v 0 4 ≤ 9 && bitsAt v 4 3 ≤ 4
  | 0x003 => v.toNat ≤ 64 && v.toNat % 8 = 0
  | 0x004 => bsrOk v
  | _ => true

/-- A state register written with a value in range. -/
def writeStateReg (h : Hart) (n : Nat) (v : DWord) : Hart :=
  let t := h.tr
  let r := h.sr
  match n with
  | 0x000 => { h with tr := { t with vl := BitVec.ofNat 64 (min v.toNat (h.vlmaxW (fmtWidth h.fmt))) } }
  | 0x001 => { h with tr := { t with vt := v.extractLsb' 0 9 } }
  | 0x002 => { h with tr := { t with ves := v } }
  | 0x003 => { h with tr := { t with wbase := v } }
  | 0x004 => { h with tr := { t with bsr := bsrOf v } }
  | 0x005 => { h with tr := { t with cir := v.extractLsb' 0 8 } }
  | 0x006 => { h with tr := { t with fcr := v.extractLsb' 0 13 &&& 0x1F1F } }
  | 0x007 => { h with tr := { t with imrLo := v &&& ~~~1 } }
  | 0x008 => { h with tr := { t with imrHi := v } }
  | 0x009 => { h with tr := { t with strn := v } }
  | 0x00A => { h with tr := { t with pfm := setPfmHalf t.pfm (t.ves = 1) v } }
  | 0x00B => { h with tr := { t with mmea := v } }
  | 0x00C => { h with tr := { t with mmeh := v } }
  | 0x013 => { h with tr := { t with drmap := setDrmapWord t.drmap 0 v } }
  | 0x014 => { h with tr := { t with drmap := setDrmapWord t.drmap 1 v } }
  | 0x015 => { h with tr := { t with drmap := setDrmapWord t.drmap 2 v } }
  | 0x100 => { h with sr := { r with tvec := v } }
  | 0x101 => { h with sr := { r with tcause := zext (v.extractLsb' 0 8) } }
  | 0x102 => { h with sr := { r with tval := v } }
  | 0x103 => { h with sr := { r with tpc := v } }
  | 0x104 => { h with sr := { r with tves := v } }
  | 0x105 => { h with sr := { r with tsave := v } }
  | 0x106 => { h with sr := { r with vcap := v.extractLsb' 0 2 } }
  | 0x107 => { h with sr := { r with ptb := v } }
  | 0x108 => { h with sr := { r with asid := v.extractLsb' 0 16 } }
  | 0x109 => { h with sr := { r with pie := bitAt v 2, ie := bitAt v 1, pm := if bitAt v 0 then .supervisor else .task } }
  | 0x10A => { h with sr := { r with pdead := v } }
  | _ => h

/-- MTS (R391, R392). An MTS to VES completes leaving VES at the value it wrote (R17). -/
def execMts (n : BitVec 11) (a : Reg) (s : State) : Host.Outcome State Fault Refusal :=
  runUnit (do
    unitStart false
    checkStateReg n.toNat true
    vecWait n.toNat
    let v ← steerX a
    if !stateRegOk n.toNat v then illegal
    modH fun h => (writeStateReg h n.toNat v).cleanRegs [n.toNat]
    pure (if n.toNat = 0x002 then .seqKeepVes else .seq)) s

/-! ### TRAP and ERET (R289, R292) -/

/-- The virtual address of the first byte of the hart's own slice (R444). Under AS both copies see it at the addresses of
the pair's first die (R316). -/
def sliceVa (h : Hart) : Nat :=
  let sl := if h.assay then h.home / 16 * 16 + h.home % 8 else h.home
  sramBase + sl * 0x800000

/-- The Protas kernel puts the slice's spare in place of a bank (R129): every word it cannot read becomes zero and
poisoned. DEDUCED (log 118): a word whose error has been found already, and that is poisoned, is read and copied with its mark. -/
def repairBank (slice bank : Nat) (s : State) : State :=
  let mine := fun w => inSram w && sliceOf w = slice && bankOf w = bank
  let bad := s.latent.filter mine
  let s := bad.foldl (fun s w =>
    { s with mem := setBytes s.mem w [0, 0, 0, 0], marks := putKey w (classAt w) s.marks }) s
  { s with latent := s.latent.filter (fun w => !mine w), retired := s.retired.filter (· ≠ (slice, bank))
           spares := s.spares ++ [(slice, bank)] }

/-- A bank that a test has found failing: the slice's spare stands in, or the bank stays retired (R129, R321, R327). DESIGN CHOICE (log
118): only such a test takes a bank out of service. -/
def serviceBank (s : State) (b : Nat × Nat) : State :=
  if s.spares.any fun p => p.1 = b.1 then { s with retired := s.retired.filter (· ≠ b) ++ [b] } else repairBank b.1 b.2 s

/-- x10 as a service leaves it. DEDUCED (log 113): the service writes the register itself, also where a stream is bound to it. -/
def setX10 (v : DWord) : M Unit := modH fun h => h.setX 10 v 0

/-- The services of Table 15.3. DESIGN CHOICE (log 118): a BANKFIX that finds the spare in use leaves the bank it names in service. -/
def trapService (n : Nat) : M Unit := do
  let h ← getH
  let a := h.xr 10
  match n with
  | 0 => setX10 Config.versionWord
  | 1 =>
    let bank := bitsAt a 0 7
    if h.mode = .task || bank > 126 then setX10 (-1)
    else if (← getS fun s => s.spares.any fun p => p.1 = h.home) then setX10 1
    else
      modM (repairBank h.home bank)
      setX10 0
  | 2 =>
    logHart 0x0D (a.setWidth 128)
    setX10 0
  | 3 => modM (killTask h.taskNo)
  | 4 => setX10 (BitVec.ofNat 64 (sliceVa h))
  | _ => setX10 (-1)

/-- TRAP (R292, R435): it completes, the service takes effect, and the handler is entered with TPC after it. DEDUCED (log 117): so it is
for a service that is refused too; the trap that R16 excludes is that of a privileged instruction. -/
def execTrap (n : BitVec 18) (s : State) : Host.Outcome State Fault Refusal :=
  runUnit (do
    unitStart false
    trapService n.toNat
    pure (.seqTrap causeService (zext n))) s

/-- ERET (R289, R360). -/
def execEret (s : State) : Host.Outcome State Fault Refusal :=
  runUnit (do
    unitStart false
    let h ← getH
    if h.mode = .task then raise causePrivileged (zext h.ir)
    steerRegs [0x103, 0x104, 0x109]
    modH returnTrap
    pure .placed) s

/-! ### DRAIN and CHKERR (R44, R310) -/

/-- Does DRAIN's list name the queue that carried the access of a deferred report (R235)? -/
def drainNames (net push copy mem mat vec : Bool) (r : RaceReport) : Bool :=
  match r.kind with
  | 0 => vec
  | 1 => mat
  | 2 => mem
  | 3 => copy
  | 4 => push
  | 5 => net
  | 6 => mem
  | _ => false

/-- DRAIN's check of its queues. -/
def drainBody (n p c m t v : BitVec 1) : M Flow := do
  let pending ← getS fun s => drainPending s s.hart (n = 1) (p = 1) (c = 1) (m = 1) (t = 1) (v = 1)
  if pending then waitFor (.drain n p c m t v) (some 0)
  raceReports (drainNames (n = 1) (p = 1) (c = 1) (m = 1) (t = 1) (v = 1))
  if c = 1 then modH fun h => { h with clock := joinClock h.clock h.copyDone, copyDone := [] }
  pure .seq

/-- DRAIN (R359). -/
def execDrain (n p c m t v : BitVec 1) (s : State) : Host.Outcome State Fault Refusal :=
  runUnit (do unitStart false; drainBody n p c m t v) s

/-- DRAIN_RETURN (R44): the queues that a waiting DRAIN names are empty. -/
def execDrainReturn (s : State) : Host.Outcome State Fault Refusal :=
  match s.hart.status, s.hart.wait with
  | .running, .drain n p c m t v =>
    if drainPending s s.hart (n = 1) (p = 1) (c = 1) (m = 1) (t = 1) (v = 1) then .next s
    else runUnit (drainBody n p c m t v) s
  | _, _ => .next s

/-- CHKERR (R310, R351). -/
def execChkerr (s : State) : Host.Outcome State Fault Refusal :=
  runUnit (do
    unitStart false
    if (← getS fun s => drainPending s s.hart true true false true true true) then waitFor .retry (some 0)
    raceReports fun _ => true
    let h ← getH
    if h.tr.cir ≠ 0 then raise causeKill ((1 : BitVec 4) ++ (0 : BitVec 52) ++ h.tr.cir)
    pure .seq) s

/-! ### FINISH, YIELD, LAUNCH and WAITT (R42, R258 to R263) -/

/-- What FINISH leaves in the hart. -/
def Hart.finish (h : Hart) : Hart :=
  { h with status := .finished, wait := .no, pfx := .none, region := h.region + 1
           tr := { h.tr with ves := 0 }
           loops := h.loops.map fun c => { c with active := false }
           filigree := Vector.replicate 4 FSlot.reset
           streams := [] }

/-- FINISH (R42, R367). -/
def execFinish (s : State) : Host.Outcome State Fault Refusal :=
  runUnit (do
    unitStart false
    raceReports fun _ => true
    planishGate
    let h ← getH
    if h.cg ≠ 0 && h.remote then raise causeAccess 0
    commitBuffer
    let h ← getH
    modM fun s => unbind s.hart s
    modM (modTask h.taskNo fun t =>
      { t with poisoned := t.poisoned || h.tr.cir ≠ 0, finRel := h.release 4 :: t.finRel })
    modH Hart.finish
    pure .placed) s

/-- Does a suspended hart keep its slot (R263)? -/
def Hart.keepsSlot (h : Hart) : Bool := h.cg ≠ 0 || h.assay

/-- YIELD (R262, R443): it completes, and the hart gives up its slot once its queues have drained. -/
def execYield (s : State) : Host.Outcome State Fault Refusal :=
  let h := s.hart
  if h.mode = .supervisor || h.keepsSlot then runUnit (pure .seq) s
  else if !saveReady s h then runUnit (waitFor .retry (some 0)) s
  else .next (saveFocus .yield false { s with hart := retireSeq false h })

/-- One queue's block replaced. -/
def setQueue (q : Nat) (b : QueueBlock) (s : State) : State := { s with queues := putKey q b s.queues }

/-- What the launching hart made before a LAUNCH or a CPY.DEP happens before the harts of the record's task (R259,
R193). -/
def noteRecord (key : Nat) (r : Release) (s : State) : State :=
  match s.tasks.findIdx? (fun t => t.depc = key && t.state ≠ .over) with
  | some i => modTask i (fun t => { t with startRel := r :: t.startRel }) s
  | none => { s with objRels := (key, r) :: s.objRels }

/-- The key of the release of the LAUNCH that made entry `i` of a queue's ring, or of its overflow area (R246, R259). -/
def launchKey (q : Nat) (spilled : Bool) (i : BitVec 32) : Nat := (if spilled then 7 else 3) + 16 * (q + 64 * i.toNat)

/-- The release of an object, in place of its earlier ones. -/
def putRel (key : Nat) (r : Release) (s : State) : State :=
  { s with objRels := s.objRels.filter (·.1 ≠ key) ++ [(key, r)] }

/-- LAUNCH (R258, R377). What the hart does after it is not ordered before the launched harts, so that a region of the race
detector ends here (R259). -/
def execLaunch (b d : Reg) (s : State) : Host.Outcome State Fault Refusal :=
  runUnit (do
    unitStart false
    planishGate
    releaseGate
    destX d
    steerLook [b] (lookStruct b 64 0x28 4)
    let r ← steerX b
    let h ← getH
    if r.toNat % 64 ≠ 0 then raise causeMisaligned r
    if h.assay then raise causeAccess r
    let w ← loadStruct (loadAcc .single) (r + 0x28) 4
    let q := w / 2 ^ 24 % 64
    let blk ← getS fun s => queueBlock s q
    if blk.mode ≠ 2 || blk.asid ≠ h.sr.asid then raise causeAccess r
    let put := fun (va : DWord) => modM fun s => (bellowsStore blk.asid va 8 r.toNat [] s).getD s
    let note := fun (spilled : Bool) (i : BitVec 32) => do
      unprotect
      modM (putRel (launchKey q spilled i) (h.release 3))
      newRegion
    if blk.ovcnt = 0 && (blk.tail - blk.head).toNat < blk.rsize.toNat then
      note false blk.tail
      put (blk.rbase + BitVec.ofNat 64 (8 * (blk.tail.toNat % blk.rsize.toNat)))
      modM (setQueue q { blk with tail := blk.tail + 1 })
      setX d 0 0
      pure .seq
    else if blk.ovcnt.toNat < blk.ovcap.toNat then
      note true (blk.ovhead + blk.ovcnt)
      put (blk.ovbase + BitVec.ofNat 64 (8 * ((blk.ovhead.toNat + blk.ovcnt.toNat) % blk.ovcap.toNat)))
      modM (setQueue q { blk with ovcnt := blk.ovcnt + 1 })
      setX d 1 0
      pure .seq
    else raise causeLaunch (BitVec.ofNat 64 q)) s

/-- A hart whose unit waits for a task or for a watermark gives up its slot (R253, R261), unless it keeps it (R263). -/
def giveSlot (o : Host.Outcome State Fault Refusal) : Host.Outcome State Fault Refusal :=
  match o with
  | .next s =>
    if s.hart.keepsSlot then .next s
    else
      match s.hart.wait with
      | .waitt b _ n => .next (saveFocus (.waitt (s.hart.xr b.toNat).toNat n) true s)
      | .depw => .next (saveFocus .depw true s)
      | _ => .next s
  | o => o

/-- Does the task for which a WAITT waits go on? It is the one after the `n` that had completed when the WAITT issued; one that
Bellows has discarded is no longer pending (R246, R261). -/
def awaited (s : State) (asid : BitVec 16) (r : DWord) (n : Nat) : Bool :=
  (completedOf s asid r).length ≤ n && recordPending s asid r

/-- The return of WAITT once its task has completed, which it acquires (R259, R261); a bound xs has been popped (R200). -/
def waittDone (b d : Reg) (r : DWord) (n : Nat) : M Flow := do
  destX d
  let h ← getH
  let rels ← getS fun s => match (completedOf s h.sr.asid r)[n]? with
    | some t => t.finRel
    | none => []
  modH fun h => { h with clock := joinClock h.clock (relClock rels) }
  if (streamOf h false b).isSome then useStream false b 1
  setX d 0 0
  pure .seq

/-- WAITT (R261, R439). -/
def execWaitt (b d : Reg) (s : State) : Host.Outcome State Fault Refusal :=
  giveSlot (runUnit (do
    unitStart false
    destX d
    let r ← steerX b
    let h ← getH
    if r.toNat % 64 ≠ 0 then raise causeMisaligned r
    if r = h.tr.task then raise causeAccess r
    if (← getS fun s => recordPending s h.sr.asid r) then
      acquireGate
      if !(← getS fun s => h.keepsSlot || saveReady s h) then waitFor .retry (some 0)
      unprotect
      waitFor (.waitt b d (← getS fun s => (completedOf s h.sr.asid r).length)) (some 0)
    setX d 1 0
    pure .seq) s)

/-- WAITT_RETURN (R261): the awaited task has completed. -/
def execWaittReturn (s : State) : Host.Outcome State Fault Refusal :=
  match s.hart.status, s.hart.wait with
  | .running, .waitt b d n =>
    let r := s.hart.xr b.toNat
    if awaited s s.hart.sr.asid r n then .next s else runUnit (waittDone b d r n) s
  | _, _ => .next s

/-! ### STRIP (R30 to R34) -/

/-- Does the hart's own block hold the open strip (R31, R32)? -/
def Hart.stripInBlock (h : Hart) : Bool := h.first ≤ h.tr.strn.toNat && h.tr.strn.toNat < h.first + h.count

/-- The values of the registers that IMR names (R31). -/
def imrValues (h : Hart) : List (Reg × DWord × Mark) :=
  (fromTo 1 128).filterMap fun n =>
    if (if n < 64 then h.tr.imrLo.getLsbD n else h.tr.imrHi.getLsbD (n - 64)) then some (regOf n, h.xr n, h.xm n) else none

/-- The wait of a STRIP with DEPW: at VES 1 it resumes the wait only (R31, R243). -/
def depwBody : M Flow := do
  acquireGate (some 1)
  let h ← getH
  if !(← getS fun s => depwMet s h) then
    if !(← getS fun s => h.keepsSlot || saveReady s h) then waitFor .retry (some 1)
    unprotect
    waitFor .depw (some 1)
  let rels ← getS fun s => match taskAt s h.taskNo with
    | some t => (producerMark s t.asid t.desc.prod).2.2
    | none => []
  acquireRels rels 3
  noteAcquire rels
  newRegion
  pure .seq

/-- The part of STRIP that happens once (R31): true where a strip has been opened. -/
def stripOpen (pub : Bool) (b d : Reg) : M Bool := do
  planishGate
  if pub then releaseGate
  destX d
  let n ← steerX b
  commitBuffer
  let h ← getH
  if pub && h.stripInBlock then modM (publishStrip h.taskNo h.tr.strn.toNat (h.release 3))
  modH fun h => { h with retries := 0 }
  if n = 0 then
    modH fun h => { h with tr := { h.tr with vl := 0 }, ckpt := { h.ckpt with valid := false } }.cleanRegs [0x000]
    setX d 0 0
    pure false
  else
    let vl := BitVec.ofNat 64 (min n.toNat (min h.slen (h.vlmaxW (fmtWidth h.fmt))))
    consume (h.sm 0x009)
    modH fun h => { h with tr := { h.tr with vl := vl, strn := h.tr.strn + 1 } }.cleanRegs [0x000]
    setX d vl 0
    modH fun h =>
      if h.rb then
        let looped := h.loops.toList.any (·.active)
        { h with ckpt := ⟨h.pc + h.unitLen, h.tr.vl, h.tr.strn, imrValues h, true, looped⟩ }
      else h
    modH fun h => { h with streams := advanceStreams true h.streams }
    pure true

/-- STRIP (R429): `w` is DEPW, `p` is PUB. -/
def execStrip (w p : BitVec 1) (b d : Reg) (s : State) : Host.Outcome State Fault Refusal :=
  giveSlot (runUnit (do
    unitStart false
    let h ← getH
    let sync := w = 1 || p = 1
    if sync then raceReports fun _ => true
    let opened ← if h.tr.ves = 0 then stripOpen (p = 1) b d else pure true
    let prod ← getS fun s => match taskAt s h.taskNo with
      | some t => t.desc.prod
      | none => 0
    if opened && w = 1 && prod ≠ 0 then depwBody
    else do
      if sync then newRegion
      pure .seq) s)

/-- DEPW_WAIT_SATISFIED (R31): the producer's watermark meets the bound. -/
def execDepwWaitSatisfied (s : State) : Host.Outcome State Fault Refusal :=
  match s.hart.status, s.hart.wait with
  | .running, .depw => if depwMet s s.hart then runUnit depwBody s else .next s
  | _, _ => .next s

end Sys2Proof.Machine
end

