-- ==== Sys2Proof/Machine/Bellows.lean ====
section
/-!
DEFINITION. Bellows and pre-emption as events: taking entries (R246, R249), starting tasks and harts (R250 to R257),
returning slots and completing tasks (R26, R42, R43, R255), Assay's comparison (R318), the two asynchronous events of a
hart (R293 to R297).
-/

namespace Sys2Proof.Machine

/-! ### Entries -/

/-- The tasks that the table holds (R248). -/
def tableCount (s : State) : Nat := (s.tasks.filter fun t => t.state ≠ .over).length

/-- The fields of a launch record (Table 1.2), where all 128 bytes can be read: with the physical address of each half, and
DEPC. -/
def readRecord (s : State) (asid : BitVec 16) (r : DWord) : Option (LaunchRec × Nat × Nat × Nat) := do
  let lo ← (spaceRun s asid r 64 false false).toOption
  let hi ← (spaceRun s asid (r + 64) 64 false false).toOption
  let at' := fun (o n : Nat) => memNat s.mem (if o < 64 then lo + o else hi + (o - 64)) n
  let d := fun o => BitVec.ofNat 64 (at' o 8)
  let w := fun o => BitVec.ofNat 32 (at' o 4)
  some (⟨d 0x00, d 0x08, d 0x10, d 0x18, (d 0x20).extractLsb' 0 36, w 0x28 &&& 0x3F07FF7F, w 0x2C, w 0x34, w 0x38, d 0x40,
    d 0x48⟩, lo, hi, at' 0x30 4)

/-- The key of the host's release by a doorbell write to a queue (R323). -/
def doorbellKey (q : Nat) : Nat := 2 + 16 * q

/-- A record taken from an entry becomes a task, or the entry is discarded (R246, R248, R249). `rels` are the releases of its
submission; its completion will order what follows it after Bellows' reads too (R259). -/
def registerRecord (q : Nat) (asid : BitVec 16) (entry : Option DWord) (rels : List Release) (s : State) : State :=
  let discard := fun (s : State) => logBlack 0 0x10 0xFFFF ((entry.getD 0).setWidth 128) s
  match entry with
  | none => discard s
  | some r =>
    if r.toNat % 64 ≠ 0 then discard s
    else
      match readRecord s asid r with
      | none => discard s
      | some (desc, lo, hi, depcount) =>
        let p := engineParty s
        let read := fun (t : State) => engineRelease s t
        let key := lo + 0x30
        let rels := (s.objRels.filter fun p => p.1 = key).map (·.2) ++ rels
        let s := engineAccess p codeBellows (relClock rels) lo 64 false { s with free := s.free + 1 }
        let s := engineAccess p codeBellows (relClock rels) hi 64 false s
        if s.tasks.any fun t => t.state ≠ .over && t.depc = key then logBlack 0 0x0A 0xFFFF (r.setWidth 128) s
        else
          let t : Task :=
            { recVa := r, depc := key, asid := asid, queue := q, order := 0, desc := desc
              state := if depcount = 0 then .ready else .waiting, status := 0
              unstarted := [], started := [], ended := [], stolen := [], published := [], wmark := 0
              poisoned := false, killed := false, group := [], die := 0, barrier := 0, barrier2 := 0, barRel := []
              finRel := [read s], startRel := rels, strips := [], touch := (0, 0), ended2 := [] }
          { s with tasks := s.tasks ++ [t], objRels := s.objRels.filter fun p => p.1 ≠ key }

/-- The releases of a queue's entry `i`, and the state without that of a LAUNCH (R246, R259). -/
def submission (q : Nat) (i : BitVec 32) (s : State) : List Release × State :=
  let of := fun (k : Nat) => s.objRels.filter fun p => p.1 = k
  ((of (launchKey q false i) ++ of (doorbellKey q)).map (·.2),
    { s with objRels := s.objRels.filter (·.1 ≠ launchKey q false i) })

/-- RING_ENTRY_TAKE (R246): the next ring entry of a queue that is on. -/
def execRingEntryTake (q : Nat) (s : State) : Host.Outcome State Fault Refusal :=
  if 64 ≤ q then .next s
  else
    let b := queueBlock s q
    if (b.mode = 1 || b.mode = 2) && b.head ≠ b.tail && tableCount s < 4096 then
      let (rels, s) := submission q b.head { s with queues := putKey q { b with head := b.head + 1 } s.queues }
      let (entry, s) := bellowsLoad b.asid (b.rbase + BitVec.ofNat 64 (8 * (b.head.toNat % b.rsize.toNat))) 8 (relClock rels) s
      .next (registerRecord q b.asid (entry.map (BitVec.ofNat 64)) rels s)
    else .next s

/-- The release of the LAUNCH that made an overflow entry goes with it: to a ring entry, or, with an entry that is discarded, away. -/
def moveSubmission (q : Nat) (i : BitVec 32) (dest : Option (BitVec 32)) (s : State) : State :=
  let own := s.objRels.filter fun p => p.1 = launchKey q true i
  let s := { s with objRels := s.objRels.filter (·.1 ≠ launchKey q true i) }
  match dest with
  | some j => own.foldl (fun s p => putRel (launchKey q false j) p.2 s) s
  | none => s

/-- OVERFLOW_MOVE (R246): the oldest overflow entry moves into the ring as space frees. -/
def execOverflowMove (q : Nat) (s : State) : Host.Outcome State Fault Refusal :=
  if 64 ≤ q then .next s
  else
    let b := queueBlock s q
    if b.ovcnt ≠ 0 && (b.tail - b.head).toNat < b.rsize.toNat then
      let moved := { b with ovhead := b.ovhead + 1, ovcnt := b.ovcnt - 1 }
      match bellowsLoad b.asid (b.ovbase + BitVec.ofNat 64 (8 * (b.ovhead.toNat % b.ovcap.toNat))) 8 [] s with
      | (none, s) => .next (logBlack 0 0x10 0xFFFF 0
          (moveSubmission q b.ovhead none { s with queues := putKey q moved s.queues }))
      | (some v, s) =>
        let s := (bellowsStore b.asid (b.rbase + BitVec.ofNat 64 (8 * (b.tail.toNat % b.rsize.toNat))) 8 v [] s).getD s
        .next (moveSubmission q b.ovhead (some b.tail) { s with queues := putKey q { moved with tail := b.tail + 1 } s.queues })
    else .next s

/-! ### Completing a task (R26, R255) -/

/-- The status of a task's completion word (R26). -/
def Task.finalStatus (t : Task) : BitVec 8 :=
  if t.status = 2 then 2 else if t.killed then 3 else if t.poisoned then 1 else 0

/-- A task's shadow pages are freed, with what the race detector and the order bookkeeping kept of them (R318). -/
def dropShadows (idx : Nat) (s : State) : State :=
  let ours := fun a => decide (a / 2 ^ 50 = 1 + 2 * idx ∨ a / 2 ^ 50 = 2 + 2 * idx)
  { s with shadows := s.shadows.filter fun p => p.task ≠ idx
           releases := s.releases.filter fun r => !ours r.pa
           accesses := s.accesses.filter fun a => !ours a.word
           objRels := s.objRels.filter fun p => !ours p.1 }

/-- A task that is DONE completes, unless BAR holds it behind an earlier task of its queue (R26, R255). -/
def completeTask (idx : Nat) (s : State) : State :=
  match taskAt s idx with
  | none => s
  | some t =>
    let earlier := (upTo idx).any fun i => match s.tasks[i]? with
      | some o => o.queue = t.queue && o.state ≠ .over
      | none => false
    if t.state ≠ .done || (t.desc.attrBit 6 && earlier) then s
    else
      -- with BAR the completion also passes on those of the queue's earlier tasks (R242)
      let before := if t.desc.attrBit 6 then (s.tasks.take idx).filter (·.queue = t.queue) else []
      let rels := before.flatMap (·.finRel) ++ t.finRel
      let s₀ := s
      let s := (bellowsStore t.asid (t.recVa + 0x50) 8 t.desc.s.toNat rels s).getD s
      let rels := engineRelease s₀ s :: rels
      let c := t.desc.caddr
      let s := if c = 0 then s
        else
          match (if c.toNat % 8 = 0 then bellowsStore t.asid c 8 t.finalStatus.toNat rels s else none) with
          | some s' => s'
          | none => logBlack t.die 0x11 0xFFFF (c.setWidth 128) s
      -- what acquires the completion follows Bellows' own writes of it (R233, R259)
      let rels := engineRelease s₀ s :: rels
      let s := dropShadows idx { s with hostClock := joinClock s.hostClock (relClock rels) }
      modTask idx (fun t => { t with state := .over, wmark := t.desc.s, finRel := rels }) s

/-- TASK_COMPLETE (R26, R43): every started logical hart has finished and drained. -/
def execTaskComplete (n : Nat) (s : State) : Host.Outcome State Fault Refusal :=
  match taskAt s n with
  | none => .next s
  | some t =>
    let ended := t.state = .running && t.allEnded && (!t.desc.attrBit 4 || t.killed)
    .next (completeTask n (if ended then modTask n (fun t => { t with state := .done }) s else s))

/-- A shadow page of the first copy replaces its original, whose values keep their release sequences and carry the remap's own
release, and whose barriers keep theirs (R318). -/
def commitPage (rels : List Release) (s : State) (p : ShadowPage) : State :=
  let inside := fun a => decide (p.base ≤ a ∧ a < p.base + p.size)
  let d : Side := ⟨true, p.task, p.copy⟩
  let s := { s with
    mem := p.cells.foldl (fun m c => setByte m c.1 c.2) (s.mem.filter fun c => !inside c.1)
    marks := p.marks.foldl (fun ms c => putKey c.1 c.2 ms) (s.marks.filter fun c => !inside c.1)
    latent := s.latent.filter fun w => !inside w
    objRels := (s.objRels.filter fun r => !(r.1 % 16 = 1 && inside (r.1 - 1))) ++
      (s.objRels.filter fun r => r.1 % 16 = 1 && inside (r.1 - d.key 1)).map fun r => (r.1 - d.key 0, r.2) }
  (p.written.flatMap fun w => fromTo w (w + 4)).foldl (fun s a => setRels a 1 (rels ++ relsAt s (d.key a)) s) s

/-- The shadow pages of the first copy replace the originals (R318): a release at SYS. -/
def commitShadows (idx : Nat) (t : Task) (s : State) : State :=
  dropShadows idx ((s.shadows.filter fun p => p.task = idx && p.copy = 0).foldl (commitPage t.finRel) s)

/-- TOUCHMARK_COMPARE (R318). -/
def execTouchmarkCompare (n : Nat) (s : State) : Host.Outcome State Fault Refusal :=
  match taskAt s n with
  | none => .next s
  | some t =>
    if t.state = .running && t.desc.attrBit 4 && t.allEnded && !t.killed then
      if t.touch.1 = t.touch.2 then .next (modTask n (fun t => { t with state := .done }) (commitShadows n t s))
      else
        let s := logBlack t.die 0x06 0xFFFF t.touch.2 (logBlack t.die 0x06 0xFFFF t.touch.1 s)
        .next (modTask n (fun t => { t with state := .done, killed := true }) s)
    else .next s

/-! ### Starting tasks and harts (R250 to R257) -/

/-- The sum of the six work-identifier widths (R25). -/
def widthSum (fw : BitVec 36) : Nat := (upTo 6).foldl (fun n k => n + (fw.extractLsb' (6 * k) 6).toNat) 0

/-- The clusters of a die that serve, and whose partner's serve under AS (R254, R321). -/
def dieClusters (s : State) (t : Task) (die : Nat) : List Nat :=
  let ok := fun c => !s.fencedClusters.contains c && !s.fencedDies.contains (c / 8)
  if t.desc.attrBit 4 && die % 2 = 1 then []
  else (fromTo (8 * die) (8 * die + 8)).filter fun c => ok c && (!t.desc.attrBit 4 || ok (c + 8))

/-- The checks of R25 and R250 at a task's start: harts to place need clusters in service that can host them (R254). -/
def recordOk (s : State) (t : Task) : Bool :=
  let r := t.desc
  let slenl := (r.attr.extractLsb' 12 4).toNat
  let e := r.harts.length
  r.code.toNat % 4 = 0 && 4 ≤ slenl && slenl ≤ 9 && r.s.toNat = (r.n.toNat + r.slen - 1) / r.slen &&
  r.p ≠ 0 && r.p.toNat ≤ 65535 && r.cg ≤ 8 && widthSum r.fw ≤ 64 && (spaceBlock s t.asid).valid &&
  (e = 0 || ((r.cg = 0 || e ≤ (if r.attrBit 5 then 8 else 32) * r.cg) &&
    [0, 1, 2, 3].any fun d => max 1 r.cg ≤ (dieClusters s t d).length))

/-- Is the wait of a saved hart over (R252)? -/
def waitOver (s : State) (v : SavedHart) : Bool :=
  match v.cause with
  | .preempt => true
  | .yield => true
  | .waitt rec n => !awaited s v.hart.sr.asid (BitVec.ofNat 64 rec) n
  | .depw => depwMet s v.hart

/-- The saved hart of highest effective priority that a slot can take (R252). -/
def nextSaved (s : State) (slot : Nat) : Option Nat :=
  let prio := fun (v : SavedHart) => match taskAt s v.hart.taskNo with
    | some t => effPrio s t
    | none => 0
  let ok := (upTo s.saved.length).filterMap fun i => match s.saved[i]? with
    | some v => if waitOver s v && canRestore s v slot then some (i, prio v) else none
    | none => none
  (ok.foldl (fun (b : Option (Nat × Nat)) c => match b with
    | none => some c
    | some p => if p.2 < c.2 then some c else b) none).map (·.1)

/-- Is a slot left by the saved harts, which come first: with its partner where the task runs as pairs (R252, R254)? -/
def slotLeft (s : State) (t : Task) (slot : Nat) : Bool := (t.slotsWith slot).all fun i => (nextSaved s i).isNone

/-- Does a started task have an unstarted logical hart that a slot can host, and that no saved hart comes before? -/
def offers (s : State) (t : Task) (slot : Nat) : Bool :=
  t.state = .running && !t.unstarted.isEmpty && canHost s t slot && slotLeft s t slot

/-- Does a started task come before another: by its effective priority, and of equals by its start (R252)? -/
def comesBefore (s : State) (a b : Task) : Bool :=
  effPrio s b < effPrio s a || (effPrio s a = effPrio s b && a.order < b.order)

/-- Can the slot be given to a started task: where it runs as pairs, no task that runs in single slots comes before it at either of the
two? -/
def unbeaten (s : State) (t : Task) (slot : Nat) : Bool :=
  !t.desc.attrBit 4 || (t.slotsWith slot).all fun i =>
    !s.tasks.any fun o => !o.desc.attrBit 4 && offers s o i && comesBefore s o t

/-- The started task of highest effective priority with an unstarted logical hart that a slot can host; ties go to the
task that started first (R252). -/
def nextStarted (s : State) (slot : Nat) : Option Nat :=
  let cand := (upTo s.tasks.length).filterMap fun i =>
    ((taskAt s i).filter fun t => offers s t slot && unbeaten s t slot).map fun t => (i, t)
  (cand.foldl (fun (b : Option (Nat × Task)) c => match b with
    | none => some c
    | some p => if comesBefore s c.2 p.2 then some c else b) none).map (·.1)

/-- Is a slot left for a new task: nothing that waits to resume and no started task's logical hart comes before it (R252)? -/
def slotOpen (s : State) (slot : Nat) : Bool := (nextSaved s slot).isNone && (nextStarted s slot).isNone

/-- Can a slot, with its partner under AS, take a logical hart of a new task? -/
def canOpen (s : State) (t : Task) (slot : Nat) : Bool := canHost s t slot && (t.slotsWith slot).all (slotOpen s)

/-- The slots of a cluster that can host the task's harts, one a core under MAT (R164). -/
def clusterSlots (s : State) (t : Task) (c : Nat) : List Nat :=
  let free := (fromTo (32 * c) (32 * c + 32)).filter (canOpen s { t with group := [c] })
  if t.desc.attrBit 5 then free.filter fun i => !free.any fun j => j < i && j / 4 = i / 4 else free

/-- A cluster put before the first one that offers fewer slots. -/
def rankInto (x : Nat × List Nat) : List (Nat × List Nat) → List (Nat × List Nat)
  | [] => [x]
  | y :: rest => if y.2.length ≤ x.2.length then x :: y :: rest else y :: rankInto x rest

/-- The clusters that offer most slots first; of equals, the lowest first. -/
def rankClusters (l : List (Nat × List Nat)) : List (Nat × List Nat) := l.foldr rankInto []

/-- The slots that `e` harts take on clusters, the first ones filled first, but at least one on each while there are harts. -/
def spreadHarts : Nat → List (List Nat) → List Nat
  | _, [] => []
  | e, c :: rest =>
    let k := min c.length (max (min e 1) (e - rest.length))
    c.take k ++ spreadHarts (e - k) rest

/-- A group of clusters and the slots on them for every started logical hart of a CG task, each cluster running some (R187, R254). -/
def placeGroup (s : State) (t : Task) : Option (List Nat × List Nat) :=
  let e := t.desc.harts.length
  [0, 1, 2, 3].findSome? fun d =>
    let cs := dieClusters s t d
    let ranked := rankClusters (cs.map fun c => (c, clusterSlots s t c))
    let pick := ranked.take t.desc.cg
    let slots := spreadHarts e (pick.map (·.2))
    if pick.length = t.desc.cg ∧ slots.length = e then some (pick.map (·.1), slots) else none

/-- The oldest unstarted task of a queue. -/
def queueHead (s : State) (q : Nat) : Option Nat := (upTo s.tasks.length).find? fun i => match s.tasks[i]? with
  | some t => t.queue = q && (t.state = .waiting || t.state = .ready)
  | none => false

/-- The task that Bellows starts next, and its queue (R251). -/
def nextTask (s : State) : Option (Nat × Nat) :=
  let ready := (upTo 64).filterMap fun k =>
    let q := (s.rotation + 1 + k) % 64
    match queueHead s q with
    | none => none
    | some i => match taskAt s i with
      | some t => if t.state = .ready then some (i, q, effPrio s t) else none
      | none => none
  ready.foldl (fun (best : Option (Nat × Nat)) c => match best with
    | none => some (c.1, c.2.1)
    | some b => match taskAt s b.1 with
      | some t => if effPrio s t < c.2.2 then some (c.1, c.2.1) else best
      | none => best) none

/-- Bellows starts a task: completes it under R250, or starts its first logical hart, or all of them under CG (R251,
R254). Where no slot can host it, nothing changes. -/
def startTask (idx q : Nat) (want : Option Nat) (s : State) : State :=
  match taskAt s idx with
  | none => s
  | some t =>
    let started := fun (s : State) => modTask idx (fun t => { t with state := .running, order := s.free, unstarted := t.desc.harts })
      { s with rotation := q, free := s.free + 1 }
    if !recordOk s t then completeTask idx (modTask idx (fun t => { t with state := .done, status := 2 }) { s with rotation := q })
    else if t.desc.harts.isEmpty then completeTask idx (modTask idx (fun t => { t with state := .done }) { s with rotation := q })
    else if t.desc.cg ≠ 0 then
      match placeGroup s t with
      | none => s
      | some (cs, slots) =>
        let e := t.desc.harts.length
        let s := modTask idx (fun t =>
          { t with group := cs ++ (if t.desc.attrBit 4 then cs.map (· + 8) else []), barrier := BitVec.ofNat 128 e
                   barrier2 := BitVec.ofNat 128 e }) (started s)
        (t.desc.harts.zip slots).foldl (fun s p => startLogical idx p.1 p.2 s) s
    else
      let slots := match want with
        | some i => [i]
        | none => upTo 1024
      match slots.find? (canOpen s t), t.desc.harts with
      | some i, lh :: _ => startLogical idx lh i (started s)
      | _, _ => s

/-- TASK_START (R251). -/
def execTaskStart (s : State) : Host.Outcome State Fault Refusal :=
  match nextTask s with
  | none => .next s
  | some (i, q) => .next (startTask i q none s)

/-- SLOT_FILL (R252). -/
def execSlotFill (slot : Nat) (s : State) : Host.Outcome State Fault Refusal :=
  if !slotFree s slot then .next s
  else
    match nextSaved s slot with
    | some i =>
      match s.saved[i]? with
      | some v =>
        let s := v.findErrors (slot / 256) s
        let h := restoreHart s v (BitVec.ofNat 10 slot)
        .next (rebind h (putHart h { s with saved := s.saved.eraseIdx i, free := s.free + 393216 }))
      | none => .next s
    | none =>
      match nextStarted s slot with
      | some i =>
        match (taskAt s i).bind (·.unstarted.head?) with
        | some lh => .next (startLogical i lh slot s)
        | none => .next s
      | none =>
        match nextTask s with
        | none => .next s
        | some (i, q) => .next (startTask i q (some slot) s)

/-- The cluster to which Bellows has assigned an unstarted logical hart. -/
def homeCluster (idx lh : Nat) : Nat := Config.homeCluster idx lh % 32

/-- The slots of a cluster, a named one first, that can host a logical hart of a task and that no saved hart fills (R252). -/
def openSlots (s : State) (t : Task) (c slot : Nat) : List Nat :=
  (slot :: fromTo (32 * c) (32 * c + 32)).filter fun i => canHost s t i && slotLeft s t i

/-- The logical harts of a task assigned to cluster `v`, unstarted, that a slot of cluster `c` can host. -/
def assignedTo (s : State) (idx v c slot : Nat) : List Nat :=
  match taskAt s idx with
  | some t => if t.state = .running && !(openSlots s t c slot).isEmpty then t.unstarted.filter (homeCluster idx · = v) else []
  | none => []

/-- The distance of two clusters: hops over a die's mesh (R2); DESIGN CHOICE (log 104): another die is farther. -/
def meshHops (a b : Nat) : Nat :=
  let d := fun (x y : Nat) => max x y - min x y
  d (a % 4) (b % 4) + d (a % 8 / 4) (b % 8 / 4) + if a / 8 = b / 8 then 0 else 8

/-- The next logical hart that an idle cluster's victim hands over: task and logical hart (R256). -/
def stealFrom (s : State) (c slot : Nat) : Option (Nat × Nat) :=
  let free := fun (t : Task) => !(t.desc.attrBit 0 || t.desc.attrBit 4 || t.desc.cg ≠ 0)
  let work := fun (v : Nat) => (upTo s.tasks.length).findSome? fun i =>
    if (taskAt s i).any free then ((assignedTo s i v c slot).getLast?).map fun l => (i, l) else none
  let victims := ((upTo 32).filter fun v => v ≠ c && (work v).isSome)
  let best := victims.foldl (fun (b : Option Nat) v => match b with
    | none => some v
    | some w => if meshHops c v < meshHops c w then some v else b) none
  best.bind work

/-- One steal request served: an idle cluster, with a free slot and no assigned logical hart that it can start, receives a logical
hart with its whole block, or nothing (R256). -/
def serveSteal (s : State) (r : Nat × Nat) : State :=
  let own := (upTo s.tasks.length).any fun i => !(assignedTo s i r.1 r.1 r.2).isEmpty
  if !slotFree s r.2 || own then s
  else
    match stealFrom s r.1 r.2 with
    | none => s
    | some (i, lh) =>
      match (taskAt s i).bind fun t => (openSlots s t r.1 r.2).head? with
      | some slot => modTask i (fun t => { t with stolen := (r.1, lh) :: t.stolen }) (startLogical i lh slot s)
      | none => s

/-- A request put before those of clusters with higher numbers. -/
def requestInto (x : Nat × Nat) : List (Nat × Nat) → List (Nat × Nat)
  | [] => [x]
  | y :: rest => if x.1 ≤ y.1 then x :: y :: rest else y :: requestInto x rest

/-- STEAL_REQUEST (R256, R257): the requests that meet in one cycle, each a cluster and its free slot, are served in ascending
order of the clusters. -/
def execStealRequest (req : Nat × Nat) (more : List (Nat × Nat)) (s : State) : Host.Outcome State Fault Refusal :=
  .next ((((req :: more).filter fun r => decide (r.1 < 32 ∧ r.2 / 32 = r.1)).foldr requestInto []).foldl serveSteal s)

/-- HART_SLOT_RETURN (R42): the finished hart's queues have drained and no claim on its registers is pending. A report that
arrived while the FINISH drained is raised at that FINISH (R235). -/
def execHartSlotReturn (slot : Nat) (s : State) : Host.Outcome State Fault Refusal :=
  match slotHart s slot with
  | none => .next s
  | some h =>
    if h.status ≠ .finished || drainPending s h true true true true true true || h.fe.any (· = .pending) then .next s
    else
      match h.races with
      | r :: rest =>
        .next (putHart (takeTrap causeRace r.tval 0 { h with status := .running, races := rest, tr := { h.tr with mmea := r.mmea, mmeh := r.mmeh } }) s)
      | [] =>
        let lh := h.tr.lhart.toNat
        .next (modTask h.taskNo (fun t =>
          if h.copy = 0 then { t with ended := t.ended ++ [lh] } else { t with ended2 := t.ended2 ++ [lh] })
          (clearSlot h.hartid (unbind h s)))

/-! ### Pre-emption and the watchdog (R293 to R297) -/

/-- Is an asynchronous event held: in supervisor mode with IE clear, or between a prefix and its word (R78, R293)? -/
def Hart.holdsEvents (h : Hart) : Bool := (h.mode = .supervisor && !h.sr.ie) || (h.pfx ≠ .none && h.wait = .no)

/-- PDEAD's limit, 0 for none (R296). -/
def Hart.deadline (h : Hart) : Nat := (h.sr.pdead.extractLsb' 0 32).toNat

/-- Is a stack's data-rate change held back by a save with a deadline to an area on it (R297)? -/
def savingOn (s : State) (stack : Nat) : Bool :=
  (s.hart :: s.others).any fun h => h.status = .running && h.preempt && h.deadline ≠ 0 && h.areaBase / stackBytes = stack

/-- The deferred changes whose saves have completed start (R297). -/
def startRates (s : State) : State := { s with rates := s.rates.filter (savingOn s) }

/-- The hart in focus is saved for a pre-emption, if it has drained; else the request stays pending (R295). -/
def savePreempted (s : State) : State :=
  if saveReady s s.hart then startRates (saveFocus .preempt false s)
  else { s with hart := { s.hart with preempt := true, stopAt := none } }

/-- Does the hart stand inside a unit: held up by its own posted operations or copies, or between two elements (R293)? One that waits
at a wait of its own does not (R294). -/
def Hart.midUnit (h : Hart) : Bool := h.wait = .stall || (h.wait = .retry && h.tr.ves ≠ 0)

/-- Is the hart in the midst of an instruction that must yet complete element VES (R18)? After half of PDEAD it need not (R296). -/
def Hart.midElement (h : Hart) : Bool := h.resumed.isSome && (h.wait = .no || h.midUnit) && !h.overdue

/-- PREEMPTION (R295, R296): the hart stops at the unit boundary, or with `stop` at that element of the vector instruction
in flight, drains, saves and gives up its slot; a resumed instruction completes element VES first. Until it can stop, the
request stays pending. -/
def execPreemption (stop : Option Nat) (s : State) : Host.Outcome State Fault Refusal :=
  let h := s.hart
  let ves := h.tr.ves.toNat
  let pending := fun (k : Option Nat) => Host.Outcome.next { s with hart := { h with preempt := true, stopAt := k } }
  if h.status ≠ .running then .next s
  else if h.holdsEvents then pending h.stopAt
  else
    match stop.filter fun k => h.wait = .no && decide (ves < k) && !h.overdue with
    | some k => pending (some k)
    | none => if h.midElement then pending (some (ves + 1)) else .next (savePreempted s)

/-- The lateness of a save goes on record (R296). -/
def logLate (h : Hart) (s : State) : State := logBlack h.die 0x0C (h.hartid.setWidth 16) 0 s

/-- Has the slot's last hart been saved for a pre-emption with a deadline? -/
def savedLate (s : State) : Bool :=
  s.hart.status = .idle && ((s.saved.filter fun v => v.hart.hartid = s.hart.hartid).getLast?).any fun v =>
    v.cause = .preempt && v.hart.deadline ≠ 0

/-- PREEMPT_DEADLINE (R296): half of PDEAD has passed; from now on the hart stops without the element. `late` says that the save, in
progress or just completed, has overrun PDEAD. -/
def execPreemptDeadline (late : Bool) (s : State) : Host.Outcome State Fault Refusal :=
  let h := s.hart
  if h.status ≠ .running then .next (if late && savedLate s then logLate h s else s)
  else if !h.preempt || h.deadline = 0 then .next s
  else
    let s := if late then logLate h s else s
    let s := { s with hart := { s.hart with overdue := true } }
    .next (if h.holdsEvents then s else savePreempted s)

/-- Is the hart suspended in a wait for a task or a producer, in its slot or on its way out of it (R263)? -/
def Hart.dozes (h : Hart) : Bool := match h.wait with
  | .waitt _ _ _ => true
  | .depw => true
  | _ => false

/-- WATCHDOG (R294): the watchdog trap, taken after a pending pre-emption and never inside a unit (R293). A suspended hart's count
stands still. -/
def execWatchdog (s : State) : Host.Outcome State Fault Refusal :=
  let h := s.hart
  if h.status ≠ .running || h.dozes then .next s
  else if h.holdsEvents || h.preempt || h.midUnit then .next { s with hart := { h with watchdog := true } }
  else .next { dropWaiters h s with hart := { takeTrap causeWatchdog 0 h.tr.ves h with watchdog := false } }

/-- DATA_RATE_CHANGE (R297): deferred while a save with a deadline to an area on the stack runs, else it proceeds. -/
def execDataRateChange (stack : Nat) (s : State) : Host.Outcome State Fault Refusal :=
  if 16 ≤ stack then .next s
  else
    let rest := s.rates.filter (· ≠ stack)
    .next { s with rates := if savingOn s stack then rest ++ [stack] else rest }

end Sys2Proof.Machine
end

