-- ==== Sys2Proof/Machine/Memory.lean ====
section
/-!
DEFINITION. Scalar memory: loads and stores (R379, R425), acquire loads and release stores (R382, R430), atomics (R338 to
R341, R207, R244), fences (R238, R366) and prefetch (R407).
-/

namespace Sys2Proof.Machine

/-- The misaligned trap of an address that is no multiple of its size; TVAL holds the address. -/
def needAligned (a : DWord) (n : Nat) (ves : Option Nat := none) : M Unit :=
  if a.toNat % n = 0 then pure () else raise causeMisaligned a ves

/-- The value a load of `2 ^ sz` bytes writes. -/
def loadValue (z : Bool) (sz v : Nat) : DWord :=
  if z then BitVec.ofNat 64 v else dw (signedOf (8 * 2 ^ sz) v)

/-- LD (R379). -/
def execLd (o : BitVec 8) (z : BitVec 1) (sz : BitVec 2) (b d : Reg) (s : State) : Host.Outcome State Fault Refusal :=
  runUnit (do
    unitStart false
    destX d
    let base ← steerX b
    let a := scaledAddr base o sz.toNat
    needAligned a (2 ^ sz.toNat)
    let (v, m) ← loadNat (loadAcc .single) a (2 ^ sz.toNat)
    consume m
    setX d (loadValue (z = 1) sz.toNat v) m
    pure .seq) s

/-- ST (R425). -/
def execSt (o : BitVec 8) (sz : BitVec 2) (b a : Reg) (s : State) : Host.Outcome State Fault Refusal :=
  runUnit (do
    unitStart false
    planishGate
    let base ← steerX b
    let (v, m) ← srcX a
    let addr := scaledAddr base o sz.toNat
    needAligned addr (2 ^ sz.toNat)
    storeNat (storeAcc .single) addr (2 ^ sz.toNat) v.toNat m
    pure .seq) s

/-- LDAQ (R382): a synchronising load and an acquire at its scope. -/
def execLdaq (o : BitVec 6) (sc : BitVec 3) (z : BitVec 2) (b d : Reg) (s : State) : Host.Outcome State Fault Refusal :=
  runUnit (do
    unitStart false
    raceReports fun _ => true
    planishGate
    acquireGate
    destX d
    let base ← steerX b
    let a := scaledAddr base o z.toNat
    let n := 2 ^ z.toNat
    needAligned a n
    let acc : Access := { loadAcc .single with order := .sync }
    let pa ← translate acc a
    -- the access is judged as ordered after the releases that it acquires
    let rs ← getS fun s => relsOf s (s.hart.side.seen s pa) n
    let h ← getH
    withClock (h.acquired h.core rs sc.toNat) (raceCheck acc a pa n)
    let (bs, m) ← readPhys pa n
    unprotect
    acquireRels rs sc.toNat
    noteAcquire rs
    newRegion
    consume m
    setX d (loadValue false z.toNat (leNat bs)) m
    pure .seq) s

/-- STRL (R430): a synchronising store and a release at its scope, performed directly. -/
def execStrl (o : BitVec 6) (sc : BitVec 3) (z : BitVec 2) (b a : Reg) (s : State) : Host.Outcome State Fault Refusal :=
  runUnit (do
    unitStart false
    raceReports fun _ => true
    planishGate
    releaseGate
    let base ← steerX b
    let (v, m) ← srcX a
    let addr := scaledAddr base o z.toNat
    let n := 2 ^ z.toNat
    needAligned addr n
    let acc : Access := { storeAcc .single with order := .sync }
    let pa ← translate acc addr
    raceCheck acc addr pa n
    unprotect
    let h ← getH
    modM (commitStore pa addr (leBytes n v.toNat) m)
    modM (setRels (h.side.home pa) n (relsNow h 2 sc.toNat))
    takeFences
    newRegion
    pure .seq) s

/-! ### Atomics -/

/-- The new value of Table 18.4 and the flags of its rounding: operation, bytes, old value, operand, CAS's new value. -/
def amoNew (op bytes old y z : Nat) : Nat × FpFlags :=
  let w := 8 * bytes
  let f := if bytes = 4 then fp32 else fp64
  match op with
  | 0 => (y, 0)
  | 1 => ((old + y) % 2 ^ w, 0)
  | 2 => (old &&& y, 0)
  | 3 => (old ||| y, 0)
  | 4 => (old ^^^ y, 0)
  | 5 => (if signedOf w old < signedOf w y then old else y, 0)
  | 6 => (if signedOf w old < signedOf w y then y else old, 0)
  | 7 => (min old y, 0)
  | 8 => (max old y, 0)
  | 9 => fAdd f .rne old y
  | 10 => fMinMax f true old y
  | 11 => fMinMax f false old y
  | _ => (if old = y then z else old, 0)

/-- The scope, the order and the posted bit of an AMO (R76). -/
def Hart.pfxO (h : Hart) : Nat × Nat × Bool :=
  match h.pfx with
  | .o posted order scope => (scope.toNat, order.toNat, posted)
  | _ => (3, 0, false)

/-- An AMO's write at its home, the home's bytes continuing their release sequences (R240). -/
def amoPerform (bytes pa : Nat) (va : DWord) (new : Nat) (m : Mark) (rels : List Release) (s : State) : State :=
  joinRels (s.hart.side.home pa) bytes rels (commitStore pa va (leBytes bytes new) m s)

/-- A relaxed or releasing AMO that the hart posts: its packet enters the memory queue (R339, R419). It is the hart's last RMW,
whose value FENCE of kind 1 waits for. -/
def postPacket (op bytes pa : Nat) (a : DWord) (y : Nat) (m : Mark) (order scope : Nat) : M Unit := do
  let h ← getH
  let part : PacketPart := ⟨h.taskNo, h.tr.lhart.toNat, h.copy, h.assay, BitVec.ofNat 64 y, m, h.hartid, h.region, h.clock,
    relsNow h order scope, a, h.pc, h.lastNo + 1⟩
  let pk : Packet := ⟨h.sr.asid, pa, BitVec.ofNat 4 op, bytes, BitVec.ofNat 64 y, m, h.det, [part]⟩
  modM fun s => { s with packets := s.packets ++ [pk] }
  modH (dropAhead pa bytes)
  takeFences
  noteAcquire []

/-- The AMO family (R338 to R341). -/
def execAmo (op bytes : Nat) (c b d : Reg) (s : State) : Host.Outcome State Fault Refusal :=
  runUnit (do
    unitStart (9 ≤ op && op ≤ 11)
    let h0 ← getH
    let (scope, order, posted) := h0.pfxO
    if order ≠ 0 then raceReports fun _ => true
    planishGate
    if order = 2 || order = 3 then releaseGate
    if order = 1 || order = 3 then acquireGate
    if !posted then destX d
    let a ← steerX b
    let (yv, my) ← srcX c
    let (zv, mz) ← if op = 12 then srcX (c + 1) else pure (0, 0)
    let w := 8 * bytes
    let y := yv.toNat % 2 ^ w
    let z := zv.toNat % 2 ^ w
    needAligned a bytes
    let pa ← translate (rmwAcc .single) a
    bankCheck (rmwAcc .single) a pa bytes
    if 0x40000000000 ≤ pa && pa < 0x80000000000 && !(op = 0 || op = 1 || op = 12) then raise causeAccess a
    if posted then
      copyHold (rmwAcc .single) pa bytes
      unprotect
      modH (Hart.reached (rmwAcc .single) pa)
      postPacket op bytes pa a y my order scope
      if order ≠ 0 then newRegion
      pure .seq
    else
      let (bs, mo) ← readPhys pa bytes
      let old := leNat bs
      let writes := op ≠ 12 || old = y
      let rs ← getS fun s => relsOf s (s.hart.side.seen s pa) bytes
      let h ← getH
      let known := if order = 1 || order = 3 then h.acquired h.core rs scope else h.clock
      withClock known (raceCheck { rmwAcc .single with write := writes } a pa bytes)
      unprotect
      -- what it acquires it passes on where it releases too (R233)
      if order = 1 || order = 3 then acquireRels rs scope
      let h ← getH
      let (new, fl) := amoNew op bytes old y z
      if writes then
        modM (amoPerform bytes pa a new (mo ||| my ||| mz) (relsNow h order scope))
        takeFences
      if writes || order = 1 || order = 3 then noteAcquire rs
      let _ ← raiseFlags fl
      if order ≠ 0 then newRegion
      consume mo
      setX d (if 9 ≤ op && op ≤ 11 then BitVec.ofNat 64 old else dw (signedOf w old)) mo
      pure .seq) s

/-- AMO.SWAP.W (R339). -/
def execAmoSwapW (c b d : Reg) (s : State) := execAmo 0 4 c b d s
/-- AMO.ADD.W (R339). -/
def execAmoAddW (c b d : Reg) (s : State) := execAmo 1 4 c b d s
/-- AMO.AND.W (R339). -/
def execAmoAndW (c b d : Reg) (s : State) := execAmo 2 4 c b d s
/-- AMO.OR.W (R339). -/
def execAmoOrW (c b d : Reg) (s : State) := execAmo 3 4 c b d s
/-- AMO.XOR.W (R339). -/
def execAmoXorW (c b d : Reg) (s : State) := execAmo 4 4 c b d s
/-- AMO.MIN.W (R339). -/
def execAmoMinW (c b d : Reg) (s : State) := execAmo 5 4 c b d s
/-- AMO.MAX.W (R339). -/
def execAmoMaxW (c b d : Reg) (s : State) := execAmo 6 4 c b d s
/-- AMO.MINU.W (R339). -/
def execAmoMinuW (c b d : Reg) (s : State) := execAmo 7 4 c b d s
/-- AMO.MAXU.W (R339). -/
def execAmoMaxuW (c b d : Reg) (s : State) := execAmo 8 4 c b d s
/-- AMO.FADD.W (R339). -/
def execAmoFaddW (c b d : Reg) (s : State) := execAmo 9 4 c b d s
/-- AMO.FMAX.W (R339). -/
def execAmoFmaxW (c b d : Reg) (s : State) := execAmo 10 4 c b d s
/-- AMO.FMIN.W (R339). -/
def execAmoFminW (c b d : Reg) (s : State) := execAmo 11 4 c b d s
/-- AMO.CAS.W (R339). -/
def execAmoCasW (c b d : Reg) (s : State) := execAmo 12 4 c b d s
/-- AMO.SWAP.D (R339). -/
def execAmoSwapD (c b d : Reg) (s : State) := execAmo 0 8 c b d s
/-- AMO.ADD.D (R339). -/
def execAmoAddD (c b d : Reg) (s : State) := execAmo 1 8 c b d s
/-- AMO.AND.D (R339). -/
def execAmoAndD (c b d : Reg) (s : State) := execAmo 2 8 c b d s
/-- AMO.OR.D (R339). -/
def execAmoOrD (c b d : Reg) (s : State) := execAmo 3 8 c b d s
/-- AMO.XOR.D (R339). -/
def execAmoXorD (c b d : Reg) (s : State) := execAmo 4 8 c b d s
/-- AMO.MIN.D (R339). -/
def execAmoMinD (c b d : Reg) (s : State) := execAmo 5 8 c b d s
/-- AMO.MAX.D (R339). -/
def execAmoMaxD (c b d : Reg) (s : State) := execAmo 6 8 c b d s
/-- AMO.MINU.D (R339). -/
def execAmoMinuD (c b d : Reg) (s : State) := execAmo 7 8 c b d s
/-- AMO.MAXU.D (R339). -/
def execAmoMaxuD (c b d : Reg) (s : State) := execAmo 8 8 c b d s
/-- AMO.FADD.D (R339). -/
def execAmoFaddD (c b d : Reg) (s : State) := execAmo 9 8 c b d s
/-- AMO.FMAX.D (R339). -/
def execAmoFmaxD (c b d : Reg) (s : State) := execAmo 10 8 c b d s
/-- AMO.FMIN.D (R339). -/
def execAmoFminD (c b d : Reg) (s : State) := execAmo 11 8 c b d s
/-- AMO.CAS.D (R339). -/
def execAmoCasD (c b d : Reg) (s : State) := execAmo 12 8 c b d s

/-! ### Fences (R238, R366) -/

/-- A FENCE that acquires waits for the releases before it, and until the hart's last RMW, if posted, has been performed
(R238, R239). -/
def fenceGate : M Unit := do
  acquireGate
  let h ← getH
  if (← getS fun s => s.packets.any fun p => p.ofHart h && p.parts.any fun q => q.no = h.lastNo) then waitFor .retry

/-- FENCE of kinds 0 to 2: does it acquire, does it release. What a FENCE of kind 0 acquires it also releases. -/
def fence (acq rel : Bool) (sc : BitVec 3) : M Flow := do
  unitStart false
  raceReports fun _ => true
  planishGate
  if rel then releaseGate
  if acq then fenceGate
  unprotect
  let h ← getH
  if acq then acquireOn h.lastCore h.lastAcq sc.toNat
  if rel then modH fun h => { h with fenceRel := ⟨h.core, sc.toNat, h.snapshot⟩ :: h.fenceRel }
  newRegion
  pure .seq

/-- FENCE.AR (R366). -/
def execFenceAr (sc : BitVec 3) (s : State) := runUnit (fence true true sc) s
/-- FENCE.ACQ (R366). -/
def execFenceAcq (sc : BitVec 3) (s : State) := runUnit (fence true false sc) s
/-- FENCE.REL (R366). -/
def execFenceRel (sc : BitVec 3) (s : State) := runUnit (fence false true sc) s

/-- FENCE.FETCH (R366): it waits for the stores that the hart has posted, and what has been fetched ahead is discarded. Each unit
is fetched when it executes, with the hart's own buffered stores (`fetchWord`); a word fetched ahead with an error goes. -/
def execFenceFetch (_sc : BitVec 3) (s : State) : Host.Outcome State Fault Refusal :=
  runUnit (do
    unitStart false
    releaseGate
    modM fun s => { s with badFetches := s.badFetches.filter (·.1 ≠ s.hart.core) }
    pure .seq) s

/-- PREF (R407): no effect but the pop of a bound base register. -/
def execPref (_o : BitVec 8) (_sz : BitVec 2) (b _h : Reg) (s : State) : Host.Outcome State Fault Refusal :=
  runUnit (do
    unitStart false
    let _ ← steerX b
    pure .seq) s

end Sys2Proof.Machine
end

