-- ==== Sys2Proof/Machine/Collective.lean ====
section
/-!
DEFINITION. The collective reduction unit: CRED (R270 to R272), the root's slots (R269, R273) and their results (R274,
R275).
-/

namespace Sys2Proof.Machine

/-! ### The round at the root -/

/-- A slot that no contribution has reached. -/
def CollSlot.reset : CollSlot := ⟨false, 0, .free, 0, 0, 0, 0, 0, 0, 0, 0, 0, [], none⟩

/-- The slot of a number. -/
def collSlot (s : State) (n : Nat) : CollSlot := (getKey n s.slots).getD CollSlot.reset

/-- The state with a slot replaced. -/
def setSlot (n : Nat) (k : CollSlot) (s : State) : State := { s with slots := putKey n k s.slots }

/-- The statuses of Table 13.5. -/
def statusOk : BitVec 8 := 0
/-- TIMEOUT. -/
def statusTimeout : BitVec 8 := 1
/-- LATE. -/
def statusLate : BitVec 8 := 2
/-- BUSY. -/
def statusBusy : BitVec 8 := 3
/-- MISMATCH. -/
def statusMismatch : BitVec 8 := 4
/-- DUPLICATE. -/
def statusDuplicate : BitVec 8 := 5
/-- EXPIRED. -/
def statusExpired : BitVec 8 := 6
/-- LOST. -/
def statusLost : BitVec 8 := 7

/-- The sticky marks of an FP32 contribution. -/
def specialOf (v : FVal) : BitVec 8 :=
  match v with
  | .inf false => 16 + 1
  | .inf true => 16 + 2
  | .nan true => 4 + 8
  | .nan false => 4
  | .num _ _ _ => 16

/-- An FP32 value times 2^s in units of 2^−330 (R274). -/
def fixedOf (v : FVal) (s : Int) : Int :=
  match v with
  | .num neg m e => signedMag neg (m * 2 ^ (e + s + 330).toNat)
  | _ => 0

/-- The extreme of two FP32 values that are no NaN (R94), −0 below +0. -/
def extreme (wantMax : Bool) (a b : DWord) : DWord := BitVec.ofNat 64 (fMinMax fp32 wantMax a.toNat b.toNat).1

/-- A contribution counted in a round (R274, Table 13.7). -/
def CollSlot.count (k : CollSlot) (c : Contribution) : CollSlot :=
  let bits := c.value.toNat % 2 ^ 32
  let v := unpack fp32 bits
  let first := !k.special.getLsbD 4
  let k := { k with
    cmask := k.cmask ||| BitVec.ofNat 64 (2 ^ c.pidx.toNat), mark := k.mark ||| c.mark
    waiting := k.waiting ++ [c] }
  match c.op.toNat with
  | 0 => { k with acc := k.acc + fixedOf v 0, special := k.special ||| specialOf v }
  | 1 => { k with acc := k.acc + fixedOf v c.scale, special := k.special ||| specialOf v }
  | 5 => { k with best := k.best + c.value, special := 16 }
  | 6 => { k with best := if first || k.best.toInt < c.value.toInt then c.value else k.best, special := 16 }
  | 7 => { k with best := if first || c.value.toInt < k.best.toInt then c.value else k.best, special := 16 }
  | op =>
    let b := if isNan v then k.best else if first then BitVec.ofNat 64 bits else extreme (op ≠ 4) k.best (BitVec.ofNat 64 bits)
    { k with best := b, special := k.special ||| specialOf v }

/-- The result of a round and its flags (R275, Table 13.7). -/
def CollSlot.result (k : CollSlot) : DWord × FpFlags :=
  let has := fun i => k.special.getLsbD i
  let nv : FpFlags := if has 3 then flagNV else 0
  match k.op.toNat with
  | 0 | 1 =>
    if has 0 && has 1 then (BitVec.ofNat 64 fp32.nan, flagNV)
    else if has 2 then (BitVec.ofNat 64 fp32.nan, nv)
    else if has 0 || has 1 then (BitVec.ofNat 64 (fp32.inf (has 1)), 0)
    else
      let (v, fl) := roundInt fp32 .rne false k.acc (-330)
      (BitVec.ofNat 64 v, fl)
  | 2 | 4 => if has 2 then (BitVec.ofNat 64 fp32.nan, nv) else (k.best, 0)
  | 3 => if has 4 then (k.best, 0) else (BitVec.ofNat 64 fp32.nan, 0)
  | _ => (k.best, 0)

/-- The answer of a closed round. A poisoned round answers with the class of collectives (Table 16.1). -/
def CollSlot.answer (k : CollSlot) : CredAnswer :=
  let (v, fl) := k.result
  ⟨if k.cmask = k.expm then statusOk else statusTimeout, k.cmask, v, fl, if k.mark = 0 then 0 else 0x80⟩

/-- The answer to a contribution that is not counted. -/
def refuse (status : BitVec 8) (cmask : BitVec 64) : CredAnswer := ⟨status, cmask, 0, 0, 0⟩

/-- The CMASK of the round a contribution names, where the slot still holds it (R273). -/
def CollSlot.maskOf (k : CollSlot) (gen : BitVec 32) : BitVec 64 :=
  if k.phase ≠ .free && k.gen = gen then k.cmask
  else match k.prev with
    | some (g, a) => if g = gen then a.cmask else 0
    | none => 0

/-- Is round `a` newer than round `b` (R273)? -/
def newer (a b : BitVec 32) : Bool := 1 ≤ (a - b).toNat && (a - b).toNat < 2 ^ 31

/-- A new round opens with its first contribution counted; a closed one becomes the previous round. -/
def CollSlot.openRound (k : CollSlot) (c : Contribution) : CollSlot :=
  ({ k with
    phase := .isOpen, gen := c.gen, op := c.op, expm := c.expm, cmask := 0, tmo := c.tmo, acc := 0, special := 0, best := 0
    mark := 0, waiting := []
    prev := if k.phase = SlotPhase.closed then some (k.gen, k.answer) else k.prev }).count c

/-- A saved hart's context at 0x1C0 of its save area is written anew (R273, Table 15.4): the bytes, which the table does not lay out, are
other free ones. -/
def storeContext (party : Nat) (s : State) : State :=
  let mine := fun (v : SavedHart) => decide (v.hart.party = party)
  if s.saved.any mine then
    let anew := fun (v : SavedHart) => if mine v then { v with context := s.free } else v
    let t := { s with saved := s.saved.map anew, free := s.free + 1 }
    (t.saved.filter mine).foldl (fun t v => v.storeParts [(0x1C0, 64)] t) t
  else s

/-- The answer to a contribution: it reaches the identity that the hart of this device holds, or leaves for the contributor's
device (R272, R273). -/
def deliverAnswer (c : Contribution) (a : CredAnswer) (s : State) : State :=
  match c.home with
  | some (t, l) =>
    let same := fun (k : CredId) => k.here && k.slot = c.slot.toNat && k.gen = c.gen && k.pidx = c.pidx.toNat
    let p := partyNo t l 0
    let s := modParty p (fun h => if h.credId.any same then { h with cred := some a } else h) s
    if (hartOf s p).any fun h => h.credId.any same then storeContext p s else s
  | none => { s with collOut := s.collOut ++ [.answer c a] }

/-- Is the hart of a contribution waiting in its CRED? DESIGN CHOICE (log 103): one of another device always is. -/
def credWaits (s : State) (c : Contribution) : Bool :=
  match c.home with
  | some (t, l) => (s.hart :: s.others).any fun h => h.status = .running && h.owns t l &&
      match h.wait with
      | .cred _ _ _ _ => true
      | _ => false
  | none => true

/-- The round of a slot closes: its answer goes to every counted hart that is waiting (R273). -/
def closeRound (n : Nat) (s : State) : State :=
  let k := { collSlot s n with phase := .closed }
  (k.waiting.filter (credWaits s)).foldl (fun s c => deliverAnswer c k.answer s) (setSlot n { k with waiting := [] } s)

/-- A slot with a contribution counted; the round closes when every expected participant has counted. -/
def countRound (n : Nat) (k : CollSlot) (s : State) : State :=
  let s := setSlot n k s
  if k.cmask = k.expm then closeRound n s else s

/-- Is the hub fenced? It stands in the list of fenced dies under the number 4. -/
def hubFenced (s : State) : Bool := s.fencedDies.contains 4

/-- The root handles a contribution (Table 13.6). -/
def arrive (c : Contribution) (s : State) : State :=
  let n := c.slot.toNat
  let k := collSlot s n
  let no := fun (st : BitVec 8) (m : BitVec 64) => deliverAnswer c (refuse st m) s
  let member := fun (m : BitVec 64) => m.getLsbD c.pidx.toNat
  if !k.allotted || k.asid ≠ c.asid then no statusMismatch 0
  else if hubFenced s then no statusLost 0
  else
    match k.phase with
    | .free => if member c.expm then countRound n (k.openRound c) s else no statusMismatch 0
    | .isOpen =>
      if c.gen = k.gen then
        if member k.cmask then no statusDuplicate k.cmask
        else if c.op ≠ k.op || c.expm ≠ k.expm || c.tmo ≠ k.tmo || !member k.expm then no statusMismatch k.cmask
        else countRound n (k.count c) s
      else if newer c.gen k.gen then no statusBusy 0
      else no statusLate (k.maskOf c.gen)
    | .closed =>
      if c.gen = k.gen then no (if member k.cmask then statusDuplicate else statusLate) k.cmask
      else if newer c.gen k.gen then
        countRound n (k.openRound c) s
      else no statusLate (k.maskOf c.gen)

/-- CRED_CONTRIBUTION (R273): a contribution reaches the root. With none it is the one that was sent first; one that names
a hart of this device must be on its way; any other comes from another device. -/
def execCredContribution (src : Option Contribution) (s : State) : Host.Outcome State Fault Refusal :=
  match src with
  | none =>
    match s.contribs with
    | c :: rest => .next (arrive c { s with contribs := rest })
    | [] => .next s
  | some c =>
    if c.home.isNone then .next (arrive c s)
    else if s.contribs.contains c then .next (arrive c { s with contribs := s.contribs.erase c })
    else .next s

/-- ROUND_DEADLINE (R273): the deadline of a slot's open round passes. -/
def execRoundDeadline (slot : Nat) (s : State) : Host.Outcome State Fault Refusal :=
  let k := collSlot s slot
  if slot < 256 && k.phase = .isOpen && k.tmo ≠ 0 then .next (closeRound slot s) else .next s

/-! ### CRED -/

/-- A descriptor of a collective (Table 13.3). -/
structure CredDesc where
  expm : BitVec 64
  pidx : BitVec 6
  slot : BitVec 8
  root : BitVec 16
  gen  : BitVec 32
  tmo  : BitVec 32
  /-- Every reserved field is zero. -/
  clean : Bool
deriving DecidableEq, Repr

/-- The fields of the 64 bytes of a descriptor. -/
def credDescOf (v : BitVec 512) : CredDesc :=
  ⟨v.extractLsb' 0 64, v.extractLsb' 88 6, v.extractLsb' 80 8, v.extractLsb' 64 16, v.extractLsb' 96 32, v.extractLsb' 128 32,
    v.extractLsb' 94 2 = 0 && v.extractLsb' 160 32 = 0 && v.extractLsb' 264 248 = 0⟩

/-- The first part of CRED: the checks of R272, and the contribution sent. DESIGN CHOICE (log 98): the descriptor is reached as a single
access (the third row of Table 9.2). -/
def credSend (op : BitVec 3) (c b d : Reg) : M Unit := do
  steerLook [b] (lookStruct b 64 0 64)
  let a ← steerX b
  let (v, mv) ← srcX c
  let (sc, ms) ← if op = 1 then srcX d else pure (0, 0)
  if a.toNat % 64 ≠ 0 then raise causeMisaligned a
  let k := credDescOf (BitVec.ofNat 512 (← loadStruct (loadAcc .single) a 64))
  let pa ← translate (storeAcc .single) a
  bankCheck { storeAcc .single with whole := true } a pa 64
  let h ← getH
  let here ← getS fun s => k.root = 0xFFFF || k.root = s.fid
  let known ← getS fun s => here || s.windows.any fun w => w.2 = k.root
  if k.expm = 0 || !k.expm.getLsbD k.pidx.toNat || !k.clean || !known ||
      (op = 1 && (sc.toInt < -180 || 170 < sc.toInt)) || h.assay then raise causeAccess a
  unprotect
  modM fun s =>
    let q : Contribution :=
      { fid := s.fid, pidx := k.pidx, slot := k.slot, gen := k.gen, op := op, expm := k.expm, tmo := k.tmo, value := v
        scale := sc.toInt, asid := h.sr.asid, mark := mv ||| ms, home := some (h.taskNo, h.tr.lhart.toNat) }
    if here then { s with contribs := s.contribs ++ [q] } else { s with collOut := s.collOut ++ [.contribution k.root q] }
  modH fun h => { h with credId := some ⟨here, k.root, k.slot.toNat, k.gen, k.pidx.toNat⟩, cred := none
                         streams := advanceStreams true h.streams }

/-- What a wait finds at the slot of its contribution (R273): nothing yet, or an answer. -/
def fetchAnswer (s : State) (k : CredId) : Option CredAnswer :=
  let q := collSlot s k.slot
  if !k.here then none
  else if s.contribs.any fun c => c.home = some (s.hart.taskNo, s.hart.tr.lhart.toNat) then none
  else if hubFenced s then some (refuse statusLost 0)
  else if q.phase ≠ .free && q.gen = k.gen && q.cmask.getLsbD k.pidx then
    if q.phase = .isOpen then none else some q.answer
  else
    match q.prev with
    | some (g, a) => if g = k.gen && a.cmask.getLsbD k.pidx then some a else some (refuse statusExpired 0)
    | none => some (refuse statusExpired 0)

/-- What a store of `n` bytes checks before it is performed (R235, R303). -/
def storeLook (a : Access) (va : DWord) (n : Nat) : M Unit := do
  let pa ← translate a va
  raceLook a va pa n

/-- The wait of CRED at VES 1, and what the answer leaves (R272): both stores are checked first, so that a trap at VES 1 finds none of it
done (R17); then x[A] is written, and the stores are performed. -/
def credWait (op : BitVec 3) (c b d : Reg) : M Flow := do
  let h ← getH
  let got ← getS fun s => match h.cred with
    | some a => some a
    | none => h.credId.bind (fetchAnswer s)
  match got with
  | none => waitFor (.cred op c b d) (some 1)
  | some a =>
    let x := h.xr b.toNat
    let acc := storeAcc .single (some 1)
    destX d
    storeLook acc (x + 0x18) 8
    storeLook acc (x + 0x20) 8
    if a.status = statusOk || a.status = statusTimeout then
      consume a.mark
      setX d a.result a.mark
    storeNat acc (x + 0x18) 8 a.cmask.toNat 0
    storeNat acc (x + 0x20) 8 a.status.toNat 0
    let _ ← raiseFlags a.flags
    modH fun h => { h with cred := none, credId := none }
    pure .seq

/-- CRED (R356). -/
def cred (op : BitVec 3) (c b d : Reg) : M Flow := do
  unitStart false
  let h ← getH
  if h.tr.ves = 0 then
    planishGate
    destX d
    credSend op c b d
  credWait op c b d

/-- CRED.FSUM (R356). -/
def execCredFsum (c b d : Reg) (s : State) := runUnit (cred 0 c b d) s
/-- CRED.FSUMS (R356). -/
def execCredFsums (c b d : Reg) (s : State) := runUnit (cred 1 c b d) s
/-- CRED.FMAX (R356). -/
def execCredFmax (c b d : Reg) (s : State) := runUnit (cred 2 c b d) s
/-- CRED.FMAXN (R356). -/
def execCredFmaxn (c b d : Reg) (s : State) := runUnit (cred 3 c b d) s
/-- CRED.FMIN (R356). -/
def execCredFmin (c b d : Reg) (s : State) := runUnit (cred 4 c b d) s
/-- CRED.ISUM (R356). -/
def execCredIsum (c b d : Reg) (s : State) := runUnit (cred 5 c b d) s
/-- CRED.IMAX (R356). -/
def execCredImax (c b d : Reg) (s : State) := runUnit (cred 6 c b d) s
/-- CRED.IMIN (R356). -/
def execCredImin (c b d : Reg) (s : State) := runUnit (cred 7 c b d) s

/-- CRED_ANSWER (R272): the waiting CRED of the hart in focus looks for its answer; an answer of another device's root
comes with the event. -/
def execCredAnswer (ans : Option CredAnswer) (s : State) : Host.Outcome State Fault Refusal :=
  match s.hart.status, s.hart.wait, s.hart.credId with
  | .running, .cred op c b d, some k =>
    match ans with
    | none => resumeUnit (credWait op c b d) s
    | some a => if k.here then .next s
      else resumeUnit (credWait op c b d) { s with hart := { s.hart with cred := some a } }
  | _, _, _ => .next s

end Sys2Proof.Machine
end

