-- ==== Sys2Proof/Machine/Engines.lean ====
section
/-!
DEFINITION. Barrier objects and the group barrier (R188 to R192), the copy engine (R193 to R196), stream-mode registers
(R197 to R202) and circular buffers (R203, R204).
-/

namespace Sys2Proof.Machine

/-! ### Barrier objects (Table 9.3) -/

/-- The fields of a barrier object. -/
structure BarObj where
  gen  : Nat
  expa : Nat
  arrv : Nat
  expb : Nat
  nbyt : Nat
deriving DecidableEq, Repr

/-- The object of 16 bytes. -/
def barOf (n : Nat) : BarObj := ⟨n / 2 ^ 24 % 256, n % 2 ^ 24, n / 2 ^ 32 % 2 ^ 24, n / 2 ^ 64 % 2 ^ 32, n / 2 ^ 96 % 2 ^ 32⟩

/-- The 16 bytes of an object. -/
def BarObj.bits (b : BarObj) : Nat :=
  b.expa % 2 ^ 24 + b.gen % 256 * 2 ^ 24 + b.arrv % 2 ^ 24 * 2 ^ 32 + b.expb % 2 ^ 32 * 2 ^ 64 + b.nbyt % 2 ^ 32 * 2 ^ 96

/-- update(a, b) of R191: the object after it, and whether a count saturated. -/
def BarObj.update (o : BarObj) (a b : Nat) : BarObj × Bool :=
  let ar := o.arrv + a
  let nb := o.nbyt + b
  let (gen, ar, nb) := if o.expa ≤ ar ∧ o.expb ≤ nb then ((o.gen + 1) % 256, ar - o.expa, nb - o.expb) else (o.gen, ar, nb)
  (⟨gen, o.expa, min ar (2 ^ 24 - 1), o.expb, min nb (2 ^ 32 - 1)⟩, decide (2 ^ 24 ≤ ar ∨ 2 ^ 32 ≤ nb))

/-- Where a barrier object is: the group barrier, or memory at a physical address. -/
inductive BarPlace where
  | group
  | mem (pa : Nat) (va : DWord)
deriving DecidableEq, Repr

/-- The key of an object's releases: that of what names it on a side (R192, R316). -/
def barKey (pa : Nat) : Nat := pa + 1

/-- The scope of an object: DIE for the group barrier, SYS in host or peer memory, else DEV (R188, R189). -/
def BarPlace.scope : BarPlace → Nat
  | .group => 2
  | .mem pa _ => if 0x40000000000 ≤ pa then 4 else 3

/-- The object as the hart in focus sees it. -/
def readBar (p : BarPlace) (s : State) : BarObj :=
  match p with
  | .group => match taskAt s s.hart.taskNo with
    | some t => barOf (if s.hart.copy = 0 then t.barrier else t.barrier2).toNat
    | none => barOf 0
  | .mem pa _ => barOf (leNat ((fromTo pa (pa + 16)).map (viewByte s)))

/-- The object written. -/
def writeBar (p : BarPlace) (o : BarObj) (s : State) : State :=
  match p with
  | .group =>
    let v := BitVec.ofNat 128 o.bits
    modTask s.hart.taskNo (fun t => if s.hart.copy = 0 then { t with barrier := v } else { t with barrier2 := v }) s
  | .mem pa va => commitStore pa va (leBytes 16 o.bits) 0 s

/-- The releases of the arrivals and of the counted copies (R192). -/
def barReleases (p : BarPlace) (s : State) : List Release :=
  match p with
  | .group => match taskAt s s.hart.taskNo with
    | some t => (t.barRel.filter fun r => r.1 = s.hart.copy).map (·.2)
    | none => []
  | .mem pa _ => (s.objRels.filter fun r => r.1 = barKey (s.hart.side.seen s pa)).map (·.2)

/-- A release joins those of an object (R192). -/
def addBarRelease (p : BarPlace) (r : Release) (s : State) : State :=
  match p with
  | .group => modTask s.hart.taskNo (fun t => { t with barRel := (s.hart.copy, r) :: t.barRel }) s
  | .mem pa _ => { s with objRels := (barKey (s.hart.side.home pa), r) :: s.objRels }

/-- The releases that the value of an object's words carries after a read-modify-write of it (R231, R240). -/
def barWords (p : BarPlace) (rs : List Release) (s : State) : State :=
  match p with
  | .group => s
  | .mem pa _ => joinRels (s.hart.side.home pa) 16 rs s

/-- The object that an instruction is about to read must not be poisoned, but for the group barrier. -/
def lookBar (b : Reg) : M Unit := do
  if (← nextX b).1 ≠ 0 then lookStruct b 16 0 16

/-- The operand checks of R191 before the object is reached: its address. `rest` are the instruction's other operands. -/
def barAddress (b : Reg) (group read : Bool) (rest : List Reg) : M DWord := do
  steerLook (b :: rest) (if read then lookBar b else pure ())
  let o ← steerX b
  let h ← getH
  if o = 0 then
    if !group || h.cg = 0 then raise causeAccess 0
  else needAligned o 16
  pure o

/-- The object at an address, reached with an access; its bytes must not be poisoned. -/
def barPlace (o : DWord) (a : Access) : M BarPlace := do
  if o = 0 then pure .group
  else
    let pa ← translate a o
    bankCheck a o pa 16
    if a.read then
      let (_, m) ← readPhys pa 16
      steerCheck m
    pure (.mem pa o)

/-- The access of a barrier instruction to its object, whose faults name the object. -/
def barAccess (read write : Bool) : Access := ⟨read, write, .any, .sync, none, true, queueMem⟩

/-- The race check of a barrier instruction. -/
def barRace (p : BarPlace) (a : Access) : M Unit :=
  match p with
  | .group => pure ()
  | .mem pa va => raceCheck a va pa 16

/-- A buffered store cut at the object at `pa`: the part before its 16 bytes, the part inside them, and the part behind. -/
def barCut (pa : Nat) (b : BufStore) : BufStore × BufStore × BufStore :=
  let part := fun (n len : Nat) => ({ b with
    pa := b.pa + n, va := b.va + BitVec.ofNat 64 n, data := (b.data.drop n).take len } : BufStore)
  (part 0 (pa - b.pa), part (pa - b.pa) (pa + 16 - max b.pa pa), part (pa + 16 - b.pa) b.data.length)

/-- The open strip's buffered stores to the bytes of an object are performed before a BARINIT or BAREXP writes it (R125);
the rest of the buffer stays, as neither operation is in the list of R312. -/
def barSettle (p : BarPlace) : M Unit :=
  match p with
  | .group => pure ()
  | .mem pa _ => do
    let h ← getH
    let hit := fun (b : BufStore) => (barCut pa b).2.1.data ≠ []
    modM fun s => (h.buf.filter fun b => hit b).foldl (fun s b =>
      landStore (barCut pa b).2.1 s) s
    let rest := fun (b : BufStore) =>
      if hit b then [(barCut pa b).1, (barCut pa b).2.2].filter fun q => q.data ≠ [] else [b]
    modH fun h => { h with buf := h.buf.flatMap rest }

/-- The update of an object, with the record of a saturated count. -/
def barUpdate (p : BarPlace) (o : BarObj) (a b : Nat) : M Unit := do
  let (o', sat) := o.update a b
  modM (writeBar p o')
  if sat then
    match p with
    | .group => logHart 0x0F 0
    | .mem _ va => logHart 0x0F (va.setWidth 128)

/-- The counts of BARINIT and BAREXP, each in the range of its field. -/
def barCounts (o : DWord) (c a : Reg) : M (Nat × Nat) := do
  let n ← steerX a
  let k ← steerX c
  if 0xFFFFFF < n.toNat || 0xFFFFFFFF < k.toNat then raise causeAccess o
  pure (n.toNat, k.toNat)

/-- BARINIT (R343). -/
def execBarinit (c b a : Reg) (s : State) : Host.Outcome State Fault Refusal :=
  runUnit (do
    unitStart false
    planishGate
    let o ← barAddress b false false [a, c]
    let (n, k) ← barCounts o c a
    let acc := barAccess false true
    let p ← barPlace o acc
    barRace p acc
    barSettle p
    modM (writeBar p ⟨0, n, 0, k, 0⟩)
    match p with
    | .mem pa _ => modM fun s => setRels (s.hart.side.home pa) 16 [] s
    | .group => pure ()
    pure .seq) s

/-- BAREXP (R343). -/
def execBarexp (c b a : Reg) (s : State) : Host.Outcome State Fault Refusal :=
  runUnit (do
    unitStart false
    planishGate
    let o ← barAddress b false true [a, c]
    let (n, k) ← barCounts o c a
    let acc := barAccess true true
    let p ← barPlace o acc
    barRace p acc
    barSettle p
    let old ← getS (readBar p)
    barUpdate p { old with expa := n, expb := k } 0 0
    let h ← getH
    modM (barWords p (fencesNow h))
    takeFences
    noteAcquire (← getS (barReleases p))
    pure .seq) s

/-- BARARR (R343): a release. -/
def execBararr (b d : Reg) (s : State) : Host.Outcome State Fault Refusal :=
  runUnit (do
    unitStart false
    raceReports fun _ => true
    planishGate
    releaseGate
    destX d
    let o ← barAddress b true true []
    let acc := barAccess true true
    let p ← barPlace o acc
    barRace p acc
    unprotect
    let old ← getS (readBar p)
    barUpdate p old 1 0
    let h ← getH
    forEach (relsNow h 2 p.scope) fun r => modM (addBarRelease p r)
    modM (barWords p (relsNow h 2 p.scope))
    takeFences
    noteAcquire (← getS (barReleases p))
    newRegion
    setX d (BitVec.ofNat 64 old.gen) 0
    pure .seq) s

/-- What a satisfied BARWAIT or BARTEST leaves (R187, R192). -/
def barPassed (p : BarPlace) : M Unit := do
  unprotect
  let rels ← getS (barReleases p)
  acquireRels rels p.scope
  noteAcquire rels
  if p = .group then modH fun h => { h with remote := false }
  newRegion

/-- The wait of BARWAIT. -/
def barwaitBody (c b : Reg) : M Flow := do
  raceReports fun _ => true
  planishGate
  acquireGate
  let o ← barAddress b true true [c]
  let g ← steerX c
  let acc := barAccess true false
  let p ← barPlace o acc
  unprotect
  if (← getS (readBar p)).gen = bitsAt g 0 8 then waitFor (.barwait c b) (some 0)
  barRace p acc
  barPassed p
  pure .seq

/-- BARWAIT (R343). -/
def execBarwait (c b : Reg) (s : State) : Host.Outcome State Fault Refusal :=
  runUnit (do unitStart false; barwaitBody c b) s

/-- BARWAIT_RETURN (R191): the waiting BARWAIT looks at the generation again. -/
def execBarwaitReturn (s : State) : Host.Outcome State Fault Refusal :=
  match s.hart.status, s.hart.wait with
  | .running, .barwait c b => resumeUnit (barwaitBody c b) s
  | _, _ => .next s

/-- BARTEST (R343): an acquire where it writes 1. -/
def execBartest (c b d : Reg) (s : State) : Host.Outcome State Fault Refusal :=
  runUnit (do
    unitStart false
    planishGate
    destX d
    let o ← barAddress b true true [c]
    let g ← steerX c
    let acc := barAccess true false
    let p ← barPlace o acc
    let past := (← getS (readBar p)).gen ≠ bitsAt g 0 8
    if past then
      raceReports fun _ => true
      acquireGate
    barRace p acc
    if past then barPassed p
    setX d (flag past) 0
    pure .seq) s

/-! ### CPY (R193 to R196) -/

/-- A run of `n` bytes cut into the pages it touches. -/
def copyPages (va : DWord) (n : Nat) : List (DWord × Nat) :=
  let a := va.toNat
  if n = 0 then []
  else (fromTo (a / 65536) ((a + n - 1) / 65536 + 1)).map fun p =>
    let lo := max a (p * 65536)
    (BitVec.ofNat 64 lo, min (a + n) ((p + 1) * 65536) - lo)

/-- The checks of the pages from number `p` on: each run's address and physical address. A trap names the run's first byte
(R194). -/
def pageChecks (a : Access) (p : Nat) (l : List (DWord × Nat)) : M (List (DWord × Nat × Nat)) :=
  foldL (fun r c => do
    let acc : Access := { a with ves := p + r.length, whole := true }
    let pa ← translate acc c.1
    bankCheck acc c.1 pa c.2
    pure (r ++ [(c.1, pa, c.2)])) [] l

/-- The bytes of the source, each with its word's mark, as reads of the issuing region (R195). -/
def copySource (runs : List (DWord × Nat × Nat)) : M (List (Byte × Mark)) :=
  foldL (fun r c => do
    raceCheck { loadAcc .any with queue := queueCopy } c.1 c.2.1 c.2.2
    forEach (wordsOf c.2.1 c.2.2) fun w => modM (findError w)
    let l ← getS fun s => (fromTo c.2.1 (c.2.1 + c.2.2)).map fun a => (viewByte s a, viewMark s a 1)
    pure (r ++ l)) [] runs

/-- The side of a copy. -/
def CopyJob.side (j : CopyJob) : Side := ⟨j.assay, j.task, j.copy⟩

/-- A write of the copy engine to a word: a conflict that comes later is reported to the issuing hart, deferred (R196,
R235). -/
def copyRace (j : CopyJob) (va : DWord) (w : Nat) (ord : Bool) (s : State) : State :=
  if !raceChecked w then s
  else
    let key := j.side.home w
    let rs := (conflicts s key j.owner j.clock true ord none).map fun a => (⟨j.unit, va, a.hartid, j.kind⟩ : RaceReport)
    let s := if partyRd s j.owner then modParty j.owner (fun h => { h with races := h.races ++ rs }) s else s
    recordAccess ⟨key, j.party, j.owner, j.hartid.setWidth 64, 1, true, ord, false, va, j.unit, none, j.kind⟩ s

/-- A write of the copy engine: one to a window that has been unmapped is lost, with the fabric class set in the issuing hart's CIR
(R211). -/
def CopyJob.reaches (j : CopyJob) (pa : Nat) (f : State → State) (s : State) : State :=
  if physMapped s pa then f s else modParty j.owner (fun h => { h with tr := { h.tr with cir := h.tr.cir ||| 16 } }) s

/-- The bytes of one destination word written. What the issuing hart has read ahead of them is dropped (R237). -/
def copyWord (j : CopyJob) (va : DWord) (data : List (Nat × Byte × Mark)) (s : State) : State :=
  match data with
  | [] => s
  | (a, _, _) :: _ => j.reaches a (fun s =>
    let s := copyRace j va (a / 4 * 4) true s
    let s := commitSide j.side a va (data.map (·.2.1)) (data.foldl (fun m b => m ||| b.2.2) 0) s
    modParty j.owner (dropAhead a data.length) (setRels (j.side.home a) data.length [] s)) s

/-- The destination bytes with their physical and virtual addresses, word by word. -/
def CopyJob.words (j : CopyJob) : List (DWord × List (Nat × Byte × Mark)) :=
  let places := j.dst.flatMap fun r => fromTo r.1 (r.1 + r.2)
  let bytes := (places.zip j.data).zipIdx.map fun x => (x.2, x.1.1, x.1.2)
  let cut := bytes.foldr (fun x acc => match acc with
    | (va, y :: ys) :: rest =>
      if x.2.1 / 4 = y.1 / 4 ∧ x.2.1 + 1 = y.1 then (va - 1, (x.2.1, x.2.2) :: y :: ys) :: rest
      else (j.dstVa + BitVec.ofNat 64 x.1, [(x.2.1, x.2.2)]) :: (va, y :: ys) :: rest
    | acc => (j.dstVa + BitVec.ofNat 64 x.1, [(x.2.1, x.2.2)]) :: acc) []
  cut

/-- The decrement of a dependence counter (R193, R249), an operation of Bellows at its home: a record that has none left
becomes ready. `clock` is what the CPY.DEP follows, `r` its release. -/
def decrementDep (pa : Nat) (clock : List (Nat × Nat)) (r : Release) (s : State) : State :=
  let p := engineParty s
  let s := engineAccess p codeBellows (joinClock clock r.clock) pa 4 true { s with free := s.free + 1 }
  let v := memNat s.mem pa 4
  if v = 0 then logBlack 0 0x0B 0xFFFF (BitVec.ofNat 128 pa) s
  else
    let r := { r with clock := putKey p 1 r.clock }
    let s := joinRels pa 4 [r] (performStore pa (leBytes 4 (v - 1)) (wordMark s pa) s)
    let s := noteRecord pa r s
    if v = 1 then
      { s with tasks := s.tasks.map fun t => if t.depc = pa ∧ t.state = .waiting then { t with state := .ready } else t }
    else s

/-- The release of a copy's bytes at a scope. -/
def CopyJob.release (j : CopyJob) (scope : Nat) : Release := ⟨j.hartid.toNat / 4, scope, [(j.party, 1)]⟩

/-- The barrier update of CPY.BAR (R191, R193): a value computed from a poisoned object is poisoned (R307). -/
def copyBar (j : CopyJob) (pa : Nat) (va : DWord) (s : State) : State :=
  let ws := wordsOf pa 16
  let s := ws.foldl (fun s w => findErrorBy (j.hartid.toNat / 256) (j.hartid.setWidth 16) w (copyRace j (wordVa va pa w) w false s)) s
  let m := ws.foldl (fun m w => m ||| homeMark s j.side w) 0
  let o := barOf (leNat ((fromTo pa (pa + 16)).map (homeByte s j.side)))
  let (o', sat) := o.update 0 j.count
  let s := commitSide j.side pa va (leBytes 16 o'.bits) m s
  let r := j.release (BarPlace.mem pa va).scope
  let s := joinRels (j.side.home pa) 16 [r] { s with objRels := (barKey (j.side.home pa), r) :: s.objRels }
  if sat then logBlack (j.hartid.toNat / 256) 0x0F 0xFFFF (va.setWidth 128) s else s

/-- The release of a CPY.DEP's decrement: that of the copied bytes (R193). DEDUCED (log 115): with it go the completions of tasks that
the issuing hart had acquired before the copy, as R242 orders them towards a hart that decrements, and none of the issuer's own
stores. -/
def CopyJob.depRelease (j : CopyJob) (s : State) : Release :=
  let known := fun (t : Task) => t.state = .over && (relClock t.finRel).all fun p => p.2 ≤ clockOf j.clock p.1
  let r := j.release 3
  { r with clock := (s.tasks.filter known).foldl (fun c t => joinClock c (relClock t.finRel)) r.clock }

/-- The completion action of a copy (Table 9.5). -/
def copyEnd (j : CopyJob) (s : State) : State :=
  match j.fin with
  | .bar pa va => j.reaches pa (copyBar j pa va) s
  | .dep pa => j.reaches pa (decrementDep pa j.clock (j.depRelease s)) s
  | .nothing =>
    let s := modParty j.owner (fun h => { h with copyDone := (j.party, 1) :: h.copyDone }) s
    modTask j.task (fun t => { t with finRel := j.release 4 :: t.finRel }) s

/-- A copy is done: its bytes stand at the destination and its completion action is taken. -/
def finishCopy (j : CopyJob) (s : State) : State := copyEnd j (j.words.foldl (fun s w => copyWord j w.1 w.2 s) s)

/-- The target checks of R194, and how the copy ends: write access alone is checked. -/
def copyTarget (f : Nat) (t : DWord) : M CopyEnd := do
  let acc : Access := ⟨false, true, .any, .sync, none, true, queueCopy⟩
  match f with
  | 0 =>
    if t = 0 then raise causeAccess t
    needAligned t 16
    let pa ← translate acc t
    bankCheck acc t pa 16
    pure (.bar pa t)
  | 1 =>
    needAligned t 64
    if (← getH).assay then raise causeAccess t
    let pa ← translate acc (t + 0x30)
    bankCheck acc (t + 0x30) pa 4
    pure (.dep pa)
  | _ => pure .nothing

/-- CPY.BAR, CPY.DEP and CPY: everything is checked at issue (R194). -/
def cpy (f : Nat) (a : Reg) : M Flow := do
  unitStart false
  planishGate
  -- plain CPY does not look at x[A+3] (Table 9.5)
  steerLook ([a, a + 1, a + 2] ++ if f = 2 then [] else [a + 3])
  let d ← steerX a
  let src ← steerX (a + 1)
  let n ← steerX (a + 2)
  let t ← if f = 2 then pure 0 else steerX (a + 3)
  if 0xFFFFFFFF < n.toNat then raise causeAccess src
  let fin ← copyTarget f t
  let k := n.toNat
  if k ≠ 0 && decide (src.toNat < d.toNat + k ∧ d.toNat < src.toNat + k) then raise causeAccess d
  let sp := copyPages src k
  let sruns ← pageChecks (loadAcc .any) 0 sp
  let druns ← pageChecks (storeAcc .any) sp.length (copyPages d k)
  let h ← getH
  if 16 ≤ (← getS fun s => (s.copies.filter fun c => h.owns c.task c.lhart && c.copy = h.copy).length) then waitFor .retry (some 0)
  unprotect
  let data ← copySource sruns
  let h ← getH
  modM fun s =>
    let job : CopyJob :=
      { task := h.taskNo, lhart := h.tr.lhart.toNat, copy := h.copy, assay := h.assay, asid := h.sr.asid, hartid := h.hartid
        data := data, dst := druns.map (·.2), srcVa := src, dstVa := d, count := k, fin := fin
        party := engineParty s, owner := h.party, clock := h.snapshot, unit := h.pc, kind := queueCopy }
    let s := { s with free := s.free + 1 }
    if k = 0 then finishCopy job s else { s with copies := s.copies ++ [job] }
  pure .seq

/-- CPY.BAR (R355). -/
def execCpyBar (a : Reg) (s : State) := runUnit (cpy 0 a) s
/-- CPY.DEP (R355). -/
def execCpyDep (a : Reg) (s : State) := runUnit (cpy 1 a) s
/-- CPY (R355). -/
def execCpy (a : Reg) (s : State) := runUnit (cpy 2 a) s

/-- COPY_COMPLETE (R193, R196): a copy of the copy queues completes. -/
def execCopyComplete (n : Nat) (s : State) : Host.Outcome State Fault Refusal :=
  match s.copies[n]? with
  | none => .next s
  | some j => .next (finishCopy j { s with copies := s.copies.eraseIdx n })

/-! ### STRM (R197 to R202) -/

/-- STRM with a descriptor: binds or replaces. DESIGN CHOICE (log 98): the descriptor is reached as a single access (the third row of
Table 9.2). -/
def strmBind (out vec : Bool) (b a : Reg) : M Flow := do
  unitStart false
  steerLook [b] (lookStruct b 64 0 64)
  let x ← steerX b
  needAligned x 64
  let v ← loadStruct (loadAcc .single) x 64
  let f := fun lo n => BitVec.ofNat n (v / 2 ^ (8 * lo))
  let base : DWord := f 0x00 64
  let s0 : DWord := f 0x08 64
  let s1 : DWord := f 0x10 64
  let s2 : DWord := f 0x18 64
  let last : BitVec 32 := f 0x2C 32
  let sz := last.extractLsb' 0 2
  if [base, s0, s1, s2].any fun y => y.toNat % 2 ^ sz.toNat ≠ 0 then raise causeMisaligned x
  let h ← getH
  let bound := (streamOf h vec a).isSome
  if !bound && 8 ≤ h.streams.length then streamTrap
  if vec then needFull a
  let st : StreamB :=
    { reg := a, vec := vec, out := out, base := base, s0 := s0, s1 := s1, s2 := s2
      n0 := f 0x20 32, n1 := f 0x24 32, n2 := f 0x28 32, zext := last.getLsbD 2, sz := sz
      pos := 0, used := false, step := 0, clock := h.clock, ahead := [] }
  if !bound then
    if vec then modH fun h => h.zeroBytes (h.phys a.toNat) 0 h.vrs
    else modH fun h => h.setX a.toNat 0 0
  modH fun h => { h with streams := (h.streams.filter fun o => !(o.vec = vec && o.reg = a)) ++ [st] }
  pure .seq

/-- STRM.OFF and STRM.VOFF. -/
def strmOff (vec : Bool) (a : Reg) : M Flow := do
  unitStart false
  modH fun h => { h with streams := h.streams.filter fun o => !(o.vec = vec && o.reg = a) }
  pure .seq

/-- STRM (R431). -/
def execStrm (b a : Reg) (s : State) := runUnit (strmBind false false b a) s
/-- STRM.O (R431). -/
def execStrmO (b a : Reg) (s : State) := runUnit (strmBind true false b a) s
/-- STRM.V (R431). -/
def execStrmV (b a : Reg) (s : State) := runUnit (strmBind false true b a) s
/-- STRM.VO (R431). -/
def execStrmVo (b a : Reg) (s : State) := runUnit (strmBind true true b a) s
/-- STRM.OFF (R431). -/
def execStrmOff (a : Reg) (s : State) := runUnit (strmOff false a) s
/-- STRM.VOFF (R431). -/
def execStrmVoff (a : Reg) (s : State) := runUnit (strmOff true a) s

/-- One element read ahead for the stream at index `k`, up to 512 bytes ahead; a fault leaves it to the pop (R201, R202). -/
def refill (k : Nat) : M Unit := do
  let h ← getH
  match h.streams[k]? with
  | none => pure ()
  | some b =>
    let i := b.ahead.length
    if !b.out && b.pos + i < b.len && (i + 1) * 2 ^ b.sz.toNat ≤ 512 then
      let acc := { loadAcc .single with order := .unchecked }
      let va := b.addr (b.pos + i)
      let pa ← translate acc va
      raceCheck acc va pa (2 ^ b.sz.toNat)
      let (bs, m) ← readPhys pa (2 ^ b.sz.toNat)
      modH fun h => { h with streams := h.streams.set k { b with ahead := b.ahead ++ [(pa, leNat bs, m)] } }

/-- STREAM_REFILL (R202). -/
def execStreamRefill (k : Nat) (s : State) : Host.Outcome State Fault Refusal :=
  match refill k s with
  | .ok _ s' => .next s'
  | .error _ _ => .next s

/-! ### Circular buffers (R203, R204) -/

/-- A control block as an instruction finds it. -/
structure CbBlock where
  pa    : Nat
  va    : DWord
  n     : Nat
  nslot : Nat
  rpos  : Nat
  free  : Nat
  apos  : Nat
  fill  : Nat
deriving DecidableEq, Repr

/-- The control block and the slot count of an instruction, with the checks of R204. -/
def cbBlock (b c : Reg) : M CbBlock := do
  steerLook [b, c] (lookStruct b 16 0 16)
  let o ← steerX b
  let n ← steerX c
  needAligned o 16
  if n = 0 then raise causeAccess o
  let acc : Access := { rmwAcc .control with order := .quiet }
  let pa ← translate acc o
  if !inSram pa then raise causeAccess o
  raceLook acc o pa 16
  let (bs, m) ← readPhys pa 16
  steerCheck m
  let v := leNat bs
  let k : CbBlock := ⟨pa, o, n.toNat, v % 65536, v / 2 ^ 48 % 65536, v / 2 ^ 32 % 65536, v / 2 ^ 80 % 65536, v / 2 ^ 64 % 65536⟩
  if k.nslot < k.n then raise causeAccess o
  pure k

/-- One word of a control block written: its position half and its count half. -/
def cbWrite (k : CbBlock) (off pos count : Nat) : M Unit :=
  modM (commitStore (k.pa + off) (k.va + BitVec.ofNat 64 off) (leBytes 4 (count % 65536 + pos % 65536 * 65536)) 0)

/-- The record of the block's accesses: they never raise the memory-model exception. -/
def cbRace (k : CbBlock) (off : Nat) : M Unit := do
  raceCheck { loadAcc .control with order := .quiet } k.va k.pa 4
  raceCheck { rmwAcc .control with order := .quiet } (k.va + BitVec.ofNat 64 off) (k.pa + off) 4

/-- Is a waiting instruction of the same kind before the hart at the block's home? -/
def cbBehind (s : State) (k : CbBlock) (acq : Bool) : Bool :=
  let line := s.cbWait.filter fun w => w.pa = k.pa && w.acq = acq
  match line with
  | [] => false
  | w :: _ => !w.isOf s.hart

/-- CBRES and CBACQ: the wait in arrival order, then the count taken. -/
def cbTake (acq : Bool) (c b d : Reg) : M Flow := do
  raceReports fun _ => true
  planishGate
  acquireGate
  destX d
  let k ← cbBlock b c
  unprotect
  let have' := if acq then k.fill else k.free
  let h ← getH
  if have' < k.n || (← getS fun s => cbBehind s k acq) then
    modM fun s =>
      if s.cbWait.any fun w => w.pa = k.pa && w.acq = acq && w.isOf h then s
      else { s with cbWait := s.cbWait ++ [⟨k.pa, h.taskNo, h.tr.lhart.toNat, h.copy, acq, k.n⟩] }
    waitFor (if acq then .cbacq c b d else .cbres c b d) (some 0)
  modM (dropWaiters h)
  let off := if acq then 8 else 4
  cbRace k off
  let rels ← getS fun s => relsOf s (k.pa + off) 4
  let pos := if acq then k.apos else k.rpos
  cbWrite k off ((pos + k.n) % k.nslot) (have' - k.n)
  modM (joinRels (k.pa + off) 4 (fencesNow h))
  takeFences
  acquireRels rels 2
  noteAcquire rels
  newRegion
  setX d (BitVec.ofNat 64 pos) 0
  pure .seq

/-- CBCOM and CBREL: the count given back, as a release. -/
def cbGive (com : Bool) (c b : Reg) : M Flow := do
  raceReports fun _ => true
  planishGate
  releaseGate
  let k ← cbBlock b c
  let have' := if com then k.fill else k.free
  if k.nslot < have' + k.n then raise causeAccess k.va
  unprotect
  let off := if com then 8 else 4
  cbRace k off
  let h ← getH
  cbWrite k off (if com then k.apos else k.rpos) (have' + k.n)
  let rels ← getS fun s => relsOf s (k.pa + off) 4
  modM (joinRels (k.pa + off) 4 (relsNow h 2 2))
  takeFences
  noteAcquire rels
  newRegion
  pure .seq

/-- CBRES (R350). -/
def execCbres (c b d : Reg) (s : State) := runUnit (do unitStart false; cbTake false c b d) s
/-- CBACQ (R350). -/
def execCbacq (c b d : Reg) (s : State) := runUnit (do unitStart false; cbTake true c b d) s
/-- CBCOM (R350). -/
def execCbcom (c b : Reg) (s : State) := runUnit (do unitStart false; cbGive true c b) s
/-- CBREL (R350). -/
def execCbrel (c b : Reg) (s : State) := runUnit (do unitStart false; cbGive false c b) s

/-- A hart that no longer waits at a control block, as after a trap there, has left the line (R204). -/
def leaveLine (h : Hart) (o : Host.Outcome State Fault Refusal) : Host.Outcome State Fault Refusal :=
  match o with
  | .next s => match s.hart.wait with
    | .cbres _ _ _ => .next s
    | .cbacq _ _ _ => .next s
    | _ => .next (dropWaiters h s)
  | o => o

/-- CB_WAIT_SATISFIED (R204): the waiting CBRES or CBACQ looks at the block again. -/
def execCbWaitSatisfied (s : State) : Host.Outcome State Fault Refusal :=
  match s.hart.status, s.hart.wait with
  | .running, .cbres c b d => leaveLine s.hart (resumeUnit (cbTake false c b d) s)
  | .running, .cbacq c b d => leaveLine s.hart (resumeUnit (cbTake true c b d) s)
  | _, _ => .next s

end Sys2Proof.Machine
end

