-- ==== Sys2Proof/Machine/Blocks.lean ====
section
/-!
DEFINITION. The BX block formats: layout and value (R96, R97), conversion out of a block and into one (R98, R99).
-/

namespace Sys2Proof.Machine

/-- The mantissa width of a BX format code (Table 4.5). -/
def bxWidth (fmt : Nat) : Nat := if fmt = 7 then 7 else if fmt = 8 then 4 else 2

/-- The block size of a BX format code in bytes (Table 4.5). -/
def bxBytes (fmt : Nat) : Nat := if fmt = 7 then 18 else if fmt = 8 then 12 else 8

/-- The value of element `i` of a block (R97): −0 enters arithmetic as +0, a NaN block is quiet. -/
def bxValue (fmt block i : Nat) : FVal :=
  let w := bxWidth fmt
  let e := block % 256
  if e = 255 then .nan false
  else
    let mu := block / 2 ^ (8 + i / 2) % 2
    let code := block / 2 ^ (16 + (w + 1) * i) % 2 ^ (w + 1)
    let m := code % 2 ^ w
    .num (code / 2 ^ w = 1 && m ≠ 0) m ((e : Int) - 127 - mu - (w - 1))

/-- The sign bit of a source element. -/
def signBit : FVal → Bool
  | .inf s => s
  | .num s _ _ => s
  | .nan _ => false

/-- Does the magnitude of a value, over a step of 2^q, round by RNE to at most `top`? -/
def fitsStep (top : Nat) (v : FVal) (q : Int) : Bool :=
  match v with
  | .num _ m e => m = 0 || (roundAt .rne false m e q).1 ≤ top
  | _ => false

/-- The larger magnitude of two values. -/
def largerMag (a b : FVal) : FVal :=
  match a, b with
  | .num _ m e, .num _ n d =>
    let lo := min e d
    if m * 2 ^ (e - lo).toNat < n * 2 ^ (d - lo).toNat then b else a
  | .num _ _ _, _ => b
  | _, _ => a

/-- The magnitude of one element at a step of 2^q in a mode, and its flags: saturation raises OF and NX (R99). -/
def bxElem (rm : RMode) (top : Nat) (v : FVal) (q : Int) : Nat × FpFlags :=
  match v with
  | .num s m e =>
    if m = 0 then (0, 0)
    else
      let (n, inexact) := roundAt rm s m e q
      if top < n then (top, flagOF ||| flagNX) else (n, if inexact then flagNX else 0)
  | _ => (top, flagOF ||| flagNX)

/-- Conversion of 16 values into one block (R99): the block's bits and the flags. -/
def bxPack (fmt : Nat) (rm : RMode) (vs : List FVal) : Nat × FpFlags :=
  if vs.any isNan then (255, vs.foldl (fun f v => f ||| signals v) 0)
  else
    let w := bxWidth fmt
    let top := 2 ^ w - 1
    let big := vs.foldl largerMag (.num false 0 0)
    let step0 := fun (e : Nat) => (e : Int) - 127 - (w - 1)
    let e := ((upTo 255).find? fun e => fitsStep top big (step0 e)).getD 254
    let pair := fun i => largerMag ((vs[2 * i]?).getD (.num false 0 0)) ((vs[2 * i + 1]?).getD (.num false 0 0))
    let mu := fun i => fitsStep top (pair i) (step0 e - 1)
    (upTo 16).foldl (fun (r : Nat × FpFlags) k =>
      let v := (vs[k]?).getD (.num false 0 0)
      let (m, fl) := bxElem rm top v (if mu (k / 2) then step0 e - 1 else step0 e)
      let code := m + (if signBit v then 2 ^ w else 0)
      (r.1 + code * 2 ^ (16 + (w + 1) * k), r.2 ||| fl))
      (e + (upTo 8).foldl (fun n i => if mu i then n + 2 ^ (8 + i) else n) 0, 0)

/-- A value as an IEEE format (R95, R98). -/
def valToFloat (f : FFmt) (rm : RMode) (v : FVal) : Nat × FpFlags :=
  match v with
  | .nan q => (f.nan, signals (.nan q))
  | .inf s => (f.inf s, 0)
  | .num s m e => if m = 0 then (f.zero s, 0) else roundDyadic f rm s m e

/-- A value as a signed integer of `w` bits (R95). -/
def valToInt (rm : RMode) (w : Nat) (v : FVal) : Nat × FpFlags :=
  let top : Int := (2 ^ (w - 1) : Nat)
  let r : Int × FpFlags := match v with
    | .nan _ => (0, flagNV)
    | .inf s => (if s then -top else top - 1, flagNV)
    | .num s m e =>
      if m = 0 then (0, 0)
      else
        let (n, inexact) := roundToNat rm s m e
        let x := signedMag s n
        if x > top - 1 then (top - 1, flagNV)
        else if x < -top then (-top, flagNV)
        else (x, if inexact then flagNX else 0)
  (truncTo w r.1, r.2)

/-- An E8M0 scale (R100): none for the NaN code, else the exponent. -/
def scaleExp (e : Nat) : Option Int := if e % 256 = 255 then none else some ((e % 256 : Nat) - 127)

/-- acc + partial × 2^a × 2^b, exact and rounded once into FP32 (R104). DEDUCED (log 112): a scale of 0xFF gives the result of R104
and raises no flag, whatever the other operands are. -/
def scaledAdd (rm : RMode) (acc part ea eb : Nat) : Nat × FpFlags :=
  match scaleExp ea, scaleExp eb with
  | some a, some b =>
    let p := match unpack fp32 part with
      | .num s m e => .num s m (e + a + b)
      | v => v
    fAddVal fp32 rm (unpack fp32 acc) p
  | _, _ => (fp32.nan, 0)

end Sys2Proof.Machine
end

