-- ==== Sys2Proof/Machine/Vector.lean ====
section
/-!
DEFINITION. The vector integer, floating-point, conversion, element-move and mask instructions (R130 to R143, and their
reference entries).
-/

namespace Sys2Proof.Machine

/-! ### Formats -/

/-- INT8 to INT64. -/
def fmtInts : Nat → Bool := fun f => f ≤ 3
/-- INT8 to INT32. -/
def fmtNarrow : Nat → Bool := fun f => f ≤ 2
/-- BF16, FP32, FP64. -/
def fmtFloats : Nat → Bool := fmtIsFloat
/-- Every format but the BX ones. -/
def fmtNumbers : Nat → Bool := fun f => f ≤ 6
/-- Every format. -/
def fmtAny : Nat → Bool := fun _ => true

/-- VT.FMT, or the illegal-instruction trap where the class does not accept it (R130). -/
def vecFmt (ok : Nat → Bool) : M Nat := do
  let h ← getH
  if ok h.fmt then pure h.fmt else illegal

/-- The x operand of a .VX form, read once and truncated to the element width (R132). -/
def scalarElem (s : Reg) (w : Nat) : M (Nat × Mark) := do
  let (x, m) ← srcX s
  pure (x.toNat % 2 ^ w, m)

/-- The active elements below vl, ascending. -/
def VCtx.actives (c : VCtx) : List Nat := (upTo c.vl).filter c.active

/-! ### Skeletons -/

/-- An element-wise instruction of two vector sources. -/
def vecBin (ok : Nat → Bool) (p m : BitVec 1) (s t d : Reg) (f : Nat → Nat → Nat → Nat) : M Flow := do
  unitStart false
  let fmt ← vecFmt ok
  rechecked d (do
    let w := fmtWidth fmt
    let c ← vecCtx p m
    let a ← srcV t w c.vl
    let b ← srcV s w c.vl
    elementwise c d w fun e => do
      let (x, mx) ← takeElem a w e
      let (y, my) ← takeElem b w e
      pure (f w x y, mx ||| my))

/-- An element-wise instruction of a vector source and a scalar. -/
def vecBinX (ok : Nat → Bool) (p m : BitVec 1) (s t d : Reg) (f : Nat → Nat → Nat → Nat) : M Flow := do
  unitStart false
  let fmt ← vecFmt ok
  rechecked d (do
    let w := fmtWidth fmt
    let c ← vecCtx p m
    let (y, my) ← scalarElem s w
    let a ← srcV t w c.vl
    elementwise c d w fun e => do
      let (x, mx) ← takeElem a w e
      pure (f w x y, mx ||| my))

/-- An element-wise instruction of one vector source. -/
def vecUn (ok : Nat → Bool) (p m : BitVec 1) (t d : Reg) (f : Nat → Nat → Nat) : M Flow := do
  unitStart false
  let fmt ← vecFmt ok
  rechecked d (do
    let w := fmtWidth fmt
    let c ← vecCtx p m
    let a ← srcV t w c.vl
    elementwise c d w fun e => do
      let (x, mx) ← takeElem a w e
      pure (f w x, mx))

/-- The fourth operand: the PFX.V D register, or the destination itself (R75). -/
def Hart.dReg (h : Hart) (d : Reg) : Reg :=
  match h.pfx with
  | .v _ _ _ dv r _ _ => if dv then r else d
  | _ => d

/-- The fourth operand's elements, before any is written. A bound destination may not be read: an input stream's is written,
an output stream's read (R201). -/
def srcD (d : Reg) (w n : Nat) : M (VBits × VBits) := do
  let h ← getH
  if h.dReg d = d then do
    needFull d
    if (streamOf h true d).isSome then streamTrap
    let i := h.issued
    pure (i.vreg (i.phys d.toNat), i.vmark (i.phys d.toNat))
  else srcV (h.dReg d) w n

/-- A widening instruction (R135, R438): the element function takes a, b and d; `useD` says that it reads d. -/
def vecWiden (useD : Bool) (p m : BitVec 1) (s : Nat → Nat → M ((Nat → M (Nat × Mark)))) (t d : Reg)
    (f : Nat → Nat → Nat → Nat → Nat) : M Flow := do
  unitStart false
  let fmt ← vecFmt fmtNarrow
  rechecked d (do
    let w := fmtWidth fmt
    let h ← getH
    let c0 ← vecCtx p m
    let c := { c0 with vl := min c0.vl (h.vlmaxW (2 * w)) }
    let b ← s w c0.vl
    let a ← srcV t w c0.vl
    let o ← if useD then srcD d (2 * w) c0.vl else pure (0, 0)
    wholeElems c d (2 * w) fun e => do
      let (x, mx) ← takeElem a w e
      let (y, my) ← b e
      let (z, mz) ← if useD then takeElem o (2 * w) e else pure (0, 0)
      pure (f w x y z, mx ||| my ||| mz))

/-- The second operand of a widening instruction from a vector register. -/
def widenV (s : Reg) (w n : Nat) : M (Nat → M (Nat × Mark)) := do
  let b ← srcV s w n
  pure fun e => takeElem b w e

/-- The second operand of a widening instruction from a scalar register. -/
def widenX (s : Reg) (w _n : Nat) : M (Nat → M (Nat × Mark)) := do
  let y ← scalarElem s w
  pure fun _ => pure y

/-! ### Integer element operations (Table 6.3) -/

/-- ADDS.V: the exact signed sum clamped to the width. -/
def elemAdds (w x y : Nat) : Nat :=
  let v := signedOf w x + signedOf w y
  let top : Int := (2 ^ (w - 1) : Nat)
  truncTo w (if v > top - 1 then top - 1 else if v < -top then -top else v)

/-- SRA.V. -/
def elemSra (w x y : Nat) : Nat := truncTo w (signedOf w x / 2 ^ (y % w))

/-- Signed order of two elements. -/
def elemLess (w x y : Nat) : Bool := signedOf w x < signedOf w y


/-- The element operation of ADD.V and ADD.VX. -/
def elemAddOp : Nat → Nat → Nat → Nat := fun w x y => (x + y) % 2 ^ w
/-- ADD.V (R335). -/
def execAddV (p m : BitVec 1) (s t d : Reg) (st : State) := runUnit (vecBin fmtInts p m s t d elemAddOp) st
/-- ADD.VX (R335). -/
def execAddVx (p m : BitVec 1) (s t d : Reg) (st : State) := runUnit (vecBinX fmtInts p m s t d elemAddOp) st

/-- The element operation of SUB.V and SUB.VX. -/
def elemSubOp : Nat → Nat → Nat → Nat := fun w x y => (x + 2 ^ w - y) % 2 ^ w
/-- SUB.V (R432). -/
def execSubV (p m : BitVec 1) (s t d : Reg) (st : State) := runUnit (vecBin fmtInts p m s t d elemSubOp) st
/-- SUB.VX (R432). -/
def execSubVx (p m : BitVec 1) (s t d : Reg) (st : State) := runUnit (vecBinX fmtInts p m s t d elemSubOp) st

/-- The element operation of ADDS.V and ADDS.VX. -/
def elemAddsOp : Nat → Nat → Nat → Nat := fun w x y => elemAdds w x y
/-- ADDS.V (R337). -/
def execAddsV (p m : BitVec 1) (s t d : Reg) (st : State) := runUnit (vecBin fmtInts p m s t d elemAddsOp) st
/-- ADDS.VX (R337). -/
def execAddsVx (p m : BitVec 1) (s t d : Reg) (st : State) := runUnit (vecBinX fmtInts p m s t d elemAddsOp) st

/-- The element operation of AND.V and AND.VX. -/
def elemAndOp : Nat → Nat → Nat → Nat := fun _ x y => x &&& y
/-- AND.V (R342). -/
def execAndV (p m : BitVec 1) (s t d : Reg) (st : State) := runUnit (vecBin fmtAny p m s t d elemAndOp) st
/-- AND.VX (R342). -/
def execAndVx (p m : BitVec 1) (s t d : Reg) (st : State) := runUnit (vecBinX fmtAny p m s t d elemAndOp) st

/-- The element operation of OR.V and OR.VX. -/
def elemOrOp : Nat → Nat → Nat → Nat := fun _ x y => x ||| y
/-- OR.V (R404). -/
def execOrV (p m : BitVec 1) (s t d : Reg) (st : State) := runUnit (vecBin fmtAny p m s t d elemOrOp) st
/-- OR.VX (R404). -/
def execOrVx (p m : BitVec 1) (s t d : Reg) (st : State) := runUnit (vecBinX fmtAny p m s t d elemOrOp) st

/-- The element operation of XOR.V and XOR.VX. -/
def elemXorOp : Nat → Nat → Nat → Nat := fun _ x y => x ^^^ y
/-- XOR.V (R442). -/
def execXorV (p m : BitVec 1) (s t d : Reg) (st : State) := runUnit (vecBin fmtAny p m s t d elemXorOp) st
/-- XOR.VX (R442). -/
def execXorVx (p m : BitVec 1) (s t d : Reg) (st : State) := runUnit (vecBinX fmtAny p m s t d elemXorOp) st

/-- The element operation of SHL.V and SHL.VX. -/
def elemShlOp : Nat → Nat → Nat → Nat := fun w x y => x * 2 ^ (y % w) % 2 ^ w
/-- SHL.V (R422). -/
def execShlV (p m : BitVec 1) (s t d : Reg) (st : State) := runUnit (vecBin fmtAny p m s t d elemShlOp) st
/-- SHL.VX (R422). -/
def execShlVx (p m : BitVec 1) (s t d : Reg) (st : State) := runUnit (vecBinX fmtAny p m s t d elemShlOp) st

/-- The element operation of SHR.V and SHR.VX. -/
def elemShrOp : Nat → Nat → Nat → Nat := fun w x y => x / 2 ^ (y % w)
/-- SHR.V (R422). -/
def execShrV (p m : BitVec 1) (s t d : Reg) (st : State) := runUnit (vecBin fmtAny p m s t d elemShrOp) st
/-- SHR.VX (R422). -/
def execShrVx (p m : BitVec 1) (s t d : Reg) (st : State) := runUnit (vecBinX fmtAny p m s t d elemShrOp) st

/-- The element operation of SRA.V and SRA.VX. -/
def elemSraOp : Nat → Nat → Nat → Nat := fun w x y => elemSra w x y
/-- SRA.V (R422). -/
def execSraV (p m : BitVec 1) (s t d : Reg) (st : State) := runUnit (vecBin fmtAny p m s t d elemSraOp) st
/-- SRA.VX (R422). -/
def execSraVx (p m : BitVec 1) (s t d : Reg) (st : State) := runUnit (vecBinX fmtAny p m s t d elemSraOp) st

/-- The element operation of MIN.V and MIN.VX. -/
def elemMinOp : Nat → Nat → Nat → Nat := fun w x y => if elemLess w x y then x else y
/-- MIN.V (R387). -/
def execMinV (p m : BitVec 1) (s t d : Reg) (st : State) := runUnit (vecBin fmtInts p m s t d elemMinOp) st
/-- MIN.VX (R387). -/
def execMinVx (p m : BitVec 1) (s t d : Reg) (st : State) := runUnit (vecBinX fmtInts p m s t d elemMinOp) st

/-- The element operation of MAX.V and MAX.VX. -/
def elemMaxOp : Nat → Nat → Nat → Nat := fun w x y => if elemLess w x y then y else x
/-- MAX.V (R387). -/
def execMaxV (p m : BitVec 1) (s t d : Reg) (st : State) := runUnit (vecBin fmtInts p m s t d elemMaxOp) st
/-- MAX.VX (R387). -/
def execMaxVx (p m : BitVec 1) (s t d : Reg) (st : State) := runUnit (vecBinX fmtInts p m s t d elemMaxOp) st

/-- The element operation of MINU.V and MINU.VX. -/
def elemMinuOp : Nat → Nat → Nat → Nat := fun _ x y => min x y
/-- MINU.V (R387). -/
def execMinuV (p m : BitVec 1) (s t d : Reg) (st : State) := runUnit (vecBin fmtInts p m s t d elemMinuOp) st
/-- MINU.VX (R387). -/
def execMinuVx (p m : BitVec 1) (s t d : Reg) (st : State) := runUnit (vecBinX fmtInts p m s t d elemMinuOp) st

/-- The element operation of MAXU.V and MAXU.VX. -/
def elemMaxuOp : Nat → Nat → Nat → Nat := fun _ x y => max x y
/-- MAXU.V (R387). -/
def execMaxuV (p m : BitVec 1) (s t d : Reg) (st : State) := runUnit (vecBin fmtInts p m s t d elemMaxuOp) st
/-- MAXU.VX (R387). -/
def execMaxuVx (p m : BitVec 1) (s t d : Reg) (st : State) := runUnit (vecBinX fmtInts p m s t d elemMaxuOp) st

/-- The element operation of MUL.V and MUL.VX. -/
def elemMulOp : Nat → Nat → Nat → Nat := fun w x y => x * y % 2 ^ w
/-- MUL.V (R398). -/
def execMulV (p m : BitVec 1) (s t d : Reg) (st : State) := runUnit (vecBin fmtInts p m s t d elemMulOp) st
/-- MUL.VX (R398). -/
def execMulVx (p m : BitVec 1) (s t d : Reg) (st : State) := runUnit (vecBinX fmtInts p m s t d elemMulOp) st

/-- The element operation of MULH.V and MULH.VX. -/
def elemMulhOp : Nat → Nat → Nat → Nat := fun w x y => truncTo w (signedOf w x * signedOf w y / 2 ^ w)
/-- MULH.V (R398). -/
def execMulhV (p m : BitVec 1) (s t d : Reg) (st : State) := runUnit (vecBin fmtInts p m s t d elemMulhOp) st
/-- MULH.VX (R398). -/
def execMulhVx (p m : BitVec 1) (s t d : Reg) (st : State) := runUnit (vecBinX fmtInts p m s t d elemMulhOp) st

/-- The element operation of POPC.V: the number of one bits. -/
def elemPopc (w x : Nat) : Nat := popCount w x
/-- The element operation of CLZ.V. -/
def elemClz (w x : Nat) : Nat := leadingZeros w x
/-- POPC.V (R406). -/
def execPopcV (p m : BitVec 1) (t d : Reg) (st : State) := runUnit (vecUn fmtInts p m t d elemPopc) st
/-- CLZ.V (R352). -/
def execClzV (p m : BitVec 1) (t d : Reg) (st : State) := runUnit (vecUn fmtInts p m t d elemClz) st
/-- POPC.VX (R406): counts in v[vs1] AND x[vs2]. -/
def execPopcVx (p m : BitVec 1) (s t d : Reg) (st : State) :=
  runUnit (vecBinX fmtInts p m s t d fun w x y => elemPopc w (x &&& y)) st
/-- CLZ.VX (R352). -/
def execClzVx (p m : BitVec 1) (s t d : Reg) (st : State) :=
  runUnit (vecBinX fmtInts p m s t d fun w x y => elemClz w (x &&& y)) st

/-- The element operation of WMAC.V at width 2w. -/
def elemWmac (w x y z : Nat) : Nat := truncTo (2 * w) ((z : Int) + signedOf w x * signedOf w y)
/-- The element operation of WADD.V at width 2w. -/
def elemWadd (w x y _z : Nat) : Nat := truncTo (2 * w) (signedOf w x + signedOf w y)
/-- WMAC.V (R438). -/
def execWmacV (p m : BitVec 1) (s t d : Reg) (st : State) := runUnit (vecWiden true p m (widenV s) t d elemWmac) st
/-- WADD.V (R438). -/
def execWaddV (p m : BitVec 1) (s t d : Reg) (st : State) := runUnit (vecWiden false p m (widenV s) t d elemWadd) st
/-- WMAC.VX (R438). -/
def execWmacVx (p m : BitVec 1) (s t d : Reg) (st : State) := runUnit (vecWiden true p m (widenX s) t d elemWmac) st
/-- WADD.VX (R438). -/
def execWaddVx (p m : BitVec 1) (s t d : Reg) (st : State) := runUnit (vecWiden false p m (widenX s) t d elemWadd) st

/-! ### Floating-point element operations (Table 6.4) -/

/-- An element-wise FP instruction of two sources; the flags of an element may trap at it (R93). -/
def vecFp (ok : Nat → Bool) (p m : BitVec 1) (s t d : Reg) (f : FFmt → RMode → Nat → Nat → Nat × FpFlags) : M Flow := do
  unitStart false
  let fmt ← vecFmt ok
  rechecked d (do
    let w := fmtWidth fmt
    let h ← getH
    let c ← vecCtx p m
    let a ← srcV t w c.vl
    let b ← srcV s w c.vl
    elementwise c d w fun e => do
      let (x, mx) ← takeElem a w e
      let (y, my) ← takeElem b w e
      let (r, fl) := f (floatFmt fmt) h.rm x y
      fpFlags fl e
      pure (r, mx ||| my))

/-- An element-wise FP instruction of one source. -/
def vecFpUn (ok : Nat → Bool) (p m : BitVec 1) (t d : Reg) (f : FFmt → RMode → Nat → Nat × FpFlags) : M Flow := do
  unitStart false
  let fmt ← vecFmt ok
  rechecked d (do
    let w := fmtWidth fmt
    let h ← getH
    let c ← vecCtx p m
    let a ← srcV t w c.vl
    elementwise c d w fun e => do
      let (x, mx) ← takeElem a w e
      let (r, fl) := f (floatFmt fmt) h.rm x
      fpFlags fl e
      pure (r, mx))

/-- An element-wise FP instruction of two sources and the fourth operand. -/
def vecFp4 (ok : Nat → Bool) (p m : BitVec 1) (s t d : Reg) (f : FFmt → RMode → Nat → Nat → Nat → Nat × FpFlags) : M Flow := do
  unitStart false
  let fmt ← vecFmt ok
  rechecked d (do
    let w := fmtWidth fmt
    let h ← getH
    let c ← vecCtx p m
    let a ← srcV t w c.vl
    let b ← srcV s w c.vl
    let o ← srcD d w c.vl
    elementwise c d w fun e => do
      let (x, mx) ← takeElem a w e
      let (y, my) ← takeElem b w e
      let (z, mz) ← takeElem o w e
      let (r, fl) := f (floatFmt fmt) h.rm x y z
      fpFlags fl e
      pure (r, mx ||| my ||| mz))

/-- FADD.V (R364). -/
def execFaddV (p m : BitVec 1) (s t d : Reg) (st : State) := runUnit (vecFp fmtFloats p m s t d fAdd) st
/-- FSUB.V (R364). -/
def execFsubV (p m : BitVec 1) (s t d : Reg) (st : State) := runUnit (vecFp fmtFloats p m s t d fSub) st
/-- FMUL.V (R364). -/
def execFmulV (p m : BitVec 1) (s t d : Reg) (st : State) := runUnit (vecFp fmtFloats p m s t d fMul) st
/-- FDIV.V (R364). -/
def execFdivV (p m : BitVec 1) (s t d : Reg) (st : State) := runUnit (vecFp fmtFloats p m s t d fDiv) st
/-- FMIN.V (R364). -/
def execFminV (p m : BitVec 1) (s t d : Reg) (st : State) := runUnit (vecFp fmtFloats p m s t d fun f _ => fMinMax f false) st
/-- FMAX.V (R364). -/
def execFmaxV (p m : BitVec 1) (s t d : Reg) (st : State) := runUnit (vecFp fmtFloats p m s t d fun f _ => fMinMax f true) st
/-- FSQRT.V (R364). -/
def execFsqrtV (p m : BitVec 1) (t d : Reg) (st : State) := runUnit (vecFpUn fmtFloats p m t d fSqrt) st
/-- FMA.V (R368). -/
def execFmaV (p m : BitVec 1) (s t d : Reg) (st : State) := runUnit (vecFp4 fmtFloats p m s t d fMa) st
/-- FSPEC.V (R370): BF16 and FP32. -/
def execFspecV (p m : BitVec 1) (f t d : Reg) (st : State) :=
  runUnit (vecFpUn (fun k => k = 4 || k = 5) p m t d fun fmt _ x => fSpec fmt f.toNat x) st
/-- FSGN.V (R369): code 0 clears the sign bit, code 1 inverts it. -/
def execFsgnV (p m : BitVec 1) (f t d : Reg) (st : State) :=
  runUnit (vecUn fmtFloats p m t d fun w x => if f = 0 then x % 2 ^ (w - 1) else x ^^^ 2 ^ (w - 1)) st
/-- SCACC.V (R416): FP32 alone, always in VT.RM. -/
def execScaccV (p m : BitVec 1) (s t d : Reg) (st : State) :=
  runUnit (vecFp4 (fun k => k = 5) p m s t d fun _ rm part sc acc => scaledAdd rm acc part (sc % 256) (sc / 256 % 256)) st

/-! ### Comparisons (R138, R353) -/

/-- A condition of CMP.V on two elements of a format, and its flags. -/
def cmpElem (code fmt x y : Nat) : Bool × FpFlags :=
  if fmtIsInt fmt then
    let w := fmtWidth fmt
    let r := match code with
      | 0 => x = y
      | 1 => x ≠ y
      | 2 => elemLess w x y
      | 3 => !elemLess w y x
      | 4 => elemLess w y x
      | 5 => !elemLess w x y
      | 6 => decide (x < y)
      | _ => decide (x ≤ y)
    (r, 0)
  else
    let c : FCond := match code with
      | 0 => .eq
      | 1 => .ne
      | 2 => .lt
      | 3 => .le
      | 4 => .gt
      | 5 => .ge
      | 6 => .unord
      | _ => .ord
    fCmp (floatFmt fmt) c x y

/-- CMP.V: it has no P bit. -/
def cmpV (code : Nat) (m : BitVec 1) (s t d : Reg) : M Flow := do
  unitStart false
  let fmt ← vecFmt fmtNumbers
  rechecked d (do
    let w := fmtWidth fmt
    let c ← vecCtx 0 m
    let a ← srcV t w c.vl
    let b ← srcV s w c.vl
    maskPass c d fun e => do
      let (x, mx) ← takeElem a w e
      let (y, my) ← takeElem b w e
      let (r, fl) := cmpElem code fmt x y
      fpFlags fl e
      pure (r, mx ||| my))

/-- CMP.V.EQ (R353). -/
def execCmpVEq (m : BitVec 1) (s t d : Reg) (st : State) := runUnit (cmpV 0 m s t d) st
/-- CMP.V.NE (R353). -/
def execCmpVNe (m : BitVec 1) (s t d : Reg) (st : State) := runUnit (cmpV 1 m s t d) st
/-- CMP.V.LT (R353). -/
def execCmpVLt (m : BitVec 1) (s t d : Reg) (st : State) := runUnit (cmpV 2 m s t d) st
/-- CMP.V.LE (R353). -/
def execCmpVLe (m : BitVec 1) (s t d : Reg) (st : State) := runUnit (cmpV 3 m s t d) st
/-- CMP.V.GT (R353). -/
def execCmpVGt (m : BitVec 1) (s t d : Reg) (st : State) := runUnit (cmpV 4 m s t d) st
/-- CMP.V.GE (R353). -/
def execCmpVGe (m : BitVec 1) (s t d : Reg) (st : State) := runUnit (cmpV 5 m s t d) st
/-- CMP.V.LTU (R353), or UNORD on an FP format. -/
def execCmpVLtu (m : BitVec 1) (s t d : Reg) (st : State) := runUnit (cmpV 6 m s t d) st
/-- CMP.V.LEU (R353), or ORD on an FP format. -/
def execCmpVLeu (m : BitVec 1) (s t d : Reg) (st : State) := runUnit (cmpV 7 m s t d) st

/-! ### Conversions (R137, R357) -/

/-- An element of a register as a value: integers are exact, BX elements are those of their block. -/
def sourceVal (fmt : Nat) (v : VBits) (e : Nat) : FVal :=
  if fmtIsInt fmt then
    let x := signedOf (fmtWidth fmt) (elemOf v (fmtWidth fmt) e)
    .num (x < 0) x.natAbs 0
  else if fmtIsFloat fmt then unpack (floatFmt fmt) (elemOf v (fmtWidth fmt) e)
  else bxValue fmt (v.toNat / 2 ^ (8 * bxBytes fmt * (e / 16)) % 2 ^ (8 * bxBytes fmt)) (e % 16)

/-- The mark of an element: of its whole block under a BX format. -/
def sourceMark (fmt : Nat) (mk : VBits) (e : Nat) : Mark :=
  if 7 ≤ fmt then elemMark mk (8 * bxBytes fmt) (e / 16) else elemMark mk (fmtWidth fmt) e

/-- One element converted to a format that is not BX (R95, R98). -/
def convertElem (src dst : Nat) (rm : RMode) (v : VBits) (e : Nat) : Nat × FpFlags :=
  if fmtIsInt src && fmtIsInt dst then
    let x := signedOf (fmtWidth src) (elemOf v (fmtWidth src) e)
    let w := fmtWidth dst
    let top : Int := (2 ^ (w - 1) : Nat)
    (truncTo w (if x > top - 1 then top - 1 else if x < -top then -top else x), 0)
  else if fmtIsInt dst then valToInt rm (fmtWidth dst) (sourceVal src v e)
  else
    match sourceVal src v e with
    | .num s m x => if m = 0 && fmtIsInt src then ((floatFmt dst).zero false, 0) else valToFloat (floatFmt dst) rm (.num s m x)
    | x => valToFloat (floatFmt dst) rm x

/-- A BX block of `n` bytes written, and pushed where the destination is bound. -/
def putBlock (d : Reg) (n b bits : Nat) (mk : Mark) : M Unit := do
  forEach (upTo n) fun i => putElem d 8 (b * n + i) (bits / 256 ^ i % 256) mk
  forEach (upTo n) fun i => pushElem d 8 (b * n + i)

/-- The blocks of a conversion into BX, from the block of VES up (R99, R137). -/
def convertBlocks (src dst : Nat) (rm : RMode) (vl : Nat) (a : VBits × VBits) (d : Reg) (ves : Nat) : M Unit :=
  forEach (fromTo (ves / 16) ((vl + 15) / 16)) fun b => do
    stopHere (16 * b)
    let idx := fromTo (16 * b) (min (16 * b + 16) vl)
    let mk := idx.foldl (fun m e => m ||| sourceMark src a.2 e) 0
    consume mk
    let (bits, fl) := bxPack dst rm (idx.map (sourceVal src a.1))
    fpFlags fl (some (16 * b))
    putBlock d (bxBytes dst) b bits mk

/-- CVT.V. DESIGN CHOICE (log 101): a bound register of a BX format pops or pushes bytes, those of the whole blocks that the vl elements
lie in. -/
def cvtV (dst : Nat) (p m : BitVec 1) (t d : Reg) : M Flow := do
  unitStart false
  let src ← vecFmt fmtAny
  let bx := 7 ≤ src || 7 ≤ dst
  if (7 ≤ src && 7 ≤ dst) || (bx && m = 1) then illegal
  rechecked d (do
    let h ← getH
    let c0 ← vecCtx p m
    let lim := fun f => if 7 ≤ f then 16 * (h.vrs / bxBytes f) else h.vlmaxW (fmtWidth f)
    let c := { c0 with vl := min c0.vl (min (lim src) (lim dst)) }
    let blocks := (c.vl + 15) / 16
    let read := (c0.vl + 15) / 16
    let pace : Pace := if 7 ≤ src then ⟨bxBytes src, 16⟩ else if 7 ≤ dst then ⟨16, 16⟩ else .one
    let a ← srcV t (fmtWidth src) (if 7 ≤ src then read * bxBytes src else c0.vl) pace
    if 7 ≤ dst then do
      destV d 8 (blocks * bxBytes dst) c.ves ⟨bxBytes dst, 16⟩
      keeping (h.phys d.toNat) (convertBlocks src dst h.rm c.vl a d c.ves)
      if c.tz then modH fun h => h.zeroBytes (h.phys d.toNat) (blocks * bxBytes dst) h.vrs
      pushEnd d (blocks * bxBytes dst)
      pure .seq
    else
      let body := fun e => do
        let mk := sourceMark src a.2 e
        consume mk
        let (r, fl) := if src = dst then (elemOf a.1 (fmtWidth src) e, 0) else convertElem src dst h.rm a.1 e
        fpFlags fl e
        pure (r, mk)
      if fmtWidth src = fmtWidth dst && src < 7 then elementwise c d (fmtWidth dst) body
      else wholeElems c d (fmtWidth dst) body)

/-- CVT.V (R357): `f` is the target format's code. -/
def execCvtV (p m : BitVec 1) (f t d : Reg) (st : State) := runUnit (cvtV f.toNat p m t d) st

/-! ### Reductions and scans (R140 to R142) -/

/-- What a reduction reads: element number, bits and mark of every active element, and every bit of the mask. -/
def takeActives (c : VCtx) (a : VBits × VBits) (w : Nat) : M (List (Nat × Nat) × Mark) := do
  consume (c.maskMarks c.vl)
  foldL (fun (r : List (Nat × Nat) × Mark) e => do
    let (x, mx) ← takeElem a w e
    pure (r.1 ++ [(e, x)], r.2 ||| mx)) ([], c.maskMarks c.vl) c.actives

/-- The first element of an ordered or tree sum: a NaN enters as the canonical NaN (R106). -/
def firstLeaf (f : FFmt) (e x : Nat) : M Nat := do
  match unpack f x with
  | .nan q =>
    fpFlags (signals (.nan q)) e
    pure f.nan
  | _ => pure x

/-- The ordered sum (R106), with the running value after each element. -/
def orderedSums (f : FFmt) (rm : RMode) (l : List (Nat × Nat)) : M (List (Nat × Nat)) := do
  match l with
  | [] => pure []
  | (e, x) :: rest => do
    let v ← firstLeaf f e x
    foldL (fun (r : List (Nat × Nat)) p => do
      let (y, fl) := fAdd f rm ((r.getLast?).getD (0, 0)).2 p.2
      fpFlags fl p.1
      pure (r ++ [(p.1, y)])) [(e, v)] rest

/-- A sum over a tree that the device picks (R107): at each step two of the values left are added. DESIGN CHOICE (log 21): a
step that raises an enabled flag traps with VES at the highest element index under the node it adds. -/
def treeSum (f : FFmt) (rm : RMode) : Nat → List (Nat × Nat) → M Nat
  | 0, l => pure ((l.head?).getD (0, 0)).2
  | n + 1, l =>
    match l with
    | [] => pure 0
    | [(e, x)] => firstLeaf f e x
    | _ => do
      let k ← fresh
      let (i, j) := Config.treePick k l.length
      let i := i % l.length
      let rest := l.eraseIdx i
      let j := j % rest.length
      let a := (l[i]?).getD (0, 0)
      let b := (rest[j]?).getD (0, 0)
      let (y, fl) := fAdd f rm a.2 b.2
      let e := max a.1 b.1
      fpFlags fl e
      if rest.length ≤ 1 then pure y else treeSum f rm n ((rest.eraseIdx j) ++ [(e, y)])

/-- The integer sum modulo 2^64 of sign-extended elements. -/
def intSum (w : Nat) (l : List (Nat × Nat)) : Int := l.foldl (fun n p => n + signedOf w p.2) 0

/-- The identity of a maximum or a minimum (Table 6.5). -/
def extremeId (fmt : Nat) (mx : Bool) : Nat :=
  let w := fmtWidth fmt
  if fmtIsInt fmt then (if mx then 2 ^ (w - 1) else 2 ^ (w - 1) - 1) else (floatFmt fmt).inf mx

/-- The extreme of two elements (R94). -/
def extremeOf (fmt : Nat) (mx : Bool) (x y : Nat) : Nat × FpFlags :=
  if fmtIsInt fmt then
    let less := elemLess (fmtWidth fmt) x y
    (if less = mx then y else x, 0)
  else fMinMax (floatFmt fmt) mx x y

/-- The extreme of the active elements: value, and the lowest index that has it, or that of the lowest NaN (R141). -/
def extremeFold (fmt : Nat) (mx : Bool) (l : List (Nat × Nat)) : M (Nat × Option Nat) :=
  foldL (fun (r : Nat × Option Nat) p => do
    let (y, fl) := extremeOf fmt mx r.1 p.2
    fpFlags fl p.1
    let nanIn := fmtIsFloat fmt && isNan (unpack (floatFmt fmt) r.1)
    match r.2 with
    | none => pure (if fmtIsFloat fmt then y else p.2, some p.1)
    | some _ => pure (if y = r.1 || nanIn then r else (y, some p.1))) (extremeId fmt mx, none) l

/-- A reduced value in a scalar register (R140): integers sign-extended, FP bits at the bottom. -/
def reducedX (fmt x : Nat) : DWord := if fmtIsInt fmt then dw (signedOf (fmtWidth fmt) x) else BitVec.ofNat 64 x

/-- A reduction to a scalar (R413). -/
def reduceV (det : Bool) (p m : BitVec 1) (t d : Reg) (f : Nat → RMode → List (Nat × Nat) → M DWord) : M Flow := do
  unitStart det
  let fmt ← vecFmt fmtNumbers
  planishScalar
  destX d
  let w := fmtWidth fmt
  let h ← getH
  let c ← vecCtx p m
  let a ← srcAll t w c.vl
  let (l, mk) ← takeActives c a w
  let r ← f fmt h.rm l
  setX d r mk
  pure .seq

/-- RSUM.V (R413). -/
def execRsumV (p m : BitVec 1) (t d : Reg) (st : State) : Host.Outcome State Fault Refusal :=
  runUnit (reduceV false p m t d fun fmt rm l =>
    if fmtIsInt fmt then pure (dw (intSum (fmtWidth fmt) l))
    else do
      let r ← orderedSums (floatFmt fmt) rm l
      pure (BitVec.ofNat 64 ((r.getLast?).getD (0, 0)).2)) st

/-- RUSUM.V (R413): the deterministic trap under DET, whatever the format. -/
def execRusumV (p m : BitVec 1) (t d : Reg) (st : State) : Host.Outcome State Fault Refusal :=
  runUnit (reduceV true p m t d fun fmt rm l =>
    if fmtIsInt fmt then pure (dw (intSum (fmtWidth fmt) l))
    else do
      let r ← treeSum (floatFmt fmt) rm l.length l
      pure (BitVec.ofNat 64 r)) st

/-- RMAX.V (R413). -/
def execRmaxV (p m : BitVec 1) (t d : Reg) (st : State) : Host.Outcome State Fault Refusal :=
  runUnit (reduceV false p m t d fun fmt _ l => do
    let r ← extremeFold fmt true l
    pure (reducedX fmt r.1)) st

/-- RMIN.V (R413). -/
def execRminV (p m : BitVec 1) (t d : Reg) (st : State) : Host.Outcome State Fault Refusal :=
  runUnit (reduceV false p m t d fun fmt _ l => do
    let r ← extremeFold fmt false l
    pure (reducedX fmt r.1)) st

/-- An extreme with its index (R414): the value first, the index second. -/
def extremeX (mx : Bool) (p m : BitVec 1) (t d : Reg) : M Flow := do
  unitStart false
  let fmt ← vecFmt fmtNumbers
  planishScalar
  destX d
  destX (d + 1)
  let w := fmtWidth fmt
  let c ← vecCtx p m
  let a ← srcAll t w c.vl
  let (l, mk) ← takeActives c a w
  let (v, i) ← extremeFold fmt mx l
  setX d (reducedX fmt v) mk
  setX (d + 1) (match i with
    | some i => BitVec.ofNat 64 i
    | none => -1) mk
  pure .seq

/-- RMAXX.V (R414). -/
def execRmaxxV (p m : BitVec 1) (t d : Reg) (st : State) := runUnit (extremeX true p m t d) st
/-- RMINX.V (R414). -/
def execRminxV (p m : BitVec 1) (t d : Reg) (st : State) := runUnit (extremeX false p m t d) st

/-- A scan (R417): the running values, computed before any is written. -/
def scan (det : Bool) (p m : BitVec 1) (t d : Reg) (f : FFmt → RMode → List (Nat × Nat) → M (List (Nat × Nat))) : M Flow := do
  unitStart det
  let fmt ← vecFmt fmtNumbers
  rechecked d (do
    let w := fmtWidth fmt
    let h ← getH
    let c0 ← vecCtx p m
    let c := { c0 with ves := 0 }
    let a ← srcAll t w c.vl
    let (l, _) ← takeActives c a w
    let sums ← if fmtIsInt fmt then pure ((l.foldl (fun (r : List (Nat × Nat) × Nat) q =>
        let v := (r.2 + q.2) % 2 ^ w
        (r.1 ++ [(q.1, v)], v)) ([], 0)).1)
      else f (floatFmt fmt) h.rm l
    wholeElems c d w fun e => do
      let mk := (c.actives.filter (· ≤ e)).foldl (fun m k => m ||| elemMark a.2 w k) (c.maskMarks e)
      pure ((((sums.find? fun q => q.1 = e)).getD (0, 0)).2, mk))

/-- SCAN.V (R417). -/
def execScanV (p m : BitVec 1) (t d : Reg) (st : State) := runUnit (scan false p m t d orderedSums) st
/-- SCANF.V (R417): each element from a tree of its own. -/
def execScanfV (p m : BitVec 1) (t d : Reg) (st : State) : Host.Outcome State Fault Refusal :=
  runUnit (scan true p m t d fun f rm l =>
    foldL (fun r k => do
      let pre := l.take (k + 1)
      let v ← treeSum f rm pre.length pre
      pure (r ++ [(((l[k]?).getD (0, 0)).1, v)])) [] (upTo l.length)) st

/-! ### Element moves -/

/-- SLIDE.V (R423): the amount is signed. It stops at no element: it goes over all of them whenever it executes. -/
def execSlideV (p m : BitVec 1) (s t d : Reg) (st : State) : Host.Outcome State Fault Refusal :=
  runUnit (do
    unitStart false
    planishOut d
    let c ← vecCtx p m
    let k ← steerX s
    let h ← getH
    let w := fmtWidth h.fmt
    let a ← srcAll t w c.vl
    wholeElems { c with ves := 0 } d w fun e =>
      let j : Int := (e : Int) - k.toInt
      if 0 ≤ j ∧ j < (h.vlmaxW w : Int) then takeElem a w j.toNat else pure (0, 0)) st

/-- PERM.V (R405): every index is unsigned at the element width. It stops at no element: a poisoned index raises its trap
before any effect (R309). -/
def execPermV (p m : BitVec 1) (s t d : Reg) (st : State) : Host.Outcome State Fault Refusal :=
  runUnit (do
    unitStart false
    let h ← getH
    let w := fmtWidth h.fmt
    planishOut d
    let c ← vecCtx p m
    steerV s w 0 c.vl c.active
    let a ← srcAll t w c.vl
    let b ← srcAll s w c.vl
    wholeElems { c with ves := 0 } d w fun e =>
      let i := elemOf b.1 w e
      if i < h.vlmaxW w then takeElem a w i else pure (0, 0)) st

/-- BCAST.V (R344). -/
def execBcastV (p m : BitVec 1) (t d : Reg) (st : State) : Host.Outcome State Fault Refusal :=
  runUnit (do
    unitStart false
    planishOut d
    let h ← getH
    let w := fmtWidth h.fmt
    let c ← vecCtx p m
    let x ← scalarElem t w
    elementwise c d w fun _ => pure x) st

/-- MERGE.V (R389): decoding has made sure that M = 1; every element below vl is written. -/
def execMergeV (p : BitVec 1) (s t d : Reg) (st : State) : Host.Outcome State Fault Refusal :=
  runUnit (do
    unitStart false
    planishOut d
    let h ← getH
    let w := fmtWidth h.fmt
    let c ← vecCtx p 1
    let a ← srcV t w c.vl
    let b ← srcV s w c.vl
    elementwise { c with masked := false } d w fun e => do
      consume (c.maskMk e)
      let (x, mx) ← takeElem (if c.active e then a else b) w e
      pure (x, mx ||| c.maskMk e)) st

/-- EXTR.V (R361): the register is waited for, popped and read only where the index is in range. -/
def execExtrV (_p : BitVec 1) (s t d : Reg) (st : State) : Host.Outcome State Fault Refusal :=
  runUnit (do
    unitStart false
    planishGate
    destX d
    let i ← steerX s
    let h ← getH
    let w := fmtWidth h.fmt
    if i.toNat < h.vlmaxW w then
      let a ← srcAll t w h.effVl
      let (y, my) ← takeElem a w i.toNat
      setX d (if fmtIsInt h.fmt then dw (signedOf w y) else BitVec.ofNat 64 y) my
    else setX d 0 0
    pure .seq) st

/-- INS.V (R373). -/
def execInsV (_p : BitVec 1) (s t d : Reg) (st : State) : Host.Outcome State Fault Refusal :=
  runUnit (do
    unitStart false
    planishOut d
    let i ← steerX s
    let (y, my) ← srcX t
    let h ← getH
    let w := fmtWidth h.fmt
    destV d w h.effVl 0
    settle
    if i.toNat < h.vlmaxW w then putElem d w i.toNat (y.toNat % 2 ^ w) my
    pushDest d w h.effVl
    pure .seq) st

/-- MV.V (R399). -/
def execMvV (p m : BitVec 1) (t d : Reg) (st : State) : Host.Outcome State Fault Refusal :=
  runUnit (do
    unitStart false
    planishOut d
    let h ← getH
    let w := fmtWidth h.fmt
    let c ← vecCtx p m
    let a ← srcV t w c.vl
    elementwise c d w (takeElem a w)) st

/-- IOTA.V (R374). -/
def execIotaV (p m : BitVec 1) (d : Reg) (st : State) : Host.Outcome State Fault Refusal :=
  runUnit (do
    unitStart false
    planishOut d
    let h ← getH
    let w := fmtWidth h.fmt
    let c ← vecCtx p m
    elementwise c d w fun e => pure (e % 2 ^ w, 0)) st

/-- SETE.V (R420, R214): the register becomes EMPTY; a pending claim is waited for. -/
def execSeteV (d : Reg) (st : State) : Host.Outcome State Fault Refusal :=
  runUnit (do
    unitStart false
    let h ← getH
    let p := h.phys d.toNat
    if (h.fe[p]?).getD .full = .pending then waitFor .retry (some 0)
    modH fun h => { h with fe := h.fe.setIfInBounds p .empty }
    pure .seq) st

/-! ### Mask instructions (R133, R386, R390, R396, R354) -/

/-- A mask-logic instruction (R386), bit by bit; the sources are read before any bit is written. -/
def maskLogic (p m : BitVec 1) (s t d : Reg) (f : Bool → Bool → Bool) : M Flow := do
  unitStart false
  let c ← vecCtx p m
  let h := (← getH).issued
  maskPass c d fun e => do
    let mk := h.bitMark t.toNat e ||| h.bitMark s.toNat e
    consume mk
    pure (f ((h.vreg t.toNat).getLsbD e) ((h.vreg s.toNat).getLsbD e), mk)

/-- MAND (R386). -/
def execMand (p m : BitVec 1) (s t d : Reg) (st : State) := runUnit (maskLogic p m s t d (· && ·)) st
/-- MOR (R386). -/
def execMor (p m : BitVec 1) (s t d : Reg) (st : State) := runUnit (maskLogic p m s t d (· || ·)) st
/-- MXOR (R386). -/
def execMxor (p m : BitVec 1) (s t d : Reg) (st : State) := runUnit (maskLogic p m s t d (· ^^ ·)) st
/-- MNOT (R386). -/
def execMnot (p m : BitVec 1) (t d : Reg) (st : State) := runUnit (maskLogic p m t t d fun a _ => !a) st

/-- MSETX (R396): the visible register as a whole. -/
def execMsetx (_p : BitVec 1) (t d : Reg) (st : State) : Host.Outcome State Fault Refusal :=
  runUnit (do
    unitStart false
    let (x, mx) ← srcX t
    modH fun h => h.setLow d.toNat h.vrs x.toNat (spread mx 8)
    pure .seq) st

/-- The bits of a mask register that count for MPOPC, MFIRST and CMPRS.V, and the marks of what was read. -/
def countedBits (p m : BitVec 1) (t : Reg) : M (VCtx × List Nat × Mark) := do
  let c ← vecCtx p m
  let h := (← getH).issued
  let mk := h.bitMarks t.toNat c.vl ||| c.maskMarks c.vl
  consume mk
  pure (c, (upTo c.vl).filter fun e => (h.vreg t.toNat).getLsbD e && c.active e, mk)

/-- MPOPC (R390). -/
def execMpopc (p m : BitVec 1) (t d : Reg) (st : State) : Host.Outcome State Fault Refusal :=
  runUnit (do
    unitStart false
    planishGate
    destX d
    let (_, l, mk) ← countedBits p m t
    setX d (BitVec.ofNat 64 l.length) mk
    pure .seq) st

/-- MFIRST (R390). -/
def execMfirst (p m : BitVec 1) (t d : Reg) (st : State) : Host.Outcome State Fault Refusal :=
  runUnit (do
    unitStart false
    planishGate
    destX d
    let (_, l, mk) ← countedBits p m t
    setX d (match l with
      | e :: _ => BitVec.ofNat 64 e
      | [] => -1) mk
    pure .seq) st

/-- CMPRS.V (R354): the indices as INT32 elements, the tail from their count up. DESIGN CHOICE (log 101): a bound destination pushes the
indices, as many as there are, and no element of the tail. -/
def execCmprsV (p m : BitVec 1) (t d : Reg) (st : State) : Host.Outcome State Fault Refusal :=
  runUnit (do
    unitStart false
    planishOut d
    let (c, l, mk) ← countedBits p m t
    let h ← getH
    let l := l.take (h.vlmaxW 32)
    destV d 32 l.length 0
    settle
    modH fun h => (l.zipIdx).foldl (fun h ei => h.setElem (h.phys d.toNat) 32 ei.2 ei.1 mk) h
    tailV { c with vl := l.length, ves := 0 } d 32
    pushDest d 32 l.length
    pure .seq) st

end Sys2Proof.Machine
end

