-- ==== Sys2Proof/Machine/VectorMemory.lean ====
section
/-!
DEFINITION. Vector memory (R146 to R149), the append queue (R144, R145), and vector push with the full/empty states (R213
to R217).
-/

namespace Sys2Proof.Machine

/-- The address of element `e` under a stride (R146). -/
def strideAddr (base stride : DWord) (e : Nat) : DWord := base + BitVec.ofNat 64 e * stride

/-- One element loaded. -/
def loadElem (reach : Reach) (w e : Nat) (a : DWord) : M (Nat × Mark) := do
  needAligned a (w / 8) e
  let (v, m) ← loadNat (loadAcc reach e) a (w / 8)
  consume m
  pure (v, m)

/-- One element stored. -/
def storeElem (reach : Reach) (w e : Nat) (a : DWord) (x : Nat) (m : Mark) : M Unit := do
  needAligned a (w / 8) e
  storeNat (storeAcc reach e) a (w / 8) x m

/-- LD.V (R381). -/
def execLdV (p m : BitVec 1) (s t d : Reg) (st : State) : Host.Outcome State Fault Refusal :=
  runUnit (do
    unitStart false
    planishOut d
    let c ← vecCtx p m
    steerLook [t, s]
    let base ← steerX t
    let stride ← steerX s
    let h ← getH
    let w := fmtWidth h.fmt
    elementwise c d w fun e => loadElem .single w e (strideAddr base stride e)) st

/-- A pass of stores of a source of which `n` elements are read: the active elements from VES up, the policies ignored. -/
def storePass (c : VCtx) (d : Reg) (w n : Nat) (addr : Nat → M DWord) (reach : Reach) : M Flow := do
  let a ← srcV d w n
  forElems c.ves c.vl fun e =>
    if c.active e then do
      let va ← addr e
      let (x, mx) ← takeElem a w e
      storeElem reach w e va x mx
    else pure ()
  pure .seq

/-- ST.V (R428). -/
def execStV (p m : BitVec 1) (s t d : Reg) (st : State) : Host.Outcome State Fault Refusal :=
  runUnit (do
    unitStart false
    planishGate
    let c ← vecCtx p m
    maskSteer c c.vl
    steerLook [t, s]
    let base ← steerX t
    let stride ← steerX s
    let h ← getH
    storePass c d (fmtWidth h.fmt) c.vl (fun e => pure (strideAddr base stride e)) .single) st

/-- The context of an indexed instruction: it covers min(vl, VLMAX(INT32)) elements (R148). -/
def VCtx.indexed (c : VCtx) (h : Hart) : VCtx := { c with vl := min c.vl (h.vlmaxW 32) }

/-- The address of an indexed element: a signed byte offset (R148). -/
def indexAddr (base : DWord) (idx : VBits × VBits) (e : Nat) : M DWord := do
  let i ← steerElem idx 32 e
  pure (base + dw (signedOf 32 i))

/-- GATH.V (R371). -/
def execGathV (p m : BitVec 1) (s t d : Reg) (st : State) : Host.Outcome State Fault Refusal :=
  runUnit (do
    unitStart false
    planishOut d
    let c0 ← vecCtx p m
    let h ← getH
    let w := fmtWidth h.fmt
    let c := c0.indexed h
    steerLook [t] (steerV s 32 c.ves c.vl c.active)
    let base ← steerX t
    steerV s 32 c.ves c.vl c.active
    let idx ← srcV s 32 c0.vl
    elementwise c d w fun e => do
      let a ← indexAddr base idx e
      loadElem .gather w e a) st

/-- SCAT.V (R418). -/
def execScatV (p m : BitVec 1) (s t d : Reg) (st : State) : Host.Outcome State Fault Refusal :=
  runUnit (do
    unitStart false
    planishGate
    let c0 ← vecCtx p m
    let h ← getH
    let c := c0.indexed h
    maskSteer c c.vl
    steerLook [t] (steerV s 32 c.ves c.vl c.active)
    let base ← steerX t
    steerV s 32 c.ves c.vl c.active
    let idx ← srcV s 32 c0.vl
    storePass c d (fmtWidth h.fmt) c0.vl (indexAddr base idx) .gather) st

/-- The posted add of one element of SCATADD.V: a relaxed AMO.ADD or AMO.FADD at DEV (R419). -/
def postAdd (fmt w : Nat) (a : DWord) (e x : Nat) (m : Mark) : M Unit := do
  needAligned a (w / 8) e
  let pa ← translate (rmwAcc .gather e) a
  bankCheck (rmwAcc .gather e) a pa (w / 8)
  if 0x40000000000 ≤ pa && pa < 0x80000000000 && fmtIsFloat fmt then raise causeAccess a e
  copyHold (rmwAcc .gather e) pa (w / 8)
  postPacket (if fmtIsFloat fmt then 9 else 1) (w / 8) pa a x m 0 3

/-- SCATADD.V (R419): INT32, INT64, FP32 and FP64. -/
def execScataddV (p m : BitVec 1) (s t d : Reg) (st : State) : Host.Outcome State Fault Refusal :=
  runUnit (do
    unitStart true
    let fmt ← vecFmt fun f => f = 2 || f = 3 || f = 5 || f = 6
    planishGate
    let w := fmtWidth fmt
    let c0 ← vecCtx p m
    let h ← getH
    let c := c0.indexed h
    maskSteer c c.vl
    steerLook [t] (steerV s 32 c.ves c.vl c.active)
    let base ← steerX t
    steerV s 32 c.ves c.vl c.active
    let idx ← srcV s 32 c0.vl
    let a ← srcV d w c0.vl
    unprotect
    forElems c.ves c.vl fun e =>
      if c.active e then do
        let va ← indexAddr base idx e
        let (x, mx) ← takeElem a w e
        postAdd fmt w va e x mx
      else pure ()
    pure .seq) st

/-- The bytes that cover elements below vl of the duplicate mask are computed from every index and mask bit below vl: their mark
(R307). -/
def duplicateMark (c : VCtx) (idx : VBits × VBits) : Nat :=
  let mk := c.actives.foldl (fun m e => m ||| elemMark idx.2 32 e) (c.maskMarks c.vl)
  spread mk ((c.vl + 7) / 8)

/-- The duplicate mask of BGATH.V (R149): bit e says that a lower active element has element e's index. -/
def duplicateMask (c : VCtx) (idx : VBits) : Nat :=
  (upTo c.vl).foldl (fun n e =>
    if c.active e && (upTo e).any (fun k => c.active k && elemOf idx 32 k = elemOf idx 32 e) then n + 2 ^ e else n) 0

/-- BGATH.V (R346): vd + 1 receives the duplicate mask when the instruction completes, and is a destination like any other for
the streams (R200, R201). -/
def execBgathV (p m : BitVec 1) (s t d : Reg) (st : State) : Host.Outcome State Fault Refusal :=
  runUnit (do
    unitStart false
    planishOut d
    planishOut (d + 1)
    let c0 ← vecCtx p m
    let h ← getH
    let w := fmtWidth h.fmt
    let c := c0.indexed h
    steerLook [t] (steerV s 32 c.ves c.vl c.active)
    let base ← steerX t
    steerV s 32 c.ves c.vl c.active
    let idx ← srcV s 32 c0.vl
    destV (d + 1) w c.vl 0 .one c.ves
    let f ← wholeElems c d w fun e => do
      let a ← indexAddr base idx e
      loadElem .gather w e a
    modH fun h => h.setLow (h.phys (d + 1).toNat) h.vrs (duplicateMask c idx.1) (duplicateMark c idx)
    pushDest (d + 1) w c.vl
    pure f) st

/-! ### The append queue (R144, R145, R349) -/

/-- The effect of CAPP.V once its operands are read; it waits while the queue has no room. It reads the descriptor and writes
its TAIL and EVT words alone. DESIGN CHOICE (log 96): a BASE that is no multiple of 4, which Table 6.6 rules out and for which
no rule gives a trap, is taken as it is. -/
def cappBody (m : BitVec 1) (s t : Reg) : M Flow := do
  raceReports fun _ => true
  planishGate
  let c ← vecCtx 0 m
  let h ← getH
  maskSteer c c.vl
  steerCheck (h.bitMarks t.toNat c.vl)
  steerLook [s] (lookStruct s 32 0 32)
  let q ← steerX s
  let l := (upTo c.vl).filter fun e => (h.vreg t.toNat).getLsbD e && c.active e
  let k := l.length
  if q.toNat % 32 ≠ 0 then raise causeMisaligned q
  let acc : Access := { rmwAcc .single with order := .quiet, whole := true }
  let pa ← translate acc q
  raceLook acc q pa 32
  let (bs, mk) ← readPhys pa 32
  steerCheck mk
  let v := leNat bs
  let base := BitVec.ofNat 64 (v % 2 ^ 64)
  let tail := v / 2 ^ 64 % 2 ^ 64
  let head := v / 2 ^ 128 % 2 ^ 64
  let cap := v / 2 ^ 192 % 2 ^ 32
  let last := v / 2 ^ 224
  let thr := last % 2 ^ 24
  if !([4, 5, 6, 7, 8, 9, 10, 11, 12, 13, 14, 15, 16, 17, 18, 19, 20, 21, 22, 23, 24].any fun n => cap = 2 ^ n) || cap < k then
    raise causeAccess q
  if head + cap < tail + k then waitFor (.capp m s t) (some 0)
  releaseGate
  acquireGate
  unprotect
  let slen := min h.slen (h.vlmaxW (fmtWidth h.fmt))
  let rows ← foldL (fun (r : List (Nat × DWord × Nat)) (ej : Nat × Nat) => do
    let a := base + BitVec.ofNat 64 (4 * ((tail + ej.2) % cap))
    let ea ← translate { storeAcc .single with order := .quiet } a
    raceLook { storeAcc .single with order := .quiet } a ea 4
    pure (r ++ [(ea, a, (h.tr.strn.toNat * slen + ej.1) % 2 ^ 32)])) [] l.zipIdx
  -- HEAD is an acquire at DEV
  let rs ← getS fun s => relsOf s (s.hart.side.seen s (pa + 16)) 8
  raceCheck { acc with write := false } q pa 32
  acquireRels rs 3
  noteAcquire rs
  if k ≠ 0 then
    let h ← getH
    let rel := relsNow h 2 3
    let put := fun (a : Nat) (va : DWord) (n x : Nat) => do
      raceCheck { storeAcc .single with order := .quiet } va a n
      modM fun s => joinRels (s.hart.side.home a) n rel (commitStore a va (leBytes n x) 0 s)
    forEach rows fun r => put r.1 r.2.1 4 r.2.2
    let tail' := (tail + k) % 2 ^ 64
    put (pa + 8) (q + 8) 8 tail'
    if thr ≠ 0 ∧ head + thr ≤ tail' then put (pa + 28) (q + 28) 4 (last % 2 ^ 31 + 2 ^ 31)
    takeFences
  newRegion
  pure .seq

/-- CAPP.V (R349). -/
def execCappV (_p m : BitVec 1) (s t : Reg) (st : State) : Host.Outcome State Fault Refusal :=
  runUnit (do unitStart false; cappBody m s t) st

/-- CAPP_WAIT_SATISFIED (R145): the queue may have room, and the waiting CAPP.V looks again. -/
def execCappWaitSatisfied (st : State) : Host.Outcome State Fault Refusal :=
  match st.hart.status, st.hart.wait with
  | .running, .capp m s t => resumeUnit (cappBody m s t) st
  | _, _ => .next st

/-! ### Vector push (R215, R216) -/

/-- The peer of a push: the hart of the same task, and copy, that runs or is saved on the same die. -/
def pushPeer (s : State) (h : Hart) (l : Nat) : Option Hart :=
  let same := fun (o : Hart) => o.status = .running && o.taskNo = h.taskNo && o.copy = h.copy && o.tr.lhart.toNat = l
  match (s.hart :: s.others).find? (fun o => same o && o.die = h.die) with
  | some o => some o
  | none => ((s.saved.filter fun v => v.die = h.die).map (·.hart)).find? same

/-- The parts of a save area that a claim on a register changes: its full/empty state (R216, Table 15.4). -/
def claimParts (c : Nat) : List (Nat × Nat) := [(0xAC0 + c / 4, 1)]

/-- The parts that a delivery changes: the register's image, its HW and full/empty state, and DRMAP. -/
def deliveryParts (c : Nat) : List (Nat × Nat) := (0x60000 + 2048 * c, 2048) :: (0xA00 + c, 1) :: (0x898, 24) :: claimParts c

/-- Changes the hart that a push reaches, running, finishing or saved; a saved one with the named parts of its area (R216). -/
def modPeer (task l copy : Nat) (parts : List (Nat × Nat)) (f : Hart → Hart) (s : State) : State :=
  let it := fun (o : Hart) => o.status ≠ .idle && o.taskNo = task && o.copy = copy && o.tr.lhart.toNat = l
  let g := fun (o : Hart) => if it o then f o else o
  let saved := s.saved.map fun v => { v with hart := g v.hart }
  (saved.filter fun v => it v.hart).foldl (fun s v => v.storeParts parts s)
    { s with hart := g s.hart, others := s.others.map g, saved := saved }

/-- PUSH.V (R408, R215): vd is the source, vs1 the x register with the peer, vs2 the code. -/
def execPushV (c t v : Reg) (st : State) : Host.Outcome State Fault Refusal :=
  runUnit (do
    unitStart false
    planishGate
    let l ← steerX t
    let h ← getH
    match (← getS fun s => pushPeer s h l.toNat) with
    | none => raise causeAccess l
    | some peer =>
      if 4 ≤ (← getS fun s => (s.pushes.filter fun j => h.owns j.task j.lhart && j.copy = h.copy).length) then waitFor .retry (some 0)
      if (peer.fe[c.toNat]?).getD .full ≠ .empty then waitFor .retry (some 0)
      let a ← srcAll v (fmtWidth h.fmt) h.effVl
      consume ((upTo h.vrs).foldl (fun m j => m ||| elemMark a.2 8 j) 0)
      unprotect
      modM fun s =>
        let s := modPeer h.taskNo l.toNat h.copy (claimParts c.toNat) (fun o => { o with fe := o.fe.setIfInBounds c.toNat .pending }) s
        let job : PushJob := ⟨h.taskNo, h.tr.lhart.toNat, l.toNat, h.copy, c.toNat, h.vrs, a.1, a.2⟩
        { s with pushes := s.pushes ++ [job] }
      pure .seq) st

/-- A delivery in the receiver's register (R215, R216). -/
def deliver (j : PushJob) (o : Hart) : Hart :=
  let low := fun (x : VBits) => x.toNat % 2 ^ (8 * min j.bytes o.vrs)
  let o := o.setLow j.reg o.vrs (low j.data) (low j.mark)
  { o with fe := o.fe.setIfInBounds j.reg .full }

/-- PUSH_DELIVERY (R215): the oldest not delivered but `n`; a receiver that no longer exists drops it. -/
def execPushDelivery (n : Nat) (st : State) : Host.Outcome State Fault Refusal :=
  match st.pushes[n]? with
  | none => .next st
  | some j => .next (modPeer j.task j.peer j.copy (deliveryParts j.reg) (deliver j) { st with pushes := st.pushes.eraseIdx n })

/-- REGISTER_FULL_WAKE (R213): the register that the hart waits for is FULL, and the instruction executes again. -/
def execRegisterFullWake (st : State) : Host.Outcome State Fault Refusal :=
  match st.hart.status, st.hart.wait with
  | .running, .register p =>
    if (st.hart.fe[p]?).getD .full = .full then .next { st with hart := { st.hart with wait := .no } } else .next st
  | _, _ => .next st

end Sys2Proof.Machine
end

