-- ==== Sys2Proof/Machine/Tensor.lean ====
section
/-!
DEFINITION. Tensors: descriptors (R150, R151), layouts (R154), handles (R152, R153), access by coordinates (R155, R157),
and conversion by the Burnish engine (R156 to R163).
-/

namespace Sys2Proof.Machine

/-! ### The descriptor (Table 7.1) -/

/-- The fields of a descriptor. -/
structure TDesc where
  base  : Nat
  alt   : Nat
  d0    : Nat
  d1    : Nat
  d2    : Nat
  d3    : Nat
  fmt   : Nat
  tag   : Nat
  otag  : Nat
  ph    : Bool
  cv    : Bool
  fl    : Bool
  npc   : Nat
  cdone : Nat
  tmap  : Nat
  chstr : Nat
deriving DecidableEq, Repr

/-- The fields of the 64 bytes of a descriptor. -/
def descOf (v : BitVec 512) : TDesc :=
  let f := fun lo n => (v.extractLsb' lo n).toNat
  { base := f 0 64, alt := f 64 64, d0 := f 128 32, d1 := f 160 32, d2 := f 192 32, d3 := f 224 32
    fmt := f 256 4, tag := f 260 3, otag := f 264 3, ph := v.getLsbD 269, cv := v.getLsbD 270, fl := v.getLsbD 271
    npc := f 272 8, cdone := f 288 32, tmap := f 320 64, chstr := f 384 64 }

/-- The quotient rounded up. -/
def ceilDiv (a b : Nat) : Nat := (a + b - 1) / b

/-- Is the format a BX format? -/
def TDesc.bx (d : TDesc) : Bool := 7 ≤ d.fmt

/-- The element width in bytes (R151). -/
def TDesc.wb (d : TDesc) : Nat := fmtWidth d.fmt / 8

/-- D2·D3. -/
def TDesc.planes (d : TDesc) : Nat := d.d2 * d.d3

/-- PW, the row pitch of SKEW in words (Table 7.2). -/
def TDesc.skewPitch (d : TDesc) : Nat :=
  let p := ceilDiv (d.d0 * d.wb) 4
  if p % 127 = 0 then p + 1 else p

/-- G, the size of a 128-element group (R154). -/
def TDesc.group (d : TDesc) : Nat := if d.bx then 8 * bxBytes d.fmt else 128 * d.wb

/-- RB, the row size of PCROW (Table 7.2). -/
def TDesc.rowBytes (d : TDesc) : Nat := ceilDiv (d.d0 * d.wb) 64 * 64

/-- The byte offset of an element under a layout tag (Table 7.2); for a BX format, of its block. -/
def TDesc.offset (d : TDesc) (tag c0 c1 c2 c3 : Nat) : Nat :=
  let q := c2 + d.d2 * c3
  let t0 := ceilDiv d.d0 64
  let t1 := ceilDiv d.d1 64
  match tag with
  | 0 => ((q * d.d1 + c1) * d.d0 + c0) * d.wb
  | 1 => ((q * d.d0 + c0) * d.d1 + c1) * d.wb
  | 2 => (((q * t1 + c1 / 64) * t0 + c0 / 64) * 4096 + c1 % 64 * 64 + c0 % 64) * d.wb
  | 3 => (((q * t1 + c1 / 64) * t0 + c0 / 64) * 4096 + c0 % 64 * 64 + c1 % 64) * d.wb
  | 4 => (q * d.d1 + c1) * 4 * d.skewPitch + c0 * d.wb
  | 5 =>
    let inner := if d.bx then c0 % 128 / 16 * bxBytes d.fmt else c0 % 128 * d.wb
    ((q * t1 + c1 / 64) * (d.d0 / 128) + c0 / 128) * 64 * d.group + c1 % 64 * d.group + inner
  | _ =>
    let r := q * d.d1 + c1
    let n := max d.npc 1
    r % n * d.chstr + r / n * d.rowBytes + c0 * d.wb

/-- The footprint of a layout tag (Table 7.2). -/
def TDesc.footprint (d : TDesc) (tag : Nat) : Nat :=
  let t0 := ceilDiv d.d0 64
  let t1 := ceilDiv d.d1 64
  match tag with
  | 0 => d.planes * d.d0 * d.d1 * d.wb
  | 1 => d.planes * d.d0 * d.d1 * d.wb
  | 2 => d.planes * t1 * t0 * 4096 * d.wb
  | 3 => d.planes * t1 * t0 * 4096 * d.wb
  | 4 => d.planes * d.d1 * 4 * d.skewPitch
  | 5 => d.planes * t1 * (d.d0 / 128) * 64 * d.group
  | _ => (max d.npc 1 - 1) * d.chstr + ceilDiv (d.planes * d.d1) (max d.npc 1) * d.rowBytes

/-- Are all four extents zero? -/
def TDesc.empty (d : TDesc) : Bool := d.d0 = 0 && d.d1 = 0 && d.d2 = 0 && d.d3 = 0

/-- Is a descriptor valid (R151)? -/
def TDesc.valid (d : TDesc) : Bool :=
  (d.empty || (d.d0 ≠ 0 && d.d1 ≠ 0 && d.d2 ≠ 0 && d.d3 ≠ 0)) && d.fmt ≤ 9 && d.tag ≤ 6 &&
  (!d.bx || d.tag = 5) && (d.tag ≠ 5 || d.d0 % 128 = 0) && d.base % 64 = 0 && d.tmap % 8 = 0 &&
  (d.tag ≠ 6 || (1 ≤ d.npc && d.npc ≤ 64 && d.chstr % 64 = 0 &&
    (d.npc = 1 || ceilDiv (d.planes * d.d1) d.npc * d.rowBytes ≤ d.chstr))) &&
  d.footprint d.tag < 2 ^ 47

/-- The number of conversion tiles (R156). -/
def TDesc.tiles (d : TDesc) : Nat := d.planes * ceilDiv d.d1 64 * ceilDiv d.d0 64

/-- The tile of an element (R156). -/
def TDesc.tileOf (d : TDesc) (c0 c1 c2 c3 : Nat) : Nat :=
  ((c2 + d.d2 * c3) * ceilDiv d.d1 64 + c1 / 64) * ceilDiv d.d0 64 + c0 / 64

/-- The elements of a tile, or its BX blocks: the coordinates of each (R156). -/
def TDesc.tileElems (d : TDesc) (t : Nat) : List (Nat × Nat × Nat × Nat) :=
  let t0 := ceilDiv d.d0 64
  let t1 := ceilDiv d.d1 64
  let q := t / (t1 * t0)
  let r := t % (t1 * t0)
  let rows := fromTo (r / t0 * 64) (min (r / t0 * 64 + 64) d.d1)
  let cols := (fromTo (r % t0 * 64) (min (r % t0 * 64 + 64) d.d0)).filter fun c => !d.bx || c % 16 = 0
  rows.flatMap fun c1 => cols.map fun c0 => (c0, c1, q % d.d2, q / d.d2)

/-- The bytes of an element, or of a BX block. -/
def TDesc.unit (d : TDesc) : Nat := if d.bx then bxBytes d.fmt else d.wb

/-- The address of an element in a placement: the new one (BASE, TAG) or the old one (ALT, OTAG). -/
def TDesc.place (d : TDesc) (new : Bool) (c : Nat × Nat × Nat × Nat) : DWord :=
  BitVec.ofNat 64 ((if new then d.base else d.alt) + d.offset (if new then d.tag else d.otag) c.1 c.2.1 c.2.2.1 c.2.2.2)

/-! ### Handles -/

/-- The handle of a number. -/
def Hart.handle (h : Hart) (n : Nat) : Handle := (h.handles[n]?).getD Handle.reset

/-- The tensor-layout trap of an unbound handle, with VES 0 (R155): TVAL holds the handle number. -/
def needBound (n : Reg) : M Handle := do
  let h ← getH
  let hd := h.handle n.toNat
  if !hd.bound then raise causeTensor (zext n) (some 0)
  pure hd

/-- Every handle bound to a descriptor takes its conversion fields from memory (R153). -/
def refreshHandles (pa : Nat) (s : State) : State :=
  let fresh := fun (h : Hart) => { h with handles := h.handles.map fun d => if d.bound && d.pa = pa then freshDesc s h.side d else d }
  { s with hart := fresh s.hart, others := s.others.map fresh, saved := s.saved.map fun v => { v with hart := fresh v.hart } }

/-- The defined bits of a descriptor (Table 7.1): the reserved ones, in the word at 0x20 and from 0x38 on, read as zero (R10). -/
def descMask : BitVec 512 := BitVec.ofNat 512 (2 ^ 256 - 1 + 0xFFE77F * 2 ^ 256 + (2 ^ 160 - 1) * 2 ^ 288)

/-- THLD (R433). DESIGN CHOICE (log 98): the descriptor is reached as a single access (the third row of Table 9.2). -/
def execThld (b a : Reg) (s : State) : Host.Outcome State Fault Refusal :=
  runUnit (do
    unitStart false
    steerLook [b] (lookStruct b 64 0 64)
    let x ← steerX b
    needAligned x 64
    let acc : Access := { loadAcc .single with order := .sync, whole := true }
    let pa ← translate acc x
    raceCheck acc x pa 64
    let (bs, m) ← readPhys pa 64
    steerCheck m
    let v := BitVec.ofNat 512 (leNat bs) &&& descMask
    let put := fun (h' : Handle) => modH fun h => { h with handles := h.handles.setIfInBounds a.toNat h' }
    if (descOf v).empty then put Handle.reset
    else
      if !(descOf v).valid then raise causeTensor x
      put ⟨v, x, pa, true⟩
    pure .seq) s

/-! ### Access by coordinates (R155, R157) -/

/-- The address that a handle access to an element reaches (R157). DESIGN CHOICE (log 99): the hart reads the tile map with its
own rights; where it cannot, element `e` faults as a load of the map's byte, before the element's own checks. The byte picks
the address, so that it must not be poisoned (R309). -/
def handleAddr (d : TDesc) (e : Nat) (c : Nat × Nat × Nat × Nat) : M DWord := do
  if !d.cv then pure (d.place true c)
  else
    let t := d.tileOf c.1 c.2.1 c.2.2.1 c.2.2.2
    let a := BitVec.ofNat 64 (d.tmap + t / 8)
    let acc := { loadAcc .any e with order := .unchecked }
    let pa ← translate acc a
    bankCheck acc a pa 1
    let (bs, m) ← readPhys pa 1
    steerCheck m e
    pure (d.place (bs.any (·.getLsbD (t % 8)) == d.ph) c)

/-- Does a tensor hold an element (R155)? -/
def TDesc.holds (d : TDesc) (c : Nat × Nat × Nat × Nat) : Bool := c.1 < d.d0 && c.2.1 < d.d1 && c.2.2.1 < d.d2 && c.2.2.2 < d.d3

/-- A look at the tile-map bytes of those of the elements `es`, at their distances along d0, that the tensor holds, before any element
takes effect (R309). -/
def mapLook (d : TDesc) (c : Nat × Nat × Nat × Nat) (es : List Nat) : M Unit :=
  if d.cv then forEach (es.filter fun e => d.holds (c.1 + e, c.2)) fun e => lookAhead (do
    let _ ← handleAddr d e (c.1 + e, c.2))
  else pure ()

/-- What TLD.V and TST.V check before their elements: the descriptor, the coordinates and the element context. -/
def tensorOperands (p m : BitVec 1) (x t : Reg) : M (TDesc × (Nat × Nat × Nat × Nat) × VCtx) := do
  let hd ← needBound t
  let d := descOf hd.desc
  let h ← getH
  if h.fmt ≠ d.fmt then raise causeTensor hd.addr (some 0)
  let c ← vecCtx p m
  steerLook [x, x + 1, x + 2, x + 3]
  let c0 ← steerX x
  let c1 ← steerX (x + 1)
  let c2 ← steerX (x + 2)
  let c3 ← steerX (x + 3)
  if d.bx && (m = 1 || c0.toNat % 16 ≠ 0 || c.vl % 16 ≠ 0) then raise causeTensor hd.addr (some 0)
  pure (d, (c0.toNat, c1.toNat, c2.toNat, c3.toNat), c)

/-- The address of the element at distance `e` along d0, with its bounds and alignment checks. -/
def tensorAddr (d : TDesc) (c : Nat × Nat × Nat × Nat) (e : Nat) : M DWord := do
  let c0 := c.1 + e
  if !d.holds (c0, c.2) then raise causeTensor (BitVec.ofNat 64 c0) e
  let a ← handleAddr d e (c0, c.2)
  if !d.bx then needAligned a d.wb e
  pure a

/-- An access through a handle. -/
def handleAcc (a : Access) : Access := { a with order := .handle }

/-- The bytes of an element or block loaded through a handle. -/
def tensorLoad (va : DWord) (n e : Nat) : M (Nat × Mark) := do
  let a := handleAcc (loadAcc .single e)
  let runs ← rowRuns a va n
  raceRuns a runs
  let (bs, m) ← foldL (fun (r : List Byte × Mark) c => do
    let (b, k) ← readPhys c.2.1 c.2.2
    pure (r.1 ++ b, r.2 ||| k)) ([], 0) runs
  consume m
  pure (leNat bs, m)

/-- The bytes of an element or block stored through a handle. -/
def tensorStore (va : DWord) (n e v : Nat) (m : Mark) : M Unit := do
  let a := handleAcc (storeAcc .single e)
  let runs ← rowRuns a va n
  raceRuns a runs
  forEach runs fun c => do
    let skip := (c.1 - va).toNat
    bufferedStore c.2.1 c.1 (leBytes c.2.2 (v / 256 ^ skip)) m

/-- The blocks that a BX access covers: VLBX clips it (R48). -/
def bxBlocks (h : Hart) (d : TDesc) (c : VCtx) : Nat := min c.vl (16 * (h.vrs / d.unit)) / 16

/-- The elements, or the first elements of the blocks, that a tensor access goes over. -/
def tensorElems (h : Hart) (d : TDesc) (c : VCtx) : List Nat :=
  if d.bx then (fromTo (c.ves / 16) (bxBlocks h d c)).map (16 * ·) else (fromTo c.ves c.vl).filter c.active

/-- TLD.V (R434). -/
def execTldV (p m : BitVec 1) (x t d : Reg) (s : State) : Host.Outcome State Fault Refusal :=
  runUnit (do
    unitStart false
    planishOut d
    let (ds, cs, c) ← tensorOperands p m x t
    mapLook ds cs (tensorElems (← getH) ds c)
    if !ds.bx then
      elementwise c d (8 * ds.wb) fun e => do
        let a ← tensorAddr ds cs e
        tensorLoad a ds.wb e
    else
      let h ← getH
      let n := bxBlocks h ds c
      destV d 8 (n * ds.unit) c.ves ⟨ds.unit, 16⟩
      forEach (fromTo (c.ves / 16) n) fun b => do
        stopHere (16 * b)
        let a ← tensorAddr ds cs (16 * b)
        let (v, mk) ← tensorLoad a ds.unit (16 * b)
        putBlock d ds.unit b v mk
      if c.tz then modH fun h => h.zeroBytes (h.phys d.toNat) (n * ds.unit) h.vrs
      pushEnd d (n * ds.unit)
      pure .seq) s

/-- TST.V (R434). -/
def execTstV (_p m : BitVec 1) (x t d : Reg) (s : State) : Host.Outcome State Fault Refusal :=
  runUnit (do
    unitStart false
    planishGate
    steerLook [x, x + 1, x + 2, x + 3] (do maskSteer (← vecCtx 0 m) (← vecCtx 0 m).vl)
    let (ds, cs, c) ← tensorOperands 0 m x t
    maskSteer c c.vl
    mapLook ds cs (tensorElems (← getH) ds c)
    if !ds.bx then
      let w := 8 * ds.wb
      let a ← srcV d w c.vl
      forElems c.ves c.vl fun e =>
        if c.active e then do
          let va ← tensorAddr ds cs e
          let (v, mk) ← takeElem a w e
          tensorStore va ds.wb e v mk
        else pure ()
    else
      let h ← getH
      let n := bxBlocks h ds c
      let a ← srcV d 8 (n * ds.unit) ⟨ds.unit, 16⟩
      forEach (fromTo (c.ves / 16) n) fun b => do
        stopHere (16 * b)
        let va ← tensorAddr ds cs (16 * b)
        let (v, mk) ← takeElem a (8 * ds.unit) b
        tensorStore va ds.unit (16 * b) v mk
    pure .seq) s

/-! ### RETAG (R158, R161) -/

/-- Is a conversion still in its die's queue? -/
def Conversion.live (c : Conversion) : Bool := c.failed.isNone && c.tile < (descOf c.desc).tiles

/-- The conversions of a die's queue. -/
def burnishQueue (s : State) (die : Nat) : List Conversion := s.convs.filter fun c => c.die = die && c.live

/-- The order party of a tile's copy. -/
def Conversion.tileParty (c : Conversion) (t : Nat) : Nat := c.party + 4 * t

/-- A conversion enters the Burnish queue of the issuing hart's die. -/
def enqueueConversion (c : Conversion) (s : State) : State :=
  { s with convs := s.convs.filter (fun o => o.descPa ≠ c.descPa || o.live) ++ [c]
           free := s.free + (descOf c.desc).tiles }

/-- The descriptor's words as a RETAG leaves them (R158). -/
def retagged (v : BitVec 512) (tag : Nat) (base : DWord) : BitVec 512 :=
  let d := descOf v
  let word := (v.extractLsb' 256 32).toNat
  let keep := word % 16 + word / 2 ^ 16 * 2 ^ 16 + (if word.testBit 7 then 128 else 0) + word / 2 ^ 11 % 4 * 2 ^ 11
  let w20 := keep + tag * 16 + d.tag * 256 + (if d.ph then 0 else 2 ^ 13) + 2 ^ 14
  BitVec.ofNat 512 (base.toNat + d.base * 2 ^ 64 + (v.extractLsb' 128 128).toNat * 2 ^ 128 + w20 * 2 ^ 256 +
    (v.extractLsb' 320 192).toNat * 2 ^ 320)

/-- RETAG (R412). DESIGN CHOICE (log 98): the descriptor is reached as a single access (the third row of Table 9.2). Its extents are
read and not written (R158). -/
def execRetag (f : BitVec 4) (b a : Reg) (s : State) : Host.Outcome State Fault Refusal :=
  runUnit (do
    unitStart false
    raceReports fun _ => true
    planishGate
    let hd0 := (← getH).handle a.toNat
    steerLook [b] (if hd0.bound then do
      let _ ← loadStruct { loadAcc .any with order := .unchecked } hd0.addr 64
      else pure ())
    let base ← steerX b
    let hd ← needBound a
    needAligned base 64
    let h ← getH
    if 16 ≤ (← getS fun s => (burnishQueue s h.die).length) then waitFor .retry (some 0)
    releaseGate
    if h.assay then raise causeAccess hd.addr
    let acc : Access := { rmwAcc .single with whole := true }
    let pa ← translate acc hd.addr
    bankCheck acc hd.addr pa 64
    let (bs, m) ← readPhys pa 64
    steerCheck m
    let v := BitVec.ofNat 512 (leNat bs)
    let d := descOf v
    let new := { d with tag := f.toNat, base := base.toNat }
    if d.cv || d.tmap = 0 || !new.valid || decide (base.toNat < d.base + d.footprint d.tag ∧
        d.base < base.toNat + new.footprint f.toNat) then raise causeTensor hd.addr
    raceCheck { acc with write := false } hd.addr pa 64
    raceCheck acc hd.addr pa 16
    raceCheck acc (hd.addr + 0x20) (pa + 0x20) 8
    unprotect
    let h ← getH
    let rs ← getS fun s => relsOf s pa 16 ++ relsOf s (pa + 0x20) 8
    let v' := retagged v f.toNat base
    modM fun s =>
      let put := fun (o n : Nat) (s : State) =>
        joinRels (pa + o) n (relsNow h 2 3) (performStore (pa + o) (leBytes n (v'.toNat / 2 ^ (8 * o))) 0 s)
      let s := put 0x20 8 (put 0 16 s)
      let c : Conversion := ⟨h.die, h.sr.asid, v', pa, 0, none, h.release 3, engineParty s⟩
      refreshHandles pa (enqueueConversion c s)
    takeFences
    noteAcquire rs
    newRegion
    pure .seq) s

/-! ### Burnish (R159, R162, R163) -/

/-- The conversion of a die that runs now. -/
def nextConversion (s : State) (die : Nat) : Option Nat := s.convs.findIdx? fun c => c.die = die && c.live

/-- One conversion replaced. -/
def setConversion (i : Nat) (c : Conversion) (s : State) : State := { s with convs := s.convs.set i c }

/-- The physical runs of `n` bytes of an address space, or the address that fails (R162). -/
def spaceRuns (s : State) (asid : BitVec 16) (va : DWord) (n : Nat) (write : Bool) : Except DWord (List (Nat × Nat)) :=
  (pageRuns va n).foldl (fun r c =>
    match r, spaceRun s asid c.1 c.2 write true with
    | .error a, _ => .error a
    | _, .error a => .error a
    | .ok l, .ok pa => .ok (l ++ [(pa, c.2)])) (.ok [])

/-- The physical address at a distance into runs. -/
def runsAt : List (Nat × Nat) → Nat → Nat
  | [], _ => 0
  | (pa, n) :: rest, x => if x < n then pa + x else runsAt rest (x - n)

/-- A part of an element's copy, contiguous in both placements. -/
structure TilePiece where
  old : Nat
  new : Nat
  len : Nat
deriving DecidableEq, Repr

/-- The pieces of an element of `k` bytes. -/
def tilePieces (o n : List (Nat × Nat)) (k : Nat) : List TilePiece :=
  let cut := fun (r : List (Nat × Nat)) => ((r.head?).map (·.2)).getD k
  let lo := min (cut o) (cut n)
  let hi := max (cut o) (cut n)
  [(0, lo), (lo, hi), (hi, k)].filterMap fun c =>
    if c.1 < c.2 then some ⟨runsAt o c.1, runsAt n c.1, c.2 - c.1⟩ else none

/-- The pieces of a tile's elements, in order, or the address that fails (R162). DEDUCED (log 110): a tile moves whole or not at all; the
address on record is that of the first element, in its old placement before its new one, and the map byte's comes last. -/
def tileMoves (s : State) (c : Conversion) : Except DWord (List TilePiece) :=
  let d := descOf c.desc
  (d.tileElems c.tile).foldl (fun r e =>
    match r with
    | .error a => .error a
    | .ok l =>
      match spaceRuns s c.asid (d.place false e) d.unit false, spaceRuns s c.asid (d.place true e) d.unit true with
      | .error a, _ => .error a
      | _, .error a => .error a
      | .ok o, .ok n => .ok (l ++ tilePieces o n d.unit)) (.ok [])

/-- Burnish's copy of a tile in the race detector: raw accesses to either placement that are not ordered with it are reported
to their harts, deferred, and later ones will meet it (R161). -/
def burnishTouch (c : Conversion) (l : List TilePiece) (s : State) : State :=
  (l.flatMap fun m => wordsOf m.old m.len ++ wordsOf m.new m.len).eraseDups.foldl (fun s w =>
    engineAccess (c.tileParty c.tile) codeBurnish c.rel.clock w 4 true s) s

/-- A piece copied to its new place, with its poison (R162). -/
def movePiece (die : Nat) (s : State) (m : TilePiece) : State :=
  let s := (wordsOf m.old m.len).foldl (fun s w => findErrorBy die 0xFFFF w s) s
  let t := performStore m.new (memBytes s.mem m.old m.len) 0 s
  let marks := (upTo m.len).foldl (fun ms i =>
    let w := (m.new + i) / 4 * 4
    let k := readMark s ((m.old + i) / 4 * 4)
    if k = 0 then ms else putKey w (k ||| (getKey w ms).getD 0) ms) t.marks
  setRels m.new m.len [] { t with marks := marks }

/-- A word's records go with the bytes of a piece to their new words. DEDUCED (log 97): there each stands for those bytes alone,
towards handle accesses, as each had stood for every element of its old word (R157). -/
def moveRecords (s : State) (m : TilePiece) : State :=
  (wordsOf m.old m.len).foldl (fun s wo =>
    let mine := s.accesses.filter fun a => a.word = wo && a.hartid ≠ codeBurnish &&
      ((a.bytes.map (· &&& lanesOf m.old m.len wo)).getD 1 ≠ 0)
    (wordsOf m.new m.len).foldl (fun s wn =>
      let k := (upTo 4).foldl (fun (k : BitVec 4) i =>
        if m.new ≤ wn + i ∧ wn + i < m.new + m.len ∧ (m.old + (wn + i - m.new)) / 4 * 4 = wo
        then k ||| BitVec.ofNat 4 (2 ^ i) else k) 0
      if k = 0 then s
      else mine.foldl (fun s a => recordAccess { a with word := wn, bytes := if k = 15 then none else some k } s) s) s) s

/-- The old words of a tile lose their records, but for words that an element of a later tile shares. -/
def leaveOld (c : Conversion) (l : List TilePiece) (s : State) : State :=
  let d := descOf c.desc
  let later := if d.unit % 4 = 0 then [] else (fromTo (c.tile + 1) d.tiles).flatMap fun t =>
    (d.tileElems t).flatMap fun e => match spaceRuns s c.asid (d.place false e) d.unit false with
      | .ok r => r.flatMap fun p => wordsOf p.1 p.2
      | .error _ => []
  let gone := (l.flatMap fun m => wordsOf m.old m.len).filter fun w => !later.contains w
  { s with accesses := s.accesses.filter fun a => a.hartid = codeBurnish || !gone.contains a.word }

/-- Does a strip store buffer hold a store to what a tile's copy reads (R159)? -/
def tileHeld (s : State) (l : List TilePiece) : Bool :=
  (s.hart :: s.others).any fun h => h.buf.any fun b => l.any fun m => decide (m.old < b.pa + b.data.length ∧ b.pa < m.old + m.len)

/-- What a tile's flip follows: the RETAG, and Burnish's copies of the conversion up to that tile. -/
def Conversion.clockAt (c : Conversion) (t : Nat) : List (Nat × Nat) :=
  (upTo (t + 1)).foldl (fun k i => putKey (c.tileParty i) 1 k) c.rel.clock

/-- Burnish's writes of some words of a tile map or a descriptor in the race detector: an ordinary access to one that is not ordered
before them is reported to its hart, deferred (R234, R235). -/
def burnishWrites (c : Conversion) (ws : List Nat) (s : State) : State :=
  ws.foldl (fun s w =>
    let p := c.tileParty c.tile
    let s := (conflicts s w p (c.clockAt c.tile) true false none).foldl (engineMeets codeBurnish) s
    recordAccess ⟨w, p, p, codeBurnish, 1, true, false, false, 0, 0, none, queueMem⟩ s) s

/-- The flip of a tile (R159): its map bit, CDONE, and after the last tile CV, as one update and a release at DEV. An ordinary access
to one of these words that is not ordered before it is reported to its hart (R234, R235). -/
def flipTile (c : Conversion) (mapPa : Nat) (s : State) : State :=
  let d := descOf c.desc
  let t := c.tile
  let b := memByte s.mem mapPa
  let bit := BitVec.ofNat 8 (2 ^ (t % 8))
  let s := performStore mapPa [if d.ph then b ||| bit else b &&& ~~~bit] 0 s
  let s := performStore (c.descPa + 0x24) (leBytes 4 (t + 1)) 0 s
  let w20 := memNat s.mem (c.descPa + 0x20) 4
  let s := if t + 1 = d.tiles && w20.testBit 14 then performStore (c.descPa + 0x20) (leBytes 4 (w20 - 2 ^ 14)) 0 s else s
  let rel : Release := { c.rel with clock := c.clockAt t }
  let s := burnishWrites c [mapPa / 4 * 4, c.descPa + 0x20, c.descPa + 0x24] s
  joinRels mapPa 1 [rel] (joinRels (c.descPa + 0x20) 8 [rel] s)

/-- A conversion stops at a failure (R162): FL is set, by a write of Burnish, and the address kept. -/
def failConversion (i : Nat) (c : Conversion) (a : DWord) (s : State) : State :=
  let w20 := memNat s.mem (c.descPa + 0x20) 4
  let s := if w20.testBit 15 then s
    else burnishWrites c [c.descPa + 0x20] (performStore (c.descPa + 0x20) (leBytes 4 (w20 + 2 ^ 15)) 0 s)
  refreshHandles c.descPa (setConversion i { c with failed := some a } s)

/-- Does an address of an address space lie on a page without a translation, which the Protas kernel may yet resolve (R162)? -/
def pageAbsent (s : State) (asid : BitVec 16) (va : DWord) : Bool :=
  canonical va &&
    match walk s (va.extractLsb' 0 49).toNat (((spaceBlock s asid).ptb.extractLsb' 13 35).toNat * 8192) walkLevels with
    | .error .page => true
    | _ => false

/-- What an address that Burnish cannot reach does to its conversion (R162): the Protas kernel resolves a page fault as it would for
a hart of the task, and the tile is tried again; a failure that it would not resolve stops the conversion. What the kernel
resolves is a free value (log 110). -/
def burnishFault (i : Nat) (c : Conversion) (a : DWord) (s : State) : State :=
  if pageAbsent s c.asid a && Config.kernelResolves s.free then { s with free := s.free + 1 } else failConversion i c a s

/-- BURNISH_TILE (R159): the next tile of the conversion that a die runs. -/
def execBurnishTile (die : Nat) (s : State) : Host.Outcome State Fault Refusal :=
  if 4 ≤ die || s.fencedDies.contains die then .next s
  else
    match nextConversion s die with
    | none => .next s
    | some i =>
      match s.convs[i]? with
      | none => .next s
      | some c =>
        let mapVa := BitVec.ofNat 64 ((descOf c.desc).tmap + c.tile / 8)
        match tileMoves s c, spaceRun s c.asid mapVa 1 true true with
        | .error a, _ => .next (burnishFault i c a s)
        | .ok _, .error a => .next (burnishFault i c a s)
        | .ok moves, .ok mapPa =>
          if tileHeld s moves then .next s
          else
            let s := moves.foldl moveRecords (moves.foldl (movePiece die) (burnishTouch c moves s))
            let s := flipTile c mapPa (leaveOld c moves s)
            .next (refreshHandles c.descPa (setConversion i { c with tile := c.tile + 1 } s))

/-- The first tile whose map bit differs from PH (R163). -/
def firstUnflipped (s : State) (c : Conversion) : Nat :=
  let d := descOf c.desc
  ((upTo d.tiles).find? fun t => match spaceAddr s c.asid (BitVec.ofNat 64 (d.tmap + t / 8)) 1 false with
    | some pa => (memByte s.mem pa).getLsbD (t % 8) != d.ph
    | none => true).getD d.tiles

/-- A conversion put in the order in which the RETAGs were performed (R159). -/
def insertConversion (c : Conversion) : List Conversion → List Conversion
  | [] => [c]
  | o :: rest => if c.party < o.party then c :: o :: rest else o :: insertConversion c rest

/-- A conversion that goes on at its die: behind the one that the engine is in the middle of, if any, for it runs one at a time, and among
those that wait in the order of the RETAGs. DEDUCED (log 65): R159 gives no place to one that comes from another die. -/
def placeConversion (c : Conversion) (l : List Conversion) : List Conversion :=
  match l.findIdx? fun o => o.die = c.die && o.live with
  | some i => if (l[i]?).any (·.tile ≠ 0) then l.take (i + 1) ++ insertConversion c (l.drop (i + 1)) else insertConversion c l
  | none => insertConversion c l

/-- CONVERSION_RESTART (R163): the oldest conversion of a fenced die goes on at another die's Burnish engine, where that has
an entry free (R159). -/
def execConversionRestart (src dst : Nat) (s : State) : Host.Outcome State Fault Refusal :=
  if 4 ≤ src || 4 ≤ dst then .next s
  else if !s.fencedDies.contains src || s.fencedDies.contains dst || 16 ≤ (burnishQueue s dst).length then .next s
  else
    match nextConversion s src with
    | none => .next s
    | some i =>
      match s.convs[i]? with
      | none => .next s
      | some c => .next { s with convs := placeConversion { c with die := dst, tile := firstUnflipped s c } (s.convs.eraseIdx i) }

/-! ### TWAIT (R160) -/

/-- The tile count that a TWAIT waits for. -/
def twaitCount (d : TDesc) (x : DWord) : Nat := if x = 0 || d.tiles < x.toNat then d.tiles else x.toNat

/-- Is the wait of a TWAIT over? -/
def twaitMet (d : TDesc) (n : Nat) : Bool := !d.cv || n ≤ d.cdone || d.fl

/-- TWAIT from its operands on: the wait, the failure of R162, the acquire of the flips. -/
def twaitBody (b a : Reg) : M Flow := do
  raceReports fun _ => true
  planishGate
  acquireGate
  let x ← steerX b
  let hd ← needBound a
  let d := descOf hd.desc
  let n := twaitCount d x
  unprotect
  if !twaitMet d n then waitFor (.twait b a) (some 0)
  let conv ← getS fun s => (s.convs.filter fun c => c.descPa = hd.pa).getLast?
  if d.fl && d.cdone < n then raise causeAccess ((conv.bind (·.failed)).getD 0)
  match conv with
  | none => pure ()
  | some c =>
    let clock := (upTo (min n c.tile)).foldl (fun k i => putKey (c.tileParty i) 1 k) c.rel.clock
    modH fun h => { h with clock := joinClock h.clock clock }
    noteAcquire [{ c.rel with clock := clock }]
  newRegion
  pure .seq

/-- TWAIT (R437). -/
def execTwait (b a : Reg) (s : State) : Host.Outcome State Fault Refusal :=
  runUnit (do unitStart false; twaitBody b a) s

/-- TWAIT_RETURN (R160): enough tiles have flipped, or the conversion has failed. -/
def execTwaitReturn (s : State) : Host.Outcome State Fault Refusal :=
  match s.hart.status, s.hart.wait with
  | .running, .twait b a => resumeUnit (twaitBody b a) s
  | _, _ => .next s

end Sys2Proof.Machine
end

