-- ==== Sys2Proof/Machine/Fabric.lean ====
section
/-!
DEFINITION. The stack-side matrix-vector units (R218 to R225), reductions on the network (R207), links and cluster reset
(R210 to R212), and the Golrok link (R226 to R228).
-/

namespace Sys2Proof.Machine

/-! ### Stacks and pseudo-channels (R184, R218) -/

/-- The pseudo-channel (64·stack + channel) in whose channel-local block an address of a die's stacks lies (R184). -/
def channelOf (die pa : Nat) : Option Nat :=
  let k := pa / stackBytes
  let o := pa % stackBytes
  if k / 4 = die && 0x900000000 ≤ o then some (64 * k + (o - 0x900000000) / 0xC000000) else none

/-- Is the word a valid microword (Table 10.4)? -/
def microOk (w : Word) : Bool :=
  match (w.extractLsb' 28 4).toNat with
  | 0 => w.extractLsb' 0 28 = 0
  | 1 => w.extractLsb' 0 28 = 0
  | 2 => w.extractLsb' 8 20 = 0
  | 3 => w.extractLsb' 0 28 = 0
  | 4 => w.extractLsb' 16 12 = 0
  | 5 => w.extractLsb' 1 27 = 0
  | _ => false

/-- The word at an entry of a channel's instruction store; one that no load has written is 0, which is END. -/
def storeWord (s : State) (chan idx : Nat) : Word :=
  match s.stores.find? fun w => w.chan = chan && w.idx = idx with
  | some w => w.word
  | none => 0

/-- The poison of an entry of a channel's instruction store (R307). -/
def storeMark (s : State) (chan idx : Nat) : Mark :=
  match s.stores.find? fun w => w.chan = chan && w.idx = idx with
  | some w => w.mark
  | none => 0

/-- One entry of a channel's instruction store written. -/
def putStore (chan idx : Nat) (w : Word) (m : Mark) (s : State) : State :=
  { s with stores := ⟨chan, idx, w, m⟩ :: s.stores.filter fun o => !(o.chan = chan && o.idx = idx) }

/-- The bytes at runs of addresses, read as ordinary loads of the issuing region, with their mark. -/
def readRuns (a : Access) (runs : List (DWord × Nat × Nat)) : M (List Byte × Mark) := do
  raceRuns a runs
  foldL (fun r c => do
    let (b, m) ← readPhys c.2.1 c.2.2
    pure (r.1 ++ b, r.2 ||| m)) ([], 0) runs

/-- The 16-bit elements of a list of bytes. -/
def halves : List Byte → List (BitVec 16)
  | a :: b :: rest => (b ++ a) :: halves rest
  | _ => []

/-- The 32-bit words of a list of bytes. -/
def words4 : List Byte → List Word
  | a :: b :: c :: d :: rest => (d ++ c ++ b ++ a) :: words4 rest
  | _ => []

/-- The stack-command slots that the hart in focus holds (Table 10.1). -/
def stackSlots (s : State) : Nat :=
  (s.hmvs.filter fun j => j.owner = s.hart.party).length + (s.hmloads.filter fun j => j.isOf s.hart).length

/-- Waits for a free stack-command slot. -/
def stackSlot : M Unit := do
  if 8 ≤ (← getS stackSlots) then waitFor .retry (some 0)

/-! ### HMLOAD (R222) -/

/-- The microwords that an HMLOAD is about to read must not be poisoned. -/
def lookMicro (b c : Reg) : M Unit := do
  let (base, _) ← nextX b
  let (r, _) ← nextX c
  if base.toNat % 4 = 0 then
    let acc := { loadAcc .any with order := .unchecked }
    let runs ← rowRuns acc base (4 * bitsAt r 16 10)
    steerCheck (← readRuns acc runs).2

/-- HMLOAD (R372). DESIGN CHOICE (log 98): the microwords are reached as single accesses (the third row of Table 9.2). -/
def execHmload (c b a : Reg) (s : State) : Host.Outcome State Fault Refusal :=
  runUnit (do
    unitStart false
    planishGate
    steerLook [a, b, c] (lookMicro b c)
    let set ← steerX a
    let base ← steerX b
    let r ← steerX c
    let k := bitsAt set 0 4
    let first := bitsAt set 8 6
    let count := bitsAt set 16 7
    let entry := bitsAt r 0 9
    let len := bitsAt r 16 10
    let h ← getH
    if k / 4 ≠ h.die || 64 < first + count || 512 < entry + len then raise causeAccess 0
    needAligned base 4
    let acc := { loadAcc .single with queue := queueHmv }
    let runs ← rowRuns acc base (4 * len)
    let (bs, m) ← readRuns acc runs
    steerCheck m
    let ws := words4 bs
    match ws.find? fun w => !microOk w with
    | some w => raise causeIllegal (zext w)
    | none => pure ()
    stackSlot
    modM fun s =>
      let j : HmloadJob := ⟨h.taskNo, h.tr.lhart.toNat, h.copy, s.free, (fromTo first (first + count)).map (64 * k + ·), entry, ws, 0⟩
      { s with hmloads := s.hmloads ++ [j], free := s.free + 1 }
    pure .seq) s

/-- Is a command or a load that was issued earlier still to reach one of the channels (R222)? -/
def channelBusy (s : State) (seq : Nat) (chans : List Nat) : Bool :=
  (s.hmvs.any fun j => j.seq < seq && j.rows.any fun r => chans.contains r.chan) ||
  s.hmloads.any fun j => j.seq < seq && j.chans.any chans.contains

/-- HMLOAD_COMPLETE (R222): every named channel takes the new microwords, between two commands. -/
def execHmloadComplete (n : Nat) (s : State) : Host.Outcome State Fault Refusal :=
  match s.hmloads[n]? with
  | none => .next s
  | some j =>
    if channelBusy s j.seq j.chans then .next s
    else
      let s := j.chans.foldl (fun s c => (j.words.zipIdx).foldl (fun s w => putStore c (j.first + w.2) w.1 j.mark s) s) s
      .next { s with hmloads := s.hmloads.eraseIdx n }

/-! ### HMV (R223, R224) -/

/-- A command block (Table 10.6). -/
structure HmvCmd where
  tdesc : DWord
  vec   : DWord
  out   : DWord
  r0    : Nat
  nr    : Nat
  entry : Nat
  /-- Every reserved field is zero. -/
  clean : Bool
deriving DecidableEq, Repr

/-- The fields of the 64 bytes of a command block. -/
def hmvCmdOf (v : BitVec 512) : HmvCmd :=
  ⟨v.extractLsb' 0 64, v.extractLsb' 64 64, v.extractLsb' 128 64, (v.extractLsb' 192 32).toNat, (v.extractLsb' 224 32).toNat,
    (v.extractLsb' 256 9).toNat, v.extractLsb' 265 247 = 0⟩

/-- The command block and the descriptor, with checks 1 to 3 of R372. -/
def hmvOperands (cmd bar : DWord) : M (HmvCmd × TDesc) := do
  needAligned cmd 64
  let v ← tryCatch (loadStruct (loadAcc .single) cmd 64) fun e =>
    if bar.toNat % 16 = 0 then throw e else raise causeMisaligned bar
  let k := hmvCmdOf (BitVec.ofNat 512 v)
  needAligned k.tdesc 64
  needAligned k.vec 2
  needAligned k.out 4
  needAligned bar 16
  let d := descOf (BitVec.ofNat 512 (← loadStruct (loadAcc .single) k.tdesc 64))
  if !d.valid || d.tag ≠ 6 || d.fmt ≠ 4 || d.d2 ≠ 1 || d.d3 ≠ 1 || 16384 < d.d0 then raise causeTensor k.tdesc
  pure (k, d)

/-- The rows of a command: number and address. -/
def HmvCmd.rows (k : HmvCmd) (d : TDesc) : List (Nat × DWord) :=
  (fromTo k.r0 (k.r0 + k.nr)).map fun r => (r, d.place true (0, r, 0, 0))

/-- The physical address of an address of the hart in focus, where a translation exists. -/
def reachPa (s : State) (va : DWord) : Option Nat :=
  match findPage s.hart.core s.hart.sr.asid s.hart.sr.ptb va s with
  | .ok (p, _) => some (p.pa + va.toNat % 2 ^ p.size)
  | .error _ => none

/-- The row regions of a PCROW tensor: where each begins, and its bytes (R154). -/
def TDesc.regions (d : TDesc) : List (DWord × Nat) :=
  (upTo (min d.npc d.d1)).map fun g => (BitVec.ofNat 64 (d.base + g * d.chstr), ceilDiv (d.d1 - g) d.npc * d.rowBytes)

/-- Where a row region first strays from one channel-local block of a stack of the hart's die (R224, R372). Pages without a
translation are left to check 5. -/
def strayRow (s : State) (d : TDesc) : Option DWord :=
  d.regions.findSome? fun r =>
    let pages := (copyPages r.1 r.2).filterMap fun c => (reachPa s c.1).map fun pa => (c.1, channelOf s.hart.die pa)
    (pages.find? fun p => p.2.isNone || decide (some p.2 ≠ pages.head?.map (·.2))).map (·.1)

/-- Does OUT lie in one slice of the hart's die, as far as it has a translation? -/
def outPlaced (s : State) (out : DWord) (n : Nat) : Bool :=
  let pas := ((copyPages out n).flatMap fun c => [c.1, c.1 + BitVec.ofNat 64 (c.2 - 1)]).filterMap (reachPa s)
  pas.all fun pa => inSram pa && sliceOf pa / 8 = s.hart.die && pas.all fun p => sliceOf p = sliceOf pa

/-- Check 4 of R372. -/
def hmvPlace (cmd bar : DWord) (k : HmvCmd) (d : TDesc) : M Unit := do
  if bar = 0 then raise causeAccess 0
  if k.nr = 0 || d.d1 < k.r0 + k.nr || !k.clean || (← getH).assay then raise causeAccess cmd
  match (← getS fun s => strayRow s d) with
  | some a => raise causeAccess a
  | none => pure ()
  if !(← getS fun s => outPlaced s k.out (4 * k.nr)) then raise causeAccess k.out

/-- The physical address that runs give an address. -/
def runPa (runs : List (DWord × Nat × Nat)) (va : DWord) : Nat :=
  match runs.find? fun c => decide (c.1.toNat ≤ va.toNat ∧ va.toNat < c.1.toNat + c.2.2) with
  | some c => c.2.1 + (va.toNat - c.1.toNat)
  | none => 0

/-- The pages of a run with their physical addresses. -/
def pageAddrs (a : Access) (va : DWord) (n : Nat) : M (List (DWord × Nat × Nat)) :=
  foldL (fun r c => do
    let pa ← translate a c.1
    bankCheck a c.1 pa c.2
    pure (r ++ [(c.1, pa, c.2)])) [] (copyPages va n)

/-- The command block and the descriptor that an HMV is about to read must not be poisoned. -/
def lookCommand (a : Reg) : M Unit := do
  let (cmd, _) ← nextX a
  if cmd.toNat % 64 = 0 then
    let acc := { loadAcc .any with order := .unchecked }
    let k := hmvCmdOf (BitVec.ofNat 512 (← loadStruct acc cmd 64))
    if k.tdesc.toNat % 64 = 0 then
      let _ ← loadStruct acc k.tdesc 64

/-- HMV (R372). DESIGN CHOICE (log 98): the command block and the descriptor are reached as single accesses (the third row of
Table 9.2). -/
def execHmv (b a : Reg) (s : State) : Host.Outcome State Fault Refusal :=
  runUnit (do
    unitStart false
    planishGate
    steerLook [a, b] (lookCommand a)
    let cmd ← steerX a
    let bar ← steerX b
    let (k, d) ← hmvOperands cmd bar
    hmvPlace cmd bar k d
    let rd := { loadAcc .any with queue := queueHmv }
    let rows ← foldL (fun l r => do
      let runs ← rowRuns rd r.2 (2 * d.d0)
      pure (l ++ [(r.1, runs)])) [] (k.rows d)
    let vec ← rowRuns rd k.vec (2 * d.d0)
    let out ← pageAddrs (storeAcc .any) k.out (4 * k.nr)
    let bacc : Access := ⟨true, true, .any, .sync, none, true, queueHmv⟩
    let bpa ← translate bacc bar
    bankCheck bacc bar bpa 16
    stackSlot
    unprotect
    let (xs, xm) ← readRuns rd vec
    let jobs ← foldL (fun l r => do
      let (ws, m) ← readRuns rd r.2
      let pa := match r.2 with
        | c :: _ => c.2.1
        | [] => 0
      let slot := k.out + BitVec.ofNat 64 (4 * (r.1 - k.r0))
      let chan ← getS fun s => (channelOf s.hart.die pa).getD 0
      pure (l ++ [(⟨chan, runPa out slot, slot, halves ws, m⟩ : HmvRow)])) [] rows
    let h ← getH
    modM fun s =>
      let j : HmvJob :=
        { task := h.taskNo, lhart := h.tr.lhart.toNat, hartid := h.hartid, seq := s.free, entry := k.entry
          x := halves xs, xMark := xm, rows := jobs, dst := out.map (·.2), bar := .bar bpa bar, bytes := 4 * k.nr
          party := engineParty s, owner := h.party, clock := h.snapshot, unit := h.pc }
      { s with hmvs := s.hmvs ++ [j], free := s.free + 1 }
    pure .seq) s

/-- HMWAIT (R225). -/
def execHmwait (s : State) : Host.Outcome State Fault Refusal :=
  runUnit (do
    unitStart false
    if (← getS fun s => hmvPending s s.hart) then waitFor .retry (some 0)
    raceReports fun r => r.kind = queueHmv
    modH fun h => { h with clock := joinClock h.clock h.hmvDone, hmvDone := [] }
    pure .seq) s

/-- The copy that a command's slot writes and barrier update stand for (R224). -/
def HmvJob.copyJob (j : HmvJob) : CopyJob :=
  { task := j.task, lhart := j.lhart, copy := 0, assay := false, asid := 0, hartid := j.hartid, data := [], dst := j.dst
    srcVa := 0, dstVa := 0, count := j.bytes, fin := j.bar, party := j.party, owner := j.owner, clock := j.clock
    unit := j.unit, kind := queueHmv }

/-- CHANNEL_ROW_PROGRAM (R224): a pseudo-channel begins the row program of its next row of a command; commands and loads
that reached it earlier come first. -/
def execChannelRowProgram (n chan : Nat) (s : State) : Host.Outcome State Fault Refusal :=
  match s.hmvs[n]? with
  | none => .next s
  | some j =>
    if s.row.active || channelBusy s j.seq [chan] || !j.rows.any (fun r => r.chan = chan) then .next s
    else .next { s with row := ⟨true, j.seq, chan, j.entry, 0, 0, 0, none⟩ }

/-- HMV_BARRIER_UPDATE (R224): every row of a command is done. -/
def execHmvBarrierUpdate (n : Nat) (s : State) : Host.Outcome State Fault Refusal :=
  match s.hmvs[n]? with
  | none => .next s
  | some j =>
    if !j.rows.isEmpty then .next s
    else
      let s := copyEnd j.copyJob { s with hmvs := s.hmvs.eraseIdx n }
      .next (modParty j.owner (fun h => { h with hmvDone := (j.party, 1) :: h.hmvDone }) s)

/-! ### Microwords (R219, R220) -/

/-- The command whose row program is in progress, and its row. -/
def rowJob (s : State) : Option (Nat × HmvJob × Nat × HmvRow) := do
  let n ← s.hmvs.findIdx? fun j => j.seq = s.row.job
  let j ← s.hmvs[n]?
  let i ← j.rows.findIdx? fun r => r.chan = s.row.chan
  let r ← j.rows[i]?
  some (n, j, i, r)

/-- The row's program ends: the slot is written if the program emitted (R219, R224). -/
def finishRow (s : State) : State :=
  let idle := { s.row with active := false, out := none }
  match rowJob s with
  | none => { s with row := idle }
  | some (n, j, i, r) =>
    let s := match s.row.out with
      | none => s
      | some (y, m) => copyWord j.copyJob r.slotVa ((leBytes 4 y.toNat).zipIdx.map fun (b : Byte × Nat) => (r.slotPa + b.2, b.1, m)) s
    { s with row := idle, hmvs := s.hmvs.set n { j with rows := j.rows.eraseIdx i } }

/-- A microword of the row program in progress; the program stops after 64 microwords or at entry 511 (R219). What a poisoned
microword computes is poisoned (R307). -/
def microStep (f : RowUnit → RowUnit) (s : State) : Host.Outcome State Fault Refusal :=
  if !s.row.active then .next s
  else if s.row.idx = 511 || 64 ≤ s.row.done then .next (finishRow s)
  else
    let k := storeMark s s.row.chan s.row.idx
    let r := f { s.row with mark := s.row.mark ||| k }
    .next { s with row := { r with mark := r.mark ||| k, idx := r.idx + 1, done := r.done + 1 } }

/-- A microword that computes y. -/
def microY (f : BitVec 32 → Nat) : State → Host.Outcome State Fault Refusal :=
  microStep fun r => { r with y := BitVec.ofNat 32 (f r.y) }

/-- A BF16 value in FP32. -/
def wide16 (x : BitVec 16) : Nat := x.toNat * 2 ^ 16

/-- The sum of one bank, over its elements in ascending order (R220). -/
def bankSum (b : Nat) (ws xs : List (BitVec 16)) : Nat :=
  (((ws.zip xs).zipIdx).filter fun p => p.2 / 32 % 16 = b).foldl (fun acc p => (fMa fp32 .rne (wide16 p.1.1) (wide16 p.1.2) acc).1) 0

/-- The ordered dot product of R220. -/
def rowDot (ws xs : List (BitVec 16)) : Nat :=
  (fromTo 1 16).foldl (fun y b => (fAdd fp32 .rne y (bankSum b ws xs)).1) (bankSum 0 ws xs)

/-- END (R219). -/
def execEndRow (s : State) : Host.Outcome State Fault Refusal :=
  let k := storeMark s s.row.chan s.row.idx
  if s.row.active then .next (finishRow { s with row := { s.row with out := s.row.out.map fun o => (o.1, o.2 ||| k) } }) else .next s

/-- DOT (R220). DEDUCED (log 102): a poisoned result has the class of a stack-side result alone. -/
def execDot (s : State) : Host.Outcome State Fault Refusal :=
  match rowJob s with
  | none => microStep id s
  | some (_, j, _, r) => microStep (fun u => { u with y := BitVec.ofNat 32 (rowDot r.weights j.x), mark := if r.mark ||| j.xMark = 0 then 0 else 0x40 }) s

/-- 2^(e − 127) in FP32. -/
def scaleBits (e : Nat) : Nat := if e = 0 then 2 ^ 22 else e * 2 ^ 23

/-- SCALE (R219). -/
def execScale (e : BitVec 8) (s : State) : Host.Outcome State Fault Refusal :=
  microY (fun y => if e = 0xFF then fp32.nan else (fMul fp32 .rne y.toNat (scaleBits e.toNat)).1) s

/-- RELU (R219). -/
def execRelu (s : State) : Host.Outcome State Fault Refusal := microY (fun y => (fMinMax fp32 true y.toNat 0).1) s

/-- ADDC (R219). -/
def execAddc (c : BitVec 16) (s : State) : Host.Outcome State Fault Refusal :=
  microY (fun y => (fAdd fp32 .rne y.toNat (wide16 c)).1) s

/-- EMIT (R219). -/
def execEmit (f : BitVec 1) (s : State) : Host.Outcome State Fault Refusal :=
  microStep (fun u =>
    let v := if f = 0 then u.y else BitVec.ofNat 32 (fConvert fp32 bf16 .rne u.y.toNat).1
    { u with out := some (v, u.mark) }) s

/-! ### Reductions on the network (R207, R208) -/

/-- The operands of constituents combined by the packet's operation. -/
def combineParts (op bytes : Nat) (ps : List PacketPart) : BitVec 64 × Mark :=
  match ps with
  | [] => (0, 0)
  | p :: rest => rest.foldl (fun r q => (BitVec.ofNat 64 (amoNew op bytes r.1.toNat q.operand.toNat 0).1, r.2 ||| q.mark))
      (p.operand, p.mark)

/-- Do two packets act on one copy's memory (R316)? -/
def sameSide (a b : Packet) : Bool :=
  match a.parts, b.parts with
  | p :: _, q :: _ => (!p.assay && !q.assay) || (p.assay && q.assay && p.task = q.task && p.copy = q.copy)
  | _, _ => false

/-- May a router merge two packets (R207)? -/
def mergeable (a b : Packet) : Bool :=
  a.asid = b.asid && a.pa = b.pa && a.op = b.op && a.bytes = b.bytes && !a.det && !b.det && sameSide a b &&
  1 ≤ a.op.toNat && a.op.toNat ≤ 11

/-- Does a packet wait for another: do they touch one word and come from one hart? A hart's operations on a word are applied in
its program order (R125). -/
def Packet.follows (k o : Packet) : Bool :=
  (wordsOf o.pa o.bytes).any (wordsOf k.pa k.bytes).contains && o.parts.any fun p => k.parts.any fun q =>
    p.task = q.task && p.lhart = q.lhart && p.copy = q.copy

/-- REDUCTION_MERGE (R207): no packet between the two is one that the later must follow. -/
def execReductionMerge (i j : Nat) (s : State) : Host.Outcome State Fault Refusal :=
  match s.packets[i]?, s.packets[j]? with
  | some a, some b =>
    if i < j && mergeable a b && !((s.packets.take j).drop (i + 1)).any b.follows then
      let v := BitVec.ofNat 64 (amoNew a.op.toNat a.bytes a.operand.toNat b.operand.toNat 0).1
      .next { s with packets := (s.packets.eraseIdx j).set i { a with operand := v, mark := a.mark ||| b.mark, parts := a.parts ++ b.parts } }
    else .next s
  | _, _ => .next s

/-- The key of a word in the race detector for a constituent (R316). -/
def PacketPart.key (p : PacketPart) (w : Nat) : Nat :=
  (⟨p.assay, p.task, p.copy⟩ : Side).home w

/-- The hart of a constituent. -/
def PacketPart.party (p : PacketPart) : Nat := partyNo p.task p.lhart p.copy

/-- The reports of a constituent that races: one for each earlier ordinary access (R234, R235). -/
def partRace (s : State) (pa bytes : Nat) (p : PacketPart) : List RaceReport :=
  ((wordsOf pa bytes).filter raceChecked).flatMap fun w =>
    (conflicts s (p.key w) p.party p.clock true false none).map fun c => ⟨p.unit, wordVa p.va pa w, c.hartid, queueNet⟩

/-- The records of a constituent's read and write. -/
def partNote (pa bytes : Nat) (p : PacketPart) (s : State) : State :=
  (wordsOf pa bytes).foldl (fun s w =>
    if !raceChecked w then s
    else
      let r : WordAccess :=
        ⟨p.key w, p.party, p.party, p.hartid.setWidth 64, p.region, false, false, false, wordVa p.va pa w, p.unit, none, queueNet⟩
      recordAccess { r with write := true } (recordAccess r s)) s

/-- The constituents of a packet that take effect, in turn: one that races is reported to its hart instead (R235). -/
def admitParts (pa bytes : Nat) (ps : List PacketPart) (s : State) : List PacketPart × State :=
  ps.foldl (fun r p =>
    let reports := partRace r.2 pa bytes p
    if !reports.isEmpty && partyRd r.2 p.party then
      (r.1, modParty p.party (fun h => { h with races := h.races ++ reports }) r.2)
    else (r.1 ++ [p], partNote pa bytes p r.2)) ([], s)

/-- Each constituent's hart has read what the home held before it; FENCE of kind 1 may use that where no later RMW or acquire
of the hart has followed (R238, R232). -/
def partsRead (rs : List Release) (ps : List PacketPart) (s : State) : State :=
  (ps.foldl (fun (r : List Release × State) p =>
    (p.rel ++ r.1, modParty p.party (fun h =>
      if h.lastNo = p.no then { h with lastAcq := r.1, lastCore := p.hartid.toNat / 4 } else h) r.2)) (rs, s)).2

/-- A packet applied at its home as one read-modify-write (R207, R240). DEDUCED (log 114): one of another cluster's hart that was on
its way when the home's cluster was reset is applied there too (R212). -/
def applyPacket (k : Packet) (s : State) : State :=
  let (ps, s) := admitParts k.pa k.bytes k.parts s
  match ps with
  | [] => s
  | p :: _ =>
    let (v, m) := if ps.length = k.parts.length then (k.operand, k.mark) else combineParts k.op.toNat k.bytes ps
    let d : Side := ⟨p.assay, p.task, p.copy⟩
    let s := (wordsOf k.pa k.bytes).foldl (fun s w => findErrorBy (p.hartid.toNat / 256) 0xFFFF w s) s
    let old := leNat ((fromTo k.pa (k.pa + k.bytes)).map (homeByte s d))
    let mo := (wordsOf k.pa k.bytes).foldl (fun m w => m ||| homeMark s d w) 0
    let new := (amoNew k.op.toNat k.bytes old v.toNat 0).1
    let s := commitSide d k.pa p.va (leBytes k.bytes new) (mo ||| m) s
    joinRels (d.home k.pa) k.bytes (ps.flatMap (·.rel)) (partsRead (relsOf s (d.seen s k.pa) k.bytes) ps s)

/-- Does a packet wait for an earlier one? -/
def packetBehind (s : State) (n : Nat) (k : Packet) : Bool := (s.packets.take n).any k.follows

/-- REDUCTION_PACKET_APPLY (R207). -/
def execReductionPacketApply (n : Nat) (s : State) : Host.Outcome State Fault Refusal :=
  match s.packets[n]? with
  | none => .next s
  | some k =>
    if packetBehind s n k then .next s
    else .next (applyPacket k { s with packets := s.packets.eraseIdx n })

/-! ### Links (R210, R211) -/

/-- Does the device have the link? -/
def linkExists : LinkId → Bool
  | .dieToDie a b => a < b && b < 4
  | .dieToHub d => d < 4
  | .fabric p => p < 8
  | .golrok k => k < 16

/-- The die in whose black box a link's events are recorded. -/
def linkDie : LinkId → Nat
  | .dieToDie a _ => a
  | .dieToHub d => d
  | .fabric _ => 0
  | .golrok k => k / 4

/-- The flit that a link has last replayed, and how often in a row. -/
def lastReplay (s : State) (l : LinkId) : BitVec 12 × Nat := ((s.replays.find? fun r => r.1 = l).map (·.2)).getD (0, 0)

/-- The state with that replaced; a count of 0 is no replay. -/
def setReplays (l : LinkId) (seq : BitVec 12) (n : Nat) (s : State) : State :=
  let rest := s.replays.filter fun r => r.1 ≠ l
  { s with replays := if n = 0 then rest else (l, seq, n) :: rest }

/-- FLIT_REPLAY (R210): every flit still arrives once and in order, so nothing but the count changes. -/
def execFlitReplay (f : Flit) (s : State) : Host.Outcome State Fault Refusal :=
  if !linkExists f.link || s.fencedLinks.contains f.link then .next s
  else
    let (q, n) := lastReplay s f.link
    .next (setReplays f.link f.seq (if q = f.seq then min 8 (n + 1) else 1) s)

/-- The record of a link's retraining or fencing. DESIGN CHOICE (log 56): its DATA is 0. -/
def logLink (l : LinkId) (s : State) : State := logBlack (linkDie l) 0x07 0xFFFF 0 s

/-- LINK_RETRAIN (R211): after 8 replays of one flit; a link that cannot retrain keeps its count until it is fenced. -/
def execLinkRetrain (l : LinkId) (ok : Bool) (s : State) : Host.Outcome State Fault Refusal :=
  if !linkExists l || s.fencedLinks.contains l || (lastReplay s l).2 < 8 then .next s
  else .next (logLink l (if ok then setReplays l 0 0 s else s))

/-- Changes every hart, in a slot or saved. -/
def mapHarts (f : Hart → Hart) (s : State) : State :=
  { s with hart := f s.hart, others := s.others.map f, saved := s.saved.map fun v => { v with hart := f v.hart } }

/-- A CRED whose root can no longer answer finds LOST (Table 13.5). -/
def loseCred (which : CredId → Bool) (h : Hart) : Hart :=
  match h.credId with
  | some k => if which k && h.cred.isNone then { h with cred := some ⟨0x07, 0, 0, 0, 0⟩ } else h
  | none => h

/-- The windows of a peer to which no port leads any more become unmapped (Table 10.2): posted AMOs to them are lost, with the
fabric class set in CIR, and its collective root is unreachable. -/
def unmapWindows (peer : BitVec 16) (s : State) : State :=
  let s := { s with windows := s.windows.filter fun w => w.2 ≠ peer }
  let gone := fun (k : Packet) => 0x800000000000 ≤ k.pa && !physMapped s k.pa
  let lost := (s.packets.filter gone).flatMap (·.parts)
  let s := mapHarts (loseCred fun k => !k.here && k.root = peer) { s with packets := s.packets.filter fun k => !gone k }
  lost.foldl (fun s p =>
    modParty p.party (fun h => { h with tr := { h.tr with cir := h.tr.cir ||| 16 } }) s) s

/-- A link is fenced (Table 10.2). -/
def fenceLink (s : State) (l : LinkId) : State :=
  if s.fencedLinks.contains l then s
  else
    let s := logLink l (setReplays l 0 0 { s with fencedLinks := s.fencedLinks ++ [l] })
    match l with
    | .fabric p =>
      let peer := Config.portPeer p
      let last := (upTo 8).all fun q => Config.portPeer q ≠ peer || s.fencedLinks.contains (.fabric q)
      if last then unmapWindows peer s else s
    | _ => s

/-- LINK_FENCE (R211). -/
def execLinkFence (l : LinkId) (s : State) : Host.Outcome State Fault Refusal :=
  .next (if linkExists l then fenceLink s l else s)

/-! ### Cluster reset (R212, R321) -/

/-- The tasks with harts on a cluster, saved harts excepted. -/
def tasksOn (c : Nat) (s : State) : List Nat :=
  ((s.hart :: s.others).filter fun h => h.status ≠ .idle && h.cluster = c).map (·.taskNo) |>.eraseDups

/-- The receiver of a push that is lost takes no more delivery: its register is no longer claimed (R212, R215). -/
def unclaim (p : PushJob) (s : State) : State :=
  modPeer p.task p.peer p.copy (claimParts p.reg) (fun h => { h with fe := h.fe.setIfInBounds p.reg .full }) s

/-- The copies, pushes and reductions of a cluster's harts that are lost with it; each is recorded where its packet is discarded
(R212). DESIGN CHOICE (log 55): DATA is a packet's physical address, a copy's first destination address, or a push's register. -/
def dropTraffic (c : Nat) (s : State) : State :=
  let mine := fun (id : BitVec 10) => id.toNat / 32 = c
  let gone := fun (k : Packet) => k.parts.all fun p => mine p.hartid
  let here := fun (t l copy : Nat) => (s.hart :: s.others).any fun h =>
    h.status ≠ .idle && h.cluster = c && h.owns t l && h.copy = copy
  let pushed := s.pushes.filter fun p => here p.task p.lhart p.copy
  let copied := s.copies.filter fun j => mine j.hartid
  let lost := (s.packets.filter gone).map (·.pa) ++ copied.map (fun j => ((j.dst.head?).map (·.1)).getD 0) ++
    pushed.map (·.reg)
  let s := { s with
    packets := s.packets.filter fun k => !gone k
    copies := s.copies.filter fun j => !mine j.hartid
    pushes := s.pushes.filter fun p => !here p.task p.lhart p.copy }
  lost.foldl (fun s a => logBlack (c / 8) 0x08 0xFFFF (BitVec.ofNat 128 a) s) (pushed.foldl (fun s p => unclaim p s) s)

/-- A cluster is taken out of service: its packets are lost and the tasks with harts there end with status 0x03. -/
def resetCluster (c : Nat) (s : State) : State :=
  let ts := tasksOn c s
  let s := dropTraffic c { s with fencedClusters := if s.fencedClusters.contains c then s.fencedClusters else s.fencedClusters ++ [c] }
  ts.foldl (fun s t => killTask t s) s

/-- CLUSTER_RESET (R212). -/
def execClusterReset (c : Nat) (s : State) : Host.Outcome State Fault Refusal :=
  .next (if c < 32 then resetCluster c s else s)

/-- CLUSTER_RETURN_TO_SERVICE (R212, R321): the failing banks of a cluster that has been reset are repaired, and accesses to
its slice stop raising the access fault. -/
def execClusterReturnToService (r : ServicedCluster) (s : State) : Host.Outcome State Fault Refusal :=
  if 32 ≤ r.cluster || !s.fencedClusters.contains r.cluster then .next s
  else
    let s := (r.banks.filter (· < 127)).foldl (fun s b => serviceBank s (r.cluster, b)) s
    .next { s with fencedClusters := s.fencedClusters.filter (· ≠ r.cluster) }

/-! ### Golrok (R226 to R228) -/

/-- Does an entry of Table 10.7 admit a request? -/
def golrokAdmits (e : BitVec 128) (fid : BitVec 16) (a n : Nat) : Bool :=
  e.getLsbD 31 && e.getLsbD 30 && e.extractLsb' 0 16 = fid &&
  decide ((e.extractLsb' 32 24).toNat ≤ a / 4096 ∧ (a + n - 1) / 4096 ≤ (e.extractLsb' 64 24).toNat)

/-- Is a request served (R226, R227)? -/
def golrokServes (s : State) (stack : Nat) (fid : BitVec 16) (a n : Nat) : Bool :=
  !s.fencedLinks.contains (.golrok stack) && decide (64 ≤ n ∧ n ≤ 4096 ∧ n % 64 = 0 ∧ a % 64 = 0 ∧ a + n ≤ stackBytes) &&
  s.golrok.any fun g => g.stack = stack && golrokAdmits g.entry fid a n

/-- What leaves the device for a read of `n` bytes: the bytes, and each word's poison. -/
def dataAnswer (s : State) (pa n : Nat) : PortAnswer :=
  .data (memBytes s.mem pa n) ((wordsOf pa n).map fun w => wordMark s w ≠ 0)

/-- A word read at a Golrok port: one with an uncorrectable error is recorded, also where it has been found before (R228). -/
def golrokWord (die : Nat) (w : Nat) (s : State) : State :=
  if s.latent.contains w || wordMark s w = 0 then findErrorBy die 0xFFFF w s
  else logBlack die 0x02 0xFFFF (BitVec.ofNat 128 w) s

/-- GOLROK_READ (R227, R228). -/
def execGolrokRead (stack : Nat) (fid : BitVec 16) (a n : Nat) (s : State) : Host.Outcome State Fault Refusal :=
  if 16 ≤ stack then .next s
  else if !golrokServes s stack fid a n then
    .next (logBlack (stack / 4) 0x09 0xFFFF (BitVec.ofNat 128 a) { s with port := .refused 0x09 })
  else
    let pa := stack * stackBytes + a
    let s := (wordsOf pa n).foldl (fun s w => golrokWord (stack / 4) w s) s
    .next { s with port := dataAnswer s pa n }

/-- The defined bits of an entry (Table 10.7). -/
def golrokMask : BitVec 128 := BitVec.ofNat 128 (0xC000FFFF + 0xFFFFFF * 2 ^ 32 + 0xFFFFFF * 2 ^ 64)

/-- One entry of a stack's table written. -/
def setGolrok (stack idx : Nat) (e : BitVec 128) (s : State) : State :=
  { s with golrok := ⟨stack, idx, e &&& golrokMask⟩ :: s.golrok.filter fun g => !(g.stack = stack && g.idx = idx) }

/-- GOLROK_TABLE_WRITE (R227). -/
def execGolrokTableWrite (stack idx : Nat) (e : BitVec 128) (s : State) : Host.Outcome State Fault Refusal :=
  .next (if stack < 16 ∧ idx < 256 then setGolrok stack idx e s else s)

end Sys2Proof.Machine
end

