-- ==== Sys2Proof/Machine/Filigree.lean ====
section
/-!
DEFINITION. The Filigree unit: QLOAD (R282, R283) and QGEN.V (R284 to R287). A slot is context of its hart; a use makes it
resident (R280).
-/

namespace Sys2Proof.Machine

/-- QLOAD (R410): whatever stops it, it executes again from the start, with VES 0 (R282). -/
def execQload (b a : Reg) (s : State) : Host.Outcome State Fault Refusal :=
  runUnit (do
    unitStart false
    steerLook [b] (lookStruct b 4 0 4)
    let x ← steerX b
    needAligned x 4 (some 0)
    let acc := loadAcc .single (some 0)
    let pa ← translate acc x
    raceCheck acc x pa 4
    let (hb, hm) ← readPhys pa 4
    steerCheck hm (some 0)
    let hd := leNat hb
    let n := hd % 256
    if hd / 256 ≠ 0 || n = 0 || 128 < n then raise causeAccess x (some 0)
    let runs ← rowRuns acc x (4 + 132 * n)
    raceRuns acc runs
    let img ← foldL (fun l r => do
      let w ← foldL (fun l i => do
        let (bs, m) ← readPhys (r.2.1 + 4 * i) 4
        pure (l ++ [(BitVec.ofNat 32 (leNat bs), m)])) [] (upTo (r.2.2 / 4))
      pure (l ++ w)) [] runs
    let body := img.drop 1
    consume (body.foldl (fun m w => m ||| w.2) 0)
    let f : FSlot := ⟨n, body.map (·.1), body.map (·.2), true⟩
    modH fun h => { h with filigree := h.filigree.setIfInBounds a.toNat f }
    modM fun s => useSlot s.hart a.toNat s
    pure .seq) s

/-- The coordinate of point `i` in dimension `d` of a slot (R285). -/
def FSlot.point (f : FSlot) (d : Nat) (i : Nat) : Nat :=
  (upTo 32).foldl (fun p k => if i.testBit k then p ^^^ ((f.words[33 * d + k]?).getD 0).toNat else p)
    ((f.words[33 * d + 32]?).getD 0).toNat

/-- The marks of a dimension's words. -/
def FSlot.dimMark (f : FSlot) (d : Nat) : Mark := (upTo 33).foldl (fun m k => m ||| (f.marks[33 * d + k]?).getD 0) 0

/-- The FP32 value of (p >> 8) · 2^−24, exact (R285). -/
def unitFloat (p : Nat) : Nat := (roundDyadic fp32 .rne false (p / 256) (-24)).1

/-- QGEN.V (R409). -/
def qgen (flt : Bool) (p m : BitVec 1) (s t d : Reg) : M Flow := do
  unitStart false
  planishOut d
  steerLook [t, s]
  let w ← steerX t
  let base ← steerX s
  let h ← getH
  let f := (h.filigree[bitsAt w 8 2]?).getD FSlot.reset
  let k := bitsAt w 0 7
  if w.toNat / 1024 ≠ 0 || bitAt w 7 || f.ndim ≤ k then illegal
  modM fun s => useSlot s.hart (bitsAt w 8 2) s
  let f := ((← getH).filigree[bitsAt w 8 2]?).getD FSlot.reset
  let c ← vecCtx p m
  let c := { c with vl := min c.vl (h.vlmaxW 32) }
  elementwise c d 32 fun e => do
    let v := f.point k ((base.toNat + e) % 2 ^ 32)
    consume (f.dimMark k)
    pure (if flt && 256 ≤ v then unitFloat v else if flt then 0 else v, f.dimMark k)

/-- QGEN.V.FRAC (R409). -/
def execQgenVFrac (p m : BitVec 1) (s t d : Reg) (st : State) := runUnit (qgen false p m s t d) st
/-- QGEN.V.FP32 (R409). -/
def execQgenVFp32 (p m : BitVec 1) (s t d : Reg) (st : State) := runUnit (qgen true p m s t d) st

end Sys2Proof.Machine
end

