-- ==== Sys2Proof/Machine/Crypto.lean ====
section
/-!
DEFINITION. The schemes that R326 and R328 name: SHA-384, and ECDSA on the curve brainpoolP384r1 of RFC 5639. PRESUMED
(log 23): the definitions and the curve's constants are those of the standards that the manual names.
-/

namespace Sys2Proof.Machine

/-! ### SHA-384 -/

/-- The largest number below `acc + 2^b` whose `k`-th power is at most `x`, found from bit b - 1 down. -/
def rootOf (k x : Nat) : Nat → Nat → Nat
  | 0, acc => acc
  | b + 1, acc => rootOf k x b (if (acc + 2 ^ b) ^ k ≤ x then acc + 2 ^ b else acc)

/-- The first 80 primes. -/
def shaPrimes : List Nat := (fromTo 2 410).filter fun n => (fromTo 2 n).all fun d => n % d ≠ 0

/-- The round constants: the first 64 bits of the fractions of the primes' cube roots. -/
def shaConsts : List DWord := shaPrimes.map fun p => BitVec.ofNat 64 (rootOf 3 (p * 2 ^ 192) 67 0)

/-- The eight working variables, a first. -/
structure ShaState where
  a : DWord
  b : DWord
  c : DWord
  d : DWord
  e : DWord
  f : DWord
  g : DWord
  h : DWord
deriving DecidableEq, Repr

/-- The initial hash value: the first 64 bits of the fractions of the square roots of the ninth to sixteenth primes. -/
def shaInit : ShaState :=
  let v := fun i => BitVec.ofNat 64 (rootOf 2 (((shaPrimes[8 + i]?).getD 0) * 2 ^ 128) 68 0)
  ⟨v 0, v 1, v 2, v 3, v 4, v 5, v 6, v 7⟩

/-- One round with a constant and a schedule word. -/
def ShaState.round (s : ShaState) (k w : DWord) : ShaState :=
  let s1 := s.e.rotateRight 14 ^^^ s.e.rotateRight 18 ^^^ s.e.rotateRight 41
  let ch := (s.e &&& s.f) ^^^ (~~~s.e &&& s.g)
  let t1 := s.h + s1 + ch + k + w
  let s0 := s.a.rotateRight 28 ^^^ s.a.rotateRight 34 ^^^ s.a.rotateRight 39
  let maj := (s.a &&& s.b) ^^^ (s.a &&& s.c) ^^^ (s.b &&& s.c)
  ⟨t1 + (s0 + maj), s.a, s.b, s.c, s.d + t1, s.e, s.f, s.g⟩

/-- `n` more words of a block's schedule, which stands the latest first. -/
def shaSchedule : Nat → List DWord → List DWord
  | 0, l => l
  | n + 1, l =>
    let w := fun (i : Nat) => (l[i]?).getD (0 : DWord)
    let s1 := (w 1).rotateRight 19 ^^^ (w 1).rotateRight 61 ^^^ (w 1 >>> 6)
    let s0 := (w 14).rotateRight 1 ^^^ (w 14).rotateRight 8 ^^^ (w 14 >>> 7)
    shaSchedule n ((s1 + w 6 + s0 + w 15) :: l)

/-- The big-endian number of some bytes. -/
def beNat (l : List Byte) : Nat := leNat l.reverse

/-- `n` bytes of a number, the most significant first. -/
def beBytes (n v : Nat) : List Byte := (leBytes n v).reverse

/-- A hash value after a block of 128 bytes. -/
def ShaState.block (s : ShaState) (b : List Byte) : ShaState :=
  let ws := (upTo 16).map fun i => BitVec.ofNat 64 (beNat ((b.drop (8 * i)).take 8))
  let t := (shaConsts.zip (shaSchedule 64 ws.reverse).reverse).foldl (fun t p => t.round p.1 p.2) s
  ⟨s.a + t.a, s.b + t.b, s.c + t.c, s.d + t.d, s.e + t.e, s.f + t.f, s.g + t.g, s.h + t.h⟩

/-- A message with its padding: one bit, zeros, and the length in bits as 16 bytes. -/
def shaPad (m : List Byte) : List Byte :=
  m ++ [0x80] ++ List.replicate ((256 - (m.length + 17) % 128) % 128) 0 ++ beBytes 16 (8 * m.length)

/-- The SHA-384 digest of a message, 48 bytes. -/
def sha384 (m : List Byte) : List Byte :=
  let p := shaPad m
  let s := (upTo (p.length / 128)).foldl (fun s i => s.block ((p.drop (128 * i)).take 128)) shaInit
  -- SHA-384 keeps the first six of the eight words
  [s.a, s.b, s.c, s.d, s.e, s.f].flatMap fun w => beBytes 8 w.toNat

/-! ### brainpoolP384r1 -/

/-- The field's prime. -/
def curveP : Nat :=
  0x8CB91E82A3386D280F5D6F7E50E641DF152F7109ED5456B412B1DA197FB71123ACD3A729901D1A71874700133107EC53
/-- The coefficient A. -/
def curveA : Nat :=
  0x7BC382C63D8C150C3C72080ACE05AFA0C2BEA28E4FB22787139165EFBA91F90F8AA5814A503AD4EB04A8C7DD22CE2826
/-- The coefficient B. -/
def curveB : Nat :=
  0x04A8C7DD22CE28268B39B55416F0447C2FB77DE107DCD2A62E880EA53EEB62D57CB4390295DBC9943AB78696FA504C11
/-- The order of the group. -/
def curveQ : Nat :=
  0x8CB91E82A3386D280F5D6F7E50E641DF152F7109ED5456B31F166E6CAC0425A7CF3AB6AF6B7FC3103B883202E9046565
/-- The base point. -/
def curveG : Nat × Nat :=
  (0x1D1C64F068CF45FFA2A63A81B7C13F6B8847A3E77EF14FE3DB7FCAFE0CBD10E8E826E03436D646AAEF87B2E247D4AF1E,
   0x8ABE1D7520F9C2A45CB1EB8E95CFD55262B70B29FEEC5864E19C054FF99129280E4646217791811142820341263C5315)

/-- A power modulo `m`, over the exponent's 384 bits. -/
def powMod (m b e : Nat) : Nat :=
  (upTo 384).foldr (fun i acc => let sq := acc * acc % m; if e / 2 ^ i % 2 = 1 then sq * b % m else sq) 1

/-- The inverse modulo a prime. -/
def invMod (m b : Nat) : Nat := powMod m b (m - 2)

/-- A point of the curve; none is the point at infinity. -/
abbrev CurvePoint := Option (Nat × Nat)

/-- Is a point on the curve? -/
def onCurve (p : Nat × Nat) : Bool :=
  p.1 < curveP && p.2 < curveP && p.2 * p.2 % curveP = (p.1 * p.1 * p.1 + curveA * p.1 + curveB) % curveP

/-- The sum of two points. -/
def curveAdd : CurvePoint → CurvePoint → CurvePoint
  | none, q => q
  | p, none => p
  | some (x, y), some (u, v) =>
    let line := fun (l : Nat) =>
      let z := (l * l + 2 * curveP - x - u) % curveP
      some (z, (l * (x + curveP - z) + curveP - y) % curveP)
    if x ≠ u then line ((v + curveP - y) * invMod curveP ((u + curveP - x) % curveP) % curveP)
    else if (y + v) % curveP = 0 then none
    else line ((3 * x * x + curveA) * invMod curveP (2 * y % curveP) % curveP)

/-- A multiple of a point, over the factor's 384 bits. -/
def curveMul (k : Nat) (p : CurvePoint) : CurvePoint :=
  (upTo 384).foldr (fun i acc => let dbl := curveAdd acc acc; if k / 2 ^ i % 2 = 1 then curveAdd dbl p else dbl) none

/-! ### ECDSA -/

/-- Does (r, s) sign a message under a public key? -/
def ecdsaVerify (key : Nat × Nat) (m : List Byte) (r s : Nat) : Bool :=
  let w := invMod curveQ s
  let e := beNat (sha384 m)
  let pt := curveAdd (curveMul (e * w % curveQ) (some curveG)) (curveMul (r * w % curveQ) (some key))
  onCurve key && 1 ≤ r && r < curveQ && 1 ≤ s && s < curveQ && pt.any fun p => p.1 % curveQ = r

/-- The signature of a message by a secret key, with the number `k` drawn for it. -/
def ecdsaSign (d k : Nat) (m : List Byte) : Nat × Nat :=
  match curveMul k (some curveG) with
  | none => (0, 0)
  | some (x, _) =>
    let r := x % curveQ
    (r, invMod curveQ k * (beNat (sha384 m) + r * d) % curveQ)

end Sys2Proof.Machine
end

