-- ==== Sys2Proof/Machine/Matrix.lean ====
section
/-!
DEFINITION. The Swage matrix engine (R164 to R181, R388, R393 to R397, R400, R415, R436): each matrix instruction takes
its effect when it issues, in program order (R169), and stays in the matrix queue until the engine reports it complete.
-/

namespace Sys2Proof.Machine

/-! ### The engine -/

/-- The engine of the hart, or the no-matrix trap (R164, R85). -/
def needEngine : M Swage := do
  let h ← getH
  match h.swage with
  | some w => pure w
  | none => raise causeNoMatrix (zext h.ir)

/-- The engine as the effects so far have left it. -/
def getEngine : M Swage := do
  let h ← getH
  pure (h.swage.getD Swage.granted)

/-- Changes the engine. -/
def modEngine (f : Swage → Swage) : M Unit := modH fun h => { h with swage := h.swage.map f }

/-- Issue of a matrix instruction that goes to the queue stalls while the queue holds 16 (R169). -/
def queueIssue : M Unit := do
  let w ← getEngine
  if 16 ≤ w.queue.length then waitFor .retry (← getH).tr.ves.toNat

/-- The instruction enters the queue. -/
def queuePush (maj : BitVec 7) : M Unit := modEngine fun w => { w with queue := w.queue ++ [⟨maj⟩] }

/-- Is a shape's format a BX format (R166)? -/
def bxShape (fmt : BitVec 4) : Bool := 2 ≤ fmt.toNat

/-- The BX format code of Table 2.1 of a shape's format. -/
def bxCode (fmt : BitVec 4) : Nat := 5 + fmt.toNat

/-- RBy of a shape (R167). -/
def Swage.rowBytes (w : Swage) : Nat :=
  match w.fmt.toNat with
  | 0 => 2 * w.k
  | 1 => w.k
  | _ => w.k / 16 * (if w.fmt = 2 then 18 else if w.fmt = 3 then 12 else 8)

/-- Bytes `lo` to `lo + n − 1` of a row of a tile replaced. -/
def setRowBytes (t : TileBits) (row lo n v : Nat) : TileBits :=
  let old := elemOf t 2048 row
  setElemOf t 2048 row
    (old % 2 ^ (8 * lo) + v % 2 ^ (8 * n) * 2 ^ (8 * lo) + old / 2 ^ (8 * (lo + n)) * 2 ^ (8 * (lo + n)))

/-- Bytes of one row of operand tile `a` written, with their marks. -/
def Swage.setOperand (w : Swage) (a row lo : Nat) (data : List (Byte × Mark)) : Swage :=
  let n := data.length
  { w with mt := w.mt.setIfInBounds a (setRowBytes (tileAt w.mt a) row lo n (leNat (data.map (·.1))))
           mtMark := w.mtMark.setIfInBounds a (setRowBytes (tileAt w.mtMark a) row lo n (leNat (data.map (·.2))))
           dirty := w.dirty ||| BitVec.ofNat 16 (2 ^ a) }

/-- Accumulator `a` replaced. -/
def Swage.setAcc (w : Swage) (a : Nat) (t m : TileBits) : Swage :=
  { w with ma := w.ma.setIfInBounds a t, maMark := w.maMark.setIfInBounds a m
           dirty := w.dirty ||| BitVec.ofNat 16 (2 ^ (8 + a)) }

/-- Partial tile `a` replaced. -/
def Swage.setPart (w : Swage) (a : Nat) (t m : TileBits) : Swage :=
  { w with pa := w.pa.setIfInBounds a t, paMark := w.paMark.setIfInBounds a m
           dirty := w.dirty ||| BitVec.ofNat 16 (2 ^ (12 + a)) }

/-! ### Shapes (R166) -/

/-- `g` times the quotient of `v` by `g`, rounded up. -/
def roundTo (g v : Nat) : Nat := g * ((v + g - 1) / g)

/-- The grant of R166: M, N and K. -/
def shapeGrant (fmt : Nat) (mr nr kr : Nat) : Nat × Nat × Nat :=
  if mr = 0 || nr = 0 || kr = 0 then (0, 0, 0)
  else
    let k := if fmt = 0 then min (roundTo 16 kr) 128 else if fmt = 1 then min (roundTo 32 kr) 256 else 128
    (roundTo 4 (min mr 64), roundTo 4 (min nr 64), k)

/-- TSHAPE. -/
def tshape (fmt : Nat) (b d : Reg) : M Flow := do
  unitStart false
  let _ ← needEngine
  destX d
  let rq ← steerX b
  let (m, n, k) := shapeGrant fmt (bitsAt rq 0 8) (bitsAt rq 8 8) (bitsAt rq 16 16)
  modEngine fun w => { w with m := m, n := n, k := k, fmt := BitVec.ofNat 4 fmt }
  setX d (BitVec.ofNat 64 (k * 65536 + n * 256 + m)) 0
  pure .seq

/-- TSHAPE.BF16 (R436). -/
def execTshapeBf16 (b d : Reg) (s : State) := runUnit (tshape 0 b d) s
/-- TSHAPE.INT8 (R436). -/
def execTshapeInt8 (b d : Reg) (s : State) := runUnit (tshape 1 b d) s
/-- TSHAPE.BX7 (R436). -/
def execTshapeBx7 (b d : Reg) (s : State) := runUnit (tshape 2 b d) s
/-- TSHAPE.BX4 (R436). -/
def execTshapeBx4 (b d : Reg) (s : State) := runUnit (tshape 3 b d) s
/-- TSHAPE.BX2 (R436). -/
def execTshapeBx2 (b d : Reg) (s : State) := runUnit (tshape 4 b d) s

/-! ### Rows in memory (R170) -/

/-- A row read for the engine: its bytes, each with its word's mark. A race is reported later (R181). -/
def readRow (reach : Reach) (row : Nat) (va : DWord) (n : Nat) : M (List (Byte × Mark)) := do
  let a := { loadAcc reach row with queue := queueMat }
  let runs ← rowRuns a va n
  forEach runs fun c => packetHold a c.2.1 c.2.2
  forEach runs fun c => modH (Hart.reached a c.2.1)
  let data ← foldL (fun r c => do
    forEach (wordsOf c.2.1 c.2.2) fun w => raceWordLate a c.1 c.2.1 c.2.2 w queueMat
    forEach (wordsOf c.2.1 c.2.2) fun w => modM (findError w)
    let l ← getS fun s => (fromTo c.2.1 (c.2.1 + c.2.2)).map fun p => (viewByte s p, viewMark s p 1)
    pure (r ++ l)) [] runs
  consume (data.foldl (fun m b => m ||| b.2) 0)
  pure data

/-- A row of elements of `w` bytes stored: every byte is checked before any is stored. -/
def writeRow (row : Nat) (va : DWord) (w : Nat) (elems : List (Nat × Mark)) : M Unit := do
  let a := { storeAcc .single row with queue := queueMat }
  let runs ← rowRuns a va (w * elems.length)
  raceRuns a runs
  let places := runs.flatMap fun c => (upTo (c.2.2 / w)).map fun k => (c.1 + BitVec.ofNat 64 (k * w), c.2.1 + k * w)
  forEach (places.zip elems) fun p => do
    bufferedStore p.1.2 p.1.1 (leBytes w p.2.1) p.2.2

/-! ### MLD and MLDX (R171 to R173) -/

/-- The harts whose operand tiles a broadcast reaches (R172), but for the issuing one. -/
def Hart.inMeshRow (h o : Hart) : Bool :=
  o.status = .running && o.taskNo = h.taskNo && o.copy = h.copy && o.die = h.die &&
    o.cluster % 8 / 4 = h.cluster % 8 / 4 && o.hartid ≠ h.hartid

/-- A hart with bytes delivered to a row of a tile. -/
def Hart.takeRow (a row lo : Nat) (data : List (Byte × Mark)) (o : Hart) : Hart :=
  { o with swage := o.swage.map fun w => w.setOperand a row lo data }

/-- Bytes delivered to a row of a tile: the hart's own, and every receiver's under broadcast. -/
def deliverRow (bcast : Bool) (a row lo : Nat) (data : List (Byte × Mark)) : M Unit := do
  modEngine fun w => w.setOperand a row lo data
  let give := fun (h o : Hart) => if bcast && h.inMeshRow o then o.takeRow a row lo data else o
  modM fun s => { s with others := s.others.map (give s.hart) }

/-- MLD (R393): `g` is broadcast, `t` transposing, `r` role B. DEDUCED (log 111): the trap of a poisoned address or pitch (R309) comes
before the traps of R171. DESIGN CHOICE (log 119): one that transposes, and stops at a line, has delivered the lines before it. -/
def execMld (g t r : BitVec 1) (c b a : Reg) (s : State) : Host.Outcome State Fault Refusal :=
  runUnit (do
    unitStart false
    let w ← needEngine
    queueIssue
    let rows := if r = 1 then w.n else w.m
    if rows = 0 then pure .seq
    else
      steerLook [b, c]
      let base ← steerX b
      let pitch ← steerX c
      if t = 1 && bxShape w.fmt then illegal
      if w.fmt = 0 then
        if base.toNat % 2 = 1 then raise causeMisaligned base (some 0)
        if pitch.toNat % 2 = 1 then raise causeMisaligned pitch (some 0)
      let h ← getH
      let at' := fun (i : Nat) => base + BitVec.ofNat 64 i * pitch
      if t = 0 then
        forElems h.tr.ves.toNat rows fun i => do
          let data ← readRow .single i (at' i) w.rowBytes
          deliverRow (g = 1) a.toNat i 0 data
      else
        let wb := if w.fmt = 0 then 2 else 1
        forElems h.tr.ves.toNat w.k fun k => do
          let data ← readRow .single k (at' k) (rows * wb)
          forEach (upTo rows) fun i => deliverRow (g = 1) a.toNat i (k * wb) ((data.drop (i * wb)).take wb)
      queuePush 0x69
      pure .seq) s

/-- MLDX (R394). DESIGN CHOICE (log 101): an index register bound to an input stream pops the M elements that R173 reads. -/
def execMldx (c b a : Reg) (s : State) : Host.Outcome State Fault Refusal :=
  runUnit (do
    unitStart false
    let w ← needEngine
    queueIssue
    if w.m = 0 then pure .seq
    else
      let h ← getH
      steerLook [b, b + 1] (steerV c 32 h.tr.ves.toNat w.m fun _ => true)
      let base ← steerX b
      let pitch ← steerX (b + 1)
      steerV c 32 h.tr.ves.toNat w.m fun _ => true
      let idx ← srcV c 32 w.m
      forElems h.tr.ves.toNat w.m fun i => do
        let va := base + dw (signedOf 32 (elemOf idx.1 32 i)) * pitch
        if w.fmt = 0 && va.toNat % 2 = 1 then raise causeMisaligned va i
        let data ← readRow .gather i va w.rowBytes
        deliverRow false a.toNat i 0 data
      queuePush 0x6A
      pure .seq) s

/-! ### MMA (R101 to R103, R174) -/

/-- An exact sum of products on its way: NaN, infinities of each sign, NV, and the finite part s · 2^e (R102). -/
structure DotSum where
  nan : Bool
  pos : Bool
  neg : Bool
  nv  : Bool
  s   : Int
  e   : Int
deriving DecidableEq, Repr

/-- A value added to an exact sum. -/
def DotSum.add (d : DotSum) (v : FVal) : DotSum :=
  match v with
  | .nan q => { d with nan := true, nv := d.nv || q }
  | .inf s => if s then { d with neg := true } else { d with pos := true }
  | .num s m e =>
    if m = 0 then d
    else
      let (t, q) := addDyadic (d.s, d.e) (signedMag s m, e)
      { d with s := t, e := q }

/-- The exact product of two values; Inf × 0 is a NaN that raises NV. -/
def dotProduct (x y : FVal) : FVal :=
  match x, y with
  | .nan p, .nan q => .nan (p || q)
  | .nan p, _ => .nan p
  | _, .nan q => .nan q
  | .inf s, .inf t => .inf (s != t)
  | .inf s, .num t m _ => if m = 0 then .nan true else .inf (s != t)
  | .num s m _, .inf t => if m = 0 then .nan true else .inf (s != t)
  | .num s m e, .num t n d => .num (s != t) (m * n) (e + d)

/-- The exact sum of the products of two rows. -/
def dotRows (xs ys : List FVal) : DotSum :=
  (xs.zip ys).foldl (fun d p => d.add (dotProduct p.1 p.2)) ⟨false, false, false, false, 0, 0⟩

/-- The sum rounded once into FP32, and its flags (R101, R102). DESIGN CHOICE (log 100): infinities of both signs raise NV beside
a quiet NaN input as well. -/
def DotSum.round (d : DotSum) : Nat × FpFlags :=
  if d.nan || (d.pos && d.neg) then (fp32.nan, if d.nv || (d.pos && d.neg) then flagNV else 0)
  else if d.pos then (fp32.inf false, 0)
  else if d.neg then (fp32.inf true, 0)
  else roundInt fp32 .rne false d.s d.e

/-- The `k` elements of an operand row as values, for the formats that MMA sums in FP32. -/
def rowValues (fmt : BitVec 4) (k row : Nat) : List FVal :=
  if fmt = 0 then (upTo k).map fun i => unpack bf16 (row / 2 ^ (16 * i) % 65536)
  else
    let c := bxCode fmt
    let sz := 8 * bxBytes c
    (upTo k).map fun i => bxValue c (row / 2 ^ (sz * (i / 16)) % 2 ^ sz) (i % 16)

/-- The `k` elements of an INT8 operand row. -/
def rowInts (k row : Nat) : List Int := (upTo k).map fun i => signedOf 8 (row / 2 ^ (8 * i) % 256)

/-- The marks of the first `n` bytes of a row, joined. -/
def rowMark (t : TileBits) (row n : Nat) : Mark :=
  let v := elemOf t 2048 row
  if v = 0 then 0 else (upTo n).foldl (fun m i => m ||| BitVec.ofNat 8 (v / 256 ^ i)) 0

/-- An element of a tile of 32-bit elements. -/
def tileElem (t : TileBits) (i j : Nat) : Nat := elemOf t 32 (64 * i + j)

/-- The marks of an element's bytes, joined. -/
def tileElemMark (t : TileBits) (i j : Nat) : Mark :=
  let v := tileElem t i j
  (upTo 4).foldl (fun m k => m ||| BitVec.ofNat 8 (v / 256 ^ k)) 0

/-- A tile with the M × N elements of a function written, row by row; the second part of a value goes to `fl`. -/
def fillTile (t tm : TileBits) (m n : Nat) (f : Nat → Nat → Nat × Mark × FpFlags) : TileBits × TileBits × FpFlags :=
  (upTo m).foldl (fun acc i =>
    let row := (upTo n).map fun j => f i j
    let bits := row.foldr (fun x r => x.1 % 2 ^ 32 + 2 ^ 32 * r) 0
    let marks := row.foldr (fun x r => spread x.2.1 4 + 2 ^ 32 * r) 0
    (setRowBytes acc.1 i 0 (4 * n) bits, setRowBytes acc.2.1 i 0 (4 * n) marks, row.foldl (fun g x => g ||| x.2.2) acc.2.2))
    (t, tm, 0)

/-- The effect of MMA on an engine whose shape has its format: the engine after it, its flags, and what it has read. -/
def mmaTiles (w : Swage) (first : Bool) (a b c : Nat) : Swage × FpFlags × Mark :=
  let by' := w.rowBytes
  let ta := tileAt w.mt b
  let tb := tileAt w.mt c
  let am := (upTo w.m).map fun i => rowMark (tileAt w.mtMark b) i by'
  let bm := (upTo w.n).map fun j => rowMark (tileAt w.mtMark c) j by'
  let mk := fun i j => (am[i]?).getD 0 ||| (bm[j]?).getD 0
  let old := tileAt w.ma a
  let oldM := tileAt w.maMark a
  let acc := fun i j => if first then 0 else tileElem old i j
  let accM := fun i j => if first then 0 else tileElemMark oldM i j
  let used := if first || bxShape w.fmt then 0 else (upTo w.m).foldl (fun k i => k ||| rowMark oldM i (4 * w.n)) 0
  let read := (am ++ bm).foldl (· ||| ·) used
  if w.fmt = 1 then
    let ra := (upTo w.m).map fun i => rowInts w.k (elemOf ta 2048 i)
    let rb := (upTo w.n).map fun j => rowInts w.k (elemOf tb 2048 j)
    let (t, tm, fl) := fillTile old oldM w.m w.n fun i j =>
      let s := (((ra[i]?).getD []).zip ((rb[j]?).getD [])).foldl (fun (n : Int) p => n + p.1 * p.2) 0
      (truncTo 32 ((acc i j : Int) + s), mk i j ||| accM i j, 0)
    (w.setAcc a t tm, fl, read)
  else
    let ra := (upTo w.m).map fun i => rowValues w.fmt w.k (elemOf ta 2048 i)
    let rb := (upTo w.n).map fun j => rowValues w.fmt w.k (elemOf tb 2048 j)
    let dot := fun (i j : Nat) => dotRows ((ra[i]?).getD []) ((rb[j]?).getD [])
    if w.fmt = 0 then
      let (t, tm, fl) := fillTile old oldM w.m w.n fun i j =>
        let (x, g) := ((dot i j).add (unpack fp32 (acc i j))).round
        (x, mk i j ||| accM i j, g)
      (w.setAcc a t tm, fl, read)
    else
      let (t, tm, fl) := fillTile (tileAt w.pa a) (tileAt w.paMark a) w.m w.n fun i j =>
        let (x, g) := (dot i j).round
        (x, mk i j, g)
      let w := w.setPart a t tm
      if first then
        let (z, zm, _) := fillTile old oldM w.m w.n fun _ _ => (0, 0, 0)
        (w.setAcc a z zm, fl, read)
      else (w, fl, read)

/-- MMA. -/
def mma (fmt : BitVec 4) (z : BitVec 1) (c b a : Reg) : M Flow := do
  unitStart false
  let w ← needEngine
  if w.fmt ≠ fmt then illegal
  queueIssue
  if w.m = 0 then pure .seq
  else
    let (w', fl, read) := mmaTiles w (z = 1) a.toNat b.toNat c.toNat
    consume read
    modEngine fun _ => w'
    let _ ← raiseFlags fl
    queuePush 0x6B
    pure .seq

/-- MMA.BF16 (R395). -/
def execMmaBf16 (z : BitVec 1) (c b a : Reg) (s : State) := runUnit (mma 0 z c b a) s
/-- MMA.INT8 (R395). -/
def execMmaInt8 (z : BitVec 1) (c b a : Reg) (s : State) := runUnit (mma 1 z c b a) s
/-- MMA.BX7 (R395). -/
def execMmaBx7 (z : BitVec 1) (c b a : Reg) (s : State) := runUnit (mma 2 z c b a) s
/-- MMA.BX4 (R395). -/
def execMmaBx4 (z : BitVec 1) (c b a : Reg) (s : State) := runUnit (mma 3 z c b a) s
/-- MMA.BX2 (R395). -/
def execMmaBx2 (z : BitVec 1) (c b a : Reg) (s : State) := runUnit (mma 4 z c b a) s

/-! ### SCACC.M (R104, R176) -/

/-- SCACC.M (R415): from VES 1 on, the a-scales are the ones read at VES 0 (R170). DESIGN CHOICE (log 101): where none are
held, as after a handler wrote TVES, row 0 is read again. -/
def execScaccM (c b a : Reg) (s : State) : Host.Outcome State Fault Refusal :=
  runUnit (do
    unitStart false
    let w ← needEngine
    if !bxShape w.fmt then illegal
    queueIssue
    if w.m = 0 then pure .seq
    else
      steerLook [b, c]
      let xa ← steerX b
      let xb ← steerX c
      if (← getH).tr.ves = 0 || (← getEngine).scales.isEmpty then
        let l ← readRow .single 0 xa w.m
        modEngine fun w => { w with scales := l }
      stopHere 1
      let ea := (← getEngine).scales
      let eb ← readRow .single 1 xb w.n
      let at' := fun (l : List (Byte × Mark)) (i : Nat) => (l[i]?).getD (0, 0)
      let i := a.toNat
      let old := tileAt w.ma i
      let oldM := tileAt w.maMark i
      let (t, tm, fl) := fillTile old oldM w.m w.n fun r k =>
        let (x, g) := scaledAdd .rne (tileElem old r k) (tileElem (tileAt w.pa i) r k) (at' ea r).1.toNat (at' eb k).1.toNat
        (x, tileElemMark oldM r k ||| tileElemMark (tileAt w.paMark i) r k ||| (at' ea r).2 ||| (at' eb k).2, g)
      consume ((upTo w.m).foldl (fun k r => k ||| rowMark oldM r (4 * w.n) ||| rowMark (tileAt w.paMark i) r (4 * w.n)) 0)
      modEngine fun w => { w.setAcc i t tm with scales := [] }
      let _ ← raiseFlags fl
      queuePush 0x6C
      pure .seq) s

/-! ### MST, MDRAIN and MZERO (R177 to R179) -/

/-- MST with elements of `w` bytes; `bf` rounds to BF16. DEDUCED (log 111): the trap of a poisoned address or pitch (R309) comes before
the misaligned trap (R178). -/
def mst (w : Nat) (bf : Bool) (c b a : Reg) : M Flow := do
  unitStart false
  let e ← needEngine
  planishGate
  queueIssue
  steerLook [b, c]
  let base ← steerX b
  let pitch ← steerX c
  if base.toNat % w ≠ 0 then raise causeMisaligned base (some 0)
  if pitch.toNat % w ≠ 0 then raise causeMisaligned pitch (some 0)
  let h ← getH
  let t := tileAt e.ma a.toNat
  let tm := tileAt e.maMark a.toNat
  forElems h.tr.ves.toNat e.m fun i => do
    let row := (upTo e.n).map fun j =>
      let x := tileElem t i j
      let (y, fl) := if bf then fConvert fp32 bf16 .rne x else (x, 0)
      (y, tileElemMark tm i j, fl)
    writeRow i (base + BitVec.ofNat 64 i * pitch) w (row.map fun x => (x.1, x.2.1))
    consume (row.foldl (fun m x => m ||| x.2.1) 0)
    let _ ← raiseFlags (row.foldl (fun g x => g ||| x.2.2) 0)
  queuePush 0x6D
  pure .seq

/-- MST.FP32 (R397). -/
def execMstFp32 (c b a : Reg) (s : State) := runUnit (mst 4 false c b a) s
/-- MST.BF16 (R397). -/
def execMstBf16 (c b a : Reg) (s : State) := runUnit (mst 2 true c b a) s
/-- MST.INT32 (R397). -/
def execMstInt32 (c b a : Reg) (s : State) := runUnit (mst 4 false c b a) s

/-- MDRAIN (R388). DESIGN CHOICE (log 101): a destination bound to an output stream pushes VLMAX(INT32) elements. -/
def execMdrain (b a : Reg) (s : State) : Host.Outcome State Fault Refusal :=
  runUnit (do
    unitStart false
    let w ← needEngine
    if 127 < a.toNat + w.m - 1 then illegal
    queueIssue
    forEach (upTo w.m) fun i => planishOut (regOf (a.toNat + i))
    let h ← getH
    let n := h.vlmaxW 32
    forEach (upTo w.m) fun i => destV (regOf (a.toNat + i)) 32 n 0
    settle
    let t := tileAt w.ma b.toNat
    let tm := tileAt w.maMark b.toNat
    forEach (upTo w.m) fun i => do
      let r := regOf (a.toNat + i)
      let low := fun (x : TileBits) => elemOf x 2048 i % 2 ^ (32 * min w.n n)
      consume (rowMark tm i (4 * w.n))
      modH fun h => h.setLow (h.phys r.toNat) h.vrs (low t) (low tm)
      pushDest r 32 n
    if w.m ≠ 0 then queuePush 0x6E
    pure .seq) s

/-- MZERO (R400). -/
def execMzero (a : Reg) (s : State) : Host.Outcome State Fault Refusal :=
  runUnit (do
    unitStart false
    let _ ← needEngine
    queueIssue
    modEngine fun w => (w.setAcc a.toNat 0 0).setPart a.toNat 0 0
    queuePush 0x6F
    pure .seq) s

/-! ### MWAIT, MWAITALL and completion (R169, R179, R181) -/

/-- MWAIT (R400): every matrix instruction has passed its operands-consumed point when it issues; what is left is a
deferred report of a matrix read. -/
def execMwait (s : State) : Host.Outcome State Fault Refusal :=
  runUnit (do
    unitStart false
    let _ ← needEngine
    raceReports fun r => r.kind = queueMat
    pure .seq) s

/-- MWAITALL (R400). -/
def execMwaitall (s : State) : Host.Outcome State Fault Refusal :=
  runUnit (do
    unitStart false
    let w ← needEngine
    if !w.queue.isEmpty then waitFor .retry (some 0)
    raceReports fun r => r.kind = queueMat
    pure .seq) s

/-- MATRIX_QUEUE_COMPLETE (R169): the oldest instruction in the matrix queue of the hart in focus completes. -/
def execMatrixQueueComplete (s : State) : Host.Outcome State Fault Refusal :=
  .next { s with hart := { s.hart with swage := s.hart.swage.map fun w => { w with queue := w.queue.drop 1 } } }

end Sys2Proof.Machine
end

