-- ==== Sys2Proof/Machine/Reliability.lean ====
section
/-!
DEFINITION. Errors as events: storage (R307, R319), hart-local state and strip rollback (R313), the Planish queue (R315),
and the fencing of a die (R163, R216, R273, R321).
-/

namespace Sys2Proof.Machine

/-! ### Storage -/

/-- Is the address in the device's own storage (Table 9.1)? -/
def deviceStorage (pa : Nat) : Bool :=
  pa < 0xC000000000 || (inSram pa && (pa - sramBase) % 0x800000 < 8323072) || (0x20000000000 ≤ pa && pa < 0x38000000000)

/-- Does a range lie in one region of the device's own storage, or in one slice? -/
def storageRange (pa n : Nat) : Bool :=
  1 ≤ n && deviceStorage pa && deviceStorage (pa + n - 1) &&
  decide (if inSram pa then pa / 0x800000 = (pa + n - 1) / 0x800000
    else if pa < 0xC000000000 then pa + n ≤ 0xC000000000 else pa + n ≤ 0x38000000000)

/-- The die that an address of the device's storage belongs to; the second tier is the hub's. -/
def storageDie (pa : Nat) : Nat :=
  if pa < 0xC000000000 then pa / stackBytes / 4 else if inSram pa then sliceOf pa / 8 else 0

/-- The class of hart-local errors (Table 16.1). -/
def localMark : Mark := 8

/-- The class of stack-side units (Table 16.1). -/
def stackMark : Mark := 0x40

/-- The mark of one word of a list of bytes, each with its mark, joined with a class. -/
def markWord (m : Mark) (w : Nat) (l : List (Byte × Mark)) : List (Byte × Mark) :=
  l.mapIdx fun i b => if i / 4 = w then (b.1, b.2 ||| m) else b

/-- An error in a word of memory, found at once or at its next access (R307). -/
def strikeMemory (pa : Nat) (found : Bool) (s : State) : State :=
  let w := pa / 4 * 4
  let s := if s.latent.contains w then s else { s with latent := s.latent ++ [w] }
  if found then findErrorBy (storageDie pa) 0xFFFF w s else s

/-- The data of an engine's buffer, of a stack-side unit or of a Filigree slot is marked where the error strikes it. DEDUCED (log
71): the class is that of the place the data has come from or is kept in; an operand that names nothing in flight strikes
nothing. -/
def strikeBuffer (p : StoragePlace) (s : State) : State :=
  match p with
  | .copyData j w => { s with copies := s.copies.modify j fun c =>
      { c with data := markWord (classAt (((c.dst.head?).map (·.1)).getD 0)) w c.data } }
  | .pushData j w => { s with pushes := s.pushes.modify j fun p =>
      { p with mark := p.mark ||| BitVec.ofNat 16384 (spread localMark 4 * 2 ^ (32 * w)) } }
  | .aheadData k e => { s with hart := { s.hart with streams := s.hart.streams.modify k fun b =>
      { b with ahead := b.ahead.modify e fun x => (x.1, x.2.1, x.2.2 ||| classAt x.1) } } }
  | .weights j r => { s with hmvs := s.hmvs.modify j fun c =>
      { c with rows := c.rows.modify r fun x => { x with mark := x.mark ||| stackMark } } }
  | .rowSum => { s with row := { s.row with mark := if s.row.active then s.row.mark ||| stackMark else s.row.mark } }
  | .filigree q w =>
    let f := (s.hart.filigree[q]?).getD FSlot.reset
    { s with hart := { s.hart with filigree :=
        s.hart.filigree.setIfInBounds q { f with marks := f.marks.modify w (· ||| localMark) } } }
  | .packetData j => { s with packets := s.packets.modify j fun k =>
      { k with mark := k.mark ||| classAt k.pa, parts := k.parts.map fun p => { p with mark := p.mark ||| classAt k.pa } } }
  | .commandX j => { s with hmvs := s.hmvs.modify j fun c => { c with xMark := c.xMark ||| stackMark } }
  | .microword c i => if c < 1024 ∧ i < 512 then putStore c i (storeWord s c i) (storeMark s c i ||| stackMark) s else s
  | .loadWords j => { s with hmloads := s.hmloads.modify j fun c => { c with mark := c.mark ||| stackMark } }
  | _ => s

/-- STORAGE_UNCORRECTABLE (R307): where the error strikes is marked, and it is recorded when it is found: a word of memory now or at
its next access, a buffer's data now. A word fetched ahead stands for whatever fails its fetch, an error in its line or a page or access
fault: it is found at issue, or now, when the word does not issue and its line is dropped, with a record only (R306). -/
def execStorageUncorrectable (p : StoragePlace) (found : Bool) (s : State) : Host.Outcome State Fault Refusal :=
  match p with
  | .memory pa => if !deviceStorage pa then .next s else .next (strikeMemory pa found s)
  | .fetched core va =>
    if 256 ≤ core then .next s
    else if !found then .next { s with badFetches := (core, va) :: s.badFetches.filter (· ≠ (core, va)) }
    else .next (logBlack (core / 64) 0x03 0xFFFF (va.setWidth 128)
      { s with badFetches := s.badFetches.filter (· ≠ (core, va)) })
  | p => .next (logBlack s.hart.die 0x02 0xFFFF 0 (strikeBuffer p s))

/-- CORRECTED_ERROR (R319). -/
def execCorrectedError (die : Nat) (src : BitVec 16) (pa : Nat) (s : State) : Host.Outcome State Fault Refusal :=
  if 4 ≤ die then .next s else .next (logBlack die 0x01 src (BitVec.ofNat 128 pa) s)

/-! ### Strip rollback (R313) -/

/-- May the hart's open strip be rewound? -/
def Hart.canRewind (h : Hart) : Bool := h.mode = .task && h.protectedStrip

/-- The uncorrectable-kill trap of a hart between units: TVAL as Table 16.2 gives it. -/
def killTrap (reason : BitVec 4) (h : Hart) : Hart :=
  takeTrap causeKill (reason ++ (0 : BitVec 52) ++ h.tr.cir) h.tr.ves h

/-- What a rewind leaves: the state named by the checkpoint, and nothing of what was in flight. DEDUCED (log 73): no loop level is active,
as none was when the strip was opened (R312), so that the strip runs again as it ran (R264). -/
def Hart.rewind (h : Hart) : Hart :=
  let h := h.ckpt.regs.foldl (fun h r => h.setX r.1.toNat r.2.1 r.2.2) h
  { h with
    buf := [], pc := h.ckpt.pc, retries := h.retries + 1
    loops := h.loops.map fun c => { c with active := false }
    tr := { h.tr with vl := h.ckpt.vl, strn := h.ckpt.strn, ves := 0 }
    sr := { h.sr with rblog := h.sr.rblog + 1 }
    pfx := .none, wait := .no, resumed := none, stopAt := none, overdue := false, planish := [], rechecked := false
    held := [], raced := none, late := none, kept := [], srMark := h.srMark.filter fun r => !([0x000, 0x002, 0x009].contains r.1)
    streams := advanceStreams false h.streams
    swage := h.swage.map fun w => { w with scales := [], queue := [] } }

/-- The rewind of the hart in focus, or the trap of its retry limit. -/
def rewindFocus (s : State) : State :=
  let h := s.hart
  let s := dropWaiters h s
  if h.retries = 2 then { s with hart := killTrap 3 h }
  else logBlack h.die 0x04 (h.hartid.setWidth 16) (h.pc.setWidth 128) { s with hart := h.rewind }

/-- The damaged elements are poisoned (R313). -/
def Hart.damage (h : Hart) (d : Damage) : Hart :=
  let tile := fun (kind t lo n : Nat) => { h with swage := h.swage.map (·.markTile localMark kind t lo n) }
  match d with
  | .xReg n => if n = 0 then h else { h with xMark := h.xMark.setIfInBounds n.toNat (h.xm n.toNat ||| localMark) }
  | .vBytes p lo n => h.markV localMark p lo n
  | .stateReg n => { h with srMark := putKey n.toNat (h.sm n.toNat ||| localMark) h.srMark }
  | .latch r => { h with swage := h.swage.map fun w =>
      { w with scales := w.scales.modify r fun x => (x.1, x.2 ||| localMark) } }
  | .tileBytes t lo n => tile 0 t lo n
  | .accBytes a lo n => tile 1 a lo n
  | .partBytes a lo n => tile 2 a lo n
  | .bufStore i => { h with buf := h.buf.modify i fun b => { b with mark := b.mark ||| localMark } }

/-- HART_STATE_UNCORRECTABLE (R313): the strip rewinds, with a record of the rollback; else the error is recorded as what it is (R319),
and at the retry limit the hart traps, or its elements are poisoned. -/
def execHartStateUncorrectable (what : Damage) (s : State) : Host.Outcome State Fault Refusal :=
  let h := s.hart
  let logged := logBlack h.die 0x02 (h.hartid.setWidth 16) 0 s
  if h.status ≠ .running then .next s
  else if !h.canRewind then .next { logged with hart := h.damage what }
  else .next (rewindFocus (if h.retries = 2 then logged else s))

/-! ### The Planish queue (R314, R315) -/

/-- The entry at the head of the queue has agreed: it retires. The instruction at PC that waits for its own recheck may
deliver its result. -/
def Hart.agreed (h : Hart) : Hart :=
  match h.planish with
  | [] => h
  | e :: rest => { h with planish := rest, rechecked := h.rechecked || (rest.isEmpty && e.pc = h.pc && h.wait = .retry) }

/-- PLANISH_RECHECK (R315): the second run of the oldest entry. -/
def execPlanishRecheck (agree : Bool) (s : State) : Host.Outcome State Fault Refusal :=
  let h := s.hart
  if h.status ≠ .running || h.planish.isEmpty then .next s
  else if agree then .next { s with hart := h.agreed }
  else
    let s := logBlack h.die 0x05 (h.hartid.setWidth 16) (h.pc.setWidth 128) s
    if h.canRewind then .next (rewindFocus s)
    else .next { dropWaiters h s with hart := killTrap 4 { h with planish := h.planish.drop 1 } }

/-! ### Fencing a die -/

/-- A saved receiver on a fenced die loses the pushes pending to it, and its task ends (R216). -/
def fenceSaved (die : Nat) (s : State) : State :=
  let hit := (s.saved.filter fun v => v.die = die && s.pushes.any fun p =>
    p.task = v.hart.taskNo && p.peer = v.hart.tr.lhart.toNat && p.copy = v.hart.copy).map (·.hart.taskNo) |>.eraseDups
  let s := { s with pushes := s.pushes.filter fun p => !s.saved.any fun v =>
    v.die = die && p.task = v.hart.taskNo && p.peer = v.hart.tr.lhart.toNat && p.copy = v.hart.copy }
  hit.foldl (fun s t => killTask t s) s

/-- DIE_FENCE (R163, R321): compute dies 0 to 3; 4 is the hub, whose fencing loses the collectives of its root. -/
def execDieFence (die : Nat) (s : State) : Host.Outcome State Fault Refusal :=
  if 5 ≤ die then .next s
  else if s.fencedDies.contains die then .next s
  else
    let s := { s with fencedDies := s.fencedDies ++ [die] }
    if die = 4 then .next (mapHarts (loseCred (·.here)) { s with contribs := [] })
    else .next (fenceSaved die ((fromTo (8 * die) (8 * die + 8)).foldl (fun s c => resetCluster c s) s))

end Sys2Proof.Machine
end

