-- ==== Sys2Proof/Machine/HostPort.lean ====
section
/-!
DEFINITION. The host and the Protas kernel as events: doorbells (R323), the mailbox and its commands (R320, R324 to R326,
R328, R329), BAR 0 and BAR 2 (R322), fabric peers (R244), boot and bring-up (R326, R327), power (R329), invalidation (R304),
hub control space (Table 17.4), and warm reset (R319).
-/

namespace Sys2Proof.Machine

/-! ### Doorbells -/

/-- Is a doorbell write accepted (R323)? -/
def doorbellOk (s : State) (q : Nat) (t : BitVec 32) : Bool :=
  let b := queueBlock s q
  s.hubState = 1 && b.mode = 1 && (t - b.tail).toNat < 2 ^ 31 && (t - b.head).toNat ≤ b.rsize.toNat

/-- DOORBELL_WRITE (R323): a release at SYS by the host. -/
def execDoorbellWrite (q : Nat) (t : BitVec 32) (s : State) : Host.Outcome State Fault Refusal :=
  if 64 ≤ q then .next s
  else if doorbellOk s q t then
    let r : Release := ⟨0, 4, s.hostClock⟩
    let rels := (doorbellKey q, r) :: s.objRels.filter fun p => p.1 ≠ doorbellKey q
    .next (setQueue q { queueBlock s q with tail := t } { s with objRels := rels })
  else .next (logBlack 0 0x0E 0xFFFF (t.setWidth 128) s)

/-! ### The mailbox (R324) -/

/-- The base of the host window (Table 9.1). -/
def hostBase : Nat := 0x40000000000

/-- Does a host buffer lie in the host window? -/
def hostBuffer (a n : Nat) : Bool := a + n ≤ 2 ^ 42

/-- Is a command served in the hub's state (R326)? -/
def mailboxServed (s : State) (cmd : BitVec 32) : Bool :=
  if s.hubState = 2 then cmd = 1 || cmd = 6 else s.running.isSome

/-- The command's registers written, and CMD: discarded while a command is busy; else the command is performed, and what it
found, and what it passes on to the host, are kept until MSTAT changes. -/
def mailbox (cmd : BitVec 32) (r : MailboxReq) (run : State → Option (State × List (Nat × Nat))) (s : State) :
    Host.Outcome State Fault Refusal :=
  let regs : Mailbox := { s.mailbox with maddr := r.maddr, mlen := r.mlen, marg := r.marg }
  if s.mailbox.stat = 1 then .next { s with mailbox := regs }
  else
    match (if mailboxServed s cmd then run s else none) with
    | some (t, rel) => .next { t with mailbox := { regs with cmd := cmd, stat := 1, ok := true, rel := rel } }
    | none => .next { s with mailbox := { regs with cmd := cmd, stat := 1, ok := false, rel := [] } }

/-- A store from outside the harts: it ends the release sequences of what it writes (R231). -/
def outsideStore (pa : Nat) (data : List Byte) (s : State) : State := setRels pa data.length [] (performStore pa data 0 s)

/-- A report written to the host's buffer; none where the buffer is too short. -/
def writeReport (r : MailboxReq) (bytes : List Byte) (s : State) : Option (State × List (Nat × Nat)) :=
  if r.mlen.toNat < bytes.length || !hostBuffer r.maddr.toNat bytes.length then none
  else some (outsideStore (hostBase + r.maddr.toNat) bytes s, [])

/-- A list of values with its length before it. -/
def counted (l : List Nat) : List Nat := l.length :: l

/-- A link as numbers. -/
def linkCode : LinkId → List Nat
  | .dieToDie a b => [0, a, b]
  | .dieToHub d => [1, d, 0]
  | .fabric p => [2, p, 0]
  | .golrok k => [3, k, 0]

/-- The fenced units (R320, R328). -/
def fencedUnits (s : State) : List Nat :=
  counted s.fencedDies ++ counted s.fencedClusters ++ counted (s.fencedLinks.flatMap linkCode) ++ counted s.fencedMems ++
  counted (s.retired.flatMap fun b => [b.1, b.2])

/-- A task's state by number (Table 12.2). -/
def TaskState.code : TaskState → Nat
  | .waiting => 0
  | .ready => 1
  | .running => 2
  | .done => 3
  | .over => 4

/-- A slot of the collective unit by numbers. -/
def CollSlot.code (c : CollSlot) : List Nat :=
  [if c.allotted then 1 else 0, c.asid.toNat, match c.phase with
    | .free => 0
    | .isOpen => 1
    | .closed => 2, c.gen.toNat, c.op.toNat, c.expm.toNat, c.cmask.toNat]

/-- What SUMMARY returns (R320): the fenced units; HEAD, TAIL and OVCNT of each queue; every registered task with its state; the
slots of the collective unit; the black-box ring of each die, the oldest record first. -/
def summaryValues (s : State) : List Nat :=
  fencedUnits s ++
  ((upTo 64).flatMap fun q => let b := queueBlock s q; [b.head.toNat, b.tail.toNat, b.ovcnt.toNat]) ++
  counted ((s.tasks.filter (·.state ≠ .over)).flatMap fun t => [t.asid.toNat, t.recVa.toNat, t.queue, t.state.code]) ++
  ((upTo 256).flatMap fun k => (collSlot s k).code) ++
  ((upTo 4).flatMap fun d => counted ((s.blackBox.filter (·.die = d)).flatMap fun b =>
    [b.time.toNat, b.code.toNat, b.src.toNat, b.data.toNat]))

/-- SUMMARY (R320): one snapshot; its layout is a constant of Config (log 23). -/
def execSummary (r : MailboxReq) (s : State) : Host.Outcome State Fault Refusal :=
  mailbox 1 r (writeReport r (Config.reportLayout 1 (summaryValues s))) s

/-- The bytes of an image that its signature is over: header and body. -/
def imageSigned (i : FirmwareImage) : List Byte := i.header ++ i.body

/-- An image as it stands in memory: DESIGN CHOICE (log 23), r and s follow the body, 48 bytes each, big-endian. -/
def imageBytes (i : FirmwareImage) : List Byte := imageSigned i ++ beBytes 48 i.r ++ beBytes 48 i.s

/-- What an ATTEST report holds but for its signature (R328): the serial, the digest of the running image and its version, the
fenced units, the nonce. -/
def attestValues (nonce : List Byte) (s : State) : List Nat :=
  let (digest, version) := match s.running with
    | some i => (beNat (sha384 (imageBytes i)), Config.headerVersion i.header)
    | none => (0, 0)
  [Config.serial, digest, version] ++ fencedUnits s ++ nonce.map BitVec.toNat

/-- The report of ATTEST, signed under the identity key. DEDUCED (log 23): the signature is ECDSA, over the laid-out values. -/
def attestReport (nonce : List Byte) (s : State) : List Byte :=
  let v := attestValues nonce s
  let (r, t) := ecdsaSign Config.identityKey (Config.signNonce s.free) (Config.reportLayout 2 v)
  Config.reportLayout 2 (v ++ [r, t])

/-- ATTEST (R328): the nonce is the 32 bytes at MARG. -/
def execAttest (r : MailboxReq) (s : State) : Host.Outcome State Fault Refusal :=
  let nonce := memBytes s.mem (hostBase + r.marg.toNat) 32
  mailbox 2 r (fun s => if hostBuffer r.marg.toNat 32
    then writeReport r (attestReport nonce s) { s with free := s.free + 1 } else none) s

/-- Are SLOAD's or SSAVE's arguments valid (R325)? -/
def storageArgs (r : MailboxReq) : Bool :=
  r.mlen.toNat % 4096 = 0 && (r.mlen = 0 || storageRange r.maddr.toNat r.mlen.toNat)

/-- The accesses of the hub's copy engine to a range (R325, R235), and what it passes on when the command completes. -/
def hubCopy (pa n : Nat) (write : Bool) (s : State) : State × List (Nat × Nat) :=
  let p := engineParty s
  (engineAccess p codeHubCopy s.hostClock pa n write { s with free := s.free + 1 }, [(p, 1)])

/-- SLOAD (R325): NVMe blocks into device memory. -/
def execSload (r : MailboxReq) (s : State) : Host.Outcome State Fault Refusal :=
  mailbox 3 r (fun s =>
    if !storageArgs r then none
    else
      let a := r.maddr.toNat
      let n := r.mlen.toNat
      let src := 4096 * r.marg.toNat
      let (s, rel) := hubCopy a n true s
      let s := (upTo (n / 4)).foldl (fun s i =>
        performStore (a + 4 * i) (memBytes s.nvme (src + 4 * i) 4) ((getKey (src + 4 * i) s.nvmeMarks).getD 0) s) s
      some (setRels a n [] s, rel)) s

/-- SSAVE (R325): device memory to NVMe blocks, poison marks included (R307). -/
def execSsave (r : MailboxReq) (s : State) : Host.Outcome State Fault Refusal :=
  mailbox 4 r (fun s =>
    if !storageArgs r then none
    else
      let a := r.maddr.toNat
      let n := r.mlen.toNat
      let dst := 4096 * r.marg.toNat
      let (s, rel) := hubCopy a n false s
      let s := (wordsOf a n).foldl (fun s w => findErrorBy 0 0xFFFF w s) s
      some ((upTo (n / 4)).foldl (fun s i =>
        let m := wordMark s (a + 4 * i)
        { s with
          nvme := setBytes s.nvme (dst + 4 * i) (memBytes s.mem (a + 4 * i) 4)
          nvmeMarks := if m = 0 then delKey (dst + 4 * i) s.nvmeMarks else putKey (dst + 4 * i) m s.nvmeMarks }) s, rel)) s

/-- POWER (R329): the module limit, 1,200 to 2,600 W. -/
def execPower (r : MailboxReq) (s : State) : Host.Outcome State Fault Refusal :=
  mailbox 5 r (fun s =>
    if 1200 ≤ r.marg.toNat && r.marg.toNat ≤ 2600 then some ({ s with powerLimit := r.marg.toNat }, []) else none) s

/-- Does an image pass the boot ROM's checks (R326)? Its header names its length and a version that is not below the fused
minimum, and its signature verifies under the public key whose digest is fused. DESIGN CHOICE (log 23): the digest is over the
two coordinates of the key. -/
def imageOk (s : State) (i : FirmwareImage) : Bool :=
  let k := Config.firmwareKey
  i.header.length = Config.headerSize && i.body.length = Config.headerLength i.header &&
  s.minVersion ≤ Config.headerVersion i.header && sha384 (beBytes 48 k.1 ++ beBytes 48 k.2) = Config.fusedDigest &&
  ecdsaVerify k (imageSigned i) i.r i.s

/-- An image runs: FWVER shows its version. -/
def runImage (i : FirmwareImage) (s : State) : State :=
  { s with running := some i, fwver := BitVec.ofNat 16 (Config.headerVersion i.header) }

/-- The image that stands at a place of memory of `n` bytes; none where it does not fit. -/
def imageAt (s : State) (a n : Nat) : Option FirmwareImage :=
  let header := memBytes s.mem a Config.headerSize
  let body := Config.headerLength header
  let at' := fun (o k : Nat) => memBytes s.mem (a + Config.headerSize + o) k
  if n < Config.headerSize + body + 96 then none
  else some ⟨header, at' 0 body, beNat (at' body 48), beNat (at' (body + 48) 48)⟩

/-- The bytes of the module's serial flash (R326). -/
def flashBytes : Nat := 64 * 2 ^ 20

/-- Does an image fit into a slot, beside the other slot's (R326)? -/
def flashFits (s : State) (slot : Nat) (i : FirmwareImage) : Bool :=
  let other := match getKey (1 - slot) s.flash with
    | some o => (imageBytes o).length
    | none => 0
  (imageBytes i).length + other ≤ flashBytes

/-- The slot into which an image is installed: the one that does not hold the running image. -/
def freeImageSlot (s : State) : Nat := if getKey 0 s.flash = s.running && s.running.isSome then 1 else 0

/-- FWLOAD (R324, R326, Table 16.5): a good image in the buffer of MLEN bytes at MADDR is installed in the slot that does not hold
the running one, and swapped in. -/
def execFwload (maddr : DWord) (mlen : BitVec 32) (s : State) : Host.Outcome State Fault Refusal :=
  mailbox 6 ⟨maddr, mlen, s.mailbox.marg⟩ (fun s =>
    match (imageAt s (hostBase + maddr.toNat) mlen.toNat).filter fun i =>
        hostBuffer maddr.toNat (imageBytes i).length && imageOk s i && flashFits s (freeImageSlot s) i with
    | none => none
    | some image =>
      let s := runImage image { s with flash := putKey (freeImageSlot s) image s.flash }
      some ({ s with hubState := if s.hubState = 2 then 0 else s.hubState }, [])) s

/-- MAILBOX_DONE (R324): MSTAT becomes 2 or 3, and an MSI-X message goes out on vector 0. SLOAD and SSAVE release to the host at
that point (R325). -/
def execMailboxDone (s : State) : Host.Outcome State Fault Refusal :=
  let m := s.mailbox
  if m.stat = 1 then
    .next { s with mailbox := { m with stat := if m.ok then 2 else 3, rel := [] }, port := .message 0
                   hostClock := joinClock s.hostClock m.rel }
  else .next s

/-- A write to CMD by itself: the command that its code names, with the registers as they stand (Table 17.3); another code is an
invalid argument. -/
def writeCmd (v : BitVec 32) (s : State) : Host.Outcome State Fault Refusal :=
  let r : MailboxReq := ⟨s.mailbox.maddr, s.mailbox.mlen, s.mailbox.marg⟩
  match v.toNat with
  | 1 => execSummary r s
  | 2 => execAttest r s
  | 3 => execSload r s
  | 4 => execSsave r s
  | 5 => execPower r s
  | 6 => execFwload r.maddr r.mlen s
  | _ => mailbox v r (fun _ => none) s

/-! ### BAR 0, BAR 2 and fabric peers -/

/-- A register of BAR 0 as the host reads it (Table 17.1). DESIGN CHOICE (log 86): one that the table does not name is a free value. -/
def bar0Reg (s : State) (off : Nat) : DWord :=
  if off = 0x0000 then BitVec.ofNat 64 (65536 * s.fwver.toNat + s.hubState.toNat)
  else if off = 0x0008 then zext s.fid
  else if 0x1000 ≤ off && off < 0x1100 && off % 4 = 0 then zext (queueBlock s ((off - 0x1000) / 4)).tail
  else if off = 0x2000 then zext s.mailbox.cmd
  else if off = 0x2004 then zext s.mailbox.stat
  else if off = 0x2008 then s.mailbox.maddr
  else if off = 0x2010 then zext s.mailbox.mlen
  else if off = 0x2018 then s.mailbox.marg
  else Config.openRegister off

/-- A write to a register of BAR 0 (Table 17.1). DESIGN CHOICE (log 86): one to a register that takes none is discarded. -/
def writeBar0 (off : Nat) (v : DWord) (s : State) : Host.Outcome State Fault Refusal :=
  if 0x1000 ≤ off && off < 0x1100 && off % 4 = 0 then execDoorbellWrite ((off - 0x1000) / 4) (v.extractLsb' 0 32) s
  else if off = 0x2000 then writeCmd (v.extractLsb' 0 32) s
  else if off = 0x2008 then .next { s with mailbox := { s.mailbox with maddr := v } }
  else if off = 0x2010 then .next { s with mailbox := { s.mailbox with mlen := v.extractLsb' 0 32 } }
  else if off = 0x2018 then .next { s with mailbox := { s.mailbox with marg := v } }
  else .next s

/-- The answer with a register's value. -/
def regAnswer (v : DWord) : PortAnswer := .data (leBytes 8 v.toNat) []

/-- Does every byte of a range answer to an access from outside (R322, R212)? -/
def outsideOk (s : State) (pa n : Nat) : Bool :=
  storageRange pa n && physMapped s pa && physMapped s (pa + n - 1) &&
  (!inSram pa || !s.fencedClusters.contains (sliceOf pa)) && !touchesRetired s pa n

/-- A read from outside: its bytes, and which of its words are poisoned. -/
def outsideRead (pa n : Nat) (s : State) : State :=
  let s := (wordsOf pa n).foldl (fun s w => findErrorBy (storageDie pa) 0xFFFF w s) s
  { s with port := dataAnswer s pa n }

/-- A store from outside, acknowledged. -/
def outsideWrite (pa : Nat) (data : List Byte) (s : State) : State := { outsideStore pa data s with port := .done }

/-- BAR2_ACCESS (R322): any range that does not answer completes with Unsupported Request. The host's accesses to BAR 0 and to
its own memory come here too. -/
def execBar2Access (acc : HostAccess) (s : State) : Host.Outcome State Fault Refusal :=
  match acc with
  | .read off n => if outsideOk s off n then .next (outsideRead off n s) else .next { s with port := .refused 1 }
  | .write off data =>
    if outsideOk s off data.length then .next (outsideWrite off data s) else .next { s with port := .refused 1 }
  | .regRead off => .next { s with port := regAnswer (bar0Reg s off) }
  | .regWrite off v => writeBar0 off v s
  | .ownWrite off data => .next (if hostBuffer off data.length then outsideStore (hostBase + off) data s else s)

/-- An AMO from a peer, performed at its home as one read-modify-write (R244, R240); the old value goes back. -/
def peerAmo (pa op bytes : Nat) (y z : BitVec 64) (s : State) : State :=
  let s := outsideRead pa bytes s
  let old := memNat s.mem pa bytes
  let w := 8 * bytes
  let new := (amoNew op bytes old (y.toNat % 2 ^ w) (z.toNat % 2 ^ w)).1
  if op = 12 && old ≠ y.toNat % 2 ^ w then s else performStore pa (leBytes bytes new) (markOfRange s pa bytes) s

/-- FABRIC_PEER_REQUEST (R244): none arrives once every fabric port is fenced. -/
def execFabricPeerRequest (req : PeerRequest) (s : State) : Host.Outcome State Fault Refusal :=
  let no := Host.Outcome.next { s with port := .refused 2 }
  if (upTo 8).all fun p => s.fencedLinks.contains (.fabric p) then .next s
  else
    match req with
    | .load pa n => if outsideOk s pa n then .next (outsideRead pa n s) else no
    | .store pa data => if outsideOk s pa data.length then .next (outsideWrite pa data s) else no
    | .amo pa op dbl y z =>
      let bytes := if dbl then 8 else 4
      if outsideOk s pa bytes && pa % bytes = 0 && op.toNat ≤ 12 then .next (peerAmo pa op.toNat bytes y z s) else no

/-! ### Boot, resets and power (R326, R327, R329) -/

/-- BOOT_ROM (R326): the first image slot that passes runs; with none, RECOVERY. -/
def execBootRom (s : State) : Host.Outcome State Fault Refusal :=
  if s.hubState ≠ 0 || s.running.isSome then .next s
  else
    match ([0, 1].filterMap fun k => getKey k s.flash).find? (imageOk s) with
    | some i => .next (runImage i s)
    | none => .next { s with hubState := 2 }

/-- A report of bring-up, without what names no part of the device. -/
def knownParts (t : BringupReport) : BringupReport :=
  { badBanks := t.badBanks.filter fun b => decide (b.1 < 32 ∧ b.2 < 127), badClusters := t.badClusters.filter (· < 32)
    badDies := t.badDies.filter (· < 4), badLinks := t.badLinks.filter linkExists, badMemories := t.badMemories.filter (· < 17) }

/-- The units that bring-up fences (R327, Table 16.5): a die with its clusters, a stack with its Golrok link. -/
def fenceFailed (t : BringupReport) (s : State) : State :=
  let clusters := (t.badClusters ++ t.badDies.flatMap fun d => fromTo (8 * d) (8 * d + 8)).eraseDups
  let links := t.badLinks ++ (t.badMemories.filter fun k => decide (k < 16)).map LinkId.golrok
  links.foldl fenceLink
    { s with fencedDies := s.fencedDies ++ t.badDies.eraseDups.filter fun d => !s.fencedDies.contains d
             fencedClusters := s.fencedClusters ++ clusters.filter fun c => !s.fencedClusters.contains c
             fencedMems := s.fencedMems ++ t.badMemories.eraseDups.filter fun k => !s.fencedMems.contains k }

/-- FIRMWARE_BRINGUP (R327): banks repaired, device memory cleared, failing units fenced, then READY, or BOOTFAIL without a
compute die. -/
def execFirmwareBringup (t : BringupReport) (s : State) : Host.Outcome State Fault Refusal :=
  if s.hubState ≠ 0 || s.running.isNone then .next s
  else
    let t := knownParts t
    let s := t.badBanks.foldl serviceBank s
    let s := fenceFailed t
      { s with
        mem := s.mem.filter (fun c => 0x38000000000 ≤ c.1)
        marks := s.marks.filter (fun c => 0x38000000000 ≤ c.1), latent := [] }
    .next { s with hubState := if (upTo 4).all s.fencedDies.contains then 3 else 1 }

/-- The machine after its main rails come back (R326): what lies outside the module's volatile state stays, and what is still to
happen to it. -/
def coldReset (s : State) : State :=
  { State.reset with
    mem := s.mem.filter (fun c => 0x38000000000 ≤ c.1), marks := s.marks.filter (fun c => 0x38000000000 ≤ c.1)
    flash := s.flash, minVersion := s.minVersion, nvme := s.nvme, nvmeMarks := s.nvmeMarks, fid := s.fid, free := s.free
    agenda := s.agenda }

/-- WARM_RESET (R319): the black-box rings survive. -/
def execWarmReset (s : State) : Host.Outcome State Fault Refusal := .next { coldReset s with blackBox := s.blackBox }

/-- A die's clock one step of 100 MHz lower, or higher up to 3,600 MHz (R329, R3). -/
def stepClock (down : Bool) (c : Nat) : Nat := if down then (if 200 ≤ c then c - 100 else c) else min 3600 (c + 100)

/-- POWER_THROTTLE (R329): every compute die; returning headroom restores none that is above 105 °C. -/
def execPowerThrottle (above : Bool) (s : State) : Host.Outcome State Fault Refusal :=
  .next { s with clocks := s.clocks.mapIdx fun d c => if !above && s.hotDies.contains d then c else stepClock above c }

/-- THERMAL_THROTTLE (R329): a step of one die, down while it is above 105 °C and up again once it is not; the hub, die 4, has no
arithmetic clock. -/
def execThermalThrottle (d : DieHeat) (s : State) : Host.Outcome State Fault Refusal :=
  if 5 ≤ d.die then .next s
  else
    let rest := s.hotDies.filter (· ≠ d.die)
    .next { s with clocks := s.clocks.setIfInBounds d.die (stepClock d.above ((s.clocks[d.die]?).getD 0))
                   hotDies := if d.above then d.die :: rest else rest }

/-- THERMAL_SHUTDOWN (R329): the main rails go off, which is a cold reset. -/
def execThermalShutdown (die : Nat) (s : State) : Host.Outcome State Fault Refusal :=
  if 5 ≤ die then .next s else .next (coldReset s)

/-! ### Invalidation (R304) -/

/-- The invalidation register of a die set by a write: DONE clear, kind, ASID and address. -/
def startInval (die : Nat) (kind : BitVec 2) (asid : BitVec 16) (va : DWord) (keep : TlbEntry → Bool) (s : State) : State :=
  { s with tlb := s.tlb.filter keep, inval := putKey die (false, kind, asid, va) s.inval }

/-- One page's translations are removed on all dies; a G entry matches every ASID. -/
def invalPage (die : Nat) (asid : BitVec 16) (va : DWord) (s : State) : State :=
  startInval die 0 asid va (fun t => !t.serves asid (va.extractLsb' 0 49).toNat) s

/-- One address space's translations are removed. -/
def invalAsid (die : Nat) (asid : BitVec 16) (s : State) : State := startInval die 1 asid 0 (fun t => t.asid ≠ asid || t.g) s

/-- Every translation is removed. -/
def invalAll (die : Nat) (s : State) : State := startInval die 2 0 0 (fun _ => false) s

/-- INVALIDATE_PAGE (R304). -/
def execInvalidatePage (die : Nat) (asid : BitVec 16) (va : BitVec 64) (s : State) : Host.Outcome State Fault Refusal :=
  if 4 ≤ die then .next s else .next (invalPage die asid va s)

/-- INVALIDATE_ASID (R304). -/
def execInvalidateAsid (die : Nat) (asid : BitVec 16) (s : State) : Host.Outcome State Fault Refusal :=
  if 4 ≤ die then .next s else .next (invalAsid die asid s)

/-- INVALIDATE_ALL (R304). -/
def execInvalidateAll (die : Nat) (s : State) : Host.Outcome State Fault Refusal :=
  if 4 ≤ die then .next s else .next (invalAll die s)

/-- Are accesses and holds that a removed translation may serve still outstanding (R304)? Copies, commands, reduction packets
and buffered stores are translated at issue, and the descriptor of a conversion at its RETAG; an element that resumes after a trap
holds its translation (R18). -/
def invalBusy (s : State) : Bool :=
  !s.copies.isEmpty || !s.hmvs.isEmpty || !s.packets.isEmpty || s.convs.any (·.live) ||
  (s.hart :: s.others).any fun h => h.status ≠ .idle && (!h.buf.isEmpty || !h.held.isEmpty)

/-- INVALIDATION_DONE (R304). -/
def execInvalidationDone (die : Nat) (s : State) : Host.Outcome State Fault Refusal :=
  if 4 ≤ die then .next s
  else
    match getKey die s.inval with
    | some (false, k, a, v) => if invalBusy s then .next s else .next { s with inval := putKey die (true, k, a, v) s.inval }
    | _ => .next s

/-! ### Hub control space (Table 17.4) -/

/-- The start of the hub control space (Table 9.1). -/
def hubSpace : Nat := 0x1F100000000

/-- A doubleword of a queue block written (Table 12.1). -/
def QueueBlock.write (b : QueueBlock) (o : Nat) (v : DWord) : QueueBlock :=
  let lo := v.extractLsb' 0 32
  let hi := v.extractLsb' 32 32
  match o with
  | 0x00 => { b with rbase := v }
  | 0x08 => { b with ovbase := v }
  | 0x10 => { b with rsize := lo, ovcap := hi }
  | 0x18 => { b with head := lo, tail := hi }
  | 0x20 => { b with ovcnt := lo, asid := hi.extractLsb' 16 16, ceil := hi.extractLsb' 8 3, mode := hi.extractLsb' 0 2 }
  | 0x28 => { b with ovhead := lo }
  | _ => b

/-- A doubleword of an address-space block written (Table 15.8). -/
def AsBlock.write (b : AsBlock) (o : Nat) (v : DWord) : AsBlock :=
  match o with
  | 0x00 => { b with tvec := v }
  | 0x08 => { b with ptb := v }
  | 0x10 => { b with tsaveb := v }
  | 0x18 => { b with pdead := v.extractLsb' 0 32, valid := v.getLsbD 63, vcap := v.extractLsb' 32 2 }
  | _ => b

/-- A doubleword of a queue block (Table 12.1). -/
def QueueBlock.read (b : QueueBlock) (o : Nat) : DWord :=
  match o with
  | 0x00 => b.rbase
  | 0x08 => b.ovbase
  | 0x10 => b.ovcap ++ b.rsize
  | 0x18 => b.tail ++ b.head
  | 0x20 => b.asid ++ (0 : BitVec 5) ++ b.ceil ++ (0 : BitVec 6) ++ b.mode ++ b.ovcnt
  | 0x28 => zext b.ovhead
  | _ => 0

/-- A doubleword of an address-space block (Table 15.8). -/
def AsBlock.read (b : AsBlock) (o : Nat) : DWord :=
  match o with
  | 0x00 => b.tvec
  | 0x08 => b.ptb
  | 0x10 => b.tsaveb
  | 0x18 => flag b.valid <<< 63 ||| zext b.vcap <<< 32 ||| zext b.pdead
  | _ => 0

/-- A doubleword of a black-box record (Table 16.4). -/
def BlackBox.read (b : BlackBox) (o : Nat) : DWord :=
  match o with
  | 0x00 => b.time
  | 0x08 => zext (b.code ++ b.src)
  | 0x10 => b.data.extractLsb' 0 64
  | _ => b.data.extractLsb' 64 64

/-- A register of the hub control space as the Protas kernel reads it (Table 17.4): doublewords, and words for the collective
slots; the oldest record of a die's ring comes first. DESIGN CHOICE (log 86): elsewhere it reads a free value. -/
def hubRead (s : State) (off : Nat) : DWord :=
  let other := Config.openRegister (hubSpace + off)
  if 0x4000 ≤ off && off < 0x4400 && off % 4 = 0 then
    let c := collSlot s ((off - 0x4000) / 4)
    flag c.allotted <<< 31 ||| zext c.asid
  else if off % 8 ≠ 0 then other
  else if off < 0x1000 then (queueBlock s (off / 64)).read (off % 64)
  else if off < 0x1100 then
    match getKey ((off - 0x1000) / 8) s.windows with
    | some f => flag true <<< 63 ||| zext f
    | none => 0
  else if 0x2000 ≤ off && off < 0x2100 && off % 64 < 16 then
    let (done, k, a, v) := (getKey ((off - 0x2000) / 64) s.inval).getD (false, 0, 0, 0)
    if off % 64 = 0 then flag done <<< 63 ||| zext k <<< 16 ||| zext a else v
  else if off = 0x3000 then s.watchLimit
  else if 0x10000 ≤ off && off < 0x20000 then
    let o := (off - 0x10000) % 0x1000
    let e := ((s.golrok.find? fun g => g.stack = (off - 0x10000) / 0x1000 && g.idx = o / 16).map (·.entry)).getD 0
    e.extractLsb' (8 * (o % 16)) 64
  else if 0x20000 ≤ off && off < 0xA0000 then
    let o := (off - 0x20000) % 0x20000
    (((s.blackBox.filter (·.die = (off - 0x20000) / 0x20000))[o / 32]?).map (·.read (o % 32))).getD 0
  else if 0x1000000 ≤ off && off < 0x1000000 + 0x400000 then
    (spaceBlock s (BitVec.ofNat 16 ((off - 0x1000000) / 64))).read (off % 64)
  else other

/-- The invalidation that a write to +0 of a register starts (R304). DESIGN CHOICE (log 86): one of kind 3 removes nothing. -/
def invalWrite (d : Nat) (v : DWord) (s : State) : State :=
  let va := ((getKey d s.inval).getD (false, 0, 0, 0)).2.2.2
  let asid := v.extractLsb' 0 16
  match (v.extractLsb' 16 2).toNat with
  | 0 => invalPage d asid va s
  | 1 => invalAsid d asid s
  | 2 => invalAll d s
  | _ => startInval d 3 asid va (fun _ => true) s

/-- A write to a register of the hub control space (Table 17.4): doublewords, and words for the collective slots. DESIGN CHOICE (log
86): elsewhere it is discarded. -/
def hubWrite (off : Nat) (v : DWord) (s : State) : State :=
  if off < 0x1000 then
    if off % 8 = 0 then setQueue (off / 64) ((queueBlock s (off / 64)).write (off % 64) v) s else s
  else if off < 0x1100 then
    let w := (off - 0x1000) / 8
    if off % 8 ≠ 0 then s
    else { s with windows := if v.getLsbD 63 then putKey w (v.extractLsb' 0 16) s.windows else delKey w s.windows }
  else if 0x2000 ≤ off && off < 0x2100 && off % 64 = 0 then invalWrite ((off - 0x2000) / 64) v s
  else if 0x2000 ≤ off && off < 0x2100 && off % 64 = 8 then
    let d := (off - 0x2000) / 64
    let (done, k, a, _) := (getKey d s.inval).getD (false, 0, 0, 0)
    { s with inval := putKey d (done, k, a, v) s.inval }
  else if 0x10000 ≤ off && off < 0x20000 && off % 8 = 0 then
    let o := (off - 0x10000) % 0x1000
    let k := (off - 0x10000) / 0x1000
    let e := ((s.golrok.find? fun g => g.stack = k && g.idx = o / 16).map (·.entry)).getD 0
    setGolrok k (o / 16) (if o % 16 = 0 then e.extractLsb' 64 64 ++ v else v ++ e.extractLsb' 0 64) s
  else if off = 0x3000 then { s with watchLimit := v }
  else if 0x4000 ≤ off && off < 0x4400 && off % 4 = 0 then
    setSlot ((off - 0x4000) / 4) { CollSlot.reset with allotted := v.getLsbD 31, asid := v.extractLsb' 0 16 } s
  else if 0x1000000 ≤ off && off < 0x1000000 + 0x400000 && off % 8 = 0 then
    let a := (off - 0x1000000) / 64
    { s with spaces := putKey a ((spaceBlock s (BitVec.ofNat 16 a)).write (off % 64) v) s.spaces }
  else s

/-- HUB_REGISTER_WRITE (R245, R260, Table 17.4): the writes of one update take effect together; or a read of the Protas kernel. -/
def execHubRegisterWrite (off : Nat) (acc : HubAccess) (s : State) : Host.Outcome State Fault Refusal :=
  match acc with
  | .read => .next { s with port := regAnswer (hubRead s off) }
  | .write v more => .next (((off, v) :: more).foldl (fun s w => hubWrite w.1 w.2 s) s)

end Sys2Proof.Machine
end

