-- ==== Sys2Proof/Machine/Plural.lean ====
section
/-!
DEFINITION. The plural instructions (R114 to R128, R380, R403, R426, R427): the member words of the bank set, their checks
in the order of R122, stores, bank-local operations and combining loads, and the plural partial fault.
-/

namespace Sys2Proof.Machine

/-! ### Members -/

/-- The element types of a plural instruction. -/
inductive PType where
  | i16
  | i32
  | f32
deriving DecidableEq, Repr

/-- The width of an element type in bytes. -/
def PType.bytes : PType → Nat
  | .i16 => 2
  | .i32 => 4
  | .f32 => 4

/-- The number of members of the bank set (R114). -/
def Hart.memberCount (h : Hart) : Nat := (h.tr.bsr.extractLsb' 8 7).toNat

/-- The bank of member `i` (R114). -/
def Hart.memberBank (h : Hart) (i : Nat) : Nat :=
  ((h.tr.bsr.extractLsb' 0 7).toNat + i * (h.tr.bsr.extractLsb' 16 7).toNat) % 127

/-- The virtual address of the word at offset `o` of a bank of the hart's own slice (R115). -/
def Hart.pluralVa (h : Hart) (bank o : Nat) : DWord := BitVec.ofNat 64 (sliceVa h + 4 * (127 * (o / 4) + bank))

/-- An active member: its number and its bank. -/
structure Member where
  idx  : Nat
  bank : Nat
deriving DecidableEq, Repr

/-- A value that a plural instruction touches: the member's number, the virtual and the physical address. -/
structure MemberWord where
  idx : Nat
  va  : DWord
  pa  : Nat
deriving DecidableEq, Repr

/-- The first two checks of R122 on the offsets, the misaligned one of each before the range of any. -/
def offsetChecks (w : Nat) (offs : List DWord) : M Unit := do
  forEach offs fun o => needAligned o w
  forEach offs fun o => if 65535 < o.toNat then raise causeAccess o else pure ()

/-- The active members (R117), and under `again` only those that failed before (R128). The mask must not be poisoned
(R309). -/
def activeMembers (again : Bool) : M (List Member) := do
  let h ← getH
  let n := h.memberCount
  steerRegs [0x004]
  let c := { h.issued.vecCtx 0 1 with vl := n, ves := 0 }
  maskSteer c n
  let on := fun i => c.mask.getLsbD i && (!again || h.tr.pfm = 0 || h.tr.pfm.getLsbD i)
  pure (((upTo n).filter on).map fun i => ⟨i, h.memberBank i⟩)

/-- The check of one member's word at an offset (R116): a fault names the word; the value may be its upper half (R115). -/
def memberCheck (a : Access) (o : Nat) (m : Member) : M MemberWord := do
  let h ← getH
  let va := h.pluralVa m.bank o
  let pa ← translate a va
  pure ⟨m.idx, va + BitVec.ofNat 64 (o % 4), pa + o % 4⟩

/-- The checks of every member's value, in ascending member order. -/
def memberChecks (a : Access) (o : Nat) (ms : List Member) : M (List MemberWord) :=
  foldL (fun r m => do
    let w ← memberCheck a o m
    pure (r ++ [w])) [] ms

/-- The race checks of every member, before any takes effect; a conflict traps with VES 0 (R126). -/
def memberRaces (a : Access) (w : Nat) (ws : List MemberWord) : M Unit :=
  raceRuns { a with ves := some 0 } (ws.map fun m => (m.va, m.pa, w))

/-- Does a member's access fail (R127)? Its bank is retired, or what it reads has an uncorrectable error. -/
def memberFails (reads : Bool) (s : State) (pa : Nat) : Bool :=
  bankRetired s (sliceOf pa) (bankOf pa) || (reads && s.latent.contains (pa / 4 * 4))

/-- The end of a plural instruction (R127, R128): PFM receives the failed members, and the partial fault is raised, with VES 0, if there
is one. -/
def pluralEnd (failed : List Nat) : M Unit := do
  modT fun t => { t with pfm := BitVec.ofNat 127 (failed.foldl (fun n i => n + 2 ^ i) 0) }
  if !failed.isEmpty then raise causePlural 0 (some 0)

/-- The numbers of the members whose access fails; an error found marks its word (R127). -/
def failures (reads : Bool) (ws : List MemberWord) : M (List Nat) := do
  let bad ← getS fun s => ws.filter fun m => memberFails reads s m.pa
  if reads then forEach bad fun m => modM (findError (m.pa / 4 * 4))
  pure (bad.map (·.idx))

/-! ### ST.P and ST.PV (R119) -/

/-- A plural store: `val` gives the value and mark of a member, or none where it is not stored. -/
def pluralStore (w : Nat) (b : Reg) (src : M (Nat → Option (Nat × Mark))) : M Flow := do
  unitStart false
  planishGate
  steerLook [b] (do let _ ← activeMembers true)
  let o ← steerX b
  offsetChecks w [o]
  let all ← activeMembers true
  let val ← src
  let ms := all.filter fun m => (val m.idx).isSome
  let acc := storeAcc .plural
  let ws ← memberChecks acc o.toNat ms
  memberRaces acc w ws
  let bad ← failures false ws
  forEach (ws.filter fun m => !bad.contains m.idx) fun m => do
    let (x, mk) := (val m.idx).getD (0, 0)
    consume mk
    bufferedStore m.pa m.va (leBytes w x) mk
  pluralEnd bad
  pure .seq

/-- ST.P. -/
def stP (ty : PType) (b a : Reg) : M Flow :=
  pluralStore ty.bytes b do
    let (v, m) ← srcX a
    pure fun _ => some (v.toNat % 2 ^ (8 * ty.bytes), m)

/-- ST.PV: element i of the vector at the instruction's width. DESIGN CHOICE (log 101): a bound register pops vl elements. -/
def stPv (ty : PType) (b a : Reg) : M Flow :=
  pluralStore ty.bytes b do
    let h ← getH
    let w := 8 * ty.bytes
    let v ← srcAll a w h.effVl
    pure fun i => if i < h.vrs * 8 / w then some (elemOf v.1 w i, elemMark v.2 w i) else none

/-! ### op.P and op.PL (R120) -/

/-- The operations of op.P and op.PL, in the order of their codes. -/
inductive POp where
  | add
  | sub
  | and
  | or
  | xor
  | max
  | min
deriving DecidableEq, Repr

/-- One bank operation: the new value and its flags. -/
def pluralOp (ty : PType) (op : POp) (x y : Nat) : Nat × FpFlags :=
  let w := 8 * ty.bytes
  match ty, op with
  | .f32, .add => fAdd fp32 .rne x y
  | .f32, .sub => fSub fp32 .rne x y
  | .f32, .max => fMinMax fp32 true x y
  | .f32, .min => fMinMax fp32 false x y
  | _, .add => ((x + y) % 2 ^ w, 0)
  | _, .sub => ((x + 2 ^ w - y) % 2 ^ w, 0)
  | _, .and => (x &&& y, 0)
  | _, .or => (x ||| y, 0)
  | _, .xor => (x ^^^ y, 0)
  | _, .max => (if elemLess w x y then y else x, 0)
  | _, .min => (if elemLess w x y then x else y, 0)

/-- The checks of one member of op.PL, its operand word before its destination, then of op.P (R116). -/
def opChecks (od : Nat) (oc : Option Nat) (ms : List Member) : M (List (MemberWord × Option MemberWord)) :=
  foldL (fun r m => do
    let c ← match oc with
      | some o => do
        let c ← memberCheck { loadAcc .plural with order := .unchecked } o m
        pure (some c)
      | none => pure none
    let d ← memberCheck { rmwAcc .plural with order := .unchecked } od m
    pure (r ++ [(d, c)])) [] ms

/-- The effect of one member's bank operation, and its flags. As an atomic read-modify-write it continues the release
sequences of the value, and takes the pending FENCEs (R126, R238, R240). -/
def opMember (ty : PType) (op : POp) (y : Nat × Mark) (p : MemberWord × Option MemberWord) : M FpFlags := do
  let n := ty.bytes
  let (yv, ym) ← match p.2 with
    | some c => do
      let (bs, m) ← readPhys c.pa n
      pure (leNat bs, m)
    | none => pure y
  let (bs, mx) ← readPhys p.1.pa n
  let (new, fl) := pluralOp ty op (leNat bs) yv
  consume (mx ||| ym)
  let h ← getH
  modM fun s => joinRels p.1.pa n (fencesNow h) (commitStore p.1.pa p.1.va (leBytes n new) (mx ||| ym) s)
  modH (dropAhead p.1.pa n)
  pure fl

/-- The releases that the components of op.P and op.PL read (R238). -/
def opReads (n : Nat) (ps : List (MemberWord × Option MemberWord)) (s : State) : List Release :=
  ps.flatMap fun p => relsOf s p.1.pa n ++ (match p.2 with
    | some c => relsOf s c.pa n
    | none => [])

/-- op.P with the value in x[A], or op.PL with the operand at offset x[C]. -/
def pluralAlu (ty : PType) (op : POp) (b : Reg) (va : Option Reg) (c : Option Reg) : M Flow := do
  unitStart false
  planishGate
  steerLook (b :: c.toList) (do let _ ← activeMembers true)
  let o ← steerX b
  let oc ← match c with
    | some r => do
      let v ← steerX r
      pure (some v)
    | none => pure none
  offsetChecks ty.bytes (o :: oc.toList)
  let ms ← activeMembers true
  let y ← match va with
    | some r => do
      let (v, m) ← srcX r
      pure (v.toNat % 2 ^ (8 * ty.bytes), m)
    | none => pure (0, 0)
  let ps ← opChecks o.toNat (oc.map (·.toNat)) ms
  forEach ps fun p => do
    copyHold (rmwAcc .plural) p.1.pa ty.bytes
    packetHold (rmwAcc .plural) p.1.pa ty.bytes
    match p.2 with
    | some c => packetHold (loadAcc .plural) c.pa ty.bytes
    | none => pure ()
  unprotect
  let bad1 ← failures true (ps.map (·.1))
  let bad2 ← failures true (ps.filterMap (·.2))
  let bad := bad1 ++ bad2.filter fun i => !bad1.contains i
  let good := ps.filter fun p => !bad.contains p.1.idx
  let rels ← getS (opReads ty.bytes good)
  let fl ← foldL (fun f p => do
    let g ← opMember ty op y p
    pure (f ||| g)) 0 good
  if !good.isEmpty then
    takeFences
    noteAcquire rels
  let _ ← raiseFlags fl
  pluralEnd bad
  pure .seq

/-! ### LD.P (R121) -/

/-- The combiners of LD.P. -/
inductive PComb where
  | sum
  | max
  | min
  | maxu
  | minu
  | and
  | or
  | xor
  | fsum
  | fmax
  | fmin
deriving DecidableEq, Repr

/-- The sum of R106 over FP32 values, and its flags. -/
def fsumOrdered (vs : List Nat) : Nat × FpFlags :=
  match vs with
  | [] => (0, 0)
  | v :: rest =>
    let first := match unpack fp32 v with
      | .nan q => (fp32.nan, signals (.nan q))
      | _ => (v, 0)
    rest.foldl (fun r x => let (y, fl) := fAdd fp32 .rne r.1 x; (y, r.2 ||| fl)) first

/-- The FP32 extreme of some values, from the identity of Table 5.4. -/
def fextreme (wantMax : Bool) (vs : List Nat) : Nat × FpFlags :=
  vs.foldl (fun r x => let (y, fl) := fMinMax fp32 wantMax r.1 x; (y, r.2 ||| fl)) (fp32.inf wantMax, 0)

/-- The combined value of the active members' `w`-bit values, with the identities of Table 5.4. -/
def combine (k : PComb) (w : Nat) (vs : List Nat) : DWord × FpFlags :=
  let f32 := fun (r : Nat × FpFlags) => (BitVec.ofNat 64 r.1, r.2)
  match k with
  | .sum => (dw (vs.foldl (fun n x => n + signedOf w x) 0), 0)
  | .max => (dw (signedOf w (vs.foldl (fun n x => if elemLess w n x then x else n) (2 ^ (w - 1)))), 0)
  | .min => (dw (signedOf w (vs.foldl (fun n x => if elemLess w x n then x else n) (2 ^ (w - 1) - 1))), 0)
  | .maxu => (BitVec.ofNat 64 (vs.foldl Nat.max 0), 0)
  | .minu => (BitVec.ofNat 64 (vs.foldl Nat.min (2 ^ w - 1)), 0)
  | .and => (dw (signedOf w (vs.foldl (fun n x => n &&& x) (2 ^ w - 1))), 0)
  | .or => (dw (signedOf w (vs.foldl (fun n x => n ||| x) 0)), 0)
  | .xor => (dw (signedOf w (vs.foldl (fun n x => n ^^^ x) 0)), 0)
  | .fsum => f32 (fsumOrdered vs)
  | .fmax => f32 (fextreme true vs)
  | .fmin => f32 (fextreme false vs)

/-- LD.P: the members that fail leave x[A] unchanged; the floating-point trap, with VES 0 (R121), comes before the partial fault
(R122). -/
def ldP (ty : PType) (k : PComb) (b a : Reg) : M Flow := do
  unitStart false
  planishGate
  destX a
  steerLook [b] (do let _ ← activeMembers false)
  let o ← steerX b
  let n := ty.bytes
  offsetChecks n [o]
  let ms ← activeMembers false
  let acc := loadAcc .plural
  let ws ← memberChecks acc o.toNat ms
  memberRaces acc n ws
  let bad ← getS fun s => (ws.filter fun m => memberFails true s m.pa).map (·.idx)
  let (vs, mk) ← foldL (fun (r : List Nat × Mark) m => do
    let (bs, mx) ← getS fun s => ((fromTo m.pa (m.pa + n)).map (viewByte s), viewMark s m.pa n)
    pure (r.1 ++ [leNat bs], r.2 ||| mx)) ([], 0) (ws.filter fun m => !bad.contains m.idx)
  consume mk
  let (v, fl) := combine k (8 * n) vs
  fpFlags fl (some 0)
  let failed ← failures true ws
  pluralEnd failed
  setX a v mk
  pure .seq

/-! ### The instructions -/

/-- ST.P i16 (R426). -/
def execStPI16 (b a : Reg) (s : State) := runUnit (stP .i16 b a) s
/-- ST.P i32 (R426). -/
def execStPI32 (b a : Reg) (s : State) := runUnit (stP .i32 b a) s
/-- ADD.P i16 (R403). -/
def execAddPI16 (b a : Reg) (s : State) := runUnit (pluralAlu .i16 .add b (some a) none) s
/-- SUB.P i16 (R403). -/
def execSubPI16 (b a : Reg) (s : State) := runUnit (pluralAlu .i16 .sub b (some a) none) s
/-- AND.P i16 (R403). -/
def execAndPI16 (b a : Reg) (s : State) := runUnit (pluralAlu .i16 .and b (some a) none) s
/-- OR.P i16 (R403). -/
def execOrPI16 (b a : Reg) (s : State) := runUnit (pluralAlu .i16 .or b (some a) none) s
/-- XOR.P i16 (R403). -/
def execXorPI16 (b a : Reg) (s : State) := runUnit (pluralAlu .i16 .xor b (some a) none) s
/-- MAX.P i16 (R403). -/
def execMaxPI16 (b a : Reg) (s : State) := runUnit (pluralAlu .i16 .max b (some a) none) s
/-- MIN.P i16 (R403). -/
def execMinPI16 (b a : Reg) (s : State) := runUnit (pluralAlu .i16 .min b (some a) none) s
/-- ADD.PL i16 (R403). -/
def execAddPlI16 (c b : Reg) (s : State) := runUnit (pluralAlu .i16 .add b none (some c)) s
/-- SUB.PL i16 (R403). -/
def execSubPlI16 (c b : Reg) (s : State) := runUnit (pluralAlu .i16 .sub b none (some c)) s
/-- AND.PL i16 (R403). -/
def execAndPlI16 (c b : Reg) (s : State) := runUnit (pluralAlu .i16 .and b none (some c)) s
/-- OR.PL i16 (R403). -/
def execOrPlI16 (c b : Reg) (s : State) := runUnit (pluralAlu .i16 .or b none (some c)) s
/-- XOR.PL i16 (R403). -/
def execXorPlI16 (c b : Reg) (s : State) := runUnit (pluralAlu .i16 .xor b none (some c)) s
/-- MAX.PL i16 (R403). -/
def execMaxPlI16 (c b : Reg) (s : State) := runUnit (pluralAlu .i16 .max b none (some c)) s
/-- MIN.PL i16 (R403). -/
def execMinPlI16 (c b : Reg) (s : State) := runUnit (pluralAlu .i16 .min b none (some c)) s
/-- ADD.P i32 (R403). -/
def execAddPI32 (b a : Reg) (s : State) := runUnit (pluralAlu .i32 .add b (some a) none) s
/-- SUB.P i32 (R403). -/
def execSubPI32 (b a : Reg) (s : State) := runUnit (pluralAlu .i32 .sub b (some a) none) s
/-- AND.P i32 (R403). -/
def execAndPI32 (b a : Reg) (s : State) := runUnit (pluralAlu .i32 .and b (some a) none) s
/-- OR.P i32 (R403). -/
def execOrPI32 (b a : Reg) (s : State) := runUnit (pluralAlu .i32 .or b (some a) none) s
/-- XOR.P i32 (R403). -/
def execXorPI32 (b a : Reg) (s : State) := runUnit (pluralAlu .i32 .xor b (some a) none) s
/-- MAX.P i32 (R403). -/
def execMaxPI32 (b a : Reg) (s : State) := runUnit (pluralAlu .i32 .max b (some a) none) s
/-- MIN.P i32 (R403). -/
def execMinPI32 (b a : Reg) (s : State) := runUnit (pluralAlu .i32 .min b (some a) none) s
/-- ADD.PL i32 (R403). -/
def execAddPlI32 (c b : Reg) (s : State) := runUnit (pluralAlu .i32 .add b none (some c)) s
/-- SUB.PL i32 (R403). -/
def execSubPlI32 (c b : Reg) (s : State) := runUnit (pluralAlu .i32 .sub b none (some c)) s
/-- AND.PL i32 (R403). -/
def execAndPlI32 (c b : Reg) (s : State) := runUnit (pluralAlu .i32 .and b none (some c)) s
/-- OR.PL i32 (R403). -/
def execOrPlI32 (c b : Reg) (s : State) := runUnit (pluralAlu .i32 .or b none (some c)) s
/-- XOR.PL i32 (R403). -/
def execXorPlI32 (c b : Reg) (s : State) := runUnit (pluralAlu .i32 .xor b none (some c)) s
/-- MAX.PL i32 (R403). -/
def execMaxPlI32 (c b : Reg) (s : State) := runUnit (pluralAlu .i32 .max b none (some c)) s
/-- MIN.PL i32 (R403). -/
def execMinPlI32 (c b : Reg) (s : State) := runUnit (pluralAlu .i32 .min b none (some c)) s
/-- ADD.P f32 (R403). -/
def execAddPF32 (b a : Reg) (s : State) := runUnit (pluralAlu .f32 .add b (some a) none) s
/-- SUB.P f32 (R403). -/
def execSubPF32 (b a : Reg) (s : State) := runUnit (pluralAlu .f32 .sub b (some a) none) s
/-- MAX.P f32 (R403). -/
def execMaxPF32 (b a : Reg) (s : State) := runUnit (pluralAlu .f32 .max b (some a) none) s
/-- MIN.P f32 (R403). -/
def execMinPF32 (b a : Reg) (s : State) := runUnit (pluralAlu .f32 .min b (some a) none) s
/-- ADD.PL f32 (R403). -/
def execAddPlF32 (c b : Reg) (s : State) := runUnit (pluralAlu .f32 .add b none (some c)) s
/-- SUB.PL f32 (R403). -/
def execSubPlF32 (c b : Reg) (s : State) := runUnit (pluralAlu .f32 .sub b none (some c)) s
/-- MAX.PL f32 (R403). -/
def execMaxPlF32 (c b : Reg) (s : State) := runUnit (pluralAlu .f32 .max b none (some c)) s
/-- MIN.PL f32 (R403). -/
def execMinPlF32 (c b : Reg) (s : State) := runUnit (pluralAlu .f32 .min b none (some c)) s
/-- LD.P i16.SUM (R380). -/
def execLdPI16Sum (b d : Reg) (s : State) := runUnit (ldP .i16 .sum b d) s
/-- LD.P i16.MAX (R380). -/
def execLdPI16Max (b d : Reg) (s : State) := runUnit (ldP .i16 .max b d) s
/-- LD.P i16.MIN (R380). -/
def execLdPI16Min (b d : Reg) (s : State) := runUnit (ldP .i16 .min b d) s
/-- LD.P i16.MAXU (R380). -/
def execLdPI16Maxu (b d : Reg) (s : State) := runUnit (ldP .i16 .maxu b d) s
/-- LD.P i16.MINU (R380). -/
def execLdPI16Minu (b d : Reg) (s : State) := runUnit (ldP .i16 .minu b d) s
/-- LD.P i16.AND (R380). -/
def execLdPI16And (b d : Reg) (s : State) := runUnit (ldP .i16 .and b d) s
/-- LD.P i16.OR (R380). -/
def execLdPI16Or (b d : Reg) (s : State) := runUnit (ldP .i16 .or b d) s
/-- LD.P i16.XOR (R380). -/
def execLdPI16Xor (b d : Reg) (s : State) := runUnit (ldP .i16 .xor b d) s
/-- LD.P i32.SUM (R380). -/
def execLdPI32Sum (b d : Reg) (s : State) := runUnit (ldP .i32 .sum b d) s
/-- LD.P i32.MAX (R380). -/
def execLdPI32Max (b d : Reg) (s : State) := runUnit (ldP .i32 .max b d) s
/-- LD.P i32.MIN (R380). -/
def execLdPI32Min (b d : Reg) (s : State) := runUnit (ldP .i32 .min b d) s
/-- LD.P i32.MAXU (R380). -/
def execLdPI32Maxu (b d : Reg) (s : State) := runUnit (ldP .i32 .maxu b d) s
/-- LD.P i32.MINU (R380). -/
def execLdPI32Minu (b d : Reg) (s : State) := runUnit (ldP .i32 .minu b d) s
/-- LD.P i32.AND (R380). -/
def execLdPI32And (b d : Reg) (s : State) := runUnit (ldP .i32 .and b d) s
/-- LD.P i32.OR (R380). -/
def execLdPI32Or (b d : Reg) (s : State) := runUnit (ldP .i32 .or b d) s
/-- LD.P i32.XOR (R380). -/
def execLdPI32Xor (b d : Reg) (s : State) := runUnit (ldP .i32 .xor b d) s
/-- LD.P f32.FSUM (R380). -/
def execLdPF32Fsum (b d : Reg) (s : State) := runUnit (ldP .f32 .fsum b d) s
/-- LD.P f32.FMAX (R380). -/
def execLdPF32Fmax (b d : Reg) (s : State) := runUnit (ldP .f32 .fmax b d) s
/-- LD.P f32.FMIN (R380). -/
def execLdPF32Fmin (b d : Reg) (s : State) := runUnit (ldP .f32 .fmin b d) s
/-- ST.PV i16 (R427). -/
def execStPvI16 (b a : Reg) (s : State) := runUnit (stPv .i16 b a) s
/-- ST.PV i32 (R427). -/
def execStPvI32 (b a : Reg) (s : State) := runUnit (stPv .i32 b a) s

end Sys2Proof.Machine
end

