-- ==== Sys2Proof/Machine/Dispatch.lean ====
section
/-! DEFINITION. `exec`: one arm for each constructor of `Instr`, one direct call of its meaning. -/

namespace Sys2Proof.Machine

/-- The effect of an instruction, a microword or an event on the machine. -/
def exec (i : Instr) (s : State) : Host.Outcome State Fault Refusal :=
  match i with
  | .add c b d => Sys2Proof.Machine.execAdd c b d s
  | .sub c b d => Sys2Proof.Machine.execSub c b d s
  | .and c b d => Sys2Proof.Machine.execAnd c b d s
  | .or c b d => Sys2Proof.Machine.execOr c b d s
  | .xor c b d => Sys2Proof.Machine.execXor c b d s
  | .shl c b d => Sys2Proof.Machine.execShl c b d s
  | .shr c b d => Sys2Proof.Machine.execShr c b d s
  | .sra c b d => Sys2Proof.Machine.execSra c b d s
  | .slt c b d => Sys2Proof.Machine.execSlt c b d s
  | .sltu c b d => Sys2Proof.Machine.execSltu c b d s
  | .min c b d => Sys2Proof.Machine.execMin c b d s
  | .max c b d => Sys2Proof.Machine.execMax c b d s
  | .minu c b d => Sys2Proof.Machine.execMinu c b d s
  | .maxu c b d => Sys2Proof.Machine.execMaxu c b d s
  | .adds c b d => Sys2Proof.Machine.execAdds c b d s
  | .mul c b d => Sys2Proof.Machine.execMul c b d s
  | .mulh c b d => Sys2Proof.Machine.execMulh c b d s
  | .mulhu c b d => Sys2Proof.Machine.execMulhu c b d s
  | .div c b d => Sys2Proof.Machine.execDiv c b d s
  | .divu c b d => Sys2Proof.Machine.execDivu c b d s
  | .rem c b d => Sys2Proof.Machine.execRem c b d s
  | .remu c b d => Sys2Proof.Machine.execRemu c b d s
  | .clz b d => Sys2Proof.Machine.execClz b d s
  | .popc b d => Sys2Proof.Machine.execPopc b d s
  | .addI im b d => Sys2Proof.Machine.execAddI im b d s
  | .andI im b d => Sys2Proof.Machine.execAndI im b d s
  | .orI im b d => Sys2Proof.Machine.execOrI im b d s
  | .xorI im b d => Sys2Proof.Machine.execXorI im b d s
  | .shlI im b d => Sys2Proof.Machine.execShlI im b d s
  | .shrI im b d => Sys2Proof.Machine.execShrI im b d s
  | .sraI im b d => Sys2Proof.Machine.execSraI im b d s
  | .sltI im b d => Sys2Proof.Machine.execSltI im b d s
  | .lim im d => Sys2Proof.Machine.execLim im d s
  | .lih im d => Sys2Proof.Machine.execLih im d s
  | .addpc im d => Sys2Proof.Machine.execAddpc im d s
  | .bset b => Sys2Proof.Machine.execBset b s
  | .j im d => Sys2Proof.Machine.execJ im d s
  | .jr im b d => Sys2Proof.Machine.execJr im b d s
  | .beq o b a => Sys2Proof.Machine.execBeq o b a s
  | .bne o b a => Sys2Proof.Machine.execBne o b a s
  | .blt o b a => Sys2Proof.Machine.execBlt o b a s
  | .bge o b a => Sys2Proof.Machine.execBge o b a s
  | .bltu o b a => Sys2Proof.Machine.execBltu o b a s
  | .bgeu o b a => Sys2Proof.Machine.execBgeu o b a s
  | .bmz o k => Sys2Proof.Machine.execBmz o k s
  | .bmnz o k => Sys2Proof.Machine.execBmnz o k s
  | .loop w l b c => Sys2Proof.Machine.execLoop w l b c s
  | .once w t l => Sys2Proof.Machine.execOnce w t l s
  | .strip w p b d => Sys2Proof.Machine.execStrip w p b d s
  | .setvt im => Sys2Proof.Machine.execSetvt im s
  | .wid l d => Sys2Proof.Machine.execWid l d s
  | .winb im => Sys2Proof.Machine.execWinb im s
  | .ld o z sc b d => Sys2Proof.Machine.execLd o z sc b d s
  | .st o sc b a => Sys2Proof.Machine.execSt o sc b a s
  | .ldaq o sc z b d => Sys2Proof.Machine.execLdaq o sc z b d s
  | .strl o sc z b a => Sys2Proof.Machine.execStrl o sc z b a s
  | .amoSwapW c b d => Sys2Proof.Machine.execAmoSwapW c b d s
  | .amoAddW c b d => Sys2Proof.Machine.execAmoAddW c b d s
  | .amoAndW c b d => Sys2Proof.Machine.execAmoAndW c b d s
  | .amoOrW c b d => Sys2Proof.Machine.execAmoOrW c b d s
  | .amoXorW c b d => Sys2Proof.Machine.execAmoXorW c b d s
  | .amoMinW c b d => Sys2Proof.Machine.execAmoMinW c b d s
  | .amoMaxW c b d => Sys2Proof.Machine.execAmoMaxW c b d s
  | .amoMinuW c b d => Sys2Proof.Machine.execAmoMinuW c b d s
  | .amoMaxuW c b d => Sys2Proof.Machine.execAmoMaxuW c b d s
  | .amoFaddW c b d => Sys2Proof.Machine.execAmoFaddW c b d s
  | .amoFmaxW c b d => Sys2Proof.Machine.execAmoFmaxW c b d s
  | .amoFminW c b d => Sys2Proof.Machine.execAmoFminW c b d s
  | .amoCasW c b d => Sys2Proof.Machine.execAmoCasW c b d s
  | .amoSwapD c b d => Sys2Proof.Machine.execAmoSwapD c b d s
  | .amoAddD c b d => Sys2Proof.Machine.execAmoAddD c b d s
  | .amoAndD c b d => Sys2Proof.Machine.execAmoAndD c b d s
  | .amoOrD c b d => Sys2Proof.Machine.execAmoOrD c b d s
  | .amoXorD c b d => Sys2Proof.Machine.execAmoXorD c b d s
  | .amoMinD c b d => Sys2Proof.Machine.execAmoMinD c b d s
  | .amoMaxD c b d => Sys2Proof.Machine.execAmoMaxD c b d s
  | .amoMinuD c b d => Sys2Proof.Machine.execAmoMinuD c b d s
  | .amoMaxuD c b d => Sys2Proof.Machine.execAmoMaxuD c b d s
  | .amoFaddD c b d => Sys2Proof.Machine.execAmoFaddD c b d s
  | .amoFmaxD c b d => Sys2Proof.Machine.execAmoFmaxD c b d s
  | .amoFminD c b d => Sys2Proof.Machine.execAmoFminD c b d s
  | .amoCasD c b d => Sys2Proof.Machine.execAmoCasD c b d s
  | .fenceAr sc => Sys2Proof.Machine.execFenceAr sc s
  | .fenceAcq sc => Sys2Proof.Machine.execFenceAcq sc s
  | .fenceRel sc => Sys2Proof.Machine.execFenceRel sc s
  | .fenceFetch sc => Sys2Proof.Machine.execFenceFetch sc s
  | .pref o sc b h => Sys2Proof.Machine.execPref o sc b h s
  | .fadd c b d => Sys2Proof.Machine.execFadd c b d s
  | .fsub c b d => Sys2Proof.Machine.execFsub c b d s
  | .fmul c b d => Sys2Proof.Machine.execFmul c b d s
  | .fdiv c b d => Sys2Proof.Machine.execFdiv c b d s
  | .fsqrt b d => Sys2Proof.Machine.execFsqrt b d s
  | .fmin c b d => Sys2Proof.Machine.execFmin c b d s
  | .fmax c b d => Sys2Proof.Machine.execFmax c b d s
  | .fmac c b d => Sys2Proof.Machine.execFmac c b d s
  | .feq c b d => Sys2Proof.Machine.execFeq c b d s
  | .flt c b d => Sys2Proof.Machine.execFlt c b d s
  | .fle c b d => Sys2Proof.Machine.execFle c b d s
  | .fcvtfi b d => Sys2Proof.Machine.execFcvtfi b d s
  | .fcvtif b d => Sys2Proof.Machine.execFcvtif b d s
  | .trap n => Sys2Proof.Machine.execTrap n s
  | .eret => Sys2Proof.Machine.execEret s
  | .mfs n d => Sys2Proof.Machine.execMfs n d s
  | .mts n a => Sys2Proof.Machine.execMts n a s
  | .drain n p c m t v => Sys2Proof.Machine.execDrain n p c m t v s
  | .chkerr => Sys2Proof.Machine.execChkerr s
  | .finish => Sys2Proof.Machine.execFinish s
  | .yield => Sys2Proof.Machine.execYield s
  | .launch b d => Sys2Proof.Machine.execLaunch b d s
  | .waitt b d => Sys2Proof.Machine.execWaitt b d s
  | .barinit c b a => Sys2Proof.Machine.execBarinit c b a s
  | .barexp c b a => Sys2Proof.Machine.execBarexp c b a s
  | .bararr b d => Sys2Proof.Machine.execBararr b d s
  | .barwait c b => Sys2Proof.Machine.execBarwait c b s
  | .bartest c b d => Sys2Proof.Machine.execBartest c b d s
  | .barwaitReturn => Sys2Proof.Machine.execBarwaitReturn s
  | .cpyBar a => Sys2Proof.Machine.execCpyBar a s
  | .cpyDep a => Sys2Proof.Machine.execCpyDep a s
  | .cpy a => Sys2Proof.Machine.execCpy a s
  | .copyComplete n => Sys2Proof.Machine.execCopyComplete n s
  | .strm b a => Sys2Proof.Machine.execStrm b a s
  | .strmO b a => Sys2Proof.Machine.execStrmO b a s
  | .strmV b a => Sys2Proof.Machine.execStrmV b a s
  | .strmVo b a => Sys2Proof.Machine.execStrmVo b a s
  | .strmOff a => Sys2Proof.Machine.execStrmOff a s
  | .strmVoff a => Sys2Proof.Machine.execStrmVoff a s
  | .streamRefill k => Sys2Proof.Machine.execStreamRefill k s
  | .cbres c b d => Sys2Proof.Machine.execCbres c b d s
  | .cbcom c b => Sys2Proof.Machine.execCbcom c b s
  | .cbacq c b d => Sys2Proof.Machine.execCbacq c b d s
  | .cbrel c b => Sys2Proof.Machine.execCbrel c b s
  | .cbWaitSatisfied => Sys2Proof.Machine.execCbWaitSatisfied s
  | .credFsum c b d => Sys2Proof.Machine.execCredFsum c b d s
  | .credFsums c b d => Sys2Proof.Machine.execCredFsums c b d s
  | .credFmax c b d => Sys2Proof.Machine.execCredFmax c b d s
  | .credFmaxn c b d => Sys2Proof.Machine.execCredFmaxn c b d s
  | .credFmin c b d => Sys2Proof.Machine.execCredFmin c b d s
  | .credIsum c b d => Sys2Proof.Machine.execCredIsum c b d s
  | .credImax c b d => Sys2Proof.Machine.execCredImax c b d s
  | .credImin c b d => Sys2Proof.Machine.execCredImin c b d s
  | .credContribution src => Sys2Proof.Machine.execCredContribution src s
  | .roundDeadline slot => Sys2Proof.Machine.execRoundDeadline slot s
  | .credAnswer ans => Sys2Proof.Machine.execCredAnswer ans s
  | .hmload c b a => Sys2Proof.Machine.execHmload c b a s
  | .hmv b a => Sys2Proof.Machine.execHmv b a s
  | .hmwait => Sys2Proof.Machine.execHmwait s
  | .channelRowProgram n chan => Sys2Proof.Machine.execChannelRowProgram n chan s
  | .hmvBarrierUpdate n => Sys2Proof.Machine.execHmvBarrierUpdate n s
  | .endRow => Sys2Proof.Machine.execEndRow s
  | .dot => Sys2Proof.Machine.execDot s
  | .scale e => Sys2Proof.Machine.execScale e s
  | .relu => Sys2Proof.Machine.execRelu s
  | .addc c => Sys2Proof.Machine.execAddc c s
  | .emit f => Sys2Proof.Machine.execEmit f s
  | .addV p m sc t d => Sys2Proof.Machine.execAddV p m sc t d s
  | .subV p m sc t d => Sys2Proof.Machine.execSubV p m sc t d s
  | .addsV p m sc t d => Sys2Proof.Machine.execAddsV p m sc t d s
  | .andV p m sc t d => Sys2Proof.Machine.execAndV p m sc t d s
  | .orV p m sc t d => Sys2Proof.Machine.execOrV p m sc t d s
  | .xorV p m sc t d => Sys2Proof.Machine.execXorV p m sc t d s
  | .shlV p m sc t d => Sys2Proof.Machine.execShlV p m sc t d s
  | .shrV p m sc t d => Sys2Proof.Machine.execShrV p m sc t d s
  | .sraV p m sc t d => Sys2Proof.Machine.execSraV p m sc t d s
  | .minV p m sc t d => Sys2Proof.Machine.execMinV p m sc t d s
  | .maxV p m sc t d => Sys2Proof.Machine.execMaxV p m sc t d s
  | .minuV p m sc t d => Sys2Proof.Machine.execMinuV p m sc t d s
  | .maxuV p m sc t d => Sys2Proof.Machine.execMaxuV p m sc t d s
  | .mulV p m sc t d => Sys2Proof.Machine.execMulV p m sc t d s
  | .mulhV p m sc t d => Sys2Proof.Machine.execMulhV p m sc t d s
  | .wmacV p m sc t d => Sys2Proof.Machine.execWmacV p m sc t d s
  | .waddV p m sc t d => Sys2Proof.Machine.execWaddV p m sc t d s
  | .popcV p m t d => Sys2Proof.Machine.execPopcV p m t d s
  | .clzV p m t d => Sys2Proof.Machine.execClzV p m t d s
  | .msetx p t d => Sys2Proof.Machine.execMsetx p t d s
  | .iotaV p m d => Sys2Proof.Machine.execIotaV p m d s
  | .addVx p m sc t d => Sys2Proof.Machine.execAddVx p m sc t d s
  | .subVx p m sc t d => Sys2Proof.Machine.execSubVx p m sc t d s
  | .addsVx p m sc t d => Sys2Proof.Machine.execAddsVx p m sc t d s
  | .andVx p m sc t d => Sys2Proof.Machine.execAndVx p m sc t d s
  | .orVx p m sc t d => Sys2Proof.Machine.execOrVx p m sc t d s
  | .xorVx p m sc t d => Sys2Proof.Machine.execXorVx p m sc t d s
  | .shlVx p m sc t d => Sys2Proof.Machine.execShlVx p m sc t d s
  | .shrVx p m sc t d => Sys2Proof.Machine.execShrVx p m sc t d s
  | .sraVx p m sc t d => Sys2Proof.Machine.execSraVx p m sc t d s
  | .minVx p m sc t d => Sys2Proof.Machine.execMinVx p m sc t d s
  | .maxVx p m sc t d => Sys2Proof.Machine.execMaxVx p m sc t d s
  | .minuVx p m sc t d => Sys2Proof.Machine.execMinuVx p m sc t d s
  | .maxuVx p m sc t d => Sys2Proof.Machine.execMaxuVx p m sc t d s
  | .mulVx p m sc t d => Sys2Proof.Machine.execMulVx p m sc t d s
  | .mulhVx p m sc t d => Sys2Proof.Machine.execMulhVx p m sc t d s
  | .wmacVx p m sc t d => Sys2Proof.Machine.execWmacVx p m sc t d s
  | .waddVx p m sc t d => Sys2Proof.Machine.execWaddVx p m sc t d s
  | .popcVx p m sc t d => Sys2Proof.Machine.execPopcVx p m sc t d s
  | .clzVx p m sc t d => Sys2Proof.Machine.execClzVx p m sc t d s
  | .faddV p m sc t d => Sys2Proof.Machine.execFaddV p m sc t d s
  | .fsubV p m sc t d => Sys2Proof.Machine.execFsubV p m sc t d s
  | .fmulV p m sc t d => Sys2Proof.Machine.execFmulV p m sc t d s
  | .fmaV p m sc t d => Sys2Proof.Machine.execFmaV p m sc t d s
  | .fdivV p m sc t d => Sys2Proof.Machine.execFdivV p m sc t d s
  | .fsqrtV p m t d => Sys2Proof.Machine.execFsqrtV p m t d s
  | .fminV p m sc t d => Sys2Proof.Machine.execFminV p m sc t d s
  | .fmaxV p m sc t d => Sys2Proof.Machine.execFmaxV p m sc t d s
  | .fspecV p m f t d => Sys2Proof.Machine.execFspecV p m f t d s
  | .fsgnV p m f t d => Sys2Proof.Machine.execFsgnV p m f t d s
  | .cmpVEq m sc t d => Sys2Proof.Machine.execCmpVEq m sc t d s
  | .cmpVNe m sc t d => Sys2Proof.Machine.execCmpVNe m sc t d s
  | .cmpVLt m sc t d => Sys2Proof.Machine.execCmpVLt m sc t d s
  | .cmpVLe m sc t d => Sys2Proof.Machine.execCmpVLe m sc t d s
  | .cmpVGt m sc t d => Sys2Proof.Machine.execCmpVGt m sc t d s
  | .cmpVGe m sc t d => Sys2Proof.Machine.execCmpVGe m sc t d s
  | .cmpVLtu m sc t d => Sys2Proof.Machine.execCmpVLtu m sc t d s
  | .cmpVLeu m sc t d => Sys2Proof.Machine.execCmpVLeu m sc t d s
  | .cvtV p m f t d => Sys2Proof.Machine.execCvtV p m f t d s
  | .scaccV p m sc t d => Sys2Proof.Machine.execScaccV p m sc t d s
  | .rsumV p m t d => Sys2Proof.Machine.execRsumV p m t d s
  | .rusumV p m t d => Sys2Proof.Machine.execRusumV p m t d s
  | .rmaxV p m t d => Sys2Proof.Machine.execRmaxV p m t d s
  | .rminV p m t d => Sys2Proof.Machine.execRminV p m t d s
  | .rmaxxV p m t d => Sys2Proof.Machine.execRmaxxV p m t d s
  | .rminxV p m t d => Sys2Proof.Machine.execRminxV p m t d s
  | .scanV p m t d => Sys2Proof.Machine.execScanV p m t d s
  | .scanfV p m t d => Sys2Proof.Machine.execScanfV p m t d s
  | .slideV p m sc t d => Sys2Proof.Machine.execSlideV p m sc t d s
  | .permV p m sc t d => Sys2Proof.Machine.execPermV p m sc t d s
  | .bcastV p m t d => Sys2Proof.Machine.execBcastV p m t d s
  | .mergeV p sc t d => Sys2Proof.Machine.execMergeV p sc t d s
  | .extrV p sc t d => Sys2Proof.Machine.execExtrV p sc t d s
  | .insV p sc t d => Sys2Proof.Machine.execInsV p sc t d s
  | .mvV p m t d => Sys2Proof.Machine.execMvV p m t d s
  | .seteV d => Sys2Proof.Machine.execSeteV d s
  | .mand p m sc t d => Sys2Proof.Machine.execMand p m sc t d s
  | .mor p m sc t d => Sys2Proof.Machine.execMor p m sc t d s
  | .mxor p m sc t d => Sys2Proof.Machine.execMxor p m sc t d s
  | .mnot p m t d => Sys2Proof.Machine.execMnot p m t d s
  | .mpopc p m t d => Sys2Proof.Machine.execMpopc p m t d s
  | .mfirst p m t d => Sys2Proof.Machine.execMfirst p m t d s
  | .cmprsV p m t d => Sys2Proof.Machine.execCmprsV p m t d s
  | .cappV p m sc t => Sys2Proof.Machine.execCappV p m sc t s
  | .cappWaitSatisfied => Sys2Proof.Machine.execCappWaitSatisfied s
  | .ldV p m sc t d => Sys2Proof.Machine.execLdV p m sc t d s
  | .stV p m sc t d => Sys2Proof.Machine.execStV p m sc t d s
  | .gathV p m sc t d => Sys2Proof.Machine.execGathV p m sc t d s
  | .scatV p m sc t d => Sys2Proof.Machine.execScatV p m sc t d s
  | .scataddV p m sc t d => Sys2Proof.Machine.execScataddV p m sc t d s
  | .bgathV p m sc t d => Sys2Proof.Machine.execBgathV p m sc t d s
  | .pushV sc t d => Sys2Proof.Machine.execPushV sc t d s
  | .pushDelivery n => Sys2Proof.Machine.execPushDelivery n s
  | .registerFullWake => Sys2Proof.Machine.execRegisterFullWake s
  | .tldV p m sc t d => Sys2Proof.Machine.execTldV p m sc t d s
  | .tstV p m sc t d => Sys2Proof.Machine.execTstV p m sc t d s
  | .qgenVFrac p m sc t d => Sys2Proof.Machine.execQgenVFrac p m sc t d s
  | .qgenVFp32 p m sc t d => Sys2Proof.Machine.execQgenVFp32 p m sc t d s
  | .stPI16 b a => Sys2Proof.Machine.execStPI16 b a s
  | .stPI32 b a => Sys2Proof.Machine.execStPI32 b a s
  | .addPI16 b a => Sys2Proof.Machine.execAddPI16 b a s
  | .subPI16 b a => Sys2Proof.Machine.execSubPI16 b a s
  | .andPI16 b a => Sys2Proof.Machine.execAndPI16 b a s
  | .orPI16 b a => Sys2Proof.Machine.execOrPI16 b a s
  | .xorPI16 b a => Sys2Proof.Machine.execXorPI16 b a s
  | .maxPI16 b a => Sys2Proof.Machine.execMaxPI16 b a s
  | .minPI16 b a => Sys2Proof.Machine.execMinPI16 b a s
  | .addPlI16 c b => Sys2Proof.Machine.execAddPlI16 c b s
  | .subPlI16 c b => Sys2Proof.Machine.execSubPlI16 c b s
  | .andPlI16 c b => Sys2Proof.Machine.execAndPlI16 c b s
  | .orPlI16 c b => Sys2Proof.Machine.execOrPlI16 c b s
  | .xorPlI16 c b => Sys2Proof.Machine.execXorPlI16 c b s
  | .maxPlI16 c b => Sys2Proof.Machine.execMaxPlI16 c b s
  | .minPlI16 c b => Sys2Proof.Machine.execMinPlI16 c b s
  | .addPI32 b a => Sys2Proof.Machine.execAddPI32 b a s
  | .subPI32 b a => Sys2Proof.Machine.execSubPI32 b a s
  | .andPI32 b a => Sys2Proof.Machine.execAndPI32 b a s
  | .orPI32 b a => Sys2Proof.Machine.execOrPI32 b a s
  | .xorPI32 b a => Sys2Proof.Machine.execXorPI32 b a s
  | .maxPI32 b a => Sys2Proof.Machine.execMaxPI32 b a s
  | .minPI32 b a => Sys2Proof.Machine.execMinPI32 b a s
  | .addPlI32 c b => Sys2Proof.Machine.execAddPlI32 c b s
  | .subPlI32 c b => Sys2Proof.Machine.execSubPlI32 c b s
  | .andPlI32 c b => Sys2Proof.Machine.execAndPlI32 c b s
  | .orPlI32 c b => Sys2Proof.Machine.execOrPlI32 c b s
  | .xorPlI32 c b => Sys2Proof.Machine.execXorPlI32 c b s
  | .maxPlI32 c b => Sys2Proof.Machine.execMaxPlI32 c b s
  | .minPlI32 c b => Sys2Proof.Machine.execMinPlI32 c b s
  | .addPF32 b a => Sys2Proof.Machine.execAddPF32 b a s
  | .subPF32 b a => Sys2Proof.Machine.execSubPF32 b a s
  | .maxPF32 b a => Sys2Proof.Machine.execMaxPF32 b a s
  | .minPF32 b a => Sys2Proof.Machine.execMinPF32 b a s
  | .addPlF32 c b => Sys2Proof.Machine.execAddPlF32 c b s
  | .subPlF32 c b => Sys2Proof.Machine.execSubPlF32 c b s
  | .maxPlF32 c b => Sys2Proof.Machine.execMaxPlF32 c b s
  | .minPlF32 c b => Sys2Proof.Machine.execMinPlF32 c b s
  | .ldPI16Sum b d => Sys2Proof.Machine.execLdPI16Sum b d s
  | .ldPI16Max b d => Sys2Proof.Machine.execLdPI16Max b d s
  | .ldPI16Min b d => Sys2Proof.Machine.execLdPI16Min b d s
  | .ldPI16Maxu b d => Sys2Proof.Machine.execLdPI16Maxu b d s
  | .ldPI16Minu b d => Sys2Proof.Machine.execLdPI16Minu b d s
  | .ldPI16And b d => Sys2Proof.Machine.execLdPI16And b d s
  | .ldPI16Or b d => Sys2Proof.Machine.execLdPI16Or b d s
  | .ldPI16Xor b d => Sys2Proof.Machine.execLdPI16Xor b d s
  | .ldPI32Sum b d => Sys2Proof.Machine.execLdPI32Sum b d s
  | .ldPI32Max b d => Sys2Proof.Machine.execLdPI32Max b d s
  | .ldPI32Min b d => Sys2Proof.Machine.execLdPI32Min b d s
  | .ldPI32Maxu b d => Sys2Proof.Machine.execLdPI32Maxu b d s
  | .ldPI32Minu b d => Sys2Proof.Machine.execLdPI32Minu b d s
  | .ldPI32And b d => Sys2Proof.Machine.execLdPI32And b d s
  | .ldPI32Or b d => Sys2Proof.Machine.execLdPI32Or b d s
  | .ldPI32Xor b d => Sys2Proof.Machine.execLdPI32Xor b d s
  | .ldPF32Fsum b d => Sys2Proof.Machine.execLdPF32Fsum b d s
  | .ldPF32Fmax b d => Sys2Proof.Machine.execLdPF32Fmax b d s
  | .ldPF32Fmin b d => Sys2Proof.Machine.execLdPF32Fmin b d s
  | .stPvI16 b a => Sys2Proof.Machine.execStPvI16 b a s
  | .stPvI32 b a => Sys2Proof.Machine.execStPvI32 b a s
  | .tshapeBf16 b d => Sys2Proof.Machine.execTshapeBf16 b d s
  | .tshapeInt8 b d => Sys2Proof.Machine.execTshapeInt8 b d s
  | .tshapeBx7 b d => Sys2Proof.Machine.execTshapeBx7 b d s
  | .tshapeBx4 b d => Sys2Proof.Machine.execTshapeBx4 b d s
  | .tshapeBx2 b d => Sys2Proof.Machine.execTshapeBx2 b d s
  | .mld g t r c b a => Sys2Proof.Machine.execMld g t r c b a s
  | .mldx c b a => Sys2Proof.Machine.execMldx c b a s
  | .mmaBf16 z c b a => Sys2Proof.Machine.execMmaBf16 z c b a s
  | .mmaInt8 z c b a => Sys2Proof.Machine.execMmaInt8 z c b a s
  | .mmaBx7 z c b a => Sys2Proof.Machine.execMmaBx7 z c b a s
  | .mmaBx4 z c b a => Sys2Proof.Machine.execMmaBx4 z c b a s
  | .mmaBx2 z c b a => Sys2Proof.Machine.execMmaBx2 z c b a s
  | .scaccM c b a => Sys2Proof.Machine.execScaccM c b a s
  | .mstFp32 c b a => Sys2Proof.Machine.execMstFp32 c b a s
  | .mstBf16 c b a => Sys2Proof.Machine.execMstBf16 c b a s
  | .mstInt32 c b a => Sys2Proof.Machine.execMstInt32 c b a s
  | .mdrain b a => Sys2Proof.Machine.execMdrain b a s
  | .mzero a => Sys2Proof.Machine.execMzero a s
  | .mwait => Sys2Proof.Machine.execMwait s
  | .mwaitall => Sys2Proof.Machine.execMwaitall s
  | .thld b a => Sys2Proof.Machine.execThld b a s
  | .retag f b a => Sys2Proof.Machine.execRetag f b a s
  | .twait b a => Sys2Proof.Machine.execTwait b a s
  | .qload b a => Sys2Proof.Machine.execQload b a s
  | .pfxV o z t v d r k => Sys2Proof.Machine.execPfxV o z t v d r k s
  | .pfxO p o sc => Sys2Proof.Machine.execPfxO p o sc s
  | .burnishTile die => Sys2Proof.Machine.execBurnishTile die s
  | .conversionRestart src dst => Sys2Proof.Machine.execConversionRestart src dst s
  | .twaitReturn => Sys2Proof.Machine.execTwaitReturn s
  | .depwWaitSatisfied => Sys2Proof.Machine.execDepwWaitSatisfied s
  | .drainReturn => Sys2Proof.Machine.execDrainReturn s
  | .matrixQueueComplete => Sys2Proof.Machine.execMatrixQueueComplete s
  | .reductionMerge im j => Sys2Proof.Machine.execReductionMerge im j s
  | .reductionPacketApply n => Sys2Proof.Machine.execReductionPacketApply n s
  | .flitReplay flit => Sys2Proof.Machine.execFlitReplay flit s
  | .linkRetrain link ok => Sys2Proof.Machine.execLinkRetrain link ok s
  | .linkFence link => Sys2Proof.Machine.execLinkFence link s
  | .clusterReset c => Sys2Proof.Machine.execClusterReset c s
  | .golrokRead stack fid a n => Sys2Proof.Machine.execGolrokRead stack fid a n s
  | .golrokTableWrite stack idx entry => Sys2Proof.Machine.execGolrokTableWrite stack idx entry s
  | .preemption stop => Sys2Proof.Machine.execPreemption stop s
  | .preemptDeadline late => Sys2Proof.Machine.execPreemptDeadline late s
  | .watchdog => Sys2Proof.Machine.execWatchdog s
  | .ringEntryTake q => Sys2Proof.Machine.execRingEntryTake q s
  | .overflowMove q => Sys2Proof.Machine.execOverflowMove q s
  | .taskStart => Sys2Proof.Machine.execTaskStart s
  | .slotFill slot => Sys2Proof.Machine.execSlotFill slot s
  | .hartSlotReturn slot => Sys2Proof.Machine.execHartSlotReturn slot s
  | .taskComplete n => Sys2Proof.Machine.execTaskComplete n s
  | .waittReturn => Sys2Proof.Machine.execWaittReturn s
  | .stealRequest req more => Sys2Proof.Machine.execStealRequest req more s
  | .storageUncorrectable place found => Sys2Proof.Machine.execStorageUncorrectable place found s
  | .hartStateUncorrectable what => Sys2Proof.Machine.execHartStateUncorrectable what s
  | .planishRecheck agree => Sys2Proof.Machine.execPlanishRecheck agree s
  | .touchmarkCompare n => Sys2Proof.Machine.execTouchmarkCompare n s
  | .doorbellWrite q t => Sys2Proof.Machine.execDoorbellWrite q t s
  | .summary req => Sys2Proof.Machine.execSummary req s
  | .attest req => Sys2Proof.Machine.execAttest req s
  | .sload req => Sys2Proof.Machine.execSload req s
  | .ssave req => Sys2Proof.Machine.execSsave req s
  | .power req => Sys2Proof.Machine.execPower req s
  | .fwload maddr mlen => Sys2Proof.Machine.execFwload maddr mlen s
  | .mailboxDone => Sys2Proof.Machine.execMailboxDone s
  | .bar2Access acc => Sys2Proof.Machine.execBar2Access acc s
  | .bootRom => Sys2Proof.Machine.execBootRom s
  | .firmwareBringup tests => Sys2Proof.Machine.execFirmwareBringup tests s
  | .powerThrottle above => Sys2Proof.Machine.execPowerThrottle above s
  | .thermalThrottle heat => Sys2Proof.Machine.execThermalThrottle heat s
  | .thermalShutdown die => Sys2Proof.Machine.execThermalShutdown die s
  | .invalidatePage die asid va => Sys2Proof.Machine.execInvalidatePage die asid va s
  | .invalidateAsid die asid => Sys2Proof.Machine.execInvalidateAsid die asid s
  | .invalidateAll die => Sys2Proof.Machine.execInvalidateAll die s
  | .invalidationDone die => Sys2Proof.Machine.execInvalidationDone die s
  | .dataRateChange stack => Sys2Proof.Machine.execDataRateChange stack s
  | .hubRegisterWrite off acc => Sys2Proof.Machine.execHubRegisterWrite off acc s
  | .illegalInstruction w => Sys2Proof.Machine.execIllegalInstruction w s
  | .fetchFault va => Sys2Proof.Machine.execFetchFault va s
  | .dieFence die => Sys2Proof.Machine.execDieFence die s
  | .clusterReturnToService what => Sys2Proof.Machine.execClusterReturnToService what s
  | .fabricPeerRequest req => Sys2Proof.Machine.execFabricPeerRequest req s
  | .hmloadComplete n => Sys2Proof.Machine.execHmloadComplete n s
  | .warmReset => Sys2Proof.Machine.execWarmReset s
  | .correctedError die src pa => Sys2Proof.Machine.execCorrectedError die src pa s

end Sys2Proof.Machine
end

