-- ==== Sys2Proof/Machine/Step.lean ====
section
/-!
DEFINITION. One step of the machine: what the agenda says comes next, else a microword of the row program in progress, else
the hart in focus: a pending event at its boundary (R293), another look at what it waits for, or its next unit (R68, R78).
-/

namespace Sys2Proof.Machine

/-- May the instruction stand in the agenda? An engine's, Bellows' or the outside world's event has no word; the two traps
of fetching and decoding come only from the fetch. -/
noncomputable def isEvent (i : Instr) : Bool :=
  match i with
  | .illegalInstruction _ => false
  | .fetchFault _ => false
  | i => (encode i).isNone

/-- The hart about to issue a word: TVAL's copy of it is latched and no wait stands. -/
def issue (w : Word) (s : State) : State := { s with hart := { s.hart with ir := w, wait := .no } }

/-- The word at an address, or the fetch fault there (R68). -/
def fetchAt (va : DWord) (s : State) : Except DWord (Word × State) :=
  match fetchWord s va with
  | some r => .ok r
  | none => .error va

/-- Does the word begin a unit of two words? -/
def beginsPair (w : Word) : Bool := isPrefixWord w

/-- The words of the unit at PC: its first word and, after a prefix, the next one (R78). -/
def fetchUnit (s : State) : Except DWord (Word × Word × State) :=
  match fetchAt s.hart.pc s with
  | .error a => .error a
  | .ok (w0, s) =>
    if beginsPair w0 then
      match fetchAt (s.hart.pc + 4) s with
      | .error a => .error a
      | .ok (w1, s) => .ok (w0, w1, s)
    else .ok (w0, 0, s)

/-- The unit at PC issues. A prefix is a step of its own, once the whole unit has decoded; its word comes next (R78, R85). -/
noncomputable def stepUnit (s : State) : Host.Outcome State Fault Refusal :=
  match fetchUnit s with
  | .error a => exec (.fetchFault a) (issue 0 { s with hart := { s.hart with pfx := .none } })
  | .ok (w0, w1, s) =>
    match decodeUnit w0 w1 with
    | .error (_, w) => exec (.illegalInstruction w) (issue w { s with hart := { s.hart with pfx := .none } })
    | .ok (none, i) => exec i (issue w0 { s with hart := { s.hart with pfx := .none } })
    | .ok (some p, i) => if s.hart.pfx = .none then exec p (issue w0 s) else exec i (issue w1 s)

/-- What a waiting hart does: it looks again at what it waits for, or issues its instruction again. -/
noncomputable def lookAgain (s : State) : Host.Outcome State Fault Refusal :=
  match s.hart.wait with
  | .no => stepUnit s
  | .retry => stepUnit s
  | .stall => stepUnit s
  | .register _ => exec .registerFullWake s
  | .barwait _ _ => exec .barwaitReturn s
  | .cbres _ _ _ => exec .cbWaitSatisfied s
  | .cbacq _ _ _ => exec .cbWaitSatisfied s
  | .cred _ _ _ _ => exec (.credAnswer none) s
  | .capp _ _ _ => exec .cappWaitSatisfied s
  | .twait _ _ => exec .twaitReturn s
  | .depw => exec .depwWaitSatisfied s
  | .drain _ _ _ _ _ _ => exec .drainReturn s
  | .waitt _ _ _ => exec .waittReturn s

/-- A step of the hart in focus. A pending pre-emption comes before a pending watchdog (R293); one that has named an element
of the vector instruction in flight lets that instruction run up to it (R295). -/
noncomputable def stepHart (s : State) : Host.Outcome State Fault Refusal :=
  let h := s.hart
  if h.status ≠ .running then .next s
  else if h.preempt && h.stopAt.isNone && !h.holdsEvents then exec (.preemption none) s
  else if h.watchdog && !h.preempt && !h.holdsEvents && !h.dozes && !h.midUnit then exec .watchdog s
  else lookAgain s

/-- The microword at the row program's next entry (R219). -/
noncomputable def stepMicro (s : State) : Host.Outcome State Fault Refusal :=
  match decodeMicro (storeWord s s.row.chan s.row.idx) with
  | .ok i => exec i s
  | .error _ => exec .endRow s

/-- One step of the machine. -/
noncomputable def step (s : State) : Host.Outcome State Fault Refusal :=
  match s.agenda with
  | .switch id :: rest => .next (focusOn id { s with agenda := rest })
  | .event i :: rest => if isEvent i then exec i { s with agenda := rest } else .next { s with agenda := rest }
  | [] => if s.row.active then stepMicro s else stepHart s

/-! ### Placing one instruction where the next step takes it -/

/-- The physical address at which the instruction is placed. -/
def fetchPlace : Nat := 0x10000

/-- The word that stands after a prefix, so that the prefix is part of a permitted unit (R77): FMA.V v8, v8, v8 with M = 1
after PFX.V, AMO.ADD.W x0, x0, x0 after PFX.O. -/
def afterPrefix (w : Word) : Word := if (fldF w).toNat = 0 then wordV 3 0 1 8 8 8 0x50 else wordR 1 0 0 0 0x24

/-- A hart about to fetch. -/
def readyHart (h : Hart) : Hart :=
  { h with status := .running, wait := .no, pfx := .none, pc := 0, preempt := false, watchdog := false, buf := [] }

/-- The state in which the next step runs an instruction of a hart: the hart in focus runs, its address 0 is mapped with
execute permission, and the word stands there. -/
def placeWord (w : Word) (s : State) : State :=
  let h := readyHart s.hart
  let next := if isPrefixWord w then bytesOfWord (afterPrefix w) else [0, 0, 0, 0]
  { s with
    hart := h, agenda := [], row := { s.row with active := false }
    tlb := ⟨h.die, some h.core, h.sr.asid, 0, 16, fetchPlace, true, true, true, false, false⟩ :: s.tlb
    mem := setBytes s.mem fetchPlace (bytesOfWord w ++ next)
    marks := delKey fetchPlace (delKey (fetchPlace + 4) s.marks)
    latent := s.latent.filter fun a => a ≠ fetchPlace && a ≠ fetchPlace + 4
    shadows := s.shadows.filter fun p => fetchPlace + 8 ≤ p.base || p.base + p.size ≤ fetchPlace
    fencedMems := s.fencedMems.filter (· ≠ 0)
    badFetches := s.badFetches.filter fun p => p.1 ≠ h.core }

/-- The state in which the next step runs a microword: a row program stands before it. -/
def placeMicro (w : Word) (s : State) : State :=
  { putStore 0 0 w 0 s with agenda := [], row := ⟨true, 0, 0, 0, 0, 0, 0, none⟩ }

/-- Is the word a microword and no hart instruction? -/
noncomputable def isMicro (w : Word) : Bool :=
  match decodeWord w, decodeMicro w with
  | .error _, .ok _ => true
  | _, _ => false

/-- The state with the instruction of the bits `w` where the next step takes it. -/
noncomputable def State.withFetchWord (s : State) (nbits w : Nat) : State :=
  let v := BitVec.ofNat 32 (w % 2 ^ (min nbits 32))
  if isMicro v then placeMicro v s else placeWord v s

end Sys2Proof.Machine
end

