-- ==== Sys2Proof/Safety.lean ====
section
/-!
DEFINITION. What counts as a safe run, and the words in which claims about a step are made: the conditions under which a
unit takes no trap, and what completing leaves.
-/

namespace Sys2Proof.Safety

open Sys2Proof.Machine

/-- The step answers a next state. -/
def Continues (o : Host.Outcome State Fault Refusal) : Prop := ∃ t, o = .next t

/-- `n` steps from a state all answer a next state. -/
def SafeFor (n : Nat) (s : State) : Prop := ∃ t, Sys2Proof.core.run n s = .next t

/-- The form of memory that the model's equality of states rests on. -/
def MemoryCanonical (s : State) : Prop := s.mem.wf = true

/-! ### Conditions on a hart -/

/-- The unit's prefix, if it has one, is not the last word of an active loop body (R78). -/
def PrefixPlaced (h : Hart) : Prop := h.pfx = .none ∨ lastOfBody h h.pc = false

/-- No stream is bound to the scalar register (R198). -/
def Unbound (h : Hart) (r : Reg) : Prop := streamOf h false r = none

/-- No stream is bound to the vector register, and it is FULL (R198, R213). -/
def Settled (h : Hart) (r : Reg) : Prop :=
  streamOf h true r = none ∧ (h.phys r.toNat < 8 ∨ (h.fe[h.phys r.toNat]?).getD .full = .full)

/-- The state registers of some numbers are not poisoned (R309, R313). -/
def Clean (h : Hart) (ns : List Nat) : Prop := ∀ n ∈ ns, h.sm n = 0

/-! ### Conditions on an access -/

/-- The access to `n` bytes at `va` passes every check: `pa` is its physical address, `t` the state after the checks. -/
def Passes (a : Access) (va : DWord) (n : Nat) (s : State) (pa : Nat) (t : State) : Prop :=
  ∃ u, translate a va s = .ok pa u ∧ raceCheck a va pa n u = .ok () t

/-- The state after a read of `n` bytes has found their latent errors (R307). -/
def found (pa n : Nat) (s : State) : State := (wordsOf pa n).foldl (fun s w => findError w s) s

/-- The race check of an access that acquires where its order says so: it is judged as ordered after the releases that it
acquires (R239). -/
def acquiring (order scope : Nat) (a : Access) (va : DWord) (pa n : Nat) : M Unit := do
  let s ← getS id
  let h := s.hart
  withClock (if order = 1 ∨ order = 3 then h.acquired h.core (relsOf s (h.side.seen s pa) n) scope else h.clock)
    (raceCheck a va pa n)

/-- The number that the hart in focus reads from `n` bytes (R9, R311, R316). -/
def readNat (pa n : Nat) (s : State) : Nat := leNat ((fromTo pa (pa + n)).map (viewByte s))

/-- `n` bytes at `pa` hold the number `v`, and every other byte of memory is as it was in `m`. -/
def Stored (m : Memory) (pa n v : Nat) (m' : Memory) : Prop :=
  ∀ a, memByte m' a = if pa ≤ a ∧ a < pa + n then BitVec.ofNat 8 (v / 256 ^ (a - pa)) else memByte m a

/-! ### What completing leaves -/

/-- The hart has consumed a value with these poison classes (R308). -/
def seen (m : Mark) (h : Hart) : Hart := { h with tr := { h.tr with cir := h.tr.cir ||| m } }

/-- The state after the unit has completed in sequence with the hart at `h` (R17, R38). -/
def retired (s : State) (h : Hart) : State := { s with hart := retireSeq false h }

/-- The state after a taken branch or jump to `t` (R40). -/
def jumped (s : State) (t : DWord) (h : Hart) : State := { s with hart := retireJump t h }

/-- The state after the unit of the hart in focus has trapped with VES as it stands (R288). -/
def trapped (s : State) (cause : BitVec 8) (tval : DWord) : State :=
  { s with hart := takeTrap cause tval s.hart.tr.ves s.hart }

/-- The state after the unit of the hart in focus has trapped with VES 0 (R83, R84, R130). -/
def trappedAtStart (s : State) (cause : BitVec 8) (tval : DWord) : State := { s with hart := takeTrap cause tval 0 s.hart }

/-- From `s` the unit completes: its effect leaves `e`, with PC, the prefix, the mode, the registers of Table 2.5, the loop
contexts and the hart's status as they were, and the next state is `e` with the sequencer's step taken (R17, R38). -/
def Completes (i : Instr) (s e : State) : Prop :=
  exec i s = .next (retired e e.hart) ∧ e.hart.pc = s.hart.pc ∧ e.hart.pfx = s.hart.pfx ∧ e.hart.mode = s.hart.mode ∧
  e.hart.sr = s.hart.sr ∧ e.hart.loops = s.hart.loops ∧ e.hart.seqOff = s.hart.seqOff ∧ e.hart.status = s.hart.status

end Sys2Proof.Safety
end

