-- ==== Sys2Proof/Certificates/Slice0/Obligations.lean ====
section
/-!
DEFINITION. The statements for the provers: what each instruction and each event does where the spec says that it takes its
effect, what it leaves alone, where it traps, and what every step keeps. `Sys2Proof.Claims` holds the tables and the words
that several statements share.
-/

open Sys2Proof Sys2Proof.Machine Sys2Proof.Safety

namespace Sys2Proof.Claims

/-- The integer instructions of two registers, each with its result (R332, R86, R87, Table 4.1). -/
def twoSource : List ((Reg → Reg → Reg → Instr) × (DWord → DWord → DWord)) :=
  [(Instr.add, fun x y => x + y), (Instr.sub, fun x y => x - y), (Instr.and, fun x y => x &&& y),
   (Instr.or, fun x y => x ||| y), (Instr.xor, fun x y => x ^^^ y),
   (Instr.shl, fun x y => x <<< (y.toNat % 64)), (Instr.shr, fun x y => x >>> (y.toNat % 64)),
   (Instr.sra, fun x y => x.sshiftRight (y.toNat % 64)),
   (Instr.slt, fun x y => if x.toInt < y.toInt then 1 else 0),
   (Instr.sltu, fun x y => if x.toNat < y.toNat then 1 else 0),
   (Instr.min, fun x y => if x.toInt ≤ y.toInt then x else y),
   (Instr.max, fun x y => if x.toInt ≤ y.toInt then y else x),
   (Instr.minu, fun x y => if x.toNat ≤ y.toNat then x else y),
   (Instr.maxu, fun x y => if x.toNat ≤ y.toNat then y else x),
   (Instr.adds, fun x y => BitVec.ofInt 64 (max (-(2 ^ 63)) (min (2 ^ 63 - 1) (x.toInt + y.toInt)))),
   (Instr.mul, fun x y => x * y),
   (Instr.mulh, fun x y => BitVec.ofInt 64 (x.toInt * y.toInt / 2 ^ 64)),
   (Instr.mulhu, fun x y => BitVec.ofNat 64 (x.toNat * y.toNat / 2 ^ 64)),
   (Instr.div, fun x y => if y = 0 then -1 else x.sdiv y), (Instr.divu, fun x y => if y = 0 then -1 else x / y),
   (Instr.rem, fun x y => if y = 0 then x else x.srem y), (Instr.remu, fun x y => if y = 0 then x else x % y)]

/-- The integer instructions of a register and SEXT(imm11, 11), each with its result (R332). -/
def oneImmediate : List ((BitVec 11 → Reg → Reg → Instr) × (DWord → DWord → DWord)) :=
  [(Instr.addI, fun x y => x + y), (Instr.andI, fun x y => x &&& y), (Instr.orI, fun x y => x ||| y),
   (Instr.xorI, fun x y => x ^^^ y), (Instr.shlI, fun x y => x <<< (y.toNat % 64)),
   (Instr.shrI, fun x y => x >>> (y.toNat % 64)), (Instr.sraI, fun x y => x.sshiftRight (y.toNat % 64)),
   (Instr.sltI, fun x y => if x.toInt < y.toInt then 1 else 0)]

/-- The branches on two registers, each with its condition on x[A] and x[B] (R345). -/
def branches : List ((BitVec 11 → Reg → Reg → Instr) × (DWord → DWord → Bool)) :=
  [(Instr.beq, fun x y => x == y), (Instr.bne, fun x y => x != y), (Instr.blt, fun x y => decide (x.toInt < y.toInt)),
   (Instr.bge, fun x y => decide (y.toInt ≤ x.toInt)), (Instr.bltu, fun x y => decide (x.toNat < y.toNat)),
   (Instr.bgeu, fun x y => decide (y.toNat ≤ x.toNat))]

/-- The FP64 instructions of two registers, each with its result and flags (R362). -/
def fpTwoSource : List ((Reg → Reg → Reg → Instr) × (RMode → Nat → Nat → Nat × FpFlags)) :=
  [(Instr.fadd, fAdd fp64), (Instr.fsub, fSub fp64), (Instr.fmul, fMul fp64), (Instr.fdiv, fDiv fp64),
   (Instr.fmin, fun _ => fMinMax fp64 false), (Instr.fmax, fun _ => fMinMax fp64 true),
   (Instr.feq, fun _ => fCmpBit .eq), (Instr.flt, fun _ => fCmpBit .lt), (Instr.fle, fun _ => fCmpBit .le)]

/-- The FP64 instructions of one register, each with its result and flags (R362). -/
def fpOneSource : List ((Reg → Reg → Instr) × (RMode → Nat → Nat × FpFlags)) :=
  [(Instr.fsqrt, fSqrt fp64),
   (Instr.fcvtfi, fun rm x => (truncTo 64 (fToInt fp64 rm 64 x).1, (fToInt fp64 rm 64 x).2)),
   (Instr.fcvtif, fun rm x => fOfInt fp64 rm (signedOf 64 x))]

/-- The hart with a level's stride added to its induction register, which x0 stands for none of (R39). -/
def induction (c : LoopCtx) (h : Hart) : Hart :=
  h.setX c.ind.toNat (h.xr c.ind.toNat + c.stride) (h.xm c.ind.toNat ||| c.mark)

/-- No enabled flag is among those raised (R58, R93). -/
def quietFlags (h : Hart) (fl : FpFlags) : Prop := fl &&& fcrEnables h.tr.fcr = 0

/-- FCR with flags raised (R58). -/
def flagged (fl : FpFlags) (h : Hart) : Hart := { h with tr := { h.tr with fcr := h.tr.fcr ||| fl.setWidth 13 } }

/-- The registers that an effect leaves alone: every scalar register but one (d = x0: every one), every vector register, the
full/empty states, tensor and matrix state, and every state register of Table 2.4 but CIR. -/
def KeepsRegisters (s e : State) (d : Reg) : Prop :=
  (∀ k, k ≠ d.toNat → e.hart.xr k = s.hart.xr k) ∧ e.hart.v = s.hart.v ∧
  { e.hart.tr with cir := 0 } = { s.hart.tr with cir := 0 } ∧ e.hart.fe = s.hart.fe ∧ e.hart.handles = s.hart.handles ∧
  e.hart.filigree = s.hart.filigree ∧ e.hart.swage = s.hart.swage

/-- The state registers of Tables 2.4 and 2.5 but for the two clocks: number and what an MFS returns. -/
def stateRegs : List (Nat × (Hart → DWord)) :=
  [(0x000, fun h => h.tr.vl), (0x001, fun h => h.tr.vt.setWidth 64), (0x002, fun h => h.tr.ves), (0x003, fun h => h.tr.wbase),
   (0x004, fun h => h.tr.bsr.setWidth 64), (0x005, fun h => h.tr.cir.setWidth 64), (0x006, fun h => h.tr.fcr.setWidth 64),
   (0x007, fun h => h.tr.imrLo), (0x008, fun h => h.tr.imrHi), (0x009, fun h => h.tr.strn),
   (0x00A, fun h => if h.tr.ves = 1 then (h.tr.pfm >>> 64).setWidth 64 else h.tr.pfm.setWidth 64),
   (0x00B, fun h => h.tr.mmea), (0x00C, fun h => h.tr.mmeh), (0x00D, fun h => h.tr.tstat.setWidth 64),
   (0x00E, fun h => h.hartid.setWidth 64), (0x00F, fun h => h.tr.lhart), (0x010, fun h => h.tr.task),
   (0x013, fun h => h.tr.drmap.setWidth 64), (0x014, fun h => (h.tr.drmap >>> 64).setWidth 64),
   (0x015, fun h => (h.tr.drmap >>> 128).setWidth 64), (0x100, fun h => h.sr.tvec), (0x101, fun h => h.sr.tcause),
   (0x102, fun h => h.sr.tval), (0x103, fun h => h.sr.tpc), (0x104, fun h => h.sr.tves), (0x105, fun h => h.sr.tsave),
   (0x106, fun h => h.sr.vcap.setWidth 64), (0x107, fun h => h.sr.ptb), (0x108, fun h => h.sr.asid.setWidth 64),
   (0x109, fun h => BitVec.ofNat 64 ((if h.sr.pie then 4 else 0) + (if h.sr.ie then 2 else 0) +
     (if h.sr.pm = .supervisor then 1 else 0))),
   (0x10A, fun h => h.sr.pdead), (0x10B, fun h => h.sr.rblog)]

/-- The registers that wait for the hart's vector and matrix work (R56). -/
def waitingRegs : List Nat := [0x002, 0x006, 0x00A, 0x00B, 0x00C, 0x013, 0x014, 0x015]

/-- DRMAP replaced. -/
def dirtyMap (m : BitVec 192) (h : Hart) : Hart := { h with tr := { h.tr with drmap := m } }

/-- PFM replaced. -/
def failedMap (m : BitVec 127) (h : Hart) : Hart := { h with tr := { h.tr with pfm := m } }

/-- PSTAT replaced (Table 15.1). -/
def status (pie ie : Bool) (pm : Mode) (h : Hart) : Hart := { h with sr := { h.sr with pie := pie, ie := ie, pm := pm } }

/-- The registers below 0x100 that Table 2.4 lets only supervisor mode write, VES apart: number and the write of a value. -/
def supervisorWrites : List (Nat × (Hart → DWord → Hart)) :=
  [(0x000, fun h v => { h with tr := { h.tr with vl := BitVec.ofNat 64 (min v.toNat (h.vlmaxW (fmtWidth h.fmt))) } }),
   (0x005, fun h v => { h with tr := { h.tr with cir := v.setWidth 8 } }),
   (0x009, fun h v => { h with tr := { h.tr with strn := v } }),
   (0x00B, fun h v => { h with tr := { h.tr with mmea := v } }), (0x00C, fun h v => { h with tr := { h.tr with mmeh := v } }),
   (0x013, fun h v => dirtyMap ((h.tr.drmap >>> 64) <<< 64 ||| v.setWidth 192) h),
   (0x014, fun h v => dirtyMap ((h.tr.drmap >>> 128) <<< 128 ||| v.setWidth 192 <<< 64 ||| (h.tr.drmap <<< 128) >>> 128) h),
   (0x015, fun h v => dirtyMap (v.setWidth 192 <<< 128 ||| (h.tr.drmap <<< 64) >>> 64) h)]

/-- The registers of Table 2.5 that are written: number and the write of a value. -/
def tableTwoFiveWrites : List (Nat × (Hart → DWord → Hart)) :=
  [(0x100, fun h v => { h with sr := { h.sr with tvec := v } }),
   (0x101, fun h v => { h with sr := { h.sr with tcause := v &&& 0xFF } }),
   (0x102, fun h v => { h with sr := { h.sr with tval := v } }), (0x103, fun h v => { h with sr := { h.sr with tpc := v } }),
   (0x104, fun h v => { h with sr := { h.sr with tves := v } }), (0x105, fun h v => { h with sr := { h.sr with tsave := v } }),
   (0x106, fun h v => { h with sr := { h.sr with vcap := v.setWidth 2 } }),
   (0x107, fun h v => { h with sr := { h.sr with ptb := v } }),
   (0x108, fun h v => { h with sr := { h.sr with asid := v.setWidth 16 } }),
   (0x109, fun h v => status (v.getLsbD 2) (v.getLsbD 1) (if v.getLsbD 0 then .supervisor else .task) h),
   (0x10A, fun h v => { h with sr := { h.sr with pdead := v } })]

/-- The registers that every mode writes: number, the values in range (R46, R52, R114) and the write of a value. -/
def taskWrites : List (Nat × (DWord → Prop) × (Hart → DWord → Hart)) :=
  [(0x001, fun v => v.toNat % 16 ≤ 9 ∧ v.toNat / 16 % 8 ≤ 4, fun h v => { h with tr := { h.tr with vt := v.setWidth 9 } }),
   (0x003, fun v => v.toNat ≤ 64 ∧ v.toNat % 8 = 0, fun h v => { h with tr := { h.tr with wbase := v } }),
   (0x004, fun v => v.toNat % 128 ≤ 126 ∧ v.toNat / 256 % 128 ≠ 0 ∧
      (v.toNat / 256 % 128 ≤ 1 ∨ v.toNat / 65536 % 128 % 127 ≠ 0),
    fun h v => { h with tr := { h.tr with bsr := v.setWidth 23 &&& 0x7F7F7F } }),
   (0x006, fun _ => True, fun h v => { h with tr := { h.tr with fcr := v.setWidth 13 &&& 0x1F1F } }),
   (0x007, fun _ => True, fun h v => { h with tr := { h.tr with imrLo := v &&& ~~~1 } }),
   (0x008, fun _ => True, fun h v => { h with tr := { h.tr with imrHi := v } }),
   (0x00A, fun _ => True, fun h v => failedMap (if h.tr.ves = 1
      then v.setWidth 127 <<< 64 ||| (h.tr.pfm <<< 63) >>> 63 else (h.tr.pfm >>> 64) <<< 64 ||| v.setWidth 127) h)]

/-- The AMOs but CAS, of 4 and of 8 bytes: the new value from the old one and the operand (R339, Table 18.4). The flags say
that the AMO is a floating-point one, and that host memory accepts it. -/
def amos : List ((Reg → Reg → Reg → Instr) × Nat × Bool × Bool × (Nat → Nat → Nat)) :=
  [(Instr.amoSwapW, 4, false, true, fun _ y => y), (Instr.amoAddW, 4, false, true, fun a y => (a + y) % 2 ^ 32),
   (Instr.amoAndW, 4, false, false, fun a y => a &&& y), (Instr.amoOrW, 4, false, false, fun a y => a ||| y),
   (Instr.amoXorW, 4, false, false, fun a y => a ^^^ y),
   (Instr.amoMinW, 4, false, false, fun a y => if (BitVec.ofNat 32 a).toInt < (BitVec.ofNat 32 y).toInt then a else y),
   (Instr.amoMaxW, 4, false, false, fun a y => if (BitVec.ofNat 32 a).toInt < (BitVec.ofNat 32 y).toInt then y else a),
   (Instr.amoMinuW, 4, false, false, fun a y => min a y), (Instr.amoMaxuW, 4, false, false, fun a y => max a y),
   (Instr.amoFaddW, 4, true, false, fun a y => (fAdd fp32 .rne a y).1), (Instr.amoFmaxW, 4, true, false, fun a y => (fMinMax fp32 true a y).1),
   (Instr.amoFminW, 4, true, false, fun a y => (fMinMax fp32 false a y).1),
   (Instr.amoSwapD, 8, false, true, fun _ y => y), (Instr.amoAddD, 8, false, true, fun a y => (a + y) % 2 ^ 64),
   (Instr.amoAndD, 8, false, false, fun a y => a &&& y), (Instr.amoOrD, 8, false, false, fun a y => a ||| y),
   (Instr.amoXorD, 8, false, false, fun a y => a ^^^ y),
   (Instr.amoMinD, 8, false, false, fun a y => if (BitVec.ofNat 64 a).toInt < (BitVec.ofNat 64 y).toInt then a else y),
   (Instr.amoMaxD, 8, false, false, fun a y => if (BitVec.ofNat 64 a).toInt < (BitVec.ofNat 64 y).toInt then y else a),
   (Instr.amoMinuD, 8, false, false, fun a y => min a y), (Instr.amoMaxuD, 8, false, false, fun a y => max a y),
   (Instr.amoFaddD, 8, true, false, fun a y => (fAdd fp64 .rne a y).1), (Instr.amoFmaxD, 8, true, false, fun a y => (fMinMax fp64 true a y).1),
   (Instr.amoFminD, 8, true, false, fun a y => (fMinMax fp64 false a y).1)]

/-- The hart runs and waits at its instruction. -/
def Waits (s : State) (w : Wait) : Prop := s.hart.status = .running ∧ s.hart.wait = w

/-- What every atomic needs of the hart before its access (R84, R235, R238, R314): no report or recheck is pending, and
no posted operation of the hart is on its way. -/
def AtomicReady (s : State) (fp : Bool) (scope order : Nat) (posted : Bool) : Prop :=
  PrefixPlaced s.hart ∧ (fp = true → s.hart.det = false) ∧ s.hart.pfxO = (scope, order, posted) ∧ s.hart.races = [] ∧
  s.hart.planish = [] ∧ releasePending s = false ∧ s.hart.protectedStrip = false ∧ s.hart.assay = false ∧ MemoryCanonical s

/-- Each store of the strip store buffer is performed where it was checked: the hart runs no copy under AS, and no window that one
of them writes has been unmapped since (R211, R311, R316); trivially so where the buffer is empty. -/
def BufferLands (s : State) : Prop :=
  s.hart.buf = [] ∨ s.hart.assay = false ∧ ∀ b ∈ s.hart.buf, physMapped s b.pa = true

/-- Memory once the stores of the strip store buffer are performed, in program order (R311). -/
def landed (s : State) : Memory := s.hart.buf.foldl (fun m b => setBytes m b.pa b.data) s.mem

/-- Bytes of a value sign-extended to a register (R70, R341). -/
def signed64 (n v : Nat) : DWord := (BitVec.ofNat (8 * n) v).signExtend 64

/-- What a synchronising instruction needs before it acts (R235, R238, R314): no report and no recheck pending, and its
region performed. -/
def SyncReady (s : State) : Prop :=
  PrefixPlaced s.hart ∧ s.hart.races = [] ∧ s.hart.planish = [] ∧ releasePending s = false

/-- The checks of a barrier instruction on its object, up to its race check. -/
def barChecks (b : Reg) (group read write : Bool) : M BarPlace := do
  let o ← barAddress b group true []
  let p ← barPlace o (barAccess read write)
  barRace p (barAccess read write)
  pure p

/-- The checks of BARINIT and BAREXP: the counts and the place. -/
def barSetChecks (c b a : Reg) (read : Bool) : M ((Nat × Nat) × BarPlace) := do
  let o ← barAddress b false read [a, c]
  let n ← barCounts o c a
  let p ← barPlace o (barAccess read true)
  barRace p (barAccess read true)
  pure (n, p)

/-- The checks of a CPY of form `f` (R194): its end, its source runs and its destination runs. -/
def copyChecks (f : Nat) (src dst : DWord) (n : Nat) (t : DWord) :
    M (CopyEnd × List (DWord × Nat × Nat) × List (DWord × Nat × Nat)) := do
  let fin ← copyTarget f t
  let from' ← pageChecks (loadAcc .any) 0 (copyPages src n)
  let to' ← pageChecks (storeAcc .any) (copyPages src n).length (copyPages dst n)
  pure (fin, from', to')

/-- The physical addresses of a copy's destination bytes, in order. -/
def copyPlaces (j : CopyJob) : List Nat := j.dst.flatMap fun r => fromTo r.1 (r.1 + r.2)

/-- The byte at an address once a copy's bytes stand at its destination. -/
def copiedByte (j : CopyJob) (m : Memory) (a : Nat) : Byte :=
  (((copyPlaces j).zip j.data).find? fun x => x.1 = a).elim (memByte m a) (·.2.1)

/-- The number in `n` bytes once a copy's bytes stand at its destination. -/
def copiedNat (j : CopyJob) (m : Memory) (pa n : Nat) : Nat := leNat ((fromTo pa (pa + n)).map (copiedByte j m))

/-- A copy's bytes stand in memory, and the number `v` in `n` bytes at `pa`; every other byte is as it was. -/
def CopiedAnd (j : CopyJob) (m : Memory) (pa n v : Nat) (m' : Memory) : Prop :=
  ∀ a, memByte m' a = if pa ≤ a ∧ a < pa + n then BitVec.ofNat 8 (v / 256 ^ (a - pa)) else copiedByte j m a

/-- The stream that a descriptor of 64 bytes binds (Table 9.7) for a hart with some knowledge (R202). -/
def streamOfDescriptor (out vec : Bool) (a : Reg) (v : Nat) (known : List (Nat × Nat)) : StreamB :=
  let f := fun lo n => BitVec.ofNat n (v / 256 ^ lo)
  { reg := a, vec := vec, out := out, base := f 0x00 64, s0 := f 0x08 64, s1 := f 0x10 64, s2 := f 0x18 64
    n0 := f 0x20 32, n1 := f 0x24 32, n2 := f 0x28 32, zext := (f 0x2C 32).getLsbD 2, sz := (f 0x2C 32).setWidth 2
    pos := 0, used := false, step := 0, clock := known, ahead := [] }

/-- Element `k` of a vector register at `w` bits an element (R9, R46). -/
def lane (h : Hart) (r : Reg) (w k : Nat) : Nat := elemOf (h.vreg (h.phys r.toNat)) w k

/-- The bits of a source register: for a unit that resumes, as they were when it issued (R14). -/
def sourceBits (h : Hart) (r : Reg) : VBits := h.issued.vreg (h.phys r.toNat)

/-- Element `k` of a source register. -/
def source (h : Hart) (r : Reg) (w k : Nat) : Nat := elemOf (sourceBits h r) w k

/-- The mark of element `k` of a source register (R307). -/
def sourceMarks (h : Hart) (r : Reg) (w k : Nat) : Mark := elemMark (h.issued.vmark (h.phys r.toNat)) w k

/-- Is element `k` active: unmasked, or its bit of the mask register is set (R47, R54)? -/
def onLane (h : Hart) (m : BitVec 1) (k : Nat) : Bool := m = 0 || (h.issued.vreg h.maskReg).getLsbD k

/-- The active elements from VES up to `n`, ascending. -/
def lanesOn (h : Hart) (m : BitVec 1) (n : Nat) : List Nat := (fromTo h.tr.ves.toNat n).filter (onLane h m)

/-- Nothing stops the elements of a unit: the prefix stands legally, VL, VT and WBASE are not poisoned, no pre-emption stops
the unit at an element, and no trap is latched for one. -/
def Steady (h : Hart) : Prop :=
  PrefixPlaced h ∧ Clean h [0x000, 0x001, 0x003] ∧ h.stopAt = none ∧ h.late = none

/-- What a vector instruction needs of its hart before its elements: nothing stops it, the Planish queue has room, and its
vector registers are FULL with no stream bound. -/
def VecReady (s : State) (regs : List Reg) : Prop :=
  Steady s.hart ∧ (s.hart.rc = true → s.hart.planish.length < 32) ∧
  s.hart.tr.wbase.toNat ≤ 64 ∧ ∀ r ∈ regs, Settled s.hart r

/-- The elements of a destination: those below VES keep their value, active ones below `n` hold the result, masked-off ones
and the tail follow their policies (R17, R54, Table 2.3). -/
def LanesWritten (s e : State) (p m : BitVec 1) (d : Reg) (w n : Nat) (f : Nat → Nat) : Prop :=
  ∀ k, k < s.hart.vlmaxW w → lane e.hart d w k =
    if k < s.hart.tr.ves.toNat then lane s.hart d w k
    else if k < n then
      if onLane s.hart m k then f k % 2 ^ w
      else if (s.hart.policies (p = 1)).2 then 0 else lane s.hart d w k
    else if (s.hart.policies (p = 1)).1 then 0 else lane s.hart d w k

/-- What a vector instruction leaves alone: scalar registers, every other vector register, the bits above the visible ones,
the full/empty states, tensor and matrix state, memory, and every state register but CIR, its own DRMAP bit, and FCR, which
takes the flags raised. -/
def VecFrame (s e : State) (d : Reg) (fl : FpFlags) : Prop :=
  e.hart.x = s.hart.x ∧ e.hart.fe = s.hart.fe ∧ e.hart.handles = s.hart.handles ∧ e.hart.filigree = s.hart.filigree ∧
  e.hart.swage = s.hart.swage ∧ e.mem = s.mem ∧ e.hart.tr.fcr = s.hart.tr.fcr ||| fl.setWidth 13 ∧
  { e.hart.tr with cir := 0, fcr := 0, drmap := 0 } = { s.hart.tr with cir := 0, fcr := 0, drmap := 0 } ∧
  (∀ q, q ≠ s.hart.phys d.toNat → e.hart.v[q]? = s.hart.v[q]? ∧ e.hart.tr.drmap.getLsbD q = s.hart.tr.drmap.getLsbD q) ∧
  ∀ i, 8 * s.hart.vrs ≤ i →
    (e.hart.vreg (s.hart.phys d.toNat)).getLsbD i = (s.hart.vreg (s.hart.phys d.toNat)).getLsbD i

/-- A `w`-bit element as a signed number. -/
def sg (w x : Nat) : Int := (BitVec.ofNat w x).toInt

/-- The low `w` bits of an exact integer. -/
def low (w : Nat) (x : Int) : Nat := (x % 2 ^ w).toNat

/-- The integer vector instructions in both forms: the .V form, the .VX form, the formats accepted, and the element result at
width `w` (Table 6.3). -/
def vecInts : List ((BitVec 1 → BitVec 1 → Reg → Reg → Reg → Instr) × (BitVec 1 → BitVec 1 → Reg → Reg → Reg → Instr) ×
    (Nat → Prop) × (Nat → Nat → Nat → Nat)) :=
  let ints := fun f : Nat => f ≤ 3
  let any := fun _ : Nat => True
  [(Instr.addV, Instr.addVx, ints, fun w x y => (x + y) % 2 ^ w),
   (Instr.subV, Instr.subVx, ints, fun w x y => (x + 2 ^ w - y) % 2 ^ w),
   (Instr.addsV, Instr.addsVx, ints, fun w x y => low w (max (-(2 ^ (w - 1))) (min (2 ^ (w - 1) - 1) (sg w x + sg w y)))),
   (Instr.andV, Instr.andVx, any, fun _ x y => x &&& y), (Instr.orV, Instr.orVx, any, fun _ x y => x ||| y),
   (Instr.xorV, Instr.xorVx, any, fun _ x y => x ^^^ y), (Instr.shlV, Instr.shlVx, any, fun w x y => x * 2 ^ (y % w)),
   (Instr.shrV, Instr.shrVx, any, fun w x y => x / 2 ^ (y % w)),
   (Instr.sraV, Instr.sraVx, any, fun w x y => low w (sg w x / 2 ^ (y % w))),
   (Instr.minV, Instr.minVx, ints, fun w x y => if sg w x < sg w y then x else y),
   (Instr.maxV, Instr.maxVx, ints, fun w x y => if sg w x < sg w y then y else x),
   (Instr.minuV, Instr.minuVx, ints, fun _ x y => min x y), (Instr.maxuV, Instr.maxuVx, ints, fun _ x y => max x y),
   (Instr.mulV, Instr.mulVx, ints, fun _ x y => x * y),
   (Instr.mulhV, Instr.mulhVx, ints, fun w x y => low w (sg w x * sg w y / 2 ^ w))]

/-- POPC and CLZ in both forms, on `w` bits: the .VX form counts in the AND of its operands (R352, R406). -/
def vecCounts : List ((BitVec 1 → BitVec 1 → Reg → Reg → Instr) × (BitVec 1 → BitVec 1 → Reg → Reg → Reg → Instr) ×
    (Nat → Nat → Nat)) :=
  [(Instr.popcV, Instr.popcVx, fun w x => (List.range w).countP fun i => x.testBit i),
   (Instr.clzV, Instr.clzVx, fun w x => (List.range w).countP fun i => decide (x < 2 ^ i))]

/-- The widening instructions (R438): both forms, and the element result at twice the width from a, b and d. -/
def vecWides : List ((BitVec 1 → BitVec 1 → Reg → Reg → Reg → Instr) × (BitVec 1 → BitVec 1 → Reg → Reg → Reg → Instr) ×
    (Nat → Nat → Nat → Nat → Nat)) :=
  [(Instr.wmacV, Instr.wmacVx, fun w x y z => low (2 * w) ((z : Int) + sg w x * sg w y)),
   (Instr.waddV, Instr.waddVx, fun w x y _ => low (2 * w) (sg w x + sg w y))]

/-- The FP vector instructions of two sources (R364). -/
def vecFps : List ((BitVec 1 → BitVec 1 → Reg → Reg → Reg → Instr) × (FFmt → RMode → Nat → Nat → Nat × FpFlags)) :=
  [(Instr.faddV, fAdd), (Instr.fsubV, fSub), (Instr.fmulV, fMul), (Instr.fdivV, fDiv),
   (Instr.fminV, fun f _ => fMinMax f false), (Instr.fmaxV, fun f _ => fMinMax f true)]

/-- The flags that a list of elements raises. -/
def raised (l : List Nat) (f : Nat → Nat × FpFlags) : FpFlags := l.foldl (fun a k => a ||| (f k).2) 0

/-- An FP element result: the values of the active elements, with their flags joined in FCR. -/
def FpWritten (i : Instr) (s : State) (p m : BitVec 1) (d : Reg) (w n : Nat) (f : Nat → Nat × FpFlags) : Prop :=
  let fl := raised (lanesOn s.hart m n) f
  quietFlags s.hart fl → ∃ e, Completes i s e ∧ LanesWritten s e p m d w n (fun k => (f k).1) ∧ VecFrame s e d fl

/-- A mask destination: bits below VES keep their value, active ones below `n` hold the result, the rest follow their
policies (R133). -/
def BitsWritten (s e : State) (p m : BitVec 1) (d : Reg) (n : Nat) (f : Nat → Bool) : Prop :=
  ∀ k, k < 8 * s.hart.vrs → (e.hart.vreg d.toNat).getLsbD k =
    if k < s.hart.tr.ves.toNat then (s.hart.vreg d.toNat).getLsbD k
    else if k < n then
      if onLane s.hart m k then f k
      else !(s.hart.policies (p = 1)).2 && (s.hart.vreg d.toNat).getLsbD k
    else !(s.hart.policies (p = 1)).1 && (s.hart.vreg d.toNat).getLsbD k

/-- CMP.V's conditions: constructor and code (R353). -/
def vecCmps : List ((BitVec 1 → Reg → Reg → Reg → Instr) × (Nat → Nat → Nat → Bool) × FCond) :=
  [(Instr.cmpVEq, fun _ x y => x == y, .eq), (Instr.cmpVNe, fun _ x y => x != y, .ne),
   (Instr.cmpVLt, fun w x y => decide (sg w x < sg w y), .lt), (Instr.cmpVLe, fun w x y => decide (sg w x ≤ sg w y), .le),
   (Instr.cmpVGt, fun w x y => decide (sg w y < sg w x), .gt), (Instr.cmpVGe, fun w x y => decide (sg w y ≤ sg w x), .ge),
   (Instr.cmpVLtu, fun _ x y => decide (x < y), .unord), (Instr.cmpVLeu, fun _ x y => decide (x ≤ y), .ord)]

/-- A sum of FP elements in order, from the first (a NaN enters as the canonical NaN), with the flags of its steps (R106). -/
def orderedSum (f : FFmt) (rm : RMode) : List Nat → Nat × FpFlags
  | [] => (0, 0)
  | x :: rest =>
    rest.foldl (fun a y => ((fAdd f rm a.1 y).1, a.2 ||| (fAdd f rm a.1 y).2))
      (if isNan (unpack f x) then (f.nan, signals (unpack f x)) else (x, 0))

/-- The maximum or minimum of the elements, from the identity of Table 6.5, with its flags. -/
def extreme (fmt : Nat) (mx : Bool) (l : List Nat) : Nat × FpFlags :=
  let w := fmtWidth fmt
  if fmt ≤ 3 then
    (l.foldl (fun a y => if (if mx then sg w a < sg w y else sg w y < sg w a) then y else a)
      (if mx then 2 ^ (w - 1) else 2 ^ (w - 1) - 1), 0)
  else l.foldl (fun a y => ((fMinMax (floatFmt fmt) mx a.1 y).1, a.2 ||| (fMinMax (floatFmt fmt) mx a.1 y).2))
    ((floatFmt fmt).inf mx, 0)

/-- An integer element sign-extended, an FP element zero-extended, to a scalar register (R140). -/
def reduced (fmt x : Nat) : DWord := if fmt ≤ 3 then BitVec.ofInt 64 (sg (fmtWidth fmt) x) else BitVec.ofNat 64 x

/-- A scalar register result of a vector instruction: the flags raised, one register written, the rest as it was. -/
def Reduces (i : Instr) (s : State) (d : Reg) (fl : FpFlags) (v : DWord) : Prop :=
  ∃ e, Completes i s e ∧ KeepsRegisters { s with hart := flagged fl s.hart } e d ∧ e.mem = s.mem ∧
    e.hart.xr d.toNat = if d = 0 then 0 else v

/-- The loads of elements at their addresses, in order: element, physical address, value, mark. -/
def loading (reach : Reach) (w : Nat) (l : List (Nat × DWord)) : M (List (Nat × Nat × Nat × Mark)) :=
  foldL (fun r a => do
    needAligned a.2 (w / 8) a.1
    let pa ← translate (loadAcc reach a.1) a.2
    raceCheck (loadAcc reach a.1) a.2 pa (w / 8)
    let x ← readPhys pa (w / 8)
    pure (r ++ [(a.1, pa, leNat x.1, x.2)])) [] l

/-- The stores of elements at their addresses, in order: the physical address of each. -/
def storing (reach : Reach) (w : Nat) (l : List (Nat × DWord × Nat × Mark)) : M (List Nat) :=
  foldL (fun r a => do
    needAligned a.2.1 (w / 8) a.1
    let pa ← translate (storeAcc reach a.1) a.2.1
    raceCheck (storeAcc reach a.1) a.2.1 pa (w / 8)
    bufferedStore pa a.2.1 (leBytes (w / 8) a.2.2.1) a.2.2.2
    pure (r ++ [pa])) [] l

/-- The elements that a bound vector source pops, in order, each checked for races with what the hart knew at the STRM: physical
address and value (R200, R202). -/
def popping (b : StreamB) (n : Nat) (l : List Nat) : M (List (Nat × Nat)) :=
  foldL (fun r i => withClock b.clock (do
    let va := b.addr (b.pos + i)
    let pa ← translate (loadAcc .single) va
    raceCheck (loadAcc .single) va pa n
    let x ← readPhys pa n
    pure (r ++ [(pa, leNat x.1)]))) [] l

/-- The elements that a bound vector destination pushes, in order, each with its value and mark: the physical address of each
(R200). -/
def pushing (b : StreamB) (n : Nat) (l : List (Nat × Nat × Mark)) : M (List Nat) :=
  foldL (fun r a => do
    let va := b.addr (b.pos + a.1)
    let pa ← translate (storeAcc .single) va
    raceCheck (storeAcc .single) va pa n
    bufferedStore pa va (leBytes n a.2.1) a.2.2
    pure (r ++ [pa])) [] l

/-- The hart's mask, where the instruction has one, is not poisoned below `n` (R309). -/
def CleanMask (h : Hart) (m : BitVec 1) (n : Nat) : Prop :=
  m = 0 ∨ ∀ k, k < n → h.issued.bitMark h.maskReg k = 0

/-- The value that a list of loads gives element `k`. -/
def loadedAt (l : List (Nat × Nat × Nat × Mark)) (k : Nat) : Nat := ((l.find? fun q => q.1 = k).map (·.2.2.1)).getD 0

/-- The vector loads' frame: VecFrame, but for the remote-access bit, with each value the bytes at its physical address. -/
def Loaded (s e : State) (d : Reg) (w : Nat) (l : List (Nat × Nat × Nat × Mark)) : Prop :=
  VecFrame s e d 0 ∧ ∀ q ∈ l, q.2.2.1 = readNat q.2.1 (w / 8) s

/-- What stored elements leave: memory is the stores' alone, every byte outside them is as it was, and no register changes. -/
def ElementsStored (s e u : State) (w : Nat) (pas : List Nat) : Prop :=
  KeepsRegisters s e 0 ∧ e.mem = u.mem ∧ e.hart.buf = u.hart.buf ∧ (s.hart.protectedStrip = false → s.hart.assay = false →
    ∀ a, (∀ pa ∈ pas, a < pa ∨ pa + w / 8 ≤ a) → memByte e.mem a = memByte s.mem a)

/-- The loads of elements, or of BX blocks, through a handle, in order: element number and bytes as a number (R155, R157). -/
def handleLoads (d : TDesc) (c : Nat × Nat × Nat × Nat) (l : List Nat) : M (List (Nat × Nat)) :=
  foldL (fun r e => do
    let a ← tensorAddr d c e
    let x ← tensorLoad a d.unit e
    pure (r ++ [(e, x.1)])) [] l

/-- The stores of elements, or of BX blocks, through a handle, in order: the address of each. -/
def handleStores (d : TDesc) (c : Nat × Nat × Nat × Nat) (l : List (Nat × Nat × Mark)) : M (List DWord) :=
  foldL (fun r e => do
    let a ← tensorAddr d c e.1
    tensorStore a d.unit e.1 e.2.1 e.2.2
    pure (r ++ [a])) [] l

/-- The value at a key of a list of pairs, 0 where it has none. -/
def valueAt (l : List (Nat × Nat)) (k : Nat) : Nat := ((l.find? fun q => q.1 = k).map (·.2)).getD 0

/-- The bits of a tensor descriptor that Table 7.1 defines: all of 0x00 to 0x1F, of the word at 0x20 all but [31:24], [12:11] and [7], and
all of 0x24 to 0x37. A reserved bit reads as zero (R10). -/
def definedBits : BitVec 512 := BitVec.ofNat 512 (2 ^ 256 - 1 + 0xFFE77F * 2 ^ 256 + (2 ^ 160 - 1) * 2 ^ 288)

/-- The words of a Filigree image of `n` dimensions at `x`, each with its mark (R282): the whole image is checked before it is read. -/
def qloadImage (x : DWord) (n : Nat) : M (List (Word × Mark)) := do
  let runs ← rowRuns (loadAcc .single (some 0)) x (4 + 132 * n)
  raceRuns (loadAcc .single (some 0)) runs
  foldL (fun l r => do
    let w ← foldL (fun l i => do
      let x ← readPhys (r.2.1 + 4 * i) 4
      pure (l ++ [(BitVec.ofNat 32 (leNat x.1), x.2)])) [] (upTo (r.2.2 / 4))
    pure (l ++ w)) [] runs

/-- Every byte of memory outside the save areas of the saved harts that a push reaches is as it was (R216). -/
def KeepsOutsideAreas (s e : State) (task l copy : Nat) : Prop :=
  ∀ a, (∀ v ∈ s.saved, v.hart.taskNo = task → v.hart.tr.lhart.toNat = l → v.hart.copy = copy →
    a < v.hart.areaBase ∨ v.hart.areaBase + 0xC0000 ≤ a) → memByte e.mem a = memByte s.mem a

/-- The checks of SCATADD.V's elements, in order: the physical address of each. -/
def posting (fmt w : Nat) (l : List (Nat × DWord)) : M (List Nat) :=
  foldL (fun r a => do
    needAligned a.2 (w / 8) a.1
    let pa ← translate (rmwAcc .gather a.1) a.2
    bankCheck (rmwAcc .gather a.1) a.2 pa (w / 8)
    if 0x40000000000 ≤ pa && pa < 0x80000000000 && fmtIsFloat fmt then raise causeAccess a.2 a.1
    copyHold (rmwAcc .gather a.1) pa (w / 8)
    pure (r ++ [pa])) [] l

/-- The state with VES as it is, every stream and register left, once the append queue's descriptor at `q` is found: its
physical address and its 32 bytes. -/
def cappDescriptor (q : DWord) : M (Nat × Nat) := do
  let acc : Access := { rmwAcc .single with order := .quiet, whole := true }
  let pa ← translate acc q
  raceLook acc q pa 32
  let x ← readPhys pa 32
  steerCheck x.2
  pure (pa, leNat x.1)

/-- The members of the bank set that a plural instruction acts on: those of the mask, and for a store or an operation only
those that failed before where PFM names any (R117, R128). -/
def pluralMembers (h : Hart) (again : Bool) : List Member :=
  ((upTo h.memberCount).filter fun i => (h.issued.vreg h.maskReg).getLsbD i && (!again || h.tr.pfm = 0 || h.tr.pfm.getLsbD i)).map
    fun i => ⟨i, h.memberBank i⟩

/-- What a plural instruction needs of its hart and its offset register (R122): nothing to wait for, a clean mask and bank set,
and an unpoisoned aligned offset below 65536. -/
def PluralReady (s : State) (b : Reg) (n : Nat) : Prop :=
  PrefixPlaced s.hart ∧ s.hart.planish = [] ∧ s.hart.protectedStrip = false ∧ s.hart.assay = false ∧ s.hart.buf = [] ∧
  MemoryCanonical s ∧ Clean s.hart [0x004] ∧ CleanMask s.hart 1 s.hart.memberCount ∧ Unbound s.hart b ∧ s.hart.xm b.toNat = 0 ∧
  (s.hart.xr b.toNat).toNat % n = 0 ∧ (s.hart.xr b.toNat).toNat ≤ 65535

/-- The state with PFM cleared and flags raised: what a plural instruction without a failed member leaves of them. -/
def pluralDone (s : State) (fl : FpFlags) : State := { s with hart := failedMap 0 (flagged fl s.hart) }

/-- The bits of PFM for a list of members. -/
def memberBits (l : List Nat) : BitVec 127 := BitVec.ofNat 127 (l.foldl (fun n i => n + 2 ^ i) 0)

/-- The bank operations: the .P form, the .PL form, the element type, and the new value from the old one and the operand, with
its flags (R120, R403). -/
noncomputable def pluralOps : List ((Reg → Reg → Instr) × (Reg → Reg → Instr) × PType × (Nat → Nat → Nat × FpFlags)) :=
  [(Instr.addPI16, Instr.addPlI16, .i16, fun x y => ((x + y) % 2 ^ 16, 0)),
   (Instr.subPI16, Instr.subPlI16, .i16, fun x y => ((x + 2 ^ 16 - y) % 2 ^ 16, 0)),
   (Instr.andPI16, Instr.andPlI16, .i16, fun x y => (x &&& y, 0)),
   (Instr.orPI16, Instr.orPlI16, .i16, fun x y => (x ||| y, 0)),
   (Instr.xorPI16, Instr.xorPlI16, .i16, fun x y => (x ^^^ y, 0)),
   (Instr.maxPI16, Instr.maxPlI16, .i16, fun x y => (if sg 16 x < sg 16 y then y else x, 0)),
   (Instr.minPI16, Instr.minPlI16, .i16, fun x y => (if sg 16 x < sg 16 y then x else y, 0)),
   (Instr.addPI32, Instr.addPlI32, .i32, fun x y => ((x + y) % 2 ^ 32, 0)),
   (Instr.subPI32, Instr.subPlI32, .i32, fun x y => ((x + 2 ^ 32 - y) % 2 ^ 32, 0)),
   (Instr.andPI32, Instr.andPlI32, .i32, fun x y => (x &&& y, 0)),
   (Instr.orPI32, Instr.orPlI32, .i32, fun x y => (x ||| y, 0)),
   (Instr.xorPI32, Instr.xorPlI32, .i32, fun x y => (x ^^^ y, 0)),
   (Instr.maxPI32, Instr.maxPlI32, .i32, fun x y => (if sg 32 x < sg 32 y then y else x, 0)),
   (Instr.minPI32, Instr.minPlI32, .i32, fun x y => (if sg 32 x < sg 32 y then x else y, 0)),
   (Instr.addPF32, Instr.addPlF32, .f32, fAdd fp32 .rne),
   (Instr.subPF32, Instr.subPlF32, .f32, fSub fp32 .rne),
   (Instr.maxPF32, Instr.maxPlF32, .f32, fMinMax fp32 true),
   (Instr.minPF32, Instr.minPlF32, .f32, fMinMax fp32 false)]

/-- LD.P's combiners (R121, Table 5.4): constructor, element type, and the result from the members' values, with its flags. -/
noncomputable def pluralLoads : List ((Reg → Reg → Instr) × PType × (List Nat → DWord × FpFlags)) :=
  [(Instr.ldPI16Sum, .i16, fun l => (BitVec.ofInt 64 ((l.map (sg 16)).sum), 0)),
   (Instr.ldPI16Max, .i16, fun l => (reduced 1 (extreme 1 true l).1, 0)),
   (Instr.ldPI16Min, .i16, fun l => (reduced 1 (extreme 1 false l).1, 0)),
   (Instr.ldPI16Maxu, .i16, fun l => (BitVec.ofNat 64 (l.foldl max 0), 0)),
   (Instr.ldPI16Minu, .i16, fun l => (BitVec.ofNat 64 (l.foldl min (2 ^ 16 - 1)), 0)),
   (Instr.ldPI16And, .i16, fun l => (reduced 1 (l.foldl (· &&& ·) (2 ^ 16 - 1)), 0)),
   (Instr.ldPI16Or, .i16, fun l => (reduced 1 (l.foldl (· ||| ·) 0), 0)),
   (Instr.ldPI16Xor, .i16, fun l => (reduced 1 (l.foldl (· ^^^ ·) 0), 0)),
   (Instr.ldPI32Sum, .i32, fun l => (BitVec.ofInt 64 ((l.map (sg 32)).sum), 0)),
   (Instr.ldPI32Max, .i32, fun l => (reduced 2 (extreme 2 true l).1, 0)),
   (Instr.ldPI32Min, .i32, fun l => (reduced 2 (extreme 2 false l).1, 0)),
   (Instr.ldPI32Maxu, .i32, fun l => (BitVec.ofNat 64 (l.foldl max 0), 0)),
   (Instr.ldPI32Minu, .i32, fun l => (BitVec.ofNat 64 (l.foldl min (2 ^ 32 - 1)), 0)),
   (Instr.ldPI32And, .i32, fun l => (reduced 2 (l.foldl (· &&& ·) (2 ^ 32 - 1)), 0)),
   (Instr.ldPI32Or, .i32, fun l => (reduced 2 (l.foldl (· ||| ·) 0), 0)),
   (Instr.ldPI32Xor, .i32, fun l => (reduced 2 (l.foldl (· ^^^ ·) 0), 0)),
   (Instr.ldPF32Fsum, .f32, fun l => (BitVec.ofNat 64 (orderedSum fp32 .rne l).1, (orderedSum fp32 .rne l).2)),
   (Instr.ldPF32Fmax, .f32, fun l => (BitVec.ofNat 64 (extreme 5 true l).1, (extreme 5 true l).2)),
   (Instr.ldPF32Fmin, .f32, fun l => (BitVec.ofNat 64 (extreme 5 false l).1, (extreme 5 false l).2))]

/-- Memory and flags after the members' bank operations in order: each reads its operand (the given value, or its operand
word), then its own word, and writes the result. -/
def opsApplied (n : Nat) (f : Nat → Nat → Nat × FpFlags) (y : Nat) (m : Memory)
    (l : List (MemberWord × Option MemberWord)) : Memory × FpFlags :=
  l.foldl (fun r p =>
    let yv := match p.2 with
      | some c => memNat r.1 c.pa n
      | none => y
    let x := f (memNat r.1 p.1.pa n) yv
    (setNat r.1 p.1.pa n x.1, r.2 ||| x.2)) (m, 0)

/-- What a matrix instruction needs of its hart: its prefix legally placed, the engine, room in the matrix queue, no
pre-emption at an element, and no trap latched for one. -/
def EngineReady (s : State) (w : Swage) : Prop :=
  PrefixPlaced s.hart ∧ s.hart.swage = some w ∧ w.queue.length < 16 ∧ s.hart.stopAt = none ∧ s.hart.late = none ∧ w.m ≤ 64 ∧ w.n ≤ 64 ∧ w.k ≤ 256

/-- The engine with an instruction of a major put in its queue. -/
def queued (maj : BitVec 7) (w : Swage) : Swage := { w with queue := w.queue ++ [⟨maj⟩] }

/-- The rows read for the engine, in order: row number and its bytes with their marks (R170). -/
def rowsRead (reach : Reach) (n : Nat) (l : List (Nat × DWord)) : M (List (Nat × List (Byte × Mark))) :=
  foldL (fun r a => do
    let x ← readRow reach a.1 a.2 n
    pure (r ++ [(a.1, x)])) [] l

/-- The rows stored by the engine, in order: the physical runs of all of them (R177). -/
def rowsStored (w : Nat) (l : List (Nat × DWord × List (Nat × Mark))) : M (List (Nat × Nat)) :=
  foldL (fun r a => do
    let acc := { storeAcc .single a.1 with queue := queueMat }
    let runs ← rowRuns acc a.2.1 (w * a.2.2.length)
    raceRuns acc runs
    let places := runs.flatMap fun c => (upTo (c.2.2 / w)).map fun k => (c.1 + BitVec.ofNat 64 (k * w), c.2.1 + k * w)
    forEach (places.zip a.2.2) fun p => bufferedStore p.1.2 p.1.1 (leBytes w p.2.1) p.2.2
    pure (r ++ runs.map (·.2))) [] l

/-- What a matrix instruction leaves alone: every register and all memory; FCR takes the flags raised. -/
def MatrixFrame (s e : State) (fl : FpFlags) : Prop :=
  e.hart.x = s.hart.x ∧ e.hart.v = s.hart.v ∧ e.hart.handles = s.hart.handles ∧ e.hart.filigree = s.hart.filigree ∧
  { e.hart.tr with cir := 0 } = { (flagged fl s.hart).tr with cir := 0 } ∧ e.mem = s.mem

/-- The M × N elements of tile `t'` are `f`'s, and every other one is that of `t`. -/
def TileFilled (t t' : TileBits) (m n : Nat) (f : Nat → Nat → Nat) : Prop :=
  ∀ i j, i < 64 → j < 64 → tileElem t' i j = if i < m ∧ j < n then f i j % 2 ^ 32 else tileElem t i j

/-- The flags of M × N elements. -/
def tileFlags (m n : Nat) (f : Nat → Nat → Nat × FpFlags) : FpFlags :=
  (upTo m).foldl (fun g i => (upTo n).foldl (fun g j => g ||| (f i j).2) g) 0

/-- The matrix instructions that a hart without the engine cannot issue. -/
noncomputable def matrixInstrs (z g t r : BitVec 1) (c b a : Reg) : List Instr :=
  [.tshapeBf16 b a, .tshapeInt8 b a, .tshapeBx7 b a, .tshapeBx4 b a, .tshapeBx2 b a, .mld g t r c b a, .mldx c b a,
   .mmaBf16 z c b a, .mmaInt8 z c b a, .mmaBx7 z c b a, .mmaBx4 z c b a, .mmaBx2 z c b a, .scaccM c b a, .mstFp32 c b a,
   .mstBf16 c b a, .mstInt32 c b a, .mdrain b a, .mzero a, .mwait, .mwaitall]

/-- A saved hart `g` holds every field of `h` (R298, R299), but for what belongs to the stopped unit or to its slot: the
prefix, the wait, the pre-emption and its deadline, the held translations; the streams have no element in use and none read ahead, the slots
and the tiles are no longer dirty, and the save ends a region of the race detector. -/
def SavedImage (h g : Hart) : Prop :=
  { g with pfx := h.pfx, wait := h.wait, preempt := h.preempt, stopAt := h.stopAt, overdue := h.overdue, resumed := h.resumed, region := h.region,
           held := h.held, raced := h.raced, late := h.late, streams := h.streams, filigree := h.filigree,
           swage := h.swage } = h ∧
  g.region = h.region + 1 ∧ g.streams = h.streams.map (fun b => { b with used := false, step := 0, ahead := [] }) ∧
  g.filigree = h.filigree.map (fun f => { f with dirty := false }) ∧
  g.swage = h.swage.map fun w => { w with dirty := 0, saved := w.saved || w.dirty ≠ 0 }

/-- The hart in focus has given up its slot and is saved as `u` has it, to go on at its PC and VES. Memory is that of `u`, but
for the bytes that Tables 15.4 and 15.5 place in the hart's save area. -/
def SavedAway (u r : State) (cause : SaveCause) : Prop :=
  r.hart = Hart.reset u.hart.hartid ∧ ∃ v, r.saved = u.saved ++ [v] ∧ v.cause = cause ∧ v.rpc = u.hart.pc ∧
    v.rves = u.hart.tr.ves ∧ v.rmode = u.hart.mode ∧ v.vcaps = u.hart.sr.vcap ∧ SavedImage u.hart v.hart ∧
    ∀ a, memByte r.mem a =
      match (if u.hart.areaBase ≤ a ∧ a < u.hart.areaBase + 0xC0000 then v.areaByte (a - u.hart.areaBase) else none) with
      | some b => b
      | none => memByte u.mem a

/-- The events that look at a wait of the hart in focus, each with the waits that it looks at. -/
def waitEvents : List (Instr × (Wait → Bool)) :=
  [(.barwaitReturn, fun w => match w with | .barwait _ _ => true | _ => false),
   (.cbWaitSatisfied, fun w => match w with | .cbres _ _ _ => true | .cbacq _ _ _ => true | _ => false),
   (.cappWaitSatisfied, fun w => match w with | .capp _ _ _ => true | _ => false),
   (.twaitReturn, fun w => match w with | .twait _ _ => true | _ => false),
   (.depwWaitSatisfied, fun w => match w with | .depw => true | _ => false),
   (.drainReturn, fun w => match w with | .drain _ _ _ _ _ _ => true | _ => false),
   (.waittReturn, fun w => match w with | .waitt _ _ _ => true | _ => false),
   (.registerFullWake, fun w => match w with | .register _ => true | _ => false)]

/-- A STRIP with PUB has published the strip left behind (R31, R32): it stands among the task's strips as a release at DEV, and it is
published, under AS once both copies have done so. -/
def Published (s r : State) (t : Task) : Prop :=
  let k := s.hart.tr.strn.toNat
  ∃ t', r.tasks[s.hart.taskNo]? = some t' ∧ (k, s.hart.release 3) ∈ t'.strips ∧
    (k ∈ t'.published ↔ k ∈ t.published ∨ t.desc.attrBit 4 = false ∨ ∃ q ∈ t.strips, q.1 = k)

/-- Memory after a STRIP has left a strip behind: the buffered stores are performed, and no other byte changes but those of WMARK in the
task's record, where the strip is published (R32). -/
def StripMemory (s : State) (t : Task) (p : BitVec 1) (m : Memory) : Prop :=
  (p = 0 ∨ s.hart.stripInBlock = false → m = landed s) ∧
  ∀ a, (∀ pa, spaceAddr { s with mem := landed s } t.asid (t.recVa + 0x50) 8 true = some pa → a < pa ∨ pa + 8 ≤ a) →
    memByte m a = memByte (landed s) a

/-- The hart waits at its instruction with VES at `ves`, its registers and memory as they were. -/
def WaitsAt (s r : State) (w : Wait) (ves : DWord) : Prop :=
  r.hart.wait = w ∧ r.hart.pc = s.hart.pc ∧ r.hart.tr.ves = ves ∧ r.hart.x = s.hart.x ∧ r.hart.v = s.hart.v ∧ r.mem = s.mem

/-- The collective instructions with their operation codes (Table 13.4). -/
noncomputable def collectives : List ((Reg → Reg → Reg → Instr) × BitVec 3) :=
  [(Instr.credFsum, 0), (Instr.credFsums, 1), (Instr.credFmax, 2), (Instr.credFmaxn, 3), (Instr.credFmin, 4),
   (Instr.credIsum, 5), (Instr.credImax, 6), (Instr.credImin, 7)]

/-- What CRED reads and checks before it sends (R272): the registers' marks, the descriptor's bytes and write access to it;
the answer holds the descriptor and the state after the checks. -/
def CredChecked (s : State) (op : BitVec 3) (c b d : Reg) (k : CredDesc) (u : State) : Prop :=
  let m := s.hart.xm c.toNat ||| (if op = 1 then s.hart.xm d.toNat else 0)
  let x := s.hart.xr b.toNat
  ∃ pa t, Passes { loadAcc .single with whole := true } x 64 { s with hart := seen m s.hart } pa t ∧ viewMark (found pa 64 t) pa 64 = 0 ∧
    k = credDescOf (BitVec.ofNat 512 (readNat pa 64 (found pa 64 t))) ∧
    translate (storeAcc .single) x (found pa 64 t) = .ok pa u ∧
    bankCheck { storeAcc .single with whole := true } x pa 64 u = .ok () u

/-- The root is this device, or one that the window table assigns; EXPM names the participant, the reserved fields are
zero, and an FSUMS scale lies in its range (R272). -/
def CredAccepted (s : State) (op : BitVec 3) (d : Reg) (k : CredDesc) : Prop :=
  k.expm ≠ 0 ∧ k.expm.getLsbD k.pidx.toNat = true ∧ k.clean = true ∧
  (k.root = 0xFFFF ∨ k.root = s.fid ∨ ∃ w ∈ s.windows, w.2 = k.root) ∧
  (op = 1 → -180 ≤ (s.hart.xr d.toNat).toInt ∧ (s.hart.xr d.toNat).toInt ≤ 170)

/-- The checks of the two stores of CRED's answer, of CMASK at descriptor + 0x18 and of STATUS at + 0x20: the physical addresses. -/
def credStores (x : DWord) : M (Nat × Nat) := do
  let acc := storeAcc .single (some 1)
  let p ← translate acc (x + 0x18)
  raceLook acc (x + 0x18) p 8
  let q ← translate acc (x + 0x20)
  raceLook acc (x + 0x20) q 8
  pure (p, q)

/-- A saved hart's context at 0x1C0 to 0x1FF of its save area is the only memory that differs: one of a party that a list names. -/
def ContextsAlone (s r : State) (parties : List Nat) : Prop :=
  ∀ a, (∀ v ∈ s.saved, v.hart.party ∈ parties → a < v.hart.areaBase + 0x1C0 ∨ v.hart.areaBase + 0x200 ≤ a) →
    memByte r.mem a = memByte s.mem a

/-- The party of a contributor of this device. -/
def contributor (c : Contribution) : Option Nat := c.home.map fun p => partyNo p.1 p.2 0

/-- A contribution is refused: the slots stay as they are, and the contributor receives the status, with a CMASK: a message, or the
answer in its hart; that of a saved hart is delivered into its save area (R273). -/
def Refused (s : State) (c : Contribution) (st : BitVec 8) (m : BitVec 64) : Prop :=
  let a : CredAnswer := ⟨st, m, 0, 0, 0⟩
  let here := fun (k : CredId) => k.here && k.slot = c.slot.toNat && k.gen = c.gen && k.pidx = c.pidx.toNat
  let give := fun (h : Hart) => if h.credId.any here then { h with cred := some a } else h
  ∀ rest, ∃ r, exec (.credContribution none) { s with contribs := c :: rest } = .next r ∧
    (c.home = none → r = { s with contribs := rest, collOut := s.collOut ++ [.answer c a] }) ∧
    ∀ p, contributor c = some p →
      let u := modParty p give { s with contribs := rest }
      ((∀ v ∈ s.saved, v.hart.party ≠ p) → r = u) ∧
      r.hart = u.hart ∧ r.others = u.others ∧ r.saved.map (·.hart) = u.saved.map (·.hart) ∧ r.slots = s.slots ∧
      r.contribs = rest ∧ r.collOut = s.collOut ∧ ContextsAlone s r [p] ∧
      ∀ v, s.saved.filter (·.hart.party = p) = [v] → hartOf s p = some v.hart → v.hart.credId.any here = true →
        ∃ w ∈ r.saved, w.hart.areaBase = v.hart.areaBase ∧
          ∀ i < 64, some (memByte r.mem (v.hart.areaBase + 0x1C0 + i)) = w.areaByte (0x1C0 + i)

/-- The answer of a closed round has gone to its counted contributors: to the hart of this device that waits in it, or out to the
contributor's device (R273). -/
def Delivered (s r : State) (ws : List Contribution) (a : CredAnswer) : Prop :=
  (∀ c ∈ ws, c.home = none → .answer c a ∈ r.collOut) ∧
  ∀ op x b d c root, Waits s (.cred op x b d) → s.hart.copy = 0 → c ∈ ws →
    s.hart.credId = some ⟨true, root, c.slot.toNat, c.gen, c.pidx.toNat⟩ →
    c.home = some (s.hart.taskNo, s.hart.tr.lhart.toNat) → r.hart.cred = some a

/-- A contribution is counted: round, participants and phase of its slot afterwards, and, where it closes the round, the answer to
those that had counted before it (`ws`) and to it. -/
def Counted (s : State) (c : Contribution) (mask : BitVec 64) (old : Option (BitVec 32 × CredAnswer))
    (ws : List Contribution) : Prop :=
  ∀ rest, ∃ r, exec (.credContribution none) { s with contribs := c :: rest } = .next r ∧ r.contribs = rest ∧
    ContextsAlone s r ((ws ++ [c]).filterMap contributor) ∧ (mask ≠ c.expm ∨ s.saved = [] → r.mem = s.mem) ∧
    let k := collSlot r c.slot.toNat
    k.gen = c.gen ∧ k.op = c.op ∧ k.expm = c.expm ∧ k.tmo = c.tmo ∧ k.cmask = mask ∧ k.prev = old ∧
    k.phase = (if mask = c.expm then .closed else .isOpen) ∧ (mask = c.expm → Delivered s r (ws ++ [c]) k.answer) ∧ ∀ n, n ≠ c.slot.toNat → collSlot r n = collSlot s n

/-- The checks of HMV up to its slot (R223, R224), with what they find: the command, the descriptor, the rows with their
runs, the runs of VEC and of OUT, and the barrier's physical address. -/
def hmvChecks (cmd bar : DWord) : M (HmvCmd × List (Nat × List (DWord × Nat × Nat)) × List (DWord × Nat × Nat) ×
    List (DWord × Nat × Nat) × Nat) := do
  let (k, d) ← hmvOperands cmd bar
  hmvPlace cmd bar k d
  let rd := { loadAcc .any with queue := queueHmv }
  let rows ← foldL (fun l r => do
    let runs ← rowRuns rd r.2 (2 * d.d0)
    pure (l ++ [(r.1, runs)])) [] (k.rows d)
  let vec ← rowRuns rd k.vec (2 * d.d0)
  let out ← pageAddrs (storeAcc .any) k.out (4 * k.nr)
  let acc : Access := ⟨true, true, .any, .sync, none, true, queueHmv⟩
  let pa ← translate acc bar
  bankCheck acc bar pa 16
  pure (k, rows, vec, out, pa)

/-- The reads of HMV, made at issue: x with its mark, and each row's bytes with their mark. -/
def hmvReads (vec : List (DWord × Nat × Nat)) (rows : List (Nat × List (DWord × Nat × Nat))) :
    M ((List Byte × Mark) × List (List Byte × Mark)) := do
  let rd := { loadAcc .any with queue := queueHmv }
  let x ← readRuns rd vec
  let l ← foldL (fun l r => do
    let w ← readRuns rd r.2
    pure (l ++ [w])) [] rows
  pure (x, l)

/-- The FP32 bits of a BF16 value. -/
def wide (x : BitVec 16) : Nat := x.toNat * 65536

/-- The sum of one bank in R220's loop. -/
def bankPart (w x : List (BitVec 16)) (b : Nat) : Nat :=
  ((List.range (min w.length x.length)).filter fun k => k / 32 % 16 = b).foldl
    (fun a k => (fMa fp32 .rne (wide (w[k]?.getD 0)) (wide (x[k]?.getD 0)) a).1) 0

/-- R220's loop: the banks' sums, added in ascending order. -/
def dotProduct (w x : List (BitVec 16)) : Nat :=
  (List.range 15).foldl (fun y b => (fAdd fp32 .rne y (bankPart w x (b + 1))).1) (bankPart w x 0)

/-- The poison of the microword that a row program has reached (R307). -/
def microMark (s : State) : Mark := storeMark s s.row.chan s.row.idx

/-- A row program goes on after a microword that leaves `u`; what a poisoned microword computes is poisoned. -/
def rowOn (s : State) (u : RowUnit) : State :=
  { s with row := { u with mark := u.mark ||| microMark s, idx := s.row.idx + 1, done := s.row.done + 1 } }

/-- Memory after the pieces of elements have been copied, one after the other, from their old place to their new one. -/
def elementsCopied (l : List TilePiece) (m : Memory) : Memory :=
  l.foldl (fun m p => setBytes m p.new (memBytes m p.old p.len)) m

/-- Do two packets touch one word, and come in part from one hart (R125)? -/
def SameWordAndHart (a b : Packet) : Prop :=
  (∃ w, w ∈ wordsOf a.pa a.bytes ∧ w ∈ wordsOf b.pa b.bytes) ∧
  ∃ p ∈ a.parts, ∃ q ∈ b.parts, p.task = q.task ∧ p.lhart = q.lhart ∧ p.copy = q.copy

/-- Do two packets act on one memory: that of tasks without Assay, or the pages of one copy (R316)? -/
def SameMemory (a b : Packet) : Prop :=
  ∃ p ∈ a.parts.head?, ∃ q ∈ b.parts.head?, (p.assay = false ∧ q.assay = false) ∨
    (p.assay = true ∧ q.assay = true ∧ p.task = q.task ∧ p.copy = q.copy)

/-- A router may merge packet `j` into packet `i` (R207): one address space, address, operation and width, neither of a
deterministic task, an operation of Table 10.1 that combines, and no packet between them that the later one must follow. -/
def MayMerge (s : State) (i j : Nat) (a b : Packet) : Prop :=
  i < j ∧ a.asid = b.asid ∧ a.pa = b.pa ∧ a.op = b.op ∧ a.bytes = b.bytes ∧ a.det = false ∧ b.det = false ∧
  1 ≤ a.op.toNat ∧ a.op.toNat ≤ 11 ∧ SameMemory a b ∧
  ∀ k c, i < k → k < j → s.packets[k]? = some c → ¬ SameWordAndHart c b

/-- A well-formed request at a stack's Golrok port (R226). -/
def GolrokFormed (a n : Nat) : Prop :=
  64 ≤ n ∧ n ≤ 4096 ∧ n % 64 = 0 ∧ a % 64 = 0 ∧ a + n ≤ 0xC00000000

/-- An entry of the stack's table admits a request (R227, Table 10.7): valid and readable, of that device, and the pages of
the request inside its range. -/
def GolrokAllowed (s : State) (k : Nat) (fid : BitVec 16) (a n : Nat) : Prop :=
  ∃ g ∈ s.golrok, g.stack = k ∧ g.entry.getLsbD 31 = true ∧ g.entry.getLsbD 30 = true ∧ g.entry.extractLsb' 0 16 = fid ∧
    (g.entry.extractLsb' 32 24).toNat ≤ a / 4096 ∧ (a + n - 1) / 4096 ≤ (g.entry.extractLsb' 64 24).toNat

/-- Every hart keeps its registers, PC and state registers, but for what a handle of a conversion or a deferred report adds. -/
def HartRuns (s r : State) : Prop :=
  r.hart.x = s.hart.x ∧ r.hart.v = s.hart.v ∧ r.hart.pc = s.hart.pc ∧ r.hart.tr = s.hart.tr ∧ r.hart.sr = s.hart.sr ∧
  r.hart.status = s.hart.status ∧ r.hart.wait = s.hart.wait

/-- Logical hart `lh` of task `i` has started in a slot, its registers as Table 1.3 gives them (R29). -/
def Started (s r : State) (i lh slot : Nat) (t : Task) : Prop :=
  let d := t.desc
  let f := lh * d.s.toNat / d.p.toNat
  let n := (lh + 1) * d.s.toNat / d.p.toNat - f
  let b := spaceBlock s t.asid
  ∃ h, slotHart r slot = some h ∧ h.status = .running ∧ h.taskNo = i ∧ h.pc = d.code ∧ h.mode = .task ∧ h.wait = .no ∧
    h.xr 1 = d.args ∧ h.xr 2 = BitVec.ofNat 64 f ∧ h.xr 3 = BitVec.ofNat 64 n ∧
    h.xr 4 = BitVec.ofNat 64 (min ((f + n) * d.slen) d.n.toNat - f * d.slen) ∧ h.xr 5 = BitVec.ofNat 64 (f * d.slen) ∧
    (∀ k, 6 ≤ k → h.xr k = 0) ∧ h.v = Vector.replicate 192 0 ∧ h.tr.vl = 0 ∧ h.tr.vt = 2 ∧ h.tr.ves = 0 ∧ h.tr.bsr = 0x17F00 ∧
    h.tr.strn = BitVec.ofNat 64 f - 1 ∧ h.tr.lhart = BitVec.ofNat 64 lh ∧ h.tr.task = t.recVa ∧ h.tr.tstat = d.attr ∧
    h.sr.tvec = b.tvec ∧ h.sr.ptb = b.ptb ∧ h.sr.vcap = b.vcap ∧ h.sr.asid = t.asid ∧ h.sr.ie = true ∧ h.sr.pie = false ∧
    h.sr.pdead = b.pdead.setWidth 64 ∧ h.sr.pm = .task ∧ h.sr.tsave = b.tsaveb + 256 * BitVec.ofNat 64 slot

/-- The same with a slot that Bellows gives: under AS the two copies start in the pair of slots that holds it, the first on the even die
(R254). -/
def StartedWith (s r : State) (i lh slot : Nat) (t : Task) : Prop :=
  if t.desc.attrBit 4 then
    let one := if slot / 256 % 2 = 1 then slot - 256 else slot
    Started s r i lh one t ∧ Started s r i lh (one + 256) t
  else Started s r i lh slot t

/-- The poison of the doubleword of x[k] in a save area, once what errors have struck there are found (R307). -/
def areaPoison (s : State) (v : SavedHart) (slot k : Nat) : Mark :=
  let lo := v.hart.areaBase + 0x400 + 8 * k
  (((v.findErrors (slot / 256) s).marks.filter fun p => decide (lo ≤ p.1 ∧ p.1 < lo + 8)).map (·.2)).foldl (· ||| ·) 0

/-- A saved hart has come back to a slot, at the PC, element and mode it was saved with (R300), its scalar registers with the poison that
they had and that their words in its save area have (R307). -/
def Restored (s r : State) (v : SavedHart) (slot : Nat) : Prop :=
  ∃ h, slotHart r slot = some h ∧ h.status = .running ∧ h.pc = v.rpc ∧ h.tr.ves = v.rves ∧ h.mode = v.rmode ∧
    h.x = v.hart.x ∧ (∀ k, 1 ≤ k → k < 128 → h.xm k = v.hart.xm k ||| areaPoison s v slot k) ∧ h.loops = v.hart.loops ∧ h.wait = v.hart.wait ∧
    h.tr.vl = v.hart.tr.vl ∧ h.tr.strn = v.hart.tr.strn ∧ h.sr.tcause = v.hart.sr.tcause ∧ h.sr.tpc = v.hart.sr.tpc

/-- The loaded Filigree slots of a saved hart have come back from its save area (R281). -/
def FiligreeBack (s r : State) (v : SavedHart) (slot : Nat) : Prop :=
  ∃ h, slotHart r slot = some h ∧ ∀ (q : Nat) (hq : q < 4),
    let f := v.hart.filigree[q]
    let g := h.filigree[q]
    g.ndim = f.ndim ∧ (f.ndim = 0 → g = f) ∧ (f.ndim ≠ 0 → f.dirty = false → g.words =
      (List.range (33 * f.ndim)).map fun i => BitVec.ofNat 32 (memNat s.mem (v.hart.areaBase + 0x2000 + 16896 * q + 4 * i) 4))

/-- Has a task that may be stolen from (R256) an unstarted logical hart that is assigned to cluster `v` and that a slot of the idle
cluster `c` can host? -/
def Offers (s : State) (c slot v i : Nat) : Prop :=
  ∃ t, s.tasks[i]? = some t ∧ t.desc.attrBit 0 = false ∧ t.desc.attrBit 4 = false ∧ t.desc.cg = 0 ∧
    assignedTo s i v c slot ≠ []

/-- The task's record in the table after an event. -/
def TaskNow (r : State) (i : Nat) (p : Task → Prop) : Prop := ∃ t, r.tasks[i]? = some t ∧ p t

/-- A record of the black box of a die, with its code (Table 16.4). -/
def Logged (r : State) (die : Nat) (code : BitVec 16) : Prop := ∃ b ∈ r.blackBox, b.die = die ∧ b.code = code

/-- A strip has been rewound: the hart goes on at the checkpoint, with nothing of what was in flight (R313). -/
def Rewound (s r : State) : Prop :=
  let h := s.hart
  r.hart.pc = h.ckpt.pc ∧ r.hart.tr.vl = h.ckpt.vl ∧ r.hart.tr.strn = h.ckpt.strn ∧ r.hart.tr.ves = 0 ∧
  r.hart.buf = [] ∧ r.hart.planish = [] ∧ r.hart.retries = h.retries + 1 ∧ r.hart.sr.rblog = h.sr.rblog + 1 ∧
  r.hart.wait = .no ∧ r.hart.kept = [] ∧ (∀ c ∈ r.hart.loops.toList, c.active = false) ∧ r.hart.mode = h.mode ∧ r.hart.v = h.v ∧ r.mem = s.mem ∧ Logged r h.die 0x04 ∧
  (∀ k, (∀ q ∈ h.ckpt.regs, q.1.toNat ≠ k) → r.hart.xr k = h.xr k) ∧
  ((h.ckpt.regs.map (·.1)).Nodup → ∀ q ∈ h.ckpt.regs, r.hart.xr q.1.toNat = if q.1 = 0 then 0 else q.2.1)

/-- The hart has taken the uncorrectable-kill trap for a reason of Table 16.2. -/
def Killed (s r : State) (reason : Nat) : Prop :=
  r.hart.sr.tcause = 0x0E ∧ r.hart.sr.tval = BitVec.ofNat 64 (reason * 2 ^ 60 + s.hart.tr.cir.toNat) ∧
  r.hart.sr.tpc = s.hart.pc ∧ r.hart.sr.tves = s.hart.tr.ves ∧ r.hart.mode = .supervisor ∧ r.hart.x = s.hart.x ∧ r.mem = s.mem

/-- A save with a deadline, to an area on a stack, is pending. -/
def SavesOn (s : State) (k : Nat) : Prop :=
  ∃ h ∈ s.hart :: s.others, h.status = .running ∧ h.preempt = true ∧ h.sr.pdead.toNat % 2 ^ 32 ≠ 0 ∧
    h.areaBase / 0xC00000000 = k

/-- A read of the hub control space answers with a doubleword, and changes nothing else. -/
def Reads (s : State) (off : Nat) (v : DWord) : Prop :=
  exec (.hubRegisterWrite off .read) s = .next { s with port := .data (leBytes 8 v.toNat) [] }

/-- An entry of the Golrok access table of a stack; all zero where none has been written (R227). -/
def golrokEntry (s : State) (stack i : Nat) : BitVec 128 :=
  ((s.golrok.find? fun g => g.stack = stack && g.idx = i).map (·.entry)).getD 0

/-- The mailbox's registers after a write to CMD that is not discarded: busy, and whether the command will succeed. -/
def Busy (r : State) (cmd : BitVec 32) (q : MailboxReq) (ok : Bool) : Prop :=
  r.mailbox = ⟨cmd, 1, q.maddr, q.mlen, q.marg, ok, r.mailbox.rel⟩

/-- An image passes the boot ROM's checks (R326): its header's length and version, the fused digest of the public key, and the
signature over header and body. -/
def GoodImage (s : State) (i : FirmwareImage) : Prop :=
  i.header.length = Config.headerSize ∧ i.body.length = Config.headerLength i.header ∧
  s.minVersion ≤ Config.headerVersion i.header ∧
  sha384 (beBytes 48 Config.firmwareKey.1 ++ beBytes 48 Config.firmwareKey.2) = Config.fusedDigest ∧
  ecdsaVerify Config.firmwareKey (i.header ++ i.body) i.r i.s = true

/-- The bytes `l` stand at `pa` after a store that changes no other byte. -/
def BytesStored (s r : State) (pa : Nat) (l : List Byte) : Prop :=
  ∀ b, memByte r.mem b = if h : pa ≤ b ∧ b - pa < l.length then l[b - pa] else memByte s.mem b

/-- Bytes from outside the device reach `n` bytes at `pa`: one region of its own storage, no fenced cluster, no retired bank
(R322, R212, R129) and no memory that has failed bring-up. -/
def Answers (s : State) (pa n : Nat) : Prop :=
  storageRange pa n = true ∧ physMapped s pa = true ∧ physMapped s (pa + n - 1) = true ∧ (inSram pa = true → sliceOf pa ∉ s.fencedClusters) ∧
  ∀ w ∈ wordsOf pa n, inSram w = true → bankRetired s (sliceOf w) (bankOf w) = false

/-- The window and every address a hart may fetch from are as R46 and R68 say: WBASE a multiple of 8 up to 64, and PC, the
loop bodies' first words and the checkpoint multiples of 4; and no trap stays latched between steps (the model's own latch). -/
def HartLegal (h : Hart) : Prop :=
  h.tr.wbase.toNat ≤ 64 ∧ h.tr.wbase.toNat % 8 = 0 ∧ h.pc.toNat % 4 = 0 ∧ h.ckpt.pc.toNat % 4 = 0 ∧ h.late = none ∧
  ∀ c ∈ h.loops.toList, c.start.toNat % 4 = 0

/-- The invariant of the machine: memory in its canonical form, every hart legal, in a slot or saved, and no started task
whose CODE is no multiple of 4 (R25). -/
def Invariant (s : State) : Prop :=
  MemoryCanonical s ∧ HartLegal s.hart ∧ (∀ h ∈ s.others, HartLegal h) ∧
  (∀ v ∈ s.saved, HartLegal v.hart ∧ v.rpc.toNat % 4 = 0) ∧
  ∀ t ∈ s.tasks, t.state = .running → t.desc.code.toNat % 4 = 0

/-- The hart in focus is about to issue a unit: nothing is queued before it, no row program runs, no event is pending. -/
def AboutToIssue (s : State) : Prop :=
  s.agenda = [] ∧ s.row.active = false ∧ s.hart.status = .running ∧ (s.hart.wait = .no ∨ s.hart.wait = .retry ∨ s.hart.wait = .stall) ∧
  s.hart.preempt = false ∧ s.hart.watchdog = false

/-- Words that the spec writes out, with the instruction that each stands for. -/
noncomputable def specWords : List (Word × Instr) :=
  [(0x00404181, .add 2 1 3), (0x02404320, .ld 2 0 2 1 6), (0xFFA043A0, .ld 255 1 1 1 7), (0x00004011, .jr 0 1 0),
   (0x03054A1A, .loop 3 0 21 20), (0x1001051C, .strip 0 1 4 10), (0x90E18024, .amoFaddW 7 6 0), (0x316284D0, .faddV 1 1 11 10 9),
   (0xC2C54A50, .fmaV 0 0 22 21 20), (0x01E38053, .cmpVEq 0 15 14 0), (0x1300065E, .tldV 0 1 24 0 12), (0x000104E1, .addPI16 4 9),
   (0x10010665, .ldPI32Max 4 12), (0x1001C0E9, .mld 0 0 1 0 7 1), (0xB020006B, .mmaBx4 1 1 0 0), (0x2001C071, .retag 2 7 0),
   (0x3122003A, .barwait 9 8), (0x02A5053D, .cbres 21 20 10), (0x2141863E, .credFmax 10 6 12), (0x01C3463F, .hmload 14 13 12),
   (0x00000036, .finish), (0x000005FF, .pfxV 0 0 0 0 0 1 3), (0x100019FF, .pfxO 1 2 3)]

end Sys2Proof.Claims

open Sys2Proof.Claims

/-- The two-source integer instructions (R332, R86, R87): the whole next state. A destination x0 takes nothing. -/
def Obligations.ScalarTwoSourceResults : Prop :=
  ∀ (s : State) (c b d : Reg), PrefixPlaced s.hart → Unbound s.hart b → Unbound s.hart c → Unbound s.hart d →
    ∀ p ∈ twoSource,
      exec (p.1 c b d) s = .next (retired s
        ((seen (s.hart.xm b.toNat ||| s.hart.xm c.toNat) s.hart).setX d.toNat
          (p.2 (s.hart.xr b.toNat) (s.hart.xr c.toNat)) (s.hart.xm b.toNat ||| s.hart.xm c.toNat)))

/-- The immediate forms, CLZ, POPC, LIM, LIH and ADDPC (R332, R352, R406, R384, R383, R336): the whole next state; the encoding of
LIM and LIH. -/
def Obligations.ScalarImmediateResults : Prop :=
  ∀ (s : State) (b d : Reg), PrefixPlaced s.hart → Unbound s.hart b → Unbound s.hart d →
    (∀ i, ∀ p ∈ oneImmediate, exec (p.1 i b d) s = .next (retired s
      ((seen (s.hart.xm b.toNat) s.hart).setX d.toNat (p.2 (s.hart.xr b.toNat) (sext i)) (s.hart.xm b.toNat)))) ∧
    (∃ n : Nat, n ≤ 64 ∧ (s.hart.xr b.toNat).toNat < 2 ^ (64 - n) ∧
      (n < 64 → 2 ^ (63 - n) ≤ (s.hart.xr b.toNat).toNat) ∧
      exec (.clz b d) s = .next (retired s
        ((seen (s.hart.xm b.toNat) s.hart).setX d.toNat (BitVec.ofNat 64 n) (s.hart.xm b.toNat)))) ∧
    exec (.popc b d) s = .next (retired s ((seen (s.hart.xm b.toNat) s.hart).setX d.toNat
      (BitVec.ofNat 64 ((List.range 64).countP fun i => (s.hart.xr b.toNat).getLsbD i)) (s.hart.xm b.toNat))) ∧
    (∀ i, exec (.lim i d) s = .next (retired s (s.hart.setX d.toNat (sext i) 0))) ∧
    (∀ i, exec (.lih i d) s = .next (retired s ((seen (s.hart.xm d.toNat) s.hart).setX d.toNat
      ((sext i <<< 14) ||| (s.hart.xr d.toNat &&& 0x3FFF)) (s.hart.xm d.toNat)))) ∧
    (∀ i, exec (.addpc i d) s = .next (retired s (s.hart.setX d.toNat (s.hart.pc + sext i * 4) 0))) ∧
    (∀ i : BitVec 18, decodeTableWord 32 (i ++ d ++ (0x0B : BitVec 7)).toNat = some (.lim i d) ∧
      decodeTableWord 32 (i ++ d ++ (0x0C : BitVec 7)).toNat = some (.lih i d))

/-- Branches and jumps (R345, R347, R375, R376, R71): the whole next state where what steers is not poisoned. -/
def Obligations.BranchAndJumpTargets : Prop :=
  ∀ (s : State) (b a : Reg), PrefixPlaced s.hart → Unbound s.hart a → Unbound s.hart b →
    (s.hart.xm a.toNat = 0 → s.hart.xm b.toNat = 0 → ∀ o, ∀ p ∈ branches, exec (p.1 o b a) s = .next
      (if p.2 (s.hart.xr a.toNat) (s.hart.xr b.toNat) then jumped s (s.hart.pc + sext o * 4) s.hart
       else retired s s.hart)) ∧
    (∀ k : Reg, Clean s.hart [0x000, 0x001] → (∀ e < s.hart.effVl, s.hart.bitMark k.toNat e = 0) → ∀ o,
      (exec (.bmz o k) s = .next (if ∀ e < s.hart.effVl, (s.hart.vreg k.toNat).getLsbD e = false
        then jumped s (s.hart.pc + sext o * 4) s.hart else retired s s.hart)) ∧
      (exec (.bmnz o k) s = .next (if ∀ e < s.hart.effVl, (s.hart.vreg k.toNat).getLsbD e = false
        then retired s s.hart else jumped s (s.hart.pc + sext o * 4) s.hart))) ∧
    (∀ i, exec (.j i a) s = .next (jumped s (s.hart.pc + sext i * 4) (s.hart.setX a.toNat (s.hart.pc + 4) 0))) ∧
    (s.hart.xm b.toNat = 0 → ∀ i, (s.hart.xr b.toNat + sext i * 4) &&& 3 = 0 →
      exec (.jr i b a) s =
        .next (jumped s (s.hart.xr b.toNat + sext i * 4) (s.hart.setX a.toNat (s.hart.pc + 4) 0)))

/-- The loop sequencer (R37, R38, R41) and WID (R36).
The model's choices in it: log entries 96, 113. -/
def Obligations.LoopSequencer : Prop :=
  (∀ (s : State) (w : BitVec 7) (l : BitVec 3) (b c : Reg), PrefixPlaced s.hart → Unbound s.hart c → s.hart.xm c.toNat = 0 →
    Unbound s.hart (b + 1) → loopRefused s.hart w.toNat l.toNat = false →
    exec (.loop w l b c) s = .next (
      let h := if b = 0 then s.hart else seen (s.hart.xm (b + 1).toNat) s.hart
      let n := s.hart.xr c.toNat
      let ctx : LoopCtx := ⟨true, n, n, s.hart.pc + 4, s.hart.pc + 4 + 4 * BitVec.ofNat 64 w.toNat, b,
        if b = 0 then 0 else s.hart.xr (b + 1).toNat, if b = 0 then 0 else s.hart.xm (b + 1).toNat⟩
      if n = 0 then { s with hart := retireSkip w.toNat h }
      else retired s { h with loops := h.loops.setIfInBounds l.toNat ctx })) ∧
  (∀ (h : Hart) (l : Nat) (hl : l < 6), h.seqOff = false → h.loops[l].active = true →
    (∀ (k : Nat) (hk : k < 6), k ≠ l → h.loops[k].active = false) →
    let c := h.loops[l]
    let r := retireSeq false { h with pc := c.stop - h.unitLen }
    r.x = (induction c h).x ∧ r.xMark = (induction c h).xMark ∧
    (1 < c.remaining.toNat → r.pc = c.start ∧ r.loops[l] = { c with remaining := c.remaining - 1 }) ∧
    (c.remaining.toNat ≤ 1 → r.pc = c.stop ∧ r.loops[l] = { c with active := false })) ∧
  (∀ (h : Hart) (l m : Nat) (hl : l < 6) (hm : m < 6), l < m → h.seqOff = false → h.loops[l].active = true →
    h.loops[m].active = true → h.loops[m].stop = h.loops[l].stop →
    (∀ (k : Nat) (hk : k < 6), k ≠ l → k ≠ m → h.loops[k].active = false) →
    let c := h.loops[l]
    let d := h.loops[m]
    let r := retireSeq false { h with pc := c.stop - h.unitLen }
    (1 < c.remaining.toNat → r.pc = c.start ∧ r.x = (induction c h).x ∧
      r.loops[l] = { c with remaining := c.remaining - 1 } ∧ r.loops[m] = d) ∧
    (c.remaining.toNat ≤ 1 → r.x = (induction d (induction c h)).x ∧ r.loops[l] = { c with active := false } ∧
      (1 < d.remaining.toNat → r.pc = d.start ∧ r.loops[m] = { d with remaining := d.remaining - 1 }) ∧
      (d.remaining.toNat ≤ 1 → r.pc = d.stop ∧ r.loops[m] = { d with active := false }))) ∧
  (∀ (s : State) (w : BitVec 6) (t : BitVec 1) (l : Nat) (hl : l < 6), PrefixPlaced s.hart →
    (∀ x, peekWord s (s.hart.pc + 4 * BitVec.ofNat 64 w.toNat) = some x → x &&& 0x7F ≠ 0x7F) →
    (s.hart.loops[l].active = true → s.hart.pc.toNat + 4 + 4 * w.toNat ≤ s.hart.loops[l].stop.toNat) →
    exec (.once w t (BitVec.ofNat 3 l)) s = .next (
      if s.hart.loops[l].active = false ∨
          (if t = 1 then s.hart.loops[l].remaining = 1 else s.hart.loops[l].remaining = s.hart.loops[l].count)
      then retired s s.hart else { s with hart := retireSkip w.toNat s.hart })) ∧
  (∀ (s : State) (l : BitVec 3) (d : Reg) (t : Task), PrefixPlaced s.hart → Unbound s.hart d →
    s.tasks[s.hart.taskNo]? = some t →
    exec (.wid l d) s = .next (retired s ((seen (s.hart.sm 0x009) s.hart).setX d.toNat
      (BitVec.ofNat 64 (s.hart.tr.strn.toNat >>> ((List.range l.toNat).map (widWidth t.desc.fw)).sum %
        2 ^ widWidth t.desc.fw l.toNat)) (s.hart.sm 0x009))))

/-- BSET, SETVT and WINB (R114, R348, R421, R441).
The model's choices in it: log entry 107. -/
def Obligations.BankSetFormatAndWindow : Prop :=
  ∀ (s : State), PrefixPlaced s.hart →
    (∀ b : Reg, Unbound s.hart b → s.hart.xm b.toNat = 0 →
      let v := (s.hart.xr b.toNat).toNat
      let first := v % 128
      let count := v / 256 % 128
      let stp := v / 65536 % 128
      exec (.bset b) s = .next (
        if first ≤ 126 ∧ count ≠ 0 ∧ (count ≤ 1 ∨ stp % 127 ≠ 0)
        then retired s (Hart.cleanRegs [0x004]
          { s.hart with tr := { s.hart.tr with bsr := BitVec.ofNat 23 (first + 256 * count + 65536 * stp) } })
        else trappedAtStart s 0x01 (zext s.hart.ir))) ∧
    (∀ i : BitVec 9, exec (.setvt i) s = .next (retired s
      (Hart.cleanRegs [0x001] { s.hart with tr := { s.hart.tr with vt := i } }))) ∧
    (∀ i : BitVec 11, Clean s.hart [0x003] → exec (.winb i) s = .next (
      if (s.hart.tr.wbase + sext i).toNat ≤ 64 ∧ (s.hart.tr.wbase + sext i).toNat % 8 = 0
      then retired s { s.hart with tr := { s.hart.tr with wbase := s.hart.tr.wbase + sext i } }
      else trappedAtStart s 0x01 (zext s.hart.ir)))

/-- Scalar FP64 (R362, R58, R93): the whole next state where no raised flag is enabled, and the trap of an enabled one.
The model's choices in it: log entry 28. -/
def Obligations.ScalarFloatingPoint : Prop :=
  ∀ (s : State) (c b d : Reg), PrefixPlaced s.hart → Unbound s.hart b → Unbound s.hart c → Unbound s.hart d →
    (∀ p ∈ fpTwoSource,
      let r := p.2 s.hart.rm (s.hart.xr b.toNat).toNat (s.hart.xr c.toNat).toNat
      let m := s.hart.xm b.toNat ||| s.hart.xm c.toNat
      quietFlags s.hart r.2 → exec (p.1 c b d) s =
        .next (retired s ((flagged r.2 (seen m s.hart)).setX d.toNat (BitVec.ofNat 64 r.1) m))) ∧
    (∀ p ∈ fpOneSource,
      let r := p.2 s.hart.rm (s.hart.xr b.toNat).toNat
      let m := s.hart.xm b.toNat
      quietFlags s.hart r.2 → exec (p.1 b d) s =
        .next (retired s ((flagged r.2 (seen m s.hart)).setX d.toNat (BitVec.ofNat 64 r.1) m))) ∧
    (let r := fMa fp64 s.hart.rm (s.hart.xr b.toNat).toNat (s.hart.xr c.toNat).toNat (s.hart.xr d.toNat).toNat
     let m := s.hart.xm b.toNat ||| s.hart.xm c.toNat ||| s.hart.xm d.toNat
     quietFlags s.hart r.2 → exec (.fmac c b d) s =
        .next (retired s ((flagged r.2 (seen m s.hart)).setX d.toNat (BitVec.ofNat 64 r.1) m))) ∧
    (s.hart.resumed = none →
      let Enters := fun (i : Instr) (fl : FpFlags) (m : Mark) => ¬ quietFlags s.hart fl → exec i s = .next
        { s with hart := takeTrap 0x0B (zext (fl &&& fcrEnables s.hart.tr.fcr)) s.hart.tr.ves (flagged fl (seen m s.hart)) }
      (∀ p ∈ fpTwoSource, Enters (p.1 c b d) (p.2 s.hart.rm (s.hart.xr b.toNat).toNat (s.hart.xr c.toNat).toNat).2
        (s.hart.xm b.toNat ||| s.hart.xm c.toNat)) ∧
      (∀ p ∈ fpOneSource, Enters (p.1 b d) (p.2 s.hart.rm (s.hart.xr b.toNat).toNat).2 (s.hart.xm b.toNat)) ∧
      Enters (.fmac c b d)
        (fMa fp64 s.hart.rm (s.hart.xr b.toNat).toNat (s.hart.xr c.toNat).toNat (s.hart.xr d.toNat).toNat).2
        (s.hart.xm b.toNat ||| s.hart.xm c.toNat ||| s.hart.xm d.toNat))

/-- Trap entry (R288), and the two units that only trap (R68, R83, R306): what a fetch fault does to a word fetched ahead is the
model's choice (log entries 71 and 9).
The model's choices in it: log entries 9, 71, 107. -/
def Obligations.TrapEntrySavesAndVectors : Prop :=
  (∀ (h : Hart) (cause : BitVec 8) (tval ves : DWord),
    let t := takeTrap cause tval ves h
    t.sr.tcause = cause.setWidth 64 ∧ t.sr.tval = tval ∧ t.sr.tpc = h.pc ∧ t.sr.tves = ves ∧ t.tr.ves = 0 ∧
    t.sr.pm = h.mode ∧ t.sr.pie = h.sr.ie ∧ t.sr.ie = false ∧ t.mode = .supervisor ∧
    t.pc = h.sr.tvec &&& ~~~3 ∧ t.x = h.x ∧ t.v = h.v) ∧
  (∀ (s : State) (w : Word), exec (.illegalInstruction w) s = .next (trappedAtStart s 0x01 (zext w))) ∧
  (∀ (s : State) (va : DWord), exec (.fetchFault va) s = .next (trapped
    { s with badFetches := s.badFetches.filter (· ≠ (s.hart.core, va)) } 0x06 va)) ∧
  (∀ (s : State) (n : BitVec 18), PrefixPlaced s.hart → ∃ t h, exec (.trap n) s = .next t ∧
    h.pc = s.hart.pc ∧ h.pfx = s.hart.pfx ∧ h.loops = s.hart.loops ∧ h.seqOff = s.hart.seqOff ∧ h.sr = s.hart.sr ∧
    h.mode = s.hart.mode ∧ h.tr = s.hart.tr ∧ h.v = s.hart.v ∧ (∀ k, k ≠ 10 → h.xr k = s.hart.xr k) ∧
    t.hart = takeTrap 0x10 (zext n) 0 (retireSeq false h) ∧ t.hart.sr.tpc = (retireSeq false s.hart).pc)

/-- ERET (R289).
The model's choices in it: log entries 24, 28, 96. -/
def Obligations.EretRestores : Prop :=
  ∀ (s : State), PrefixPlaced s.hart →
    (s.hart.mode = .supervisor → Clean s.hart [0x103, 0x104, 0x109] → ∃ t, exec .eret s = .next t ∧
      t.hart.pc = s.hart.sr.tpc &&& ~~~3 ∧ t.hart.tr = { s.hart.tr with ves := s.hart.sr.tves } ∧
      t.hart.mode = s.hart.sr.pm ∧ t.hart.sr = { s.hart.sr with ie := s.hart.sr.pie } ∧
      t.hart.x = s.hart.x ∧ t.hart.v = s.hart.v ∧ t = { s with hart := t.hart }) ∧
    (s.hart.mode = .task → exec .eret s = .next (trapped s 0x02 (zext s.hart.ir)))

/-- TRAP (R292, R435): the service, then the entry with TPC after the completed unit.
The model's choices in it: log entries 23, 32, 33, 34, 113, 117, 118. -/
def Obligations.TrapInstructionRequestsService : Prop :=
  ∀ (s : State) (n : BitVec 18), PrefixPlaced s.hart →
    (∃ t, exec (.trap n) s = .next t ∧ t.hart.sr.tcause = 0x10 ∧ t.hart.sr.tval = zext n ∧ t.hart.mode = .supervisor ∧
      t.hart.pc = t.hart.sr.tvec &&& ~~~3) ∧
    (∀ v : DWord, (n = 0 ∧ v = Config.versionWord) ∨ (n = 1 ∧ s.hart.mode = .task ∧ v = -1) ∨
        (n = 4 ∧ v = BitVec.ofNat 64 (sliceVa s.hart)) ∨ (5 ≤ n.toNat ∧ v = -1) →
      exec (.trap n) s =
        .next { s with hart := takeTrap 0x10 (zext n) 0 (retireSeq false (s.hart.setX 10 v 0)) }) ∧
    (n = 2 → ∃ t, exec (.trap n) s = .next t ∧
      t.hart = takeTrap 0x10 (zext n) 0 (retireSeq false (s.hart.setX 10 0 0)) ∧ t.mem = s.mem ∧
      t.blackBox.getLast?.map (fun r => (r.code, r.data)) = some (0x0D, (s.hart.xr 10).setWidth 128)) ∧
    (n = 1 → s.hart.mode = .supervisor →
      let bank := (s.hart.xr 10).toNat % 128
      let spent := ∃ p ∈ s.spares, p.1 = s.hart.home
      let mine := fun w => inSram w = true ∧ sliceOf w = s.hart.home ∧ bankOf w = bank
      let answer := fun v => takeTrap 0x10 (zext n) 0 (retireSeq false (s.hart.setX 10 v 0))
      (bank = 127 → exec (.trap n) s = .next { s with hart := answer (-1) }) ∧
      (bank ≠ 127 → spent → exec (.trap n) s = .next { s with hart := answer 1 }) ∧
      (bank ≠ 127 → ¬ spent → MemoryCanonical s → ∃ t, exec (.trap n) s = .next t ∧ t.hart = answer 0 ∧
        t.spares = s.spares ++ [(s.hart.home, bank)] ∧ (∀ b, b ∈ t.retired ↔ b ∈ s.retired ∧ b ≠ (s.hart.home, bank)) ∧
        (∀ w ∈ s.latent, mine w → w % 4 = 0 → memNat t.mem w 4 = 0 ∧ wordMark t w = classAt w ∧ w ∉ t.latent) ∧
        ∀ a, (∀ w ∈ s.latent, mine w → a < w ∨ w + 4 ≤ a) → memByte t.mem a = memByte s.mem a)) ∧
    (n = 3 → s.hart.status = .running → ∃ t, exec (.trap n) s = .next t ∧
      t.hart = takeTrap 0x10 (zext n) 0 (retireSeq false s.hart.end') ∧ t.hart.status = .finished ∧
      t.hart.sr.tpc = (retireSeq false s.hart).pc ∧ t.mem = s.mem ∧
      ∀ k, s.tasks[s.hart.taskNo]? = some k → ∃ k', t.tasks[s.hart.taskNo]? = some k' ∧ k'.killed = true ∧
        k'.unstarted = [] ∧ k'.finalStatus = if k.status = 2 then 2 else 3)

/-- MFS (R391, Tables 2.4 and 2.5): the whole next state; the two clocks give some value.
The model's choices in it: log entries 20, 31. -/
def Obligations.StateRegisterReads : Prop :=
  ∀ (s : State) (d : Reg), PrefixPlaced s.hart → Unbound s.hart d →
    (∀ p ∈ stateRegs, (s.hart.mode = .supervisor ∨ p.1 < 0x100) →
      (p.1 ∈ waitingRegs → vecPending s.hart = false ∧ matPending s.hart = false) →
      exec (.mfs (BitVec.ofNat 11 p.1) d) s = .next (retired s
        ((seen (s.hart.sm p.1) (if p.1 = 0x10B then Hart.cleanRegs [0x10B] { s.hart with sr := { s.hart.sr with rblog := 0 } }
          else s.hart)).setX d.toNat (p.2 s.hart) (s.hart.sm p.1)))) ∧
    (∀ n, n = 0x011 ∨ n = 0x012 → ∃ t v, Completes (.mfs (BitVec.ofNat 11 n) d) s t ∧
      t.hart.x = (s.hart.setX d.toNat v 0).x ∧ t.mem = s.mem)

/-- MTS (R392, Tables 2.4 and 2.5): the whole next state.
The model's choices in it: log entries 19, 31, 107. -/
def Obligations.StateRegisterWrites : Prop :=
  ∀ (s : State) (a : Reg), PrefixPlaced s.hart → Unbound s.hart a → s.hart.xm a.toNat = 0 →
    vecPending s.hart = false → matPending s.hart = false →
    let v := s.hart.xr a.toNat
    (∀ p ∈ taskWrites,
      (p.2.1 v → exec (.mts (BitVec.ofNat 11 p.1) a) s = .next (retired s ((p.2.2 s.hart v).cleanRegs [p.1]))) ∧
      (¬ p.2.1 v → exec (.mts (BitVec.ofNat 11 p.1) a) s = .next (trappedAtStart s 0x01 (zext s.hart.ir)))) ∧
    (s.hart.mode = .supervisor → (∀ p ∈ supervisorWrites ++ tableTwoFiveWrites,
        exec (.mts (BitVec.ofNat 11 p.1) a) s = .next (retired s ((p.2 s.hart v).cleanRegs [p.1]))) ∧
      exec (.mts 0x002 a) s = .next { s with
        hart := retireSeq true (Hart.cleanRegs [0x002] { s.hart with tr := { s.hart.tr with ves := v } }) })

/-- The checks on a state register's number and mode (R55).
The model's choices in it: log entry 107. -/
def Obligations.StateRegisterPrivilege : Prop :=
  ∀ (s : State) (n : BitVec 11) (r : Reg), PrefixPlaced s.hart →
    (s.hart.mode = .task → 0x100 ≤ n.toNat →
      exec (.mfs n r) s = .next (trapped s 0x02 (zext s.hart.ir)) ∧
      exec (.mts n r) s = .next (trapped s 0x02 (zext s.hart.ir))) ∧
    (s.hart.mode = .supervisor ∨ n.toNat < 0x100 → n.toNat ∉ 0x011 :: 0x012 :: stateRegs.map (·.1) →
      exec (.mfs n r) s = .next (trappedAtStart s 0x01 (zext s.hart.ir)) ∧
      exec (.mts n r) s = .next (trappedAtStart s 0x01 (zext s.hart.ir))) ∧
    (s.hart.mode = .supervisor ∨ n.toNat < 0x100 →
      n.toNat ∈ [0x00D, 0x00E, 0x00F, 0x010, 0x011, 0x012, 0x10B] →
      exec (.mts n r) s = .next (trappedAtStart s 0x01 (zext s.hart.ir))) ∧
    (s.hart.mode = .task → n.toNat ∈ 0x002 :: supervisorWrites.map (·.1) →
      exec (.mts n r) s = .next (trapped s 0x02 (zext s.hart.ir))) ∧
    (Unbound s.hart r → s.hart.xm r.toNat = 0 → ∀ p ∈ taskWrites, n.toNat = p.1 → ¬ p.2.1 (s.hart.xr r.toNat) →
      exec (.mts n r) s = .next (trappedAtStart s 0x01 (zext s.hart.ir)))

/-- LD (R379, R71): the whole next state; ST (R425, R311).
The model's choices in it: log entries 7, 8, 12, 48. -/
def Obligations.ScalarLoadsAndStores : Prop :=
  (∀ (s t : State) (o : BitVec 8) (z : BitVec 1) (sz : BitVec 2) (b d : Reg) (pa : Nat),
    PrefixPlaced s.hart → Unbound s.hart b → Unbound s.hart d → s.hart.xm b.toNat = 0 →
    let n := 2 ^ sz.toNat
    let a := s.hart.xr b.toNat + sext o * BitVec.ofNat 64 n
    a.toNat % n = 0 → Passes (loadAcc .single) a n s pa t →
    let u := found pa n t
    let m := viewMark u pa n
    let v := if z = 1 then BitVec.ofNat 64 (readNat pa n u) else signed64 n (readNat pa n u)
    u.mem = s.mem ∧ exec (.ld o z sz b d) s = .next (retired u ((seen m u.hart).setX d.toNat v m))) ∧
  (∀ (s t : State) (o : BitVec 8) (sz : BitVec 2) (b a : Reg) (pa : Nat),
    PrefixPlaced s.hart → Unbound s.hart b → Unbound s.hart a → s.hart.xm b.toNat = 0 → s.hart.planish = [] →
    MemoryCanonical s →
    let n := 2 ^ sz.toNat
    let va := s.hart.xr b.toNat + sext o * BitVec.ofNat 64 n
    let v := s.hart.xr a.toNat
    let m := s.hart.xm a.toNat
    va.toNat % n = 0 → Passes (storeAcc .single) va n { s with hart := seen m s.hart } pa t →
    (s.hart.protectedStrip = false → s.hart.assay = false → ∃ r, Completes (.st o sz b a) s r ∧
      KeepsRegisters s r 0 ∧ Stored s.mem pa n v.toNat r.mem) ∧
    (s.hart.protectedStrip = true → s.hart.buf.foldl (fun k c => k + c.data.length) 0 + n ≤ 65536 →
      ∃ r, Completes (.st o sz b a) s r ∧ KeepsRegisters s r 0 ∧ r.mem = s.mem ∧
        r.hart.buf = s.hart.buf ++ [⟨pa, va, leBytes n v.toNat, m⟩]))

/-- A performed store at its home (R9, R307).
The model's choices in it: log entries 2, 71. -/
def Obligations.MemoryReadAfterWrite : Prop :=
  (∀ (s : State) (pa : Nat) (data : List Byte) (mk : Mark), s.mem.wf = true →
    let t := performStore pa data mk s
    t.mem.wf = true ∧
    (∀ a, memByte t.mem a = if h : pa ≤ a ∧ a - pa < data.length then data[a - pa] else memByte s.mem a) ∧
    (∀ w, w % 4 = 0 → pa ≤ w → w + 4 ≤ pa + data.length → wordMark t w = mk) ∧
    (∀ w, w % 4 = 0 → (w + 4 ≤ pa ∨ pa + data.length ≤ w) → wordMark t w = wordMark s w)) ∧
  (∀ (m : Memory) (pa n v : Nat), m.wf = true → memNat (setNat m pa n v) pa n = v % 256 ^ n)

/-- Alignment of scalar accesses and jump targets (R379, R425, R382, R430, R340, R68), and poison that steers (R309).
The model's choices in it: log entry 69. -/
def Obligations.ScalarTrapConditions : Prop :=
  ∀ (s : State) (b c d : Reg), PrefixPlaced s.hart → (∀ r ∈ [b, c, c + 1, d], Unbound s.hart r) →
    s.hart.races = [] → s.hart.planish = [] → releasePending s = false → s.hart.det = false →
    let Traps := fun (i : Instr) (a : DWord) => ∃ t, exec i s = .next t ∧ t.hart.sr.tcause = 0x03 ∧ t.hart.sr.tval = a ∧
      t.hart.sr.tpc = s.hart.pc ∧ t.hart.sr.tves = s.hart.tr.ves ∧ t.hart.mode = .supervisor ∧ t.hart.x = s.hart.x ∧ t.mem = s.mem
    let Kills := fun (i : Instr) => ∃ t, exec i s = .next t ∧ t.hart.sr.tcause = 0x0E ∧
      t.hart.sr.tval = BitVec.ofNat 64 (2 * 2 ^ 60 + t.hart.tr.cir.toNat) ∧ t.hart.sr.tpc = s.hart.pc ∧
      t.hart.mode = .supervisor ∧ t.hart.x = s.hart.x ∧ t.mem = s.mem
    (s.hart.xm b.toNat = 0 →
      (∀ (o : BitVec 8) (z : BitVec 1) (sz : BitVec 2),
        let a := s.hart.xr b.toNat + sext o * BitVec.ofNat 64 (2 ^ sz.toNat)
        a.toNat % 2 ^ sz.toNat ≠ 0 → Traps (.ld o z sz b d) a ∧ Traps (.st o sz b d) a) ∧
      (∀ (o : BitVec 6) (sc : BitVec 3) (sz : BitVec 2),
        let a := s.hart.xr b.toNat + sext o * BitVec.ofNat 64 (2 ^ sz.toNat)
        a.toNat % 2 ^ sz.toNat ≠ 0 → Traps (.ldaq o sc sz b d) a ∧ Traps (.strl o sc sz b d) a) ∧
      (∀ p ∈ amos, (s.hart.xr b.toNat).toNat % p.2.1 ≠ 0 → Traps (p.1 c b d) (s.hart.xr b.toNat)) ∧
      ((s.hart.xr b.toNat).toNat % 4 ≠ 0 → Traps (.amoCasW c b d) (s.hart.xr b.toNat)) ∧
      ((s.hart.xr b.toNat).toNat % 8 ≠ 0 → Traps (.amoCasD c b d) (s.hart.xr b.toNat)) ∧
      (∀ o : BitVec 11, let t := s.hart.xr b.toNat + sext o * 4
        t.toNat % 4 ≠ 0 → Traps (.jr o b d) t)) ∧
    (s.hart.xm b.toNat ||| s.hart.xm d.toNat ≠ 0 → ∀ o, ∀ p ∈ branches, Kills (p.1 o b d)) ∧
    (s.hart.xm b.toNat ≠ 0 → (∀ o, Kills (.jr o b d)) ∧
      (∀ o z sz, Kills (.ld o z sz b d) ∧ Kills (.st o sz b d)) ∧
      ∀ o sc sz, Kills (.ldaq o sc sz b d) ∧ Kills (.strl o sc sz b d))

/-- LDAQ (R382) and STRL (R430).
The model's choices in it: log entries 12, 13. -/
def Obligations.AcquireLoadAndReleaseStore : Prop :=
  ∀ (s t : State) (o : BitVec 6) (sc : BitVec 3) (sz : BitVec 2) (b d : Reg) (pa : Nat),
    PrefixPlaced s.hart → Unbound s.hart b → Unbound s.hart d → s.hart.xm b.toNat = 0 → s.hart.races = [] →
    s.hart.planish = [] → releasePending s = false → MemoryCanonical s →
    let n := 2 ^ sz.toNat
    let a := s.hart.xr b.toNat + sext o * BitVec.ofNat 64 n
    a.toNat % n = 0 →
    (∀ r, translate { loadAcc .single with order := .sync } a s = .ok pa r →
      acquiring 1 sc.toNat { loadAcc .single with order := .sync } a pa n r = .ok () t →
      let u := found pa n t
      ∃ r, Completes (.ldaq o sc sz b d) s r ∧ r.hart.xr d.toNat = (if d = 0 then 0 else signed64 n (readNat pa n u)) ∧
        KeepsRegisters s r d ∧ r.hart.region = s.hart.region + 1 ∧
        r.hart.clock = s.hart.acquired s.hart.core (relsOf s (s.hart.side.seen s pa) n) sc.toNat ∧
        r.hart.protectedStrip = false ∧ (s.hart.protectedStrip = false → r.mem = s.mem)) ∧
    (BufferLands s → s.hart.assay = false →
      Passes { storeAcc .single with order := .sync } a n { s with hart := seen (s.hart.xm d.toNat) s.hart } pa t →
      ∃ r, Completes (.strl o sc sz b d) s r ∧ KeepsRegisters s r 0 ∧ r.hart.protectedStrip = false ∧
        Stored (if s.hart.protectedStrip then landed s else s.mem) pa n (s.hart.xr d.toNat).toNat r.mem ∧
        (s.hart.protectedStrip = true → r.hart.buf = []) ∧ r.hart.region = s.hart.region + 1 ∧ r.hart.fenceRel = [] ∧
        ∀ k, pa ≤ k → k < pa + n → relsAt r k =
          ⟨s.hart.core, sc.toNat, s.hart.snapshot⟩ :: s.hart.fenceRel.map fun f => { f with core := s.hart.core })

/-- The AMOs (R338 to R341) outside a protected strip and Assay, posted ones included (R76, R207).
The model's choices in it: log entries 12, 48, 54. -/
def Obligations.AtomicUpdates : Prop :=
  (∀ p ∈ amos, ∀ (s t u : State) (c b d : Reg) (pa scope order : Nat), AtomicReady s p.2.2.1 scope order false →
    Unbound s.hart b → Unbound s.hart c → Unbound s.hart d → s.hart.xm b.toNat = 0 →
    let n := p.2.1
    let a := s.hart.xr b.toNat
    let y := (s.hart.xr c.toNat).toNat % 2 ^ (8 * n)
    let old := readNat pa n (found pa n t)
    a.toNat % n = 0 → translate (rmwAcc .single) a { s with hart := seen (s.hart.xm c.toNat) s.hart } = .ok pa t →
    (p.2.2.2.1 = true ∨ pa < 0x40000000000 ∨ 0x80000000000 ≤ pa) → acquiring order scope (rmwAcc .single) a pa n (found pa n t) = .ok () u →
    ∃ r fl, Completes (p.1 c b d) s r ∧
      r.hart.xr d.toNat = (if d = 0 then 0 else if p.2.2.1 then BitVec.ofNat 64 old else signed64 n old) ∧
      KeepsRegisters { s with hart := flagged fl s.hart } r d ∧ (p.2.2.1 = false → fl = 0) ∧
      Stored s.mem pa n (p.2.2.2.2 old y) r.mem ∧
      r.hart.clock = (if order = 1 ∨ order = 3 then s.hart.acquired s.hart.core (relsOf s pa n) scope else s.hart.clock) ∧
      (2 ≤ order → ∀ k, pa ≤ k → k < pa + n →
        ⟨s.hart.core, scope, putKey s.hart.party s.hart.region r.hart.clock⟩ ∈ relsAt r k)) ∧
  (∀ q ∈ [(Instr.amoCasW, 4), (Instr.amoCasD, 8)], ∀ (s t u : State) (c b d : Reg) (pa scope order : Nat),
    AtomicReady s false scope order false →
    Unbound s.hart b → Unbound s.hart c → Unbound s.hart (c + 1) → Unbound s.hart d → s.hart.xm b.toNat = 0 →
    let n := q.2
    let a := s.hart.xr b.toNat
    let y := (s.hart.xr c.toNat).toNat % 2 ^ (8 * n)
    let z := (s.hart.xr (c + 1).toNat).toNat % 2 ^ (8 * n)
    let old := readNat pa n (found pa n t)
    a.toNat % n = 0 → translate (rmwAcc .single) a
      { s with hart := seen (s.hart.xm c.toNat ||| s.hart.xm (c + 1).toNat) s.hart } = .ok pa t →
    acquiring order scope { rmwAcc .single with write := decide (old = y) } a pa n (found pa n t) = .ok () u →
    ∃ r, Completes (q.1 c b d) s r ∧ r.hart.xr d.toNat = (if d = 0 then 0 else signed64 n old) ∧
      KeepsRegisters s r d ∧
      (old = y → Stored s.mem pa n z r.mem) ∧ (old ≠ y → r.mem = s.mem)) ∧
  (∀ p ∈ amos, ∀ (s t : State) (c b d : Reg) (pa scope order : Nat), AtomicReady s p.2.2.1 scope order true →
    Unbound s.hart b → Unbound s.hart c → s.hart.xm b.toNat = 0 →
    let a := s.hart.xr b.toNat
    a.toNat % p.2.1 = 0 → translate (rmwAcc .single) a { s with hart := seen (s.hart.xm c.toNat) s.hart } = .ok pa t →
    bankCheck (rmwAcc .single) a pa p.2.1 t = .ok () t → copyHold (rmwAcc .single) pa p.2.1 t = .ok () t → (p.2.2.2.1 = true ∨ pa < 0x40000000000 ∨ 0x80000000000 ≤ pa) →
    ∃ r k, Completes (p.1 c b d) s r ∧ KeepsRegisters s r 0 ∧ r.mem = s.mem ∧
      r.packets = s.packets ++ [k] ∧ k.pa = pa ∧ k.bytes = p.2.1 ∧
      k.operand.toNat = (s.hart.xr c.toNat).toNat % 2 ^ (8 * p.2.1) ∧
      ∀ old < 2 ^ (8 * p.2.1), (amoNew k.op.toNat k.bytes old k.operand.toNat 0).1 = p.2.2.2.2 old k.operand.toNat)

/-- FENCE (R238, R366) and PREF (R407).
The model's choices in it: log entries 12, 13, 71. -/
def Obligations.FencesAndPrefetch : Prop :=
  ∀ (s : State), PrefixPlaced s.hart →
    (∀ sc : BitVec 3, s.hart.races = [] → s.hart.planish = [] → releasePending s = false →
      let Fences := fun (i : Instr) (acq rel : Bool) => ∃ t, Completes i s t ∧ KeepsRegisters s t 0 ∧
        t.hart.region = s.hart.region + 1 ∧ (s.hart.protectedStrip = false → t.mem = s.mem) ∧
        (s.hart.protectedStrip = true → BufferLands s → t.mem = landed s ∧ t.hart.buf = [] ∧ t.hart.protectedStrip = false) ∧
        let known := if acq then (s.hart.lastAcq.filter (·.pairs sc.toNat s.hart.lastCore)).foldl
          (fun c q => joinClock c q.clock) s.hart.clock else s.hart.clock
        t.hart.clock = known ∧ t.hart.fenceRel = if rel
          then ⟨s.hart.core, sc.toNat, putKey s.hart.party s.hart.region known⟩ :: s.hart.fenceRel else s.hart.fenceRel
      Fences (.fenceAr sc) true true ∧ Fences (.fenceAcq sc) true false ∧ Fences (.fenceRel sc) false true) ∧
    (∀ sc : BitVec 3, releasePending s = false → exec (.fenceFetch sc) s = .next (retired
      { s with badFetches := s.badFetches.filter fun p => p.1 ≠ s.hart.core } s.hart)) ∧
    (∀ (o : BitVec 8) (sz : BitVec 2) (b k : Reg), Unbound s.hart b → s.hart.xm b.toNat = 0 →
      exec (.pref o sz b k) s = .next (retired s s.hart))

/-- Barrier objects (R191, R343).
The model's choices in it: log entries 13, 38, 48. -/
def Obligations.BarrierObjectInstructions : Prop :=
  ∀ (s t : State) (c b a : Reg) (p : BarPlace), SyncReady s → Unbound s.hart a →
    MemoryCanonical s →
    let u := quiet unprotect t
    let w := quiet (barSettle p) t
    let old := readBar p u
    (∀ n k, barSetChecks c b a false s = .ok ((n, k), p) t →
      ∃ r, exec (.barinit c b a) s = .next (retired { writeBar p ⟨0, n, 0, k, 0⟩ w with releases := r } w.hart)) ∧
    (∀ n k, barSetChecks c b a true s = .ok ((n, k), p) t → ∃ r, Completes (.barexp c b a) s r ∧
      KeepsRegisters t r 0 ∧ r.hart.fenceRel = [] ∧
      ∀ pa va, p = .mem pa va → s.hart.assay = false →
        Stored w.mem pa 16 (BarObj.update ⟨(readBar p w).gen, n, (readBar p w).arrv, k, (readBar p w).nbyt⟩ 0 0).1.bits r.mem) ∧
    (barChecks b true true true s = .ok p t → ∃ r, Completes (.bararr b a) s r ∧ KeepsRegisters t r a ∧
      r.hart.xr a.toNat = (if a = 0 then 0 else BitVec.ofNat 64 old.gen) ∧ r.hart.region = s.hart.region + 1 ∧
      ∀ pa va, p = .mem pa va → (s.hart.assay = false → Stored u.mem pa 16 (old.update 1 0).1.bits r.mem) ∧
        (s.hart.assay = false ∨ inSram pa = false → ∀ q ∈ relsNow u.hart 2 p.scope, q ∈ barReleases p r)) ∧
    (∀ g, (do
        let o ← barAddress b true true [c]
        let g ← steerX c
        let p ← barPlace o (barAccess true false)
        pure (g, p) : M (DWord × BarPlace)) s = .ok (g, p) t → s.hart.protectedStrip = false →
      ((readBar p t).gen ≠ bitsAt g 0 8 → ∀ w, barRace p (barAccess true false) t = .ok () w →
        (∃ r, Completes (.barwait c b) s r ∧ (Waits s (.barwait c b) → exec .barwaitReturn s = .next (retired r r.hart)) ∧
          KeepsRegisters w r 0 ∧ r.mem = s.mem ∧ r.hart.region = s.hart.region + 1 ∧
          r.hart.clock = ((barReleases p w).filter (·.pairs p.scope s.hart.core)).foldl
            (fun k q => joinClock k q.clock) s.hart.clock) ∧
        (∃ r, Completes (.bartest c b a) s r ∧ KeepsRegisters w r a ∧ r.hart.xr a.toNat = (if a = 0 then 0 else 1))) ∧
      ((readBar p t).gen = bitsAt g 0 8 →
        (∃ r, exec (.barwait c b) s = .next r ∧ r.hart.wait = .barwait c b ∧ r.hart.pc = s.hart.pc ∧ r.mem = s.mem) ∧
        ∀ w, barRace p (barAccess true false) t = .ok () w →
          ∃ r, Completes (.bartest c b a) s r ∧ KeepsRegisters w r a ∧ r.hart.xr a.toNat = 0))

/-- CPY (R193 to R196, R355) and COPY_COMPLETE: registers x[A] to x[A + 3] hold destination, source, count and target, which plain CPY does
not look at.
The model's choices in it: log entries 49, 50, 51, 115. -/
def Obligations.CopyIssueAndCompletion : Prop :=
  (∀ q ∈ [(Instr.cpyBar, 0), (Instr.cpyDep, 1), (Instr.cpy, 2)],
    ∀ (s t w : State) (a : Reg) (fin : CopyEnd) (from' to' : List (DWord × Nat × Nat)) (data : List (Byte × Mark)),
    PrefixPlaced s.hart → s.hart.planish = [] → s.hart.protectedStrip = false →
    (∀ r ∈ [a, a + 1, a + 2] ++ (if q.2 = 2 then [] else [a + 3]), Unbound s.hart r ∧ s.hart.xm r.toNat = 0) →
    let dst := s.hart.xr a.toNat
    let src := s.hart.xr (a + 1).toNat
    let n := (s.hart.xr (a + 2).toNat).toNat
    0 < n → n < 2 ^ 32 → (src.toNat + n ≤ dst.toNat ∨ dst.toNat + n ≤ src.toNat) →
    copyChecks q.2 src dst n (s.hart.xr (a + 3).toNat) s = .ok (fin, from', to') t →
    (t.copies.filter fun c => t.hart.owns c.task c.lhart && c.copy = t.hart.copy).length < 16 →
    copySource from' t = .ok data w →
    ∃ r j, Completes (q.1 a) s r ∧ KeepsRegisters s r 0 ∧ r.mem = s.mem ∧ r.copies = s.copies ++ [j] ∧
      j.data = data ∧ j.dst = to'.map (·.2) ∧ j.count = n ∧ j.fin = fin ∧ j.owner = s.hart.party) ∧
  (∀ (s : State) (n : Nat) (j : CopyJob), s.copies[n]? = some j → j.assay = false → MemoryCanonical s →
    (copyPlaces j).Nodup → (copyPlaces j).length = j.data.length → (∀ a ∈ copyPlaces j, physMapped s a = true) →
    (∀ pa va, j.fin = .bar pa va → physMapped s pa = true) → (∀ pa, j.fin = .dep pa → physMapped s pa = true) →
    ∃ r, exec (.copyComplete n) s = .next r ∧ r.copies = s.copies.eraseIdx n ∧ r.hart.x = s.hart.x ∧ r.hart.v = s.hart.v ∧
      r.hart.pc = s.hart.pc ∧
      (j.fin = .nothing → ∀ a, memByte r.mem a = copiedByte j s.mem a) ∧
      (∀ pa va, j.fin = .bar pa va →
        CopiedAnd j s.mem pa 16 ((barOf (copiedNat j s.mem pa 16)).update 0 j.count).1.bits r.mem ∧
        (barKey pa, j.release (BarPlace.mem pa va).scope) ∈ r.objRels) ∧
      (∀ pa, j.fin = .dep pa →
        let v := copiedNat j s.mem pa 4
        (v = 0 → (∀ a, memByte r.mem a = copiedByte j s.mem a) ∧
          r.blackBox.getLast?.map (fun b => (b.code, b.data)) = some (0x0B, BitVec.ofNat 128 pa)) ∧
        (v ≠ 0 → CopiedAnd j s.mem pa 4 (v - 1) r.mem ∧
          (∀ k, pa ≤ k → k < pa + 4 → ∃ q ∈ relsAt r k, q.scope = 3 ∧ 1 ≤ clockOf q.clock j.party) ∧
          ∀ (i : Nat) (t : Task), s.tasks[i]? = some t → ∃ t' : Task, r.tasks[i]? = some t' ∧
            t'.state = if v = 1 ∧ t.depc = pa ∧ t.state = .waiting then .ready else t.state)))

/-- STRM (R197 to R199, R431).
The model's choices in it: log entries 27, 52, 98. -/
def Obligations.StreamBinding : Prop :=
  (∀ q ∈ [(Instr.strm, false, false), (Instr.strmO, true, false), (Instr.strmV, false, true), (Instr.strmVo, true, true)],
    ∀ (s t : State) (b a : Reg) (pa : Nat), PrefixPlaced s.hart → Unbound s.hart b → s.hart.xm b.toNat = 0 →
    let x := s.hart.xr b.toNat
    x.toNat % 64 = 0 → Passes { loadAcc .single with whole := true } x 64 s pa t → viewMark (found pa 64 t) pa 64 = 0 →
    let st := streamOfDescriptor q.2.1 q.2.2 a (readNat pa 64 (found pa 64 t)) s.hart.clock
    (∀ y ∈ [st.base, st.s0, st.s1, st.s2], y.toNat % 2 ^ st.sz.toNat = 0) →
    (q.2.2 = true → s.hart.phys a.toNat < 8 ∨ (s.hart.fe[s.hart.phys a.toNat]?).getD .full = .full) →
    ((streamOf s.hart q.2.2 a).isSome = true ∨ s.hart.streams.length < 8) →
    ∃ r, Completes (q.1 b a) s r ∧ streamOf r.hart q.2.2 a = some st ∧ r.mem = s.mem ∧
      (∀ k, k ≠ a.toNat ∨ q.2.2 = true → r.hart.xr k = s.hart.xr k) ∧
      (∀ p, p ≠ s.hart.phys a.toNat ∨ q.2.2 = false → r.hart.v[p]? = s.hart.v[p]?) ∧
      (streamOf s.hart q.2.2 a = none → q.2.2 = false → r.hart.xr a.toNat = 0) ∧
      ∀ vec k, vec ≠ q.2.2 ∨ k ≠ a → streamOf r.hart vec k = streamOf s.hart vec k) ∧
  (∀ q ∈ [(Instr.strmOff, false), (Instr.strmVoff, true)], ∀ (s : State) (a : Reg), PrefixPlaced s.hart →
    exec (q.1 a) s = .next (retired s
      { s.hart with streams := s.hart.streams.filter fun o => !(o.vec = q.2 && o.reg = a) }))

/-- Stream operands (R200 to R202).
The model's choices in it: log entries 53, 101. -/
def Obligations.StreamOperands : Prop :=
  (∀ (s t u : State) (i : BitVec 11) (b d : Reg) (st : StreamB) (pa : Nat), PrefixPlaced s.hart → Unbound s.hart d → b ≠ d →
    b ≠ 0 → s.hart.streams = [st] → st.vec = false → st.reg = b → st.out = false → st.pos < st.len → st.ahead = [] →
    s.hart.protectedStrip = false →
    let n := 2 ^ st.sz.toNat
    translate (loadAcc .single) (st.addr st.pos) s = .ok pa u →
    withClock st.clock (raceCheck (loadAcc .single) (st.addr st.pos) pa n) u = .ok () t →
    let v := st.extend (readNat pa n (found pa n t))
    ∃ r, Completes (.addI i b d) s r ∧ r.hart.xr b.toNat = v ∧ r.hart.xr d.toNat = (if d = 0 then 0 else v + sext i) ∧
      (∀ k, k ≠ b.toNat → k ≠ d.toNat → r.hart.xr k = s.hart.xr k) ∧ r.mem = s.mem ∧
      (retired r r.hart).hart.streams.map (fun o => (o.reg, o.pos)) = [(b, st.pos + 1)]) ∧
  (∀ (s t u : State) (i : BitVec 11) (b d : Reg) (st : StreamB) (pa : Nat), PrefixPlaced s.hart → Unbound s.hart b →
    s.hart.streams = [st] → st.vec = false → st.reg = d → d ≠ 0 → st.out = true → st.pos < st.len →
    s.hart.protectedStrip = false → s.hart.assay = false → MemoryCanonical s →
    let n := 2 ^ st.sz.toNat
    let v := s.hart.xr b.toNat + sext i
    destX d s = .ok () t →
    Passes (storeAcc .single) (st.addr st.pos) n
      { t with hart := (seen (s.hart.xm b.toNat) t.hart).setX d.toNat v (s.hart.xm b.toNat) } pa u →
    ∃ r, Completes (.addI i b d) s r ∧ r.hart.xr d.toNat = v ∧ (∀ k, k ≠ d.toNat → r.hart.xr k = s.hart.xr k) ∧
      Stored s.mem pa n v.toNat r.mem ∧
      (retired r r.hart).hart.streams.map (fun o => (o.reg, o.pos)) = [(d, st.pos + 1)]) ∧
  (∀ (s t : State) (p m : BitVec 1) (a b d : Reg) (st : StreamB) (l : List (Nat × Nat)), VecReady s [a, d] → s.hart.fmt ≤ 3 →
    s.hart.streams = [st] → st.vec = true → st.reg = b → st.out = false → st.used = false → st.ahead = [] → s.hart.tr.ves = 0 →
    s.hart.kept = [] → s.hart.protectedStrip = false → (s.hart.phys b.toNat < 8 ∨ s.hart.fe[s.hart.phys b.toNat]? = some .full) →
    s.hart.phys a.toNat ≠ s.hart.phys b.toNat → s.hart.phys d.toNat ≠ s.hart.phys b.toNat →
    let w := fmtWidth s.hart.fmt
    let n := s.hart.effVl
    w = 8 * 2 ^ st.sz.toNat → st.pos + n ≤ st.len → popping st (w / 8) (upTo n) s = .ok l t →
    ∃ r, Completes (.addV p m a b d) s r ∧ l.length = n ∧ (∀ q ∈ l, q.2 = readNat q.1 (w / 8) s) ∧
      (∀ k, k < s.hart.vlmaxW w → lane r.hart b w k = ((l[k]?).map (·.2)).getD 0) ∧
      LanesWritten s r p m d w n (fun k => ((l[k]?).map (·.2)).getD 0 + lane s.hart a w k) ∧
      (∀ q, q ≠ s.hart.phys b.toNat → q ≠ s.hart.phys d.toNat → r.hart.v[q]? = s.hart.v[q]?) ∧ r.hart.x = s.hart.x ∧
      r.mem = s.mem ∧ (retired r r.hart).hart.streams.map (fun o => (o.reg, o.pos)) = [(b, st.pos + n)]) ∧
  (∀ (s t u : State) (p m : BitVec 1) (a b d : Reg) (st : StreamB) (l : List Nat), VecReady s [a, b] → s.hart.fmt ≤ 3 →
    (s.hart.rc = true → s.hart.rechecked = true) → s.hart.streams = [st] → st.vec = true → st.reg = d → st.out = true →
    s.hart.tr.ves = 0 → s.hart.kept = [] → s.hart.protectedStrip = false → s.hart.assay = false →
    (s.hart.phys d.toNat < 8 ∨ s.hart.fe[s.hart.phys d.toNat]? = some .full) →
    let w := fmtWidth s.hart.fmt
    let n := s.hart.effVl
    let sum := fun k => (lane s.hart a w k + lane s.hart b w k) % 2 ^ w
    let off := (s.hart.policies (p = 1)).2
    let value := fun k => if onLane s.hart m k then sum k else if off then 0 else lane s.hart d w k
    let mark := fun k => if onLane s.hart m k ∨ off then 0 else sourceMarks s.hart d w k
    (∀ k, k < n → sourceMarks s.hart a w k = 0 ∧ sourceMarks s.hart b w k = 0) → CleanMask s.hart m n →
    w = 8 * 2 ^ st.sz.toNat → st.pos + n ≤ st.len → forEach (upTo n) (pushLook st) s = .ok () t →
    pushing st (w / 8) ((upTo n).map fun k => (k, value k, mark k)) t = .ok l u →
    ∃ r, Completes (.addV p m a b d) s r ∧ LanesWritten s r p m d w n sum ∧ r.hart.x = s.hart.x ∧ r.mem = u.mem ∧
      (∀ q, q ≠ s.hart.phys d.toNat → r.hart.v[q]? = s.hart.v[q]?) ∧
      (∀ x, (∀ pa ∈ l, x < pa ∨ pa + w / 8 ≤ x) → memByte r.mem x = memByte s.mem x) ∧
      (∀ (k : Nat) (hk : k < l.length), (∀ (j : Nat) (hj : j < l.length), k < j → l[j] + w / 8 ≤ l[k] ∨ l[k] + w / 8 ≤ l[j]) →
        memNat r.mem l[k] (w / 8) = value k) ∧
      (retired r r.hart).hart.streams.map (fun o => (o.reg, o.pos)) = [(d, st.pos + n)]) ∧
  (∀ (s : State) (k : Nat), ∃ r, exec (.streamRefill k) s = .next r ∧ r.mem = s.mem ∧ r.hart.x = s.hart.x ∧
    r.hart.pc = s.hart.pc ∧ r.hart.streams.map (fun o => (o.reg, o.pos)) = s.hart.streams.map (fun o => (o.reg, o.pos)) ∧
    ∀ (st : StreamB) (pa : Nat) (t : State), s.hart.streams[k]? = some st → st.out = false →
      st.pos + st.ahead.length < st.len → (st.ahead.length + 1) * 2 ^ st.sz.toNat ≤ 512 →
      Passes { loadAcc .single with order := .unchecked } (st.addr (st.pos + st.ahead.length)) (2 ^ st.sz.toNat) s pa t →
      (r.hart.streams[k]?).map (fun o => o.ahead.length) = some (st.ahead.length + 1))

/-- Circular buffers (R203, R204, R350) outside a protected strip and Assay.
The model's choices in it: log entries 38, 45, 46, 47. -/
def Obligations.CircularBufferCounts : Prop :=
  ∀ (s t u : State) (c b d : Reg) (k : CbBlock), SyncReady s → Unbound s.hart d → s.hart.protectedStrip = false →
    s.hart.assay = false → MemoryCanonical s → cbBlock b c s = .ok k t →
    (∀ q ∈ [(Instr.cbres, false), (Instr.cbacq, true)],
      let have' := if q.2 then k.fill else k.free
      let pos := if q.2 then k.apos else k.rpos
      let off := if q.2 then 8 else 4
      (k.n ≤ have' → cbBehind t k q.2 = false → cbRace k off (dropWaiters t.hart t) = .ok () u →
        ∃ r, Completes (q.1 c b d) s r ∧
          (Waits s (if q.2 then .cbacq c b d else .cbres c b d) → exec .cbWaitSatisfied s = .next (retired r r.hart)) ∧
          KeepsRegisters u r d ∧ r.hart.xr d.toNat = (if d = 0 then 0 else BitVec.ofNat 64 pos) ∧
          r.hart.region = s.hart.region + 1 ∧
          Stored s.mem (k.pa + off) 4 ((have' - k.n) % 65536 + (pos + k.n) % k.nslot % 65536 * 65536) r.mem) ∧
      (have' < k.n → ∃ r, exec (q.1 c b d) s = .next r ∧ r.hart.pc = s.hart.pc ∧ r.mem = s.mem ∧
        r.hart.wait = (if q.2 then .cbacq c b d else .cbres c b d) ∧
        ∃ w ∈ r.cbWait, w.pa = k.pa ∧ w.acq = q.2 ∧ w.isOf s.hart = true)) ∧
    (∀ q ∈ [(Instr.cbcom, true), (Instr.cbrel, false)],
      let have' := if q.2 then k.fill else k.free
      let pos := if q.2 then k.apos else k.rpos
      let off := if q.2 then 8 else 4
      have' + k.n ≤ k.nslot → cbRace k off t = .ok () u →
      ∃ r, Completes (q.1 c b) s r ∧ KeepsRegisters u r 0 ∧ r.hart.region = s.hart.region + 1 ∧
        Stored s.mem (k.pa + off) 4 ((have' + k.n) % 65536 + pos % 65536 * 65536) r.mem ∧
        ∀ x ∈ relsNow s.hart 2 2, x ∈ relsAt r (k.pa + off))

/-- Integer vector instructions (Table 6.3): elements, policies and frame.
The model's choices in it: log entries 25, 89. -/
def Obligations.VectorIntegerResults : Prop :=
  ∀ (s : State) (p m : BitVec 1) (sc t d : Reg),
    let w := fmtWidth s.hart.fmt
    let n := s.hart.effVl
    let y := (s.hart.xr sc.toNat).toNat % 2 ^ w
    (∀ q ∈ vecInts, q.2.2.1 s.hart.fmt →
      (VecReady s [sc, t, d] → ∃ e, Completes (q.1 p m sc t d) s e ∧ VecFrame s e d 0 ∧
        LanesWritten s e p m d w n fun k => q.2.2.2 w (source s.hart t w k) (source s.hart sc w k)) ∧
      (VecReady s [t, d] → Unbound s.hart sc → ∃ e, Completes (q.2.1 p m sc t d) s e ∧ VecFrame s e d 0 ∧
        LanesWritten s e p m d w n fun k => q.2.2.2 w (source s.hart t w k) y)) ∧
    (∀ q ∈ vecCounts, s.hart.fmt ≤ 3 → VecReady s [t, d] →
      (∃ e, Completes (q.1 p m t d) s e ∧ VecFrame s e d 0 ∧
        LanesWritten s e p m d w n fun k => q.2.2 w (source s.hart t w k)) ∧
      (Unbound s.hart sc → ∃ e, Completes (q.2.1 p m sc t d) s e ∧ VecFrame s e d 0 ∧
        LanesWritten s e p m d w n fun k => q.2.2 w (source s.hart t w k &&& y)))

/-- Widening instructions (R135, R438).
The model's choices in it: log entries 25, 89. -/
def Obligations.VectorWideningResults : Prop :=
  ∀ (s : State) (p m : BitVec 1) (sc t d : Reg), s.hart.fmt ≤ 2 →
    let w := fmtWidth s.hart.fmt
    let n := min s.hart.effVl (s.hart.vlmaxW (2 * w))
    let z := fun k => source s.hart (s.hart.dReg d) (2 * w) k
    ∀ q ∈ vecWides,
      (VecReady s [sc, t, d, s.hart.dReg d] → ∃ e, Completes (q.1 p m sc t d) s e ∧ VecFrame s e d 0 ∧
        LanesWritten s e p m d (2 * w) n fun k => q.2.2 w (source s.hart t w k) (source s.hart sc w k) (z k)) ∧
      (VecReady s [t, d, s.hart.dReg d] → Unbound s.hart sc → ∃ e, Completes (q.2.1 p m sc t d) s e ∧ VecFrame s e d 0 ∧
        LanesWritten s e p m d (2 * w) n fun k =>
          q.2.2 w (source s.hart t w k) ((s.hart.xr sc.toNat).toNat % 2 ^ w) (z k))

/-- FP vector instructions (R364, R368 to R370, R416).
The model's choices in it: log entries 25, 28, 89. -/
def Obligations.VectorFloatingPointResults : Prop :=
  ∀ (s : State) (p m : BitVec 1) (sc t d f : Reg),
    let w := fmtWidth s.hart.fmt
    let n := s.hart.effVl
    let ff := floatFmt s.hart.fmt
    let a := fun k => source s.hart t w k
    let b := fun k => source s.hart sc w k
    let c := fun k => source s.hart (s.hart.dReg d) w k
    (4 ≤ s.hart.fmt → s.hart.fmt ≤ 6 →
      (∀ q ∈ vecFps, VecReady s [sc, t, d] →
        FpWritten (q.1 p m sc t d) s p m d w n fun k => q.2 ff s.hart.rm (a k) (b k)) ∧
      (VecReady s [t, d] → FpWritten (.fsqrtV p m t d) s p m d w n fun k => fSqrt ff s.hart.rm (a k)) ∧
      (VecReady s [sc, t, d, s.hart.dReg d] →
        FpWritten (.fmaV p m sc t d) s p m d w n fun k => fMa ff s.hart.rm (a k) (b k) (c k)) ∧
      (VecReady s [t, d] → FpWritten (.fsgnV p m f t d) s p m d w n fun k =>
        (if f = 0 then a k % 2 ^ (w - 1) else a k ^^^ 2 ^ (w - 1), 0)) ∧
      (s.hart.fmt ≠ 6 → VecReady s [t, d] →
        FpWritten (.fspecV p m f t d) s p m d w n fun k => fSpec ff f.toNat (a k))) ∧
    (s.hart.fmt = 5 → VecReady s [sc, t, d, s.hart.dReg d] → FpWritten (.scaccV p m sc t d) s p m d 32 n fun k =>
      scaledAdd s.hart.rm (c k) (a k) (b k % 256) (b k / 256 % 256))

/-- CVT.V (R357).
The model's choices in it: log entries 25, 89. -/
def Obligations.VectorConversions : Prop :=
  ∀ (s : State) (p m : BitVec 1) (f t d : Reg), VecReady s [t, d] →
    let src := s.hart.fmt
    let dst := f.toNat
    let lim := fun k => if 7 ≤ k then 16 * (s.hart.vrs / bxBytes k) else s.hart.vlmaxW (fmtWidth k)
    let n := min s.hart.effVl (min (lim src) (lim dst))
    let bits := sourceBits s.hart t
    (dst ≤ 6 → (7 ≤ src → m = 0) → FpWritten (.cvtV p m f t d) s p m d (fmtWidth dst) n fun k =>
      if src = dst then (source s.hart t (fmtWidth src) k, 0) else convertElem src dst s.hart.rm bits k) ∧
    (7 ≤ dst → dst ≤ 9 → src ≤ 6 → m = 0 → s.hart.tr.ves = 0 →
      let block := fun b => bxPack dst s.hart.rm ((fromTo (16 * b) (min (16 * b + 16) n)).map (sourceVal src bits))
      let fl := raised (upTo ((n + 15) / 16)) block
      quietFlags s.hart fl → ∃ e, Completes (.cvtV p m f t d) s e ∧ VecFrame s e d fl ∧
        ∀ j, j < s.hart.vrs → lane e.hart d 8 j =
          if j < (n + 15) / 16 * bxBytes dst then (block (j / bxBytes dst)).1 / 256 ^ (j % bxBytes dst) % 256
          else if (s.hart.policies (p = 1)).1 then 0 else lane s.hart d 8 j)

/-- Comparisons and mask instructions (R353, R386, R390, R396).
The model's choices in it: log entries 25, 26, 89. -/
def Obligations.VectorComparesAndMaskLogic : Prop :=
  ∀ (s : State) (p m : BitVec 1) (sc t d : Reg), s.hart.fmt ≤ 6 →
    let w := fmtWidth s.hart.fmt
    let n := s.hart.effVl
    let bit := fun (r : Reg) k => (s.hart.issued.vreg r.toNat).getLsbD k
    let ones := (upTo n).filter fun k => bit t k && onLane s.hart m k
    (∀ q ∈ vecCmps, d.toNat < 8 → VecReady s [sc, t] →
      let f := fun k => if s.hart.fmt ≤ 3 then (q.2.1 w (source s.hart t w k) (source s.hart sc w k), (0 : FpFlags))
        else fCmp (floatFmt s.hart.fmt) q.2.2 (source s.hart t w k) (source s.hart sc w k)
      let fl := (lanesOn s.hart m n).foldl (fun a k => a ||| (f k).2) 0
      quietFlags s.hart fl → ∃ e, Completes (q.1 m sc t d) s e ∧ VecFrame s e d fl ∧
        BitsWritten s e 0 m d n fun k => (f k).1) ∧
    (d.toNat < 8 → Steady s.hart →
      (∀ q ∈ [(Instr.mand, and), (Instr.mor, or), (Instr.mxor, xor)], ∃ e, Completes (q.1 p m sc t d) s e ∧
        VecFrame s e d 0 ∧ BitsWritten s e p m d n fun k => q.2 (bit t k) (bit sc k)) ∧
      (∃ e, Completes (.mnot p m t d) s e ∧ VecFrame s e d 0 ∧ BitsWritten s e p m d n fun k => !bit t k)) ∧
    (d.toNat < 8 → PrefixPlaced s.hart → Unbound s.hart t → ∃ e, Completes (.msetx p t d) s e ∧ VecFrame s e d 0 ∧
      ∀ k, k < 8 * s.hart.vrs → (e.hart.vreg d.toNat).getLsbD k = (s.hart.xr t.toNat).getLsbD k) ∧
    (PrefixPlaced s.hart → Clean s.hart [0x000, 0x001, 0x003] → Unbound s.hart d → s.hart.planish = [] →
      (∃ e, Completes (.mpopc p m t d) s e ∧ KeepsRegisters s e d ∧ e.mem = s.mem ∧
        e.hart.xr d.toNat = if d = 0 then 0 else BitVec.ofNat 64 ones.length) ∧
      (∃ e, Completes (.mfirst p m t d) s e ∧ KeepsRegisters s e d ∧ e.mem = s.mem ∧
        e.hart.xr d.toNat = if d = 0 then 0 else match ones with
          | k :: _ => BitVec.ofNat 64 k
          | [] => -1))

/-- Reductions (R413, R414) and scans (R417). A tree sum of three or more FP elements is the device's choice: some value.
The model's choices in it: log entries 21, 89, 107. -/
def Obligations.VectorReductionsAndScans : Prop :=
  (∀ (s : State) (p m : BitVec 1) (t d : Reg), s.hart.fmt ≤ 6 → PrefixPlaced s.hart → Unbound s.hart d → Settled s.hart t →
      Clean s.hart [0x000, 0x001, 0x003] → s.hart.late = none → (s.hart.rc = true → s.hart.rechecked = true) →
      let fmt := s.hart.fmt
      let w := fmtWidth fmt
      let on := (upTo s.hart.effVl).filter (onLane s.hart m)
      let l := on.map (source s.hart t w)
      let isum := BitVec.ofInt 64 ((l.map (sg w)).sum)
      let fsum := orderedSum (floatFmt fmt) s.hart.rm l
      (fmt ≤ 3 → Reduces (.rsumV p m t d) s d 0 isum) ∧
      (4 ≤ fmt → quietFlags s.hart fsum.2 → Reduces (.rsumV p m t d) s d fsum.2 (BitVec.ofNat 64 fsum.1)) ∧
      (s.hart.det = false →
        (fmt ≤ 3 → Reduces (.rusumV p m t d) s d 0 isum) ∧
        (4 ≤ fmt → l.length ≤ 2 → quietFlags s.hart fsum.2 → Reduces (.rusumV p m t d) s d fsum.2 (BitVec.ofNat 64 fsum.1)) ∧
        (4 ≤ fmt → fcrEnables s.hart.tr.fcr = 0 → ∃ fl v, Reduces (.rusumV p m t d) s d fl v)) ∧
      (s.hart.det = true → exec (.rusumV p m t d) s = .next (trappedAtStart s 0x09 (zext s.hart.ir))) ∧
      (∀ q ∈ [(Instr.rmaxV, Instr.rmaxxV, true), (Instr.rminV, Instr.rminxV, false)],
        let x := extreme fmt q.2.2 l
        let nans := on.filter fun k => 4 ≤ fmt && isNan (unpack (floatFmt fmt) (source s.hart t w k))
        let at' := match nans with
          | k :: _ => BitVec.ofNat 64 k
          | [] => match on.filter fun k => source s.hart t w k = x.1 with
            | k :: _ => BitVec.ofNat 64 k
            | [] => -1
        quietFlags s.hart x.2 → Reduces (q.1 p m t d) s d x.2 (reduced fmt x.1) ∧
          (Unbound s.hart (d + 1) → ∃ e, Completes (q.2.1 p m t d) s e ∧ e.mem = s.mem ∧
            e.hart.xr d.toNat = (if d = 0 then 0 else reduced fmt x.1) ∧
            e.hart.xr (d + 1).toNat = (if d + 1 = 0 then 0 else at') ∧ e.hart.v = s.hart.v ∧
            { e.hart.tr with cir := 0 } = { (flagged x.2 s.hart).tr with cir := 0 } ∧
            ∀ k, k ≠ d.toNat → k ≠ (d + 1).toNat → e.hart.xr k = s.hart.xr k))) ∧
  (∀ (s : State) (p m : BitVec 1) (t d : Reg), s.hart.fmt ≤ 6 → VecReady s [t, d] →
      let fmt := s.hart.fmt
      let w := fmtWidth fmt
      let n := s.hart.effVl
      let upto := fun k => ((upTo (k + 1)).filter (onLane s.hart m)).map (source s.hart t w)
      let fl := (orderedSum (floatFmt fmt) s.hart.rm (((upTo n).filter (onLane s.hart m)).map (source s.hart t w))).2
      let Writes := fun i (fl : FpFlags) f => ∃ e, Completes i s e ∧ VecFrame s e d fl ∧
        LanesWritten { s with hart := { s.hart with tr := { s.hart.tr with ves := 0 } } } e p m d w n f
      (fmt ≤ 3 → Writes (.scanV p m t d) 0 (fun k => (upto k).sum % 2 ^ w) ∧
        (s.hart.det = false → Writes (.scanfV p m t d) 0 (fun k => (upto k).sum % 2 ^ w))) ∧
      (4 ≤ fmt → quietFlags s.hart fl →
        Writes (.scanV p m t d) fl fun k => (orderedSum (floatFmt fmt) s.hart.rm (upto k)).1) ∧
      (4 ≤ fmt → s.hart.det = false → fcrEnables s.hart.tr.fcr = 0 → ∃ fl f, Writes (.scanfV p m t d) fl f ∧
        ∀ k, (upto k).length ≤ 2 → k < n → onLane s.hart m k = true →
          f k = (orderedSum (floatFmt fmt) s.hart.rm (upto k)).1) ∧
      (s.hart.det = true → exec (.scanfV p m t d) s = .next (trappedAtStart s 0x09 (zext s.hart.ir))))

/-- Element moves.
The model's choices in it: log entries 25, 69, 89. -/
def Obligations.VectorElementMoves : Prop :=
  ∀ (s : State) (p m : BitVec 1) (sc t d : Reg), s.hart.tr.wbase.toNat ≤ 64 →
    let w := fmtWidth s.hart.fmt
    let n := s.hart.effVl
    let top := s.hart.vlmaxW w
    let a := fun k => source s.hart t w k
    let x := s.hart.xr sc.toNat
    let Writes := fun i m f => ∃ e, Completes i s e ∧ VecFrame s e d 0 ∧ LanesWritten s e p m d w n f
    let WritesAll := fun i f => ∃ e, Completes i s e ∧ VecFrame s e d 0 ∧
      LanesWritten { s with hart := { s.hart with tr := { s.hart.tr with ves := 0 } } } e p m d w n f
    (VecReady s [t, d] → Unbound s.hart sc → s.hart.xm sc.toNat = 0 →
      WritesAll (.slideV p m sc t d) fun k =>
        if 0 ≤ (k : Int) - x.toInt ∧ (k : Int) - x.toInt < top then a ((k : Int) - x.toInt).toNat else 0) ∧
    (VecReady s [sc, t, d] → (∀ k < n, onLane s.hart m k = true → sourceMarks s.hart sc w k = 0) →
      WritesAll (.permV p m sc t d) fun k => if source s.hart sc w k < top then a (source s.hart sc w k) else 0) ∧
    (VecReady s [d] → Unbound s.hart t → Writes (.bcastV p m t d) m fun _ => (s.hart.xr t.toNat).toNat) ∧
    (VecReady s [sc, t, d] → Writes (.mergeV p sc t d) 0 fun k =>
      if onLane s.hart 1 k then a k else source s.hart sc w k) ∧
    (VecReady s [t, d] → Writes (.mvV p m t d) m a) ∧
    (VecReady s [d] → Writes (.iotaV p m d) m fun k => k) ∧
    (PrefixPlaced s.hart → s.hart.planish = [] → Unbound s.hart d → Unbound s.hart sc → s.hart.xm sc.toNat = 0 →
      (x.toNat < top → Settled s.hart t ∧ s.hart.late = none) →
      Reduces (.extrV p sc t d) s d 0 (if x.toNat < top then reduced (if s.hart.fmt ≤ 3 then s.hart.fmt else 6) (a x.toNat) else 0)) ∧
    (PrefixPlaced s.hart → Settled s.hart d → s.hart.late = none → Unbound s.hart t → Unbound s.hart sc →
      s.hart.xm sc.toNat = 0 → ∃ e, Completes (.insV p sc t d) s e ∧ VecFrame s e d 0 ∧ ∀ k, k < top → lane e.hart d w k =
        if k = x.toNat then (s.hart.xr t.toNat).toNat % 2 ^ w else lane s.hart d w k) ∧
    (PrefixPlaced s.hart → (s.hart.fe[s.hart.phys d.toNat]?).getD .full ≠ .pending →
      exec (.seteV d) s =
        .next (retired s { s.hart with fe := s.hart.fe.setIfInBounds (s.hart.phys d.toNat) .empty })) ∧
    (VecReady s [d] →
      let l := ((upTo n).filter fun k => (s.hart.issued.vreg t.toNat).getLsbD k && onLane s.hart m k).take (s.hart.vlmaxW 32)
      ∃ e, Completes (.cmprsV p m t d) s e ∧ VecFrame s e d 0 ∧ ∀ k, k < s.hart.vlmaxW 32 → lane e.hart d 32 k =
        if h : k < l.length then l[k] else if (s.hart.policies (p = 1)).1 then 0 else lane s.hart d 32 k)

/-- Vector memory (R371, R381, R346, R418, R428).
The model's choices in it: log entries 7, 25, 48. -/
def Obligations.VectorMemoryElements : Prop :=
  ∀ (s u : State) (p m : BitVec 1) (sc t d : Reg), Unbound s.hart t → s.hart.xm t.toNat = 0 → MemoryCanonical s →
    let w := fmtWidth s.hart.fmt
    let n := s.hart.effVl
    let ni := min n (s.hart.vlmaxW 32)
    let base := s.hart.xr t.toNat
    let strided := fun k => base + BitVec.ofNat 64 k * s.hart.xr sc.toNat
    let indexed := fun k => base + BitVec.ofInt 64 (sg 32 (source s.hart sc 32 k))
    let data := fun k => (source s.hart d w k, sourceMarks s.hart d w k)
    let IndexOk := ∀ k ∈ lanesOn s.hart m ni, sourceMarks s.hart sc 32 k = 0
    (VecReady s [d] → Unbound s.hart sc → s.hart.xm sc.toNat = 0 →
      (∀ l, loading .single w ((lanesOn s.hart m n).map fun k => (k, strided k)) s = .ok l u →
        ∃ e, Completes (.ldV p m sc t d) s e ∧ Loaded s e d w l ∧ LanesWritten s e p m d w n (loadedAt l)) ∧
      (s.hart.planish = [] → CleanMask s.hart m n → ∀ pas,
        storing .single w ((lanesOn s.hart m n).map fun k => (k, strided k, data k)) s = .ok pas u →
        ∃ e, Completes (.stV p m sc t d) s e ∧ ElementsStored s e u w pas)) ∧
    (VecReady s [sc, d] → IndexOk →
      (∀ l, loading .gather w ((lanesOn s.hart m ni).map fun k => (k, indexed k)) s = .ok l u →
        (∃ e, Completes (.gathV p m sc t d) s e ∧ Loaded s e d w l ∧ LanesWritten s e p m d w ni (loadedAt l)) ∧
        (Settled s.hart (d + 1) → s.hart.phys (d + 1).toNat ≠ s.hart.phys d.toNat → s.hart.phys (d + 1).toNat < 192 →
          ∃ e, Completes (.bgathV p m sc t d) s e ∧ e.mem = s.mem ∧ e.hart.x = s.hart.x ∧
            LanesWritten s e p m d w ni (loadedAt l) ∧ (∀ k, k < 8 * s.hart.vrs →
              (e.hart.vreg (s.hart.phys (d + 1).toNat)).getLsbD k = (decide (k < ni) && onLane s.hart m k &&
                (upTo k).any fun j => onLane s.hart m j && source s.hart sc 32 j = source s.hart sc 32 k)) ∧
            ∀ q, q ≠ s.hart.phys d.toNat → q ≠ s.hart.phys (d + 1).toNat → e.hart.v[q]? = s.hart.v[q]?)) ∧
      (s.hart.planish = [] → CleanMask s.hart m ni → ∀ pas,
        storing .gather w ((lanesOn s.hart m ni).map fun k => (k, indexed k, data k)) s = .ok pas u →
        ∃ e, Completes (.scatV p m sc t d) s e ∧ ElementsStored s e u w pas))

/-- THLD, RETAG and TWAIT (R433, R412, R437).
The model's choices in it: log entries 63, 66, 98, 116. -/
def Obligations.TensorHandles : Prop :=
  (∀ (s t : State) (b a : Reg) (pa : Nat), PrefixPlaced s.hart → Unbound s.hart b → s.hart.xm b.toNat = 0 →
    let x := s.hart.xr b.toNat
    let u := found pa 64 t
    let v := BitVec.ofNat 512 (readNat pa 64 u) &&& definedBits
    let put := fun k => retired u { u.hart with handles := u.hart.handles.setIfInBounds a.toNat k }
    x.toNat % 64 = 0 → Passes { loadAcc .single with order := .sync, whole := true } x 64 s pa t → viewMark u pa 64 = 0 →
    u.mem = s.mem ∧ exec (.thld b a) s = .next (
      if (descOf v).empty then put Handle.reset
      else if (descOf v).valid then put ⟨v, x, pa, true⟩ else trapped u 0x0F x)) ∧
  (∀ (s t w w' w'' : State) (f : BitVec 4) (b a : Reg) (pa : Nat), SyncReady s → Unbound s.hart b → s.hart.xm b.toNat = 0 →
    MemoryCanonical s → s.hart.protectedStrip = false → s.hart.assay = false → (burnishQueue s s.hart.die).length < 16 →
    let base := s.hart.xr b.toNat
    let hd := s.hart.handle a.toNat
    let u := found pa 64 t
    let v := BitVec.ofNat 512 (readNat pa 64 u)
    let new : TDesc := { descOf v with tag := f.toNat, base := base.toNat }
    let acc : Access := { rmwAcc .single with whole := true }
    hd.bound = true → base.toNat % 64 = 0 → translate acc hd.addr s = .ok pa t → bankCheck acc hd.addr pa 64 t = .ok () t →
    raceCheck { acc with write := false } hd.addr pa 64 u = .ok () w → raceCheck acc hd.addr pa 16 w = .ok () w' →
    raceCheck acc (hd.addr + 0x20) (pa + 0x20) 8 w' = .ok () w'' → viewMark u pa 64 = 0 →
    (descOf v).cv = false → (descOf v).tmap ≠ 0 → new.valid = true →
    (base.toNat + new.footprint f.toNat ≤ (descOf v).base ∨ (descOf v).base + (descOf v).footprint (descOf v).tag ≤ base.toNat) →
    let written := fun k => pa ≤ k ∧ k < pa + 16 ∨ pa + 0x20 ≤ k ∧ k < pa + 0x28
    ∃ e, Completes (.retag f b a) s e ∧ (∀ k, written k →
        memByte e.mem k = BitVec.ofNat 8 ((retagged v f.toNat base).toNat / 256 ^ (k - pa))) ∧
      (∀ k, ¬ written k → memByte e.mem k = memByte s.mem k) ∧
      e.hart.x = s.hart.x ∧ e.hart.v = s.hart.v ∧ e.hart.region = s.hart.region + 1 ∧ e.hart.fenceRel = [] ∧
      (∀ k, written k → relsAt e k = relsNow s.hart 2 3 ++ relsAt s k) ∧
      ∃ c ∈ e.convs, c.descPa = pa ∧ c.die = s.hart.die ∧ c.tile = 0 ∧ c.failed = none ∧ c.desc = retagged v f.toNat base) ∧
  (∀ (s : State) (b a : Reg), SyncReady s → Unbound s.hart b →
    s.hart.xm b.toNat = 0 → s.hart.protectedStrip = false → (s.hart.handle a.toNat).bound = true →
    let d := descOf (s.hart.handle a.toNat).desc
    let n := if s.hart.xr b.toNat = 0 ∨ d.tiles < (s.hart.xr b.toNat).toNat then d.tiles else (s.hart.xr b.toNat).toNat
    (d.cv = true → d.cdone < n → d.fl = false → ∃ r, exec (.twait b a) s = .next r ∧ r.hart.wait = .twait b a ∧
      r.hart.pc = s.hart.pc ∧ r.hart.x = s.hart.x ∧ r.mem = s.mem) ∧
    ((d.cv = false ∧ d.fl = false) ∨ n ≤ d.cdone → ∃ e, Completes (.twait b a) s e ∧
      (Waits s (.twait b a) → exec .twaitReturn s = .next (retired e e.hart)) ∧ KeepsRegisters s e 0 ∧ e.mem = s.mem ∧
      e.hart.region = s.hart.region + 1) ∧
    (d.fl = true → d.cdone < n → ∃ r, exec (.twait b a) s = .next r ∧ r.hart.sr.tcause = 0x07 ∧
      r.hart.sr.tpc = s.hart.pc ∧ r.hart.x = s.hart.x ∧ r.mem = s.mem))

/-- TLD.V and TST.V (R434).
The model's choices in it: log entries 63, 99. -/
def Obligations.TensorElements : Prop :=
  ∀ (s u : State) (p m : BitVec 1) (x t d : Reg), VecReady s [d] → (s.hart.handle t.toNat).bound = true →
    (∀ r ∈ [x, x + 1, x + 2, x + 3], Unbound s.hart r ∧ s.hart.xm r.toNat = 0) →
    let ds := descOf (s.hart.handle t.toNat).desc
    let xn := fun (r : Reg) => (s.hart.xr r.toNat).toNat
    let c := (xn x, xn (x + 1), xn (x + 2), xn (x + 3))
    let n := s.hart.effVl
    let nb := min n (16 * (s.hart.vrs / ds.unit)) / 16
    let blocks := (fromTo (s.hart.tr.ves.toNat / 16) nb).map (16 * ·)
    let el := fun w k => (source s.hart d w k, sourceMarks s.hart d w k)
    s.hart.fmt = ds.fmt →
    (ds.fmt ≤ 6 →
      (∀ l, handleLoads ds c (lanesOn s.hart m n) s = .ok l u → ∃ e, Completes (.tldV p m x t d) s e ∧ VecFrame s e d 0 ∧
        LanesWritten s e p m d (8 * ds.wb) n (valueAt l)) ∧
      (s.hart.planish = [] → CleanMask s.hart m n → mapLook ds c (lanesOn s.hart m n) s = .ok () s → ∀ l,
        handleStores ds c ((lanesOn s.hart m n).map fun k => (k, el (8 * ds.wb) k)) s = .ok l u →
        ∃ e, Completes (.tstV p m x t d) s e ∧ KeepsRegisters s e 0 ∧ e.mem = u.mem ∧ e.hart.buf = u.hart.buf)) ∧
    (7 ≤ ds.fmt → m = 0 → c.1 % 16 = 0 → n % 16 = 0 →
      (∀ l, handleLoads ds c blocks s = .ok l u → ∃ e, Completes (.tldV p m x t d) s e ∧ VecFrame s e d 0 ∧
        ∀ j, j < s.hart.vrs → lane e.hart d 8 j =
          if j < nb * ds.unit then
            if j / ds.unit < s.hart.tr.ves.toNat / 16 then lane s.hart d 8 j
            else valueAt l (16 * (j / ds.unit)) / 256 ^ (j % ds.unit) % 256
          else if (s.hart.policies (p = 1)).1 then 0 else lane s.hart d 8 j) ∧
      (s.hart.planish = [] → mapLook ds c blocks s = .ok () s → ∀ l,
        handleStores ds c (blocks.map fun k => (k, el (8 * ds.unit) (k / 16))) s = .ok l u →
        ∃ e, Completes (.tstV p m x t d) s e ∧ KeepsRegisters s e 0 ∧ e.mem = u.mem ∧ e.hart.buf = u.hart.buf))

/-- QLOAD (R410), QGEN.V (R409) and the residency of slots (R280).
The model's choices in it: log entries 69, 93. -/
def Obligations.FiligreeSequences : Prop :=
  (∀ (s t u : State) (b a : Reg) (pa : Nat) (img : List (Word × Mark)), PrefixPlaced s.hart → Unbound s.hart b →
    s.hart.xm b.toNat = 0 →
    let x := s.hart.xr b.toNat
    let hd := readNat pa 4 (found pa 4 t)
    x.toNat % 4 = 0 → Passes (loadAcc .single (some 0)) x 4 s pa t → viewMark (found pa 4 t) pa 4 = 0 → 1 ≤ hd → hd ≤ 128 →
    qloadImage x hd (found pa 4 t) = .ok img u →
    let words := (img.drop 1).map (·.1)
    let marks := (img.drop 1).map (·.2)
    let r := useSlot { u.hart with filigree := u.hart.filigree.setIfInBounds a.toNat ⟨hd, words, marks, true⟩ } a.toNat
      { u with hart := { u.hart with filigree := u.hart.filigree.setIfInBounds a.toNat ⟨hd, words, marks, true⟩ } }
    ∃ e, Completes (.qload b a) s e ∧ e.hart.x = s.hart.x ∧ e.hart.v = s.hart.v ∧ e.mem = r.mem ∧ e.bound = r.bound ∧
      e.hart.filigree = r.hart.filigree ∧ ∀ h : a.toNat < 4, (e.hart.filigree[a.toNat]).ndim = hd ∧
        (e.hart.filigree[a.toNat]).words = words ∧ (e.hart.filigree[a.toNat]).marks = marks) ∧
  (∀ (s : State) (q : Nat), q < 4 →
    let me : FBinding := ⟨s.hart.core, s.hart.taskNo, s.hart.tr.lhart.toNat, s.hart.copy, q⟩
    let others := (s.bound.erase me).filter (·.core = s.hart.core)
    let back := if me ∈ s.bound then s else reloadSlot s.hart q s
    let r := useSlot s.hart q s
    r.bound.head? = some me ∧ back.mem = s.mem ∧
    (∀ (hq : q < 4), me ∉ s.bound → s.hart.status ≠ .idle → s.hart.filigree[q].ndim ≠ 0 → s.hart.filigree[q].dirty = false →
      (back.hart.filigree[q]).ndim = s.hart.filigree[q].ndim ∧ (back.hart.filigree[q]).words =
        (upTo (33 * s.hart.filigree[q].ndim)).map fun i =>
          BitVec.ofNat 32 (memNat s.mem (s.hart.areaBase + 0x2000 + 16896 * q + 4 * i) 4)) ∧
    (others.length < 4 → r = { back with bound := me :: s.bound.erase me }) ∧
    (∀ b ∈ others, b.inUse s = true → b ∈ r.bound) ∧
    (∀ v, (others.filter fun b => !b.inUse s).getLast? = some v → 4 ≤ others.length → r.bound = me :: (s.bound.erase me).erase v ∧
      ∀ o, hartOf back (partyNo v.task v.lhart v.copy) = some o →
        ((o.filigree[v.slot]?).getD FSlot.reset).dirty = false → r.mem = s.mem ∧ r.hart = back.hart)) ∧
  (∀ (s : State) (p m : BitVec 1) (b t d : Reg), VecReady s [d] → Unbound s.hart t → Unbound s.hart b →
    s.hart.xm t.toNat = 0 → s.hart.xm b.toNat = 0 →
    let w := (s.hart.xr t.toNat).toNat
    let dim := w % 128
    let r := useSlot s.hart (w / 256) s
    let f := (r.hart.filigree[w / 256]?).getD FSlot.reset
    let word := fun i => ((f.words[33 * dim + i]?).getD 0).toNat
    let point := fun k => (upTo 32).foldl
      (fun q i => if ((s.hart.xr b.toNat).toNat + k).testBit i then q ^^^ word i else q) (word 32)
    let n := min s.hart.effVl (s.hart.vlmaxW 32)
    w < 1024 → w / 128 % 2 = 0 → dim < ((s.hart.filigree[w / 256]?).getD FSlot.reset).ndim →
    (∃ e, Completes (.qgenVFrac p m b t d) s e ∧ VecFrame r e d 0 ∧ LanesWritten s e p m d 32 n point) ∧
    (∃ e, Completes (.qgenVFp32 p m b t d) s e ∧ VecFrame r e d 0 ∧ LanesWritten s e p m d 32 n fun k =>
      if point k < 256 then 0 else (roundDyadic fp32 .rne false (point k / 256) (-24)).1))

/-- CAPP.V (R349), PUSH.V (R408), PUSH_DELIVERY (R215) and SCATADD.V (R419).
The model's choices in it: log entries 7, 13, 54, 62, 93, 96. -/
def Obligations.AppendPushAndPostedAdds : Prop :=
  (∀ (s t w : State) (p m : BitVec 1) (b k : Reg) (pa v : Nat) (rows : List (DWord × Nat × Nat)), SyncReady s →
    s.hart.protectedStrip = false → s.hart.assay = false → MemoryCanonical s → Unbound s.hart b → s.hart.xm b.toNat = 0 →
    let q := s.hart.xr b.toNat
    let n := s.hart.effVl
    let sel := (upTo n).filter fun e => (s.hart.vreg k.toNat).getLsbD e && onLane s.hart m e
    let base := BitVec.ofNat 64 (v % 2 ^ 64)
    let tail := v / 2 ^ 64 % 2 ^ 64
    let head := v / 2 ^ 128 % 2 ^ 64
    let cap := v / 2 ^ 192 % 2 ^ 32
    Clean s.hart [0x000, 0x001, 0x003] → CleanMask s.hart m n → (∀ i, i < n → s.hart.bitMark k.toNat i = 0) →
    q.toNat % 32 = 0 →
    cappDescriptor q s = .ok (pa, v) t → (∃ j, 4 ≤ j ∧ j ≤ 24 ∧ cap = 2 ^ j) → sel.length ≤ cap →
    (head + cap < tail + sel.length → ∃ r, exec (.cappV p m b k) s = .next r ∧
      r.hart.wait = .capp m b k ∧ r.hart.pc = s.hart.pc ∧ r.hart.x = s.hart.x ∧ r.mem = s.mem) ∧
    (sel = [] → tail ≤ head + cap → ∃ e, Completes (.cappV p m b k) s e ∧
      (Waits s (.capp m b k) → exec .cappWaitSatisfied s = .next (retired e e.hart)) ∧ KeepsRegisters s e 0 ∧ e.mem = s.mem ∧
      e.hart.region = s.hart.region + 1) ∧
    (sel ≠ [] → tail + sel.length ≤ head + cap →
      foldL (fun r j => do
        let a := base + BitVec.ofNat 64 (4 * ((tail + j) % cap))
        let ea ← translate { storeAcc .single with order := .quiet } a
        raceLook { storeAcc .single with order := .quiet } a ea 4
        pure (r ++ [(a, ea, (s.hart.tr.strn.toNat * min s.hart.slen (s.hart.vlmaxW (fmtWidth s.hart.fmt)) +
          (sel[j]?).getD 0) % 2 ^ 32)])) [] (upTo sel.length) t = .ok rows w →
      (∀ r ∈ rows, r.2.1 + 4 ≤ pa ∨ pa + 32 ≤ r.2.1) →
      rows.Pairwise (fun a b => a.2.1 + 4 ≤ b.2.1 ∨ b.2.1 + 4 ≤ a.2.1) →
      let full := v / 2 ^ 224 % 2 ^ 24 ≠ 0 ∧ head + v / 2 ^ 224 % 2 ^ 24 ≤ (tail + sel.length) % 2 ^ 64
      ∃ e, Completes (.cappV p m b k) s e ∧
        (Waits s (.capp m b k) → exec .cappWaitSatisfied s = .next (retired e e.hart)) ∧ KeepsRegisters s e 0 ∧
        e.hart.region = s.hart.region + 1 ∧
        (∀ r ∈ rows, memNat e.mem r.2.1 4 = r.2.2) ∧ memNat e.mem (pa + 8) 8 = (tail + sel.length) % 2 ^ 64 ∧
        (∀ k, k < 8 → (relsAt e (pa + 8 + k)).head? =
          some ⟨s.hart.core, 3, { e.hart with region := s.hart.region }.snapshot⟩) ∧
        (full → memNat e.mem (pa + 28) 4 = v / 2 ^ 224 % 2 ^ 31 + 2 ^ 31) ∧
        ∀ a, (∀ r ∈ rows, a < r.2.1 ∨ r.2.1 + 4 ≤ a) → (a < pa + 8 ∨ pa + 16 ≤ a) →
          (full → a < pa + 28 ∨ pa + 32 ≤ a) → memByte e.mem a = memByte s.mem a)) ∧
  (∀ (s : State) (c t v : Reg) (o : Hart), PrefixPlaced s.hart → s.hart.planish = [] → s.hart.protectedStrip = false →
    s.hart.late = none → Unbound s.hart t → s.hart.xm t.toNat = 0 → Settled s.hart v → pushPeer s s.hart (s.hart.xr t.toNat).toNat = some o →
    (s.pushes.filter fun j => s.hart.owns j.task j.lhart && j.copy = s.hart.copy).length < 4 →
    (o.fe[c.toNat]?).getD .full = .empty →
    ∃ e j, Completes (.pushV c t v) s e ∧ e.pushes = s.pushes ++ [j] ∧ j.reg = c.toNat ∧ j.peer = (s.hart.xr t.toNat).toNat ∧
      j.data = sourceBits s.hart v ∧
      pushPeer e e.hart j.peer = some { o with fe := o.fe.setIfInBounds c.toNat .pending } ∧ e.hart.x = s.hart.x ∧ e.hart.v = s.hart.v ∧
      KeepsOutsideAreas s e s.hart.taskNo j.peer s.hart.copy) ∧
  (∀ (s : State) (n : Nat) (j : PushJob), s.pushes[n]? = some j → s.hart.status ≠ .idle → s.hart.taskNo = j.task →
    s.hart.copy = j.copy → s.hart.tr.lhart.toNat = j.peer → j.reg < 192 →
    ∃ r, exec (.pushDelivery n) s = .next r ∧ r.pushes = s.pushes.eraseIdx n ∧ KeepsOutsideAreas s r j.task j.peer j.copy ∧
      r.hart.pc = s.hart.pc ∧
      r.hart.x = s.hart.x ∧ r.hart.fe[j.reg]? = some .full ∧
      (r.hart.vreg j.reg).toNat % 2 ^ (8 * s.hart.vrs) = j.data.toNat % 2 ^ (8 * min j.bytes s.hart.vrs) ∧
      ∀ p, p ≠ j.reg → r.hart.v[p]? = s.hart.v[p]?) ∧
  (∀ (s t : State) (p m : BitVec 1) (sc b d : Reg) (pas : List Nat), VecReady s [sc, d] → s.hart.det = false →
    s.hart.planish = [] → s.hart.protectedStrip = false → Unbound s.hart b → s.hart.xm b.toNat = 0 →
    s.hart.fmt ∈ [2, 3, 5, 6] →
    let w := fmtWidth s.hart.fmt
    let on := lanesOn s.hart m (min s.hart.effVl (s.hart.vlmaxW 32))
    (∀ k ∈ on, sourceMarks s.hart sc 32 k = 0) →
    CleanMask s.hart m (min s.hart.effVl (s.hart.vlmaxW 32)) →
    posting s.hart.fmt w (on.map fun k =>
      (k, s.hart.xr b.toNat + BitVec.ofInt 64 (sg 32 (source s.hart sc 32 k)))) s = .ok pas t →
    ∃ e l, Completes (.scataddV p m sc b d) s e ∧ KeepsRegisters s e 0 ∧ e.mem = s.mem ∧ e.packets = s.packets ++ l ∧
      l.map (fun k => (k.pa, k.bytes, k.op.toNat, k.operand.toNat)) =
        ((pas.zip on).map fun x => (x.1, w / 8, if 4 ≤ s.hart.fmt then 9 else 1, source s.hart d w x.2)) ∧
      (∀ k ∈ l.head?, ∀ q ∈ k.parts, q.rel = fencesNow s.hart) ∧ (∀ k ∈ l.tail, ∀ q ∈ k.parts, q.rel = []))

/-- Plural stores and bank operations (R403, R426, R427).
The model's choices in it: log entries 13, 30. -/
def Obligations.PluralStoresAndOperations : Prop :=
  (∀ q ∈ [(Instr.stPI16, 2), (Instr.stPI32, 4)], ∀ (s t u : State) (b a : Reg) (ws : List MemberWord),
    PluralReady s b q.2 → Unbound s.hart a →
    let s0 := { s with hart := seen (s.hart.xm a.toNat) s.hart }
    let store := fun (m : Memory) (x : MemberWord) => setNat m x.pa q.2 ((s.hart.xr a.toNat).toNat % 2 ^ (8 * q.2))
    let bad := ws.filter fun x => bankRetired s (sliceOf x.pa) (bankOf x.pa)
    memberChecks (storeAcc .plural) (s.hart.xr b.toNat).toNat (pluralMembers s.hart true) s0 = .ok ws t →
    memberRaces (storeAcc .plural) q.2 ws t = .ok () u →
    (bad = [] → ∃ e, Completes (q.1 b a) s e ∧ KeepsRegisters (pluralDone s 0) e 0 ∧ e.mem = ws.foldl store s.mem) ∧
    (bad ≠ [] → ∃ r, exec (q.1 b a) s = .next r ∧ r.hart.sr.tcause = 0x0A ∧ r.hart.sr.tval = 0 ∧ r.hart.sr.tves = 0 ∧
      r.hart.sr.tpc = s.hart.pc ∧ r.hart.tr.pfm = memberBits (bad.map (·.idx)) ∧ r.hart.x = s.hart.x ∧ r.hart.v = s.hart.v ∧
      r.mem = (ws.filter fun x => !(bad.map (·.idx)).contains x.idx).foldl store s.mem)) ∧
  (∀ q ∈ [(Instr.stPvI16, 2), (Instr.stPvI32, 4)], ∀ (s t u : State) (b a : Reg) (ws : List MemberWord),
    PluralReady s b q.2 → Settled s.hart a → s.hart.late = none →
    memberChecks (storeAcc .plural) (s.hart.xr b.toNat).toNat
      ((pluralMembers s.hart true).filter fun x => x.idx < s.hart.vrs * 8 / (8 * q.2)) s = .ok ws t →
    memberRaces (storeAcc .plural) q.2 ws t = .ok () u → (∀ x ∈ ws, bankRetired s (sliceOf x.pa) (bankOf x.pa) = false) →
    ∃ e, Completes (q.1 b a) s e ∧ KeepsRegisters (pluralDone s 0) e 0 ∧
      e.mem = ws.foldl (fun m x => setNat m x.pa q.2 (source s.hart a (8 * q.2) x.idx)) s.mem) ∧
  (∀ q ∈ pluralOps, ∀ (s t : State) (c b a : Reg) (ps : List (MemberWord × Option MemberWord)),
    let n := q.2.2.1.bytes
    PluralReady s b n → s.copies = [] → s.hmvs = [] → releasePending s = false →
    (∀ p ∈ ps, memberFails true t p.1.pa = false ∧ ∀ x, p.2 = some x → memberFails true t x.pa = false) →
    (Unbound s.hart a → opChecks (s.hart.xr b.toNat).toNat none (pluralMembers s.hart true)
        { s with hart := seen (s.hart.xm a.toNat) s.hart } = .ok ps t →
      let r := opsApplied n q.2.2.2 ((s.hart.xr a.toNat).toNat % 2 ^ (8 * n)) s.mem ps
      ∃ e, Completes (q.1 b a) s e ∧ KeepsRegisters (pluralDone s r.2) e 0 ∧ e.mem = r.1 ∧
        (ps ≠ [] → e.hart.fenceRel = [])) ∧
    (Unbound s.hart c → s.hart.xm c.toNat = 0 → (s.hart.xr c.toNat).toNat % n = 0 → (s.hart.xr c.toNat).toNat ≤ 65535 →
      opChecks (s.hart.xr b.toNat).toNat (some (s.hart.xr c.toNat).toNat) (pluralMembers s.hart true) s = .ok ps t →
      let r := opsApplied n q.2.2.2 0 s.mem ps
      ∃ e, Completes (q.2.1 c b) s e ∧ KeepsRegisters (pluralDone s r.2) e 0 ∧ e.mem = r.1 ∧
        (ps ≠ [] → e.hart.fenceRel = [])))

/-- LD.P (R380).
The model's choices in it: log entry 29. -/
def Obligations.PluralLoads : Prop :=
  ∀ q ∈ pluralLoads, ∀ (s t u : State) (b d : Reg) (ws : List MemberWord), PluralReady s b q.2.1.bytes → Unbound s.hart d →
    memberChecks (loadAcc .plural) (s.hart.xr b.toNat).toNat (pluralMembers s.hart false) s = .ok ws t →
    memberRaces (loadAcc .plural) q.2.1.bytes ws t = .ok () u → (∀ x ∈ ws, memberFails true u x.pa = false) →
    let r := q.2.2 (ws.map fun x => memNat s.mem x.pa q.2.1.bytes)
    (quietFlags s.hart r.2 →
      ∃ e, Completes (q.1 b d) s e ∧ KeepsRegisters (pluralDone s r.2) e d ∧ e.mem = s.mem ∧
        e.hart.xr d.toNat = if d = 0 then 0 else r.1) ∧
    (¬ quietFlags s.hart r.2 → s.hart.resumed = none → ∃ e, exec (q.1 b d) s = .next e ∧ e.hart.sr.tcause = 0x0B ∧
      e.hart.sr.tval = zext (r.2 &&& fcrEnables s.hart.tr.fcr) ∧ e.hart.sr.tves = 0 ∧ e.hart.sr.tpc = s.hart.pc ∧
      e.hart.tr.fcr = s.hart.tr.fcr ||| r.2.setWidth 13 ∧ e.hart.x = s.hart.x ∧ e.hart.v = s.hart.v ∧ e.mem = s.mem)

/-- TSHAPE (R436), MLD (R393), MLDX (R394), MZERO and the waits (R400).
The model's choices in it: log entries 67, 68, 69, 111. -/
def Obligations.MatrixShapesAndOperands : Prop :=
  (∀ (s : State) (z g t r : BitVec 1) (c b a : Reg), PrefixPlaced s.hart → s.hart.swage = none →
    ∀ i ∈ matrixInstrs z g t r c b a, exec i s = .next (trapped s 0x12 (zext s.hart.ir))) ∧
  (∀ q ∈ [(Instr.tshapeBf16, 0), (Instr.tshapeInt8, 1), (Instr.tshapeBx7, 2), (Instr.tshapeBx4, 3), (Instr.tshapeBx2, 4)],
    ∀ (s : State) (b d : Reg) (w : Swage), PrefixPlaced s.hart → s.hart.swage = some w → Unbound s.hart b → Unbound s.hart d →
    s.hart.xm b.toNat = 0 →
    let rq := (s.hart.xr b.toNat).toNat
    let mr := rq % 256
    let nr := rq / 256 % 256
    let kr := rq / 65536 % 65536
    let none' := mr = 0 ∨ nr = 0 ∨ kr = 0
    let m := if none' then 0 else 4 * ((min mr 64 + 3) / 4)
    let n := if none' then 0 else 4 * ((min nr 64 + 3) / 4)
    let k := if none' then 0 else if q.2 = 0 then min (16 * ((kr + 15) / 16)) 128
      else if q.2 = 1 then min (32 * ((kr + 31) / 32)) 256 else 128
    exec (q.1 b d) s = .next (retired s (({ s.hart with
      swage := some { w with m := m, n := n, k := k, fmt := BitVec.ofNat 4 q.2 } } : Hart).setX d.toNat
        (BitVec.ofNat 64 (m + 256 * n + 65536 * k)) 0))) ∧
  (∀ (s : State) (w : Swage) (g t r : BitVec 1) (c b a : Reg), EngineReady s w → Unbound s.hart b → Unbound s.hart c →
    s.hart.xm b.toNat = 0 → s.hart.xm c.toNat = 0 →
    let rows := if r = 1 then w.n else w.m
    let wb := if w.fmt = 0 then 2 else 1
    let at' := fun (i : Nat) => s.hart.xr b.toNat + BitVec.ofNat 64 i * s.hart.xr c.toNat
    (rows = 0 → exec (.mld g t r c b a) s = .next (retired s s.hart)) ∧
    (rows ≠ 0 → (t = 1 → w.fmt.toNat ≤ 1) →
      (w.fmt = 0 → (s.hart.xr b.toNat).toNat % 2 = 0 ∧ (s.hart.xr c.toNat).toNat % 2 = 0) →
      ∀ l u, rowsRead .single (if t = 0 then w.rowBytes else rows * wb)
        ((fromTo s.hart.tr.ves.toNat (if t = 0 then rows else w.k)).map fun i => (i, at' i)) s = .ok l u →
      let put := fun (v : Swage) => l.foldl (fun v q =>
        if t = 0 then v.setOperand a.toNat q.1 0 q.2
        else (upTo rows).foldl (fun v i => v.setOperand a.toNat i (q.1 * wb) ((q.2.drop (i * wb)).take wb)) v) v
      ∃ e, Completes (.mld g t r c b a) s e ∧ MatrixFrame s e 0 ∧ e.hart.swage = some (queued 0x69 (put w)) ∧
        e.others = s.others.map fun o =>
          if g = 1 ∧ s.hart.inMeshRow o = true then { o with swage := o.swage.map put } else o)) ∧
  (∀ (s : State) (w : Swage) (c b a : Reg), EngineReady s w → Unbound s.hart b → Unbound s.hart (b + 1) →
    s.hart.xm b.toNat = 0 → s.hart.xm (b + 1).toNat = 0 →
    let at' := fun i => s.hart.xr b.toNat + BitVec.ofInt 64 (sg 32 (source s.hart c 32 i)) * s.hart.xr (b + 1).toNat
    (w.m = 0 → exec (.mldx c b a) s = .next (retired s s.hart)) ∧
    (w.m ≠ 0 → Settled s.hart c → (∀ i, i < w.m → sourceMarks s.hart c 32 i = 0) →
      (w.fmt = 0 → ∀ i, i < w.m → (at' i).toNat % 2 = 0) →
      ∀ l u, rowsRead .gather w.rowBytes ((fromTo s.hart.tr.ves.toNat w.m).map fun i => (i, at' i)) s = .ok l u →
      ∃ e, Completes (.mldx c b a) s e ∧ MatrixFrame s e 0 ∧ e.others = s.others ∧
        e.hart.swage = some (queued 0x6A (l.foldl (fun v q => v.setOperand a.toNat q.1 0 q.2) w)))) ∧
  (∀ (s : State) (w : Swage) (a : Reg), EngineReady s w →
    exec (.mzero a) s = .next (retired s { s.hart with
      swage := some (queued 0x6F ((w.setAcc a.toNat 0 0).setPart a.toNat 0 0)) })) ∧
  (∀ (s : State) (w : Swage), PrefixPlaced s.hart → s.hart.swage = some w → (∀ r ∈ s.hart.races, r.kind ≠ queueMat) →
    exec .mwait s = .next (retired s s.hart) ∧ (w.queue = [] → exec .mwaitall s = .next (retired s s.hart)) ∧
    (w.queue ≠ [] → ∃ r, exec .mwaitall s = .next r ∧ r.hart.wait = .retry ∧ r.hart.pc = s.hart.pc ∧ r.mem = s.mem)) ∧
  (∀ (s : State) (w : Swage), s.hart.swage = some w →
    exec .matrixQueueComplete s = .next { s with hart := { s.hart with swage := some { w with queue := w.queue.drop 1 } } })

/-- MMA (R395), SCACC.M (R415), MST (R397) and MDRAIN (R388).
The model's choices in it: log entries 18, 67, 100, 101, 111, 112. -/
def Obligations.MatrixAccumulation : Prop :=
  (∀ (s : State) (w : Swage) (z : BitVec 1) (c b a : Reg), EngineReady s w → w.m ≠ 0 → a.toNat < 4 →
    let row := fun (r : Reg) i => elemOf (tileAt w.mt r.toNat) 2048 i
    let acc := fun i j => if z = 1 then 0 else tileElem (tileAt w.ma a.toNat) i j
    let ints := fun i j => ((rowInts w.k (row b i)).zip (rowInts w.k (row c j))).foldl (fun (n : Int) p => n + p.1 * p.2) 0
    let dots := fun i j => dotRows (rowValues w.fmt w.k (row b i)) (rowValues w.fmt w.k (row c j))
    let Acc := fun i (f : Nat → Nat → Nat × FpFlags) => ∃ e w', Completes i s e ∧ MatrixFrame s e (tileFlags w.m w.n f) ∧
      e.hart.swage = some (queued 0x6B w') ∧ { w' with ma := w.ma, maMark := w.maMark, dirty := w.dirty } = w ∧
      TileFilled (tileAt w.ma a.toNat) (tileAt w'.ma a.toNat) w.m w.n (fun i j => (f i j).1) ∧
      ∀ q, q ≠ a.toNat → w'.ma[q]? = w.ma[q]?
    (w.fmt = 1 → Acc (.mmaInt8 z c b a) fun i j => (low 32 ((acc i j : Int) + ints i j), 0)) ∧
    (w.fmt = 0 → Acc (.mmaBf16 z c b a) fun i j => ((dots i j).add (unpack fp32 (acc i j))).round) ∧
    (∀ q ∈ [(Instr.mmaBx7, 2), (Instr.mmaBx4, 3), (Instr.mmaBx2, 4)], w.fmt.toNat = q.2 →
      ∃ e w', Completes (q.1 z c b a) s e ∧ MatrixFrame s e (tileFlags w.m w.n fun i j => (dots i j).round) ∧
        e.hart.swage = some (queued 0x6B w') ∧
        TileFilled (tileAt w.pa a.toNat) (tileAt w'.pa a.toNat) w.m w.n (fun i j => (dots i j).round.1) ∧
        TileFilled (tileAt w.ma a.toNat) (tileAt w'.ma a.toNat) w.m w.n (fun i j => acc i j) ∧
        ∀ q, q ≠ a.toNat → w'.pa[q]? = w.pa[q]? ∧ w'.ma[q]? = w.ma[q]?)) ∧
  (∀ (s t u : State) (w : Swage) (c b a : Reg) (ea eb : List (Byte × Mark)), EngineReady s w → w.m ≠ 0 → a.toNat < 4 →
    2 ≤ w.fmt.toNat → (∀ r ∈ [b, c], Unbound s.hart r ∧ s.hart.xm r.toNat = 0) →
    (if s.hart.tr.ves = 0 ∨ w.scales = [] then readRow .single 0 (s.hart.xr b.toNat) w.m s = .ok ea t else ea = w.scales ∧ t = s) →
    readRow .single 1 (s.hart.xr c.toNat) w.n t = .ok eb u →
    let byte := fun (l : List (Byte × Mark)) i => ((l[i]?).getD (0, 0)).1.toNat
    let f := fun i j => scaledAdd .rne (tileElem (tileAt w.ma a.toNat) i j) (tileElem (tileAt w.pa a.toNat) i j)
      (byte ea i) (byte eb j)
    ∃ e w', Completes (.scaccM c b a) s e ∧ MatrixFrame s e (tileFlags w.m w.n f) ∧ e.hart.swage = some (queued 0x6C w') ∧
      { w' with ma := w.ma, maMark := w.maMark, dirty := w.dirty, scales := w.scales } = w ∧ w'.scales = [] ∧
      TileFilled (tileAt w.ma a.toNat) (tileAt w'.ma a.toNat) w.m w.n (fun i j => (f i j).1) ∧
      ∀ q, q ≠ a.toNat → w'.ma[q]? = w.ma[q]?) ∧
  (∀ q ∈ [(Instr.mstFp32, 4, false), (Instr.mstBf16, 2, true), (Instr.mstInt32, 4, false)],
    ∀ (s u : State) (w : Swage) (c b a : Reg) (runs : List (Nat × Nat)), EngineReady s w → s.hart.planish = [] →
    MemoryCanonical s → (∀ r ∈ [b, c], Unbound s.hart r ∧ s.hart.xm r.toNat = 0) →
    (s.hart.xr b.toNat).toNat % q.2.1 = 0 → (s.hart.xr c.toNat).toNat % q.2.1 = 0 →
    let el := fun i j => if q.2.2 then fConvert fp32 bf16 .rne (tileElem (tileAt w.ma a.toNat) i j)
      else (tileElem (tileAt w.ma a.toNat) i j, 0)
    rowsStored q.2.1 ((fromTo s.hart.tr.ves.toNat w.m).map fun i =>
      (i, s.hart.xr b.toNat + BitVec.ofNat 64 i * s.hart.xr c.toNat,
        (upTo w.n).map fun j => ((el i j).1, tileElemMark (tileAt w.maMark a.toNat) i j))) s = .ok runs u →
    let fl := (fromTo s.hart.tr.ves.toNat w.m).foldl (fun g i => (upTo w.n).foldl (fun g j => g ||| (el i j).2) g) 0
    ∃ e, Completes (q.1 c b a) s e ∧ KeepsRegisters { s with hart := { flagged fl s.hart with swage := e.hart.swage } } e 0 ∧
      e.hart.swage = some (queued 0x6D w) ∧ e.mem = u.mem ∧ e.hart.buf = u.hart.buf ∧
      (s.hart.protectedStrip = false → s.hart.assay = false →
        ∀ a, (∀ r ∈ runs, a < r.1 ∨ r.1 + r.2 ≤ a) → memByte e.mem a = memByte s.mem a)) ∧
  (∀ (s : State) (w : Swage) (b a : Reg), EngineReady s w → a.toNat + w.m ≤ 128 → s.hart.tr.wbase.toNat ≤ 64 →
    (∀ i, i < w.m → Settled s.hart (regOf (a.toNat + i))) →
    ∃ e, Completes (.mdrain b a) s e ∧ e.mem = s.mem ∧ e.hart.x = s.hart.x ∧
      e.hart.swage = some (if w.m = 0 then w else queued 0x6E w) ∧
      (∀ i k, i < w.m → k < s.hart.vlmaxW 32 → lane e.hart (regOf (a.toNat + i)) 32 k =
        if k < w.n then tileElem (tileAt w.ma b.toNat) i k else 0) ∧
      ∀ p, (∀ i, i < w.m → p ≠ s.hart.phys (a.toNat + i)) → e.hart.v[p]? = s.hart.v[p]?)

/-- DRAIN (R359), CHKERR (R351), the wakes, and the prefixes (R74, R76).
The model's choices in it: log entries 6, 17, 38. -/
def Obligations.QueueWaitsErrorCheckAndPrefixes : Prop :=
  (∀ (s : State) (o z t v : BitVec 1) (d : Reg) (r k : BitVec 3), exec (.pfxV o z t v d r k) s = .next
    { s with hart := { s.hart with pfx := .v (o = 1) (z = 1) (t = 1) (v = 1) d r k, irPfx := s.hart.ir } }) ∧
  (∀ (s : State) (p : BitVec 1) (o : BitVec 2) (sc : BitVec 3), exec (.pfxO p o sc) s = .next
    { s with hart := { s.hart with pfx := .o (p = 1) o sc, irPfx := s.hart.ir } }) ∧
  (∀ (s : State) (n p c m t v : BitVec 1), PrefixPlaced s.hart →
    let named := drainPending s s.hart (n = 1) (p = 1) (c = 1) (m = 1) (t = 1) (v = 1)
    (named = false → (∀ r ∈ s.hart.races, drainNames (n = 1) (p = 1) (c = 1) (m = 1) (t = 1) (v = 1) r = false) →
      let r := retired s (if c = 1 then { s.hart with
        clock := joinClock s.hart.clock s.hart.copyDone, copyDone := [] } else s.hart)
      exec (.drain n p c m t v) s = .next r ∧ (Waits s (.drain n p c m t v) → exec .drainReturn s = .next r)) ∧
    (named = true → (∃ r, exec (.drain n p c m t v) s = .next r ∧ WaitsAt s r (.drain n p c m t v) 0) ∧
      (Waits s (.drain n p c m t v) → exec .drainReturn s = .next s))) ∧
  (∀ (s : State), PrefixPlaced s.hart → drainPending s s.hart true true false true true true = false → s.hart.races = [] →
    exec .chkerr s = .next (if s.hart.tr.cir = 0 then retired s s.hart
      else trapped s 0x0E (BitVec.ofNat 64 (2 ^ 60 + s.hart.tr.cir.toNat)))) ∧
  (∀ (s : State) (p : Nat), Waits s (.register p) → exec .registerFullWake s = .next (
    if (s.hart.fe[p]?).getD .full = .full then { s with hart := { s.hart with wait := .no } } else s)) ∧
  (∀ (s : State), ∀ q ∈ waitEvents, s.hart.status ≠ .running ∨ q.2 s.hart.wait = false → exec q.1 s = .next s)

/-- FINISH (R367) and YIELD (R443).
The model's choices in it: log entries 16, 91, 93. -/
def Obligations.HartEndAndYield : Prop :=
  (∀ (s : State), PrefixPlaced s.hart → s.hart.races = [] → s.hart.planish = [] →
    ((s.hart.cg = 0 ∨ s.hart.remote = false) → ∃ r, exec .finish s = .next r ∧ r.hart.status = .finished ∧
      r.hart.streams = [] ∧ (∀ c ∈ r.hart.loops.toList, c.active = false) ∧ (∀ f ∈ r.hart.filigree.toList, f = FSlot.reset) ∧
      r.hart.x = s.hart.x ∧ r.hart.v = s.hart.v ∧ r.hart.pc = s.hart.pc ∧ r.hart.sr = s.hart.sr ∧ r.hart.buf = [] ∧
      (BufferLands s → r.mem = landed s ∧ r.hart.tr = { s.hart.tr with ves := 0 }) ∧
      ∀ k, s.tasks[s.hart.taskNo]? = some k → ∃ k', r.tasks[s.hart.taskNo]? = some k' ∧
        k'.poisoned = (k.poisoned || r.hart.tr.cir ≠ 0)) ∧
    (s.hart.cg ≠ 0 → s.hart.remote = true → exec .finish s = .next (trapped s 0x07 0))) ∧
  (∀ (s : State),
    (s.hart.mode = .supervisor ∨ s.hart.keepsSlot = true → exec .yield s = .next (retired s s.hart)) ∧
    (s.hart.mode = .task → s.hart.keepsSlot = false → saveReady s s.hart = true →
      ∃ r, exec .yield s = .next r ∧ SavedAway (quiet unprotect (retired s s.hart)) r .yield) ∧
    (s.hart.mode = .task → s.hart.keepsSlot = false → saveReady s s.hart = false →
      ∃ r, exec .yield s = .next r ∧ WaitsAt s r .retry 0))

/-- LAUNCH (R377) and WAITT (R439).
The model's choices in it: log entries 37, 38, 91, 93. -/
def Obligations.LaunchAndAwaitTasks : Prop :=
  (∀ (s t : State) (b d : Reg) (pa : Nat), PrefixPlaced s.hart → s.hart.planish = [] → releasePending s = false →
    MemoryCanonical s → s.hart.protectedStrip = false → s.hart.assay = false → Unbound s.hart b → Unbound s.hart d →
    s.hart.xm b.toNat = 0 →
    let r := s.hart.xr b.toNat
    let q := readNat pa 4 (found pa 4 t) / 2 ^ 24 % 64
    let k := queueBlock s q
    r.toNat % 64 = 0 → Passes (loadAcc .single) (r + 0x28) 4 s pa t → viewMark (found pa 4 t) pa 4 = 0 →
    k.mode = 2 → k.asid = s.hart.sr.asid →
    let ring := k.ovcnt = 0 ∧ (k.tail - k.head).toNat < k.rsize.toNat
    let spill := k.ovcnt.toNat < k.ovcap.toNat
    let slot := if ring then k.rbase + BitVec.ofNat 64 (8 * (k.tail.toNat % k.rsize.toNat))
      else k.ovbase + BitVec.ofNat 64 (8 * ((k.ovhead.toNat + k.ovcnt.toNat) % k.ovcap.toNat))
    (ring ∨ spill → ∀ p, spaceAddr s k.asid slot 8 true = some p → ∃ e, Completes (.launch b d) s e ∧ KeepsRegisters s e d ∧
      e.hart.xr d.toNat = (if d = 0 ∨ ring then 0 else 1) ∧ Stored s.mem p 8 r.toNat e.mem ∧
      e.hart.region = s.hart.region + 1 ∧
      (let key := launchKey q (decide ¬ ring) (if ring then k.tail else k.ovhead + k.ovcnt)
       e.objRels = s.objRels.filter (·.1 ≠ key) ++ [(key, s.hart.release 3)]) ∧
      queueBlock e q = if ring then { k with tail := k.tail + 1 } else { k with ovcnt := k.ovcnt + 1 }) ∧
    (¬ ring → ¬ spill → ∃ e, exec (.launch b d) s = .next e ∧ e.hart.sr.tcause = 0x0C ∧ e.hart.sr.tval = BitVec.ofNat 64 q ∧
      e.hart.x = s.hart.x ∧ e.mem = s.mem)) ∧
  (∀ (s : State) (b d : Reg) (k : Nat), PrefixPlaced s.hart → s.hart.protectedStrip = false → Unbound s.hart b →
    Unbound s.hart d → s.hart.xm b.toNat = 0 →
    let r := s.hart.xr b.toNat
    let n := (completedOf s s.hart.sr.asid r).length
    let pending := recordPending s s.hart.sr.asid r
    (r.toNat % 64 = 0 → r ≠ s.hart.tr.task →
      (pending = false → ∃ e, Completes (.waitt b d) s e ∧ KeepsRegisters s e d ∧ e.mem = s.mem ∧
        e.hart.xr d.toNat = if d = 0 then 0 else 1) ∧
      (pending = true → releasePending s = false →
        (s.hart.keepsSlot = true → ∃ e, exec (.waitt b d) s = .next e ∧ WaitsAt s e (.waitt b d n) 0) ∧
        (s.hart.keepsSlot = false → saveReady s s.hart = false →
          ∃ e, exec (.waitt b d) s = .next e ∧ WaitsAt s e .retry 0) ∧
        (s.hart.keepsSlot = false → saveReady s s.hart = true → ∃ e, exec (.waitt b d) s = .next e ∧
          SavedAway { s with hart := { s.hart with tr := { s.hart.tr with ves := 0 } } } e (.waitt r.toNat n) ∧ ∀ v ∈ e.saved.getLast?, v.hart.wait = .waitt b d n))) ∧
    (Waits s (.waitt b d k) → (k < n ∨ pending = false) → ∃ e, exec .waittReturn s = .next (retired e e.hart) ∧ e.hart.pc = s.hart.pc ∧
      KeepsRegisters s e d ∧ e.mem = s.mem ∧ e.hart.xr d.toNat = 0) ∧
    (Waits s (.waitt b d k) → n ≤ k → pending = true → exec .waittReturn s = .next s))

/-- STRIP (R429): the stores of the strip left behind are performed (R31, R311).
The model's choices in it: log entries 35, 36, 91, 93, 109. -/
def Obligations.StripOpensAndWaits : Prop :=
  (∀ (s : State) (w p : BitVec 1) (b d : Reg) (t : Task), PrefixPlaced s.hart → s.hart.races = [] → s.hart.planish = [] →
    releasePending s = false → BufferLands s → Clean s.hart [0x009] → Unbound s.hart b → Unbound s.hart d → s.hart.xm b.toNat = 0 →
    s.hart.tr.ves = 0 → s.tasks[s.hart.taskNo]? = some t →
    let n := (s.hart.xr b.toNat).toNat
    let vl := min n (min s.hart.slen (s.hart.vlmaxW (fmtWidth s.hart.fmt)))
    let next : TaskRegs := { s.hart.tr with vl := BitVec.ofNat 64 vl, strn := s.hart.tr.strn + 1 }
    let opened : Hart := { s.hart with tr := next }
    (n = 0 → ∃ e, Completes (.strip w p b d) s e ∧ e.hart.tr = { s.hart.tr with vl := 0 } ∧ e.hart.xr d.toNat = 0 ∧
      (∀ k, k ≠ d.toNat → e.hart.xr k = s.hart.xr k) ∧ e.hart.v = s.hart.v ∧ e.hart.ckpt.valid = false ∧
      e.hart.buf = [] ∧ StripMemory s t p e.mem ∧ (p = 1 → s.hart.stripInBlock = true → Published s e t)) ∧
    (n ≠ 0 → w = 0 ∨ t.desc.prod = 0 → ∃ e, Completes (.strip w p b d) s e ∧ e.hart.tr = next ∧
      e.hart.xr d.toNat = (if d = 0 then 0 else BitVec.ofNat 64 vl) ∧ (∀ k, k ≠ d.toNat → e.hart.xr k = s.hart.xr k) ∧
      e.hart.v = s.hart.v ∧ e.hart.buf = [] ∧ StripMemory s t p e.mem ∧ (s.hart.rb = false → e.hart.ckpt = s.hart.ckpt) ∧
      (s.hart.rb = true → e.hart.ckpt.pc = s.hart.pc + s.hart.unitLen ∧ e.hart.ckpt.vl = next.vl ∧
        e.hart.ckpt.strn = next.strn ∧ e.hart.ckpt.valid = true ∧
        e.hart.ckpt.unprotected = s.hart.loops.toList.any (·.active)) ∧
      (p = 1 → s.hart.stripInBlock = true → Published s e t)) ∧
    (n ≠ 0 → t.desc.prod ≠ 0 → ∃ m, StripMemory s t p m ∧
      let u := { s with mem := m }
      let met := depwMet u opened
      let Out := fun (r : State) => p = 1 → s.hart.stripInBlock = true → Published s r t
      (p = 0 ∨ taskOfRecord u t.asid t.desc.prod ≠ some s.hart.taskNo) →
      (met = true → ∃ e, Completes (.strip 1 p b d) s e ∧ e.hart.tr = next ∧ e.mem = m ∧ Out e ∧
        e.hart.region = s.hart.region + 1 ∧ e.hart.xr d.toNat = if d = 0 then 0 else BitVec.ofNat 64 vl) ∧
      (met = false → s.hart.keepsSlot = true → ∃ r, exec (.strip 1 p b d) s = .next r ∧ r.hart.wait = .depw ∧
        r.hart.pc = s.hart.pc ∧ r.hart.tr = { next with ves := 1 } ∧ r.mem = m ∧ Out r) ∧
      (met = false → s.hart.keepsSlot = false → saveReady s s.hart = false →
        ∃ r, exec (.strip 1 p b d) s = .next r ∧ r.hart.wait = .retry ∧ r.hart.pc = s.hart.pc ∧
          r.hart.tr = { next with ves := 1 } ∧ r.mem = m ∧ Out r) ∧
      (met = false → s.hart.keepsSlot = false → saveReady s s.hart = true →
        ∃ (r : State) (o : Hart), exec (.strip 1 p b d) s = .next r ∧ SavedAway { u with hart := o } r .depw ∧ Out r ∧
          o.hartid = s.hart.hartid ∧ o.pc = s.hart.pc ∧ o.tr = { next with ves := 1 } ∧ o.v = s.hart.v ∧
          o.xr d.toNat = (if d = 0 then 0 else BitVec.ofNat 64 vl) ∧ ∀ k, k ≠ d.toNat → o.xr k = s.hart.xr k))) ∧
  (∀ (s : State), Waits s .depw → releasePending s = false → depwMet s s.hart = true → ∃ e, exec .depwWaitSatisfied s = .next (retired e e.hart) ∧
    e.hart.pc = s.hart.pc ∧ KeepsRegisters s e 0 ∧ e.mem = s.mem ∧ e.hart.region = s.hart.region + 1)

/-- CRED (R271, R272) and CRED_ANSWER.
The model's choices in it: log entries 69, 77, 93, 98. -/
def Obligations.CollectiveContributionAndWait : Prop :=
  ∀ q ∈ collectives, ∀ (s : State) (c b d : Reg), PrefixPlaced s.hart → s.hart.protectedStrip = false → Unbound s.hart d →
    s.hart.assay = false →
    let x := s.hart.xr b.toNat
    (∀ k u, Unbound s.hart b → Unbound s.hart c → s.hart.planish = [] → s.hart.tr.ves = 0 → s.hart.xm b.toNat = 0 →
      x.toNat % 64 = 0 → CredChecked s q.2 c b d k u →
      (CredAccepted s q.2 d k → ∃ r, exec (q.1 c b d) s = .next r ∧ WaitsAt s r (.cred q.2 c b d) 1 ∧
        let here := k.root = 0xFFFF ∨ k.root = s.fid
        let m : Contribution := ⟨s.fid, k.pidx, k.slot, k.gen, q.2, k.expm, k.tmo, s.hart.xr c.toNat,
          if q.2 = 1 then (s.hart.xr d.toNat).toInt else 0, s.hart.sr.asid,
          s.hart.xm c.toNat ||| (if q.2 = 1 then s.hart.xm d.toNat else 0), some (s.hart.taskNo, s.hart.tr.lhart.toNat)⟩
        r.hart.credId = some ⟨here, k.root, k.slot.toNat, k.gen, k.pidx.toNat⟩ ∧
        r.contribs = (s.contribs ++ if here then [m] else []) ∧
        r.collOut = s.collOut ++ if here then [] else [.contribution k.root m]) ∧
      (¬ CredAccepted s q.2 d k → ∃ r, exec (q.1 c b d) s = .next r ∧ r.hart.sr.tcause = 0x07 ∧ r.hart.sr.tval = x ∧
        r.contribs = s.contribs ∧ r.hart.x = s.hart.x ∧ r.hart.v = s.hart.v ∧ r.mem = s.mem)) ∧
    (∀ a, s.hart.tr.ves ≠ 0 → (s.hart.cred = some a ∨ s.hart.cred = none ∧ ∃ k, s.hart.credId = some k ∧ fetchAnswer s k = some a) →
      ∀ cause v n t, credStores x s = .error (.trap cause v n) t → ∃ r, exec (q.1 c b d) s = .next r ∧
        r.hart.sr.tcause = cause.setWidth 64 ∧ r.hart.sr.tval = v ∧ r.hart.sr.tpc = s.hart.pc ∧ r.hart.x = s.hart.x ∧
        r.hart.v = s.hart.v ∧ r.mem = s.mem) ∧
    (∀ a pa pb t, s.hart.tr.ves ≠ 0 → MemoryCanonical s →
      (s.hart.cred = some a ∨ s.hart.cred = none ∧ ∃ k, s.hart.credId = some k ∧ fetchAnswer s k = some a) →
      x.toNat % 64 = 0 → credStores x s = .ok (pa, pb) t →
      ∃ e, Completes (q.1 c b d) s e ∧
        (Waits s (.cred q.2 c b d) → s.hart.credId ≠ none → exec (.credAnswer none) s = .next (retired e e.hart)) ∧
        (∃ m, Stored s.mem pa 8 a.cmask.toNat m ∧ Stored m pb 8 a.status.toNat e.mem) ∧
        e.hart.xr d.toNat = (if d = 0 then 0 else if a.status.toNat ≤ 1 then a.result else s.hart.xr d.toNat) ∧
        (∀ k, k ≠ d.toNat → e.hart.xr k = s.hart.xr k) ∧ e.hart.v = s.hart.v ∧ e.hart.fe = s.hart.fe ∧
        e.hart.tr = { s.hart.tr with
          fcr := s.hart.tr.fcr ||| a.flags.setWidth 13
          cir := if a.status.toNat ≤ 1 then s.hart.tr.cir ||| a.mark else s.hart.tr.cir } ∧
        e.hart.credId = none) ∧
    (s.hart.tr.ves ≠ 0 → s.hart.cred = none → (∀ k, s.hart.credId = some k → fetchAnswer s k = none) →
      (∃ r, exec (q.1 c b d) s = .next r ∧ WaitsAt s r (.cred q.2 c b d) 1) ∧
      (Waits s (.cred q.2 c b d) → exec (.credAnswer none) s = .next s)) ∧
    (∀ a k pa pb t, s.hart.tr.ves ≠ 0 → Waits s (.cred q.2 c b d) → s.hart.credId = some k → k.here = false →
      x.toNat % 64 = 0 → credStores x { s with hart := { s.hart with cred := some a } } = .ok (pa, pb) t →
      exec (.credAnswer (some a)) s = exec (q.1 c b d) { s with hart := { s.hart with cred := some a } })

/-- The root's slots (R273 to R275, Tables 13.5 to 13.7).
The model's choices in it: log entries 70, 76, 78, 87, 93, 103. -/
def Obligations.CollectiveRounds : Prop :=
  (∀ (s : State) (c : Contribution),
    let k := collSlot s c.slot.toNat
    let me := c.expm.getLsbD c.pidx.toNat
    let bit := BitVec.ofNat 64 (2 ^ c.pidx.toNat)
    let fits := c.op = k.op ∧ c.expm = k.expm ∧ c.tmo = k.tmo ∧ me = true
    let held := match k.prev with
      | some (g, a) => if g = c.gen then a.cmask else 0
      | none => 0
    (k.allotted = false ∨ k.asid ≠ c.asid → Refused s c 4 0) ∧
    (k.allotted = true → k.asid = c.asid → hubFenced s = true → Refused s c 7 0) ∧
    (k.allotted = true → k.asid = c.asid → hubFenced s = false →
      (k.phase = .free → me = true → Counted s c bit k.prev []) ∧
      (k.phase = .free → me = false → Refused s c 4 0) ∧
      (k.phase = .isOpen → c.gen = k.gen →
        (k.cmask.getLsbD c.pidx.toNat = true → Refused s c 5 k.cmask) ∧
        (k.cmask.getLsbD c.pidx.toNat = false → fits → Counted s c (k.cmask ||| bit) k.prev k.waiting) ∧
        (k.cmask.getLsbD c.pidx.toNat = false → ¬ fits → Refused s c 4 k.cmask)) ∧
      (k.phase = .isOpen → newer c.gen k.gen = true → Refused s c 3 0) ∧
      (k.phase ≠ .free → c.gen ≠ k.gen → newer c.gen k.gen = false → Refused s c 2 held) ∧
      (k.phase = .closed → c.gen = k.gen → Refused s c (if k.cmask.getLsbD c.pidx.toNat then 5 else 2) k.cmask) ∧
      (k.phase = .closed → newer c.gen k.gen = true → Counted s c bit (some (k.gen, k.answer)) []))) ∧
  (∀ (k : CollSlot) (c : Contribution) (neg : Bool) (m : Nat) (e : Int),
    (c.op.toNat ≤ 1 → unpack fp32 (c.value.toNat % 2 ^ 32) = .num neg m e →
      (k.count c).acc = k.acc + (if neg then -1 else 1) * (m : Int) *
        2 ^ (e + (if c.op = 1 then c.scale else 0) + 330).toNat) ∧
    (c.op = 5 → (k.count c).best = k.best + c.value) ∧
    (c.op = 6 → k.special.getLsbD 4 = true → (k.count c).best.toInt = max k.best.toInt c.value.toInt) ∧
    (c.op = 7 → k.special.getLsbD 4 = true → (k.count c).best.toInt = min k.best.toInt c.value.toInt) ∧
    (k.op.toNat ≤ 1 → k.special.toNat % 8 = 0 → k.answer.result = BitVec.ofNat 64 (roundInt fp32 .rne false k.acc (-330)).1)) ∧
  (∀ (s : State) (n : Nat), (256 ≤ n → exec (.roundDeadline n) s = .next s) ∧
    (n < 256 → let k := collSlot s n
      (k.phase = .isOpen → k.tmo ≠ 0 → ∃ r, exec (.roundDeadline n) s = .next r ∧
        collSlot r n = { k with phase := .closed, waiting := [] } ∧ ContextsAlone s r (k.waiting.filterMap contributor) ∧
        r.hart.x = s.hart.x ∧
        (k.cmask ≠ k.expm → k.answer.status = 1) ∧
        Delivered s r k.waiting k.answer) ∧
      (k.phase ≠ .isOpen ∨ k.tmo = 0 → exec (.roundDeadline n) s = .next s)))

/-- HMLOAD, HMV and HMWAIT (R222 to R225).
The model's choices in it: log entries 59, 60, 61, 98. -/
def Obligations.StackCommands : Prop :=
  (∀ (s : State) (c b a : Reg), PrefixPlaced s.hart → s.hart.planish = [] →
    (∀ r ∈ [a, b, c], Unbound s.hart r ∧ s.hart.xm r.toNat = 0) →
    let set := (s.hart.xr a.toNat).toNat
    let base := s.hart.xr b.toNat
    let k := set % 16
    let first := set / 256 % 64
    let count := set / 65536 % 128
    let entry := (s.hart.xr c.toNat).toNat % 512
    let len := (s.hart.xr c.toNat).toNat / 65536 % 1024
    let fits := k / 4 = s.hart.die ∧ first + count ≤ 64 ∧ entry + len ≤ 512
    (¬ fits → exec (.hmload c b a) s = .next (trapped s 0x07 0)) ∧
    (fits → base.toNat % 4 ≠ 0 → exec (.hmload c b a) s = .next (trapped s 0x03 base)) ∧
    ∀ runs bs t u, fits → base.toNat % 4 = 0 → rowRuns { loadAcc .single with queue := queueHmv } base (4 * len) s = .ok runs t →
      readRuns { loadAcc .single with queue := queueHmv } runs t = .ok (bs, 0) u →
      (∀ w, (words4 bs).find? (fun w => !microOk w) = some w →
        ∃ r, exec (.hmload c b a) s = .next r ∧ r.hart.sr.tcause = 0x01 ∧ r.hart.sr.tval = w.setWidth 64 ∧
          r.hmloads = s.hmloads ∧ r.mem = s.mem) ∧
      ((words4 bs).all microOk = true →
        (stackSlots u < 8 → ∃ e j, Completes (.hmload c b a) s e ∧ KeepsRegisters s e 0 ∧ e.mem = s.mem ∧
          e.hmloads = s.hmloads ++ [j] ∧ j.chans = (List.range count).map (fun i => 64 * k + (first + i)) ∧
          j.first = entry ∧ j.words = words4 bs) ∧
        (8 ≤ stackSlots u → ∃ r, exec (.hmload c b a) s = .next r ∧ WaitsAt s r .retry 0))) ∧
  (∀ (s t u : State) (b a : Reg) (k : HmvCmd) (rows : List (Nat × List (DWord × Nat × Nat)))
    (vec out : List (DWord × Nat × Nat)) (bpa : Nat) (x : List Byte × Mark) (ws : List (List Byte × Mark)),
    PrefixPlaced s.hart → s.hart.planish = [] → s.hart.protectedStrip = false →
    (∀ r ∈ [a, b], Unbound s.hart r ∧ s.hart.xm r.toNat = 0) →
    hmvChecks (s.hart.xr a.toNat) (s.hart.xr b.toNat) s = .ok (k, rows, vec, out, bpa) t →
    (8 ≤ stackSlots t → ∃ r, exec (.hmv b a) s = .next r ∧ WaitsAt s r .retry 0) ∧
    (stackSlots t < 8 → hmvReads vec rows t = .ok (x, ws) u →
      ∃ e j, Completes (.hmv b a) s e ∧ KeepsRegisters s e 0 ∧ e.mem = s.mem ∧ e.hmvs = s.hmvs ++ [j] ∧
        j.entry = k.entry ∧ j.x = halves x.1 ∧ j.xMark = x.2 ∧ j.bytes = 4 * k.nr ∧ j.bar = .bar bpa (s.hart.xr b.toNat) ∧
        j.dst = out.map (·.2) ∧ j.owner = s.hart.party ∧
        j.rows.map (fun r => (r.weights, r.mark)) = ws.map (fun w => (halves w.1, w.2)) ∧
        j.rows.map (·.slotVa) = rows.map (fun r => k.out + BitVec.ofNat 64 (4 * (r.1 - k.r0))))) ∧
  (∀ (s : State), PrefixPlaced s.hart →
    (hmvPending s s.hart = false → (∀ r ∈ s.hart.races, r.kind ≠ queueHmv) → exec .hmwait s = .next (retired s
      { s.hart with clock := joinClock s.hart.clock s.hart.hmvDone, hmvDone := [] })) ∧
    (hmvPending s s.hart = true → ∃ r, exec .hmwait s = .next r ∧ WaitsAt s r .retry 0))

/-- The stack-side units (R218 to R220) and the events of HMLOAD and HMV (R222, R224).
The model's choices in it: log entries 59, 61, 102. -/
def Obligations.RowPrograms : Prop :=
  (∀ (s : State), s.row.active = true → s.row.idx ≠ 511 → s.row.done < 64 →
    let y := s.row.y.toNat
    (∀ n j i r, rowJob s = some (n, j, i, r) → exec .dot s = .next (rowOn s
      { s.row with y := BitVec.ofNat 32 (dotProduct r.weights j.x), mark := if r.mark ||| j.xMark = 0 then 0 else 0x40 })) ∧
    (∀ e : BitVec 8, e ≠ 0xFF → ∃ p m x, unpack fp32 p = .num false m x ∧ -150 ≤ x ∧
      m * 2 ^ (x + 150).toNat = 2 ^ (e.toNat + 23) ∧
      exec (.scale e) s = .next (rowOn s { s.row with y := BitVec.ofNat 32 (fMul fp32 .rne y p).1 })) ∧
    exec (.scale 0xFF) s = .next (rowOn s { s.row with y := 0x7FC00000 }) ∧
    exec .relu s = .next (rowOn s { s.row with y := BitVec.ofNat 32 (fMinMax fp32 true y 0).1 }) ∧
    (∀ c, exec (.addc c) s = .next (rowOn s { s.row with y := BitVec.ofNat 32 (fAdd fp32 .rne y (wide c)).1 })) ∧
    exec (.emit 0) s = .next (rowOn s { s.row with out := some (s.row.y, s.row.mark ||| microMark s) }) ∧
    exec (.emit 1) s = .next (rowOn s
      { s.row with out := some (BitVec.ofNat 32 (fConvert fp32 bf16 .rne y).1, s.row.mark ||| microMark s) })) ∧
  (∀ (s : State) (e : BitVec 8) (c : BitVec 16) (f : BitVec 1),
    let all : List Instr := [.dot, .scale e, .relu, .addc c, .emit f]
    (s.row.active = false → ∀ i ∈ .endRow :: all, exec i s = .next s) ∧
    (s.row.active = true → ∀ n j i r, rowJob s = some (n, j, i, r) →
      ∃ t, exec .endRow s = .next t ∧ (s.row.idx = 511 ∨ 64 ≤ s.row.done → microMark s = 0 → ∀ m ∈ all, exec m s = .next t) ∧
        t.row.active = false ∧ t.hmvs = s.hmvs.set n { j with rows := j.rows.eraseIdx i } ∧
        (s.row.out = none → t.mem = s.mem) ∧
        ∀ y mk, s.row.out = some (y, mk) → MemoryCanonical s → physMapped s r.slotPa = true →
          Stored s.mem r.slotPa 4 y.toNat t.mem)) ∧
  (∀ (s : State) (n chan : Nat) (j : HmvJob), s.hmvs[n]? = some j → s.row.active = false →
    (∃ r ∈ j.rows, r.chan = chan) → exec (.channelRowProgram n chan) s = .next (
      if channelBusy s j.seq [chan] then s else { s with row := ⟨true, j.seq, chan, j.entry, 0, 0, 0, none⟩ })) ∧
  (∀ (s : State) (n : Nat) (j : HmvJob) (pa : Nat) (va : DWord), s.hmvs[n]? = some j → j.bar = .bar pa va →
    (j.rows ≠ [] → exec (.hmvBarrierUpdate n) s = .next s) ∧
    (j.rows = [] → MemoryCanonical s → physMapped s pa = true → ∃ r, exec (.hmvBarrierUpdate n) s = .next r ∧ r.hmvs = s.hmvs.eraseIdx n ∧
      Stored s.mem pa 16 ((barOf (memNat s.mem pa 16)).update 0 j.bytes).1.bits r.mem ∧ r.hart.x = s.hart.x ∧
      ∃ q ∈ r.objRels, q.1 = barKey pa ∧ q.2.clock = [(j.party, 1)])) ∧
  (∀ (s : State) (n : Nat) (j : HmloadJob), s.hmloads[n]? = some j →
    (channelBusy s j.seq j.chans = true → exec (.hmloadComplete n) s = .next s) ∧
    (channelBusy s j.seq j.chans = false → ∃ r, exec (.hmloadComplete n) s = .next r ∧ r.hmloads = s.hmloads.eraseIdx n ∧
      r.hart = s.hart ∧ r.mem = s.mem ∧ (∀ c i, storeWord r c i =
        if h : c ∈ j.chans ∧ j.first ≤ i ∧ i - j.first < j.words.length then j.words[i - j.first] else storeWord s c i) ∧
      ∀ c ∈ j.chans, ∀ i, j.first ≤ i → i < j.first + j.words.length → storeMark r c i = j.mark))

/-- BURNISH_TILE (R159, R162) and CONVERSION_RESTART (R163).
The model's choices in it: log entries 63, 64, 65, 87, 93, 97, 110. -/
def Obligations.BurnishConversions : Prop :=
  (∀ (s : State) (die : Nat),
    (4 ≤ die ∨ die ∈ s.fencedDies ∨ (∀ c ∈ s.convs, c.die = die → c.live = false) → exec (.burnishTile die) s = .next s) ∧
    ∀ (i : Nat) (c : Conversion), die < 4 → die ∉ s.fencedDies → nextConversion s die = some i → s.convs[i]? = some c →
      MemoryCanonical s →
      let d := descOf c.desc
      let w := c.descPa + 0x20
      let mapVa := BitVec.ofNat 64 (d.tmap + c.tile / 8)
      (∀ moves pa, tileMoves s c = .ok moves → spaceRun s c.asid mapVa 1 true true = .ok pa → tileHeld s moves = false →
        pa < w ∨ w + 8 ≤ pa → ∃ r, exec (.burnishTile die) s = .next r ∧ HartRuns s r ∧
          r.convs = s.convs.set i { c with tile := c.tile + 1 } ∧
          let m := elementsCopied moves s.mem
          (∀ a, a ≠ pa → a < w ∨ w + 8 ≤ a → memByte r.mem a = memByte m a) ∧
          (∀ k, k < 8 → (memByte r.mem pa).getLsbD k = if k = c.tile % 8 then d.ph else (memByte m pa).getLsbD k) ∧
          memNat r.mem (w + 4) 4 = (c.tile + 1) % 2 ^ 32 ∧
          memNat r.mem w 4 = (if c.tile + 1 = d.tiles ∧ (memNat m w 4).testBit 14 = true then memNat m w 4 - 2 ^ 14
            else memNat m w 4)) ∧
      (∀ a, (tileMoves s c = .error a ∨ (∃ l, tileMoves s c = .ok l) ∧ spaceRun s c.asid mapVa 1 true true = .error a) →
        let Fails := ∃ r, exec (.burnishTile die) s = .next r ∧ HartRuns s r ∧ r.convs = s.convs.set i { c with failed := some a } ∧
          (∀ b, b < w ∨ w + 4 ≤ b → memByte r.mem b = memByte s.mem b) ∧
          memNat r.mem w 4 = memNat s.mem w 4 + if (memNat s.mem w 4).testBit 15 then 0 else 2 ^ 15
        (pageAbsent s c.asid a = false → Fails) ∧
        (pageAbsent s c.asid a = true → Fails ∨ exec (.burnishTile die) s = .next { s with free := s.free + 1 }))) ∧
  (∀ (s : State) (src dst : Nat), src < 4 → dst < 4 →
    ((src ∉ s.fencedDies ∨ dst ∈ s.fencedDies ∨ 16 ≤ (burnishQueue s dst).length) →
      exec (.conversionRestart src dst) s = .next s) ∧
    ∀ (i : Nat) (c : Conversion), src ∈ s.fencedDies → dst ∉ s.fencedDies → (burnishQueue s dst).length < 16 →
      nextConversion s src = some i →
      s.convs[i]? = some c →
      let d := descOf c.desc
      let bit := fun t => (spaceAddr s c.asid (BitVec.ofNat 64 (d.tmap + t / 8)) 1 false).map fun pa =>
        (memByte s.mem pa).getLsbD (t % 8)
      ∃ t, t ≤ d.tiles ∧ (∀ k, k < t → bit k = some d.ph) ∧ (t < d.tiles → bit t ≠ some d.ph) ∧
        let rest := s.convs.eraseIdx i
        let first := rest.find? fun o => o.die = dst && o.live
        ∃ l₀ l₁ l₂, rest = l₀ ++ l₁ ++ l₂ ∧ (∀ o ∈ l₁, o.party ≤ c.party) ∧ (∀ o ∈ l₂.head?, c.party < o.party) ∧
          ((∀ o ∈ first, o.tile = 0) → l₀ = []) ∧
          (∀ o ∈ first, o.tile ≠ 0 → ∃ l, l₀ = l ++ [o] ∧ ∀ p ∈ l, p.die = dst → p.live = false) ∧
          exec (.conversionRestart src dst) s = .next { s with convs := l₀ ++ l₁ ++ { c with die := dst, tile := t } :: l₂ })

/-- The network (R207), links (R210, R211), cluster reset (R212) and the Golrok port (R226 to R228).
The model's choices in it: log entries 54, 55, 56, 57, 58, 87, 93, 114. -/
def Obligations.NetworkLinksAndStackPorts : Prop :=
  (∀ (s : State) (i j : Nat) (a b : Packet), s.packets[i]? = some a → s.packets[j]? = some b →
    (MayMerge s i j a b → exec (.reductionMerge i j) s = .next
      { s with packets := (s.packets.eraseIdx j).set i { a with
        operand := BitVec.ofNat 64 (amoNew a.op.toNat a.bytes a.operand.toNat b.operand.toNat 0).1
        mark := a.mark ||| b.mark, parts := a.parts ++ b.parts } }) ∧
    (¬ MayMerge s i j a b → exec (.reductionMerge i j) s = .next s)) ∧
  (∀ op n x a b, 1 ≤ op → op ≤ 8 → n = 4 ∨ n = 8 → x < 2 ^ (8 * n) → a < 2 ^ (8 * n) → b < 2 ^ (8 * n) →
    (amoNew op n (amoNew op n x a 0).1 b 0).1 = (amoNew op n x (amoNew op n a b 0).1 0).1) ∧
  (∀ (s : State) (n : Nat) (k : Packet), s.packets[n]? = some k → packetBehind s n k = false → k.parts ≠ [] →
    (∀ p ∈ k.parts, p.assay = false ∧ partRace { s with packets := s.packets.eraseIdx n } k.pa k.bytes p = []) →
    MemoryCanonical s → ∃ r, exec (.reductionPacketApply n) s = .next r ∧ r.packets = s.packets.eraseIdx n ∧
      { r.hart with lastAcq := s.hart.lastAcq, lastCore := s.hart.lastCore } = s.hart ∧
      Stored s.mem k.pa k.bytes (amoNew k.op.toNat k.bytes (memNat s.mem k.pa k.bytes) k.operand.toNat 0).1 r.mem) ∧
  (∀ (s : State) (l : LinkId), (linkExists l = false ∨ l ∈ s.fencedLinks → ∀ seq ok, exec (.flitReplay ⟨l, seq⟩) s = .next s ∧
      exec (.linkRetrain l ok) s = .next s ∧ exec (.linkFence l) s = .next s) ∧
    (linkExists l = true → l ∉ s.fencedLinks →
      (∀ seq, ∃ r, exec (.flitReplay ⟨l, seq⟩) s = .next { s with replays := r.replays } ∧
        lastReplay r l = (seq, if (lastReplay s l).1 = seq then min 8 ((lastReplay s l).2 + 1) else 1) ∧
        ∀ l', l' ≠ l → lastReplay r l' = lastReplay s l') ∧
      (∀ ok, (lastReplay s l).2 < 8 → exec (.linkRetrain l ok) s = .next s) ∧
      (∀ ok, 8 ≤ (lastReplay s l).2 → ∃ r, exec (.linkRetrain l ok) s = .next r ∧ r.hart = s.hart ∧ r.mem = s.mem ∧
        (lastReplay r l).2 = if ok then 0 else (lastReplay s l).2) ∧
      ∃ r, exec (.linkFence l) s = .next r ∧ r.fencedLinks = s.fencedLinks ++ [l] ∧ r.mem = s.mem ∧ r.hart.x = s.hart.x ∧
        ((∀ p, l ≠ .fabric p) → r.windows = s.windows) ∧
        ∀ p, l = .fabric p → r.windows =
          if (List.range 8).all (fun q => Config.portPeer q ≠ Config.portPeer p ∨ .fabric q ∈ s.fencedLinks ++ [l])
          then s.windows.filter (fun w => w.2 ≠ Config.portPeer p) else s.windows)) ∧
  (∀ (s : State) (c : Nat), (32 ≤ c → exec (.clusterReset c) s = .next s) ∧
    (32 ≤ c ∨ c ∉ s.fencedClusters → ∀ l, exec (.clusterReturnToService ⟨c, l⟩) s = .next s) ∧
    (c < 32 → c ∈ s.fencedClusters →
      exec (.clusterReturnToService ⟨c, []⟩) s = .next { s with fencedClusters := s.fencedClusters.filter (· ≠ c) } ∧
      ∀ b, b < 127 → ∃ r, exec (.clusterReturnToService ⟨c, [b]⟩) s = .next r ∧ r.hart = s.hart ∧
        r.fencedClusters = s.fencedClusters.filter (· ≠ c) ∧
        ((∀ p ∈ s.spares, p.1 ≠ c) → (c, b) ∈ r.spares ∧ (c, b) ∉ r.retired) ∧
        ((∃ p ∈ s.spares, p.1 = c) → (c, b) ∈ r.retired ∧ r.mem = s.mem)) ∧
    (c < 32 → ∃ r, exec (.clusterReset c) s = .next r ∧ c ∈ r.fencedClusters ∧ (s.pushes = [] → r.mem = s.mem) ∧
      (∀ a, (∀ v ∈ s.saved, a < v.hart.areaBase ∨ v.hart.areaBase + 0xC0000 ≤ a) → memByte r.mem a = memByte s.mem a) ∧
      r.packets = s.packets.filter (fun k => !k.parts.all fun p => p.hartid.toNat / 32 = c) ∧
      r.copies = s.copies.filter (fun j => j.hartid.toNat / 32 ≠ c) ∧ r.hart.x = s.hart.x ∧
      (s.hart.status = .running → s.hart.cluster = c → r.hart.status = .finished ∧
        ∀ t, s.tasks[s.hart.taskNo]? = some t → ∃ t', r.tasks[s.hart.taskNo]? = some t' ∧ t'.killed = true ∧ t'.unstarted = []) ∧
      (s.hart.taskNo ∉ tasksOn c s → { r.hart with fe := s.hart.fe } = s.hart ∧ (s.pushes = [] → r.hart = s.hart)))) ∧
  (∀ (s : State) (k : Nat) (fid : BitVec 16) (a n : Nat), (16 ≤ k → exec (.golrokRead k fid a n) s = .next s) ∧
    (k < 16 → ∃ r, exec (.golrokRead k fid a n) s = .next r ∧ r.hart = s.hart ∧ r.mem = s.mem ∧
      (LinkId.golrok k ∉ s.fencedLinks → GolrokFormed a n → GolrokAllowed s k fid a n →
        r.port = .data (memBytes s.mem (k * 0xC00000000 + a) n) ((wordsOf (k * 0xC00000000 + a) n).map fun w =>
          decide (wordMark s w ≠ 0 ∨ w ∈ s.latent))) ∧
      (LinkId.golrok k ∈ s.fencedLinks ∨ ¬ GolrokFormed a n ∨ ¬ GolrokAllowed s k fid a n → r.port = .refused 0x09))) ∧
  (∀ (s : State) (k i : Nat) (e : BitVec 128), (16 ≤ k ∨ 256 ≤ i → exec (.golrokTableWrite k i e) s = .next s) ∧
    (k < 16 → i < 256 → ∃ r, exec (.golrokTableWrite k i e) s = .next { s with golrok := r } ∧
      ∀ g, g ∈ r ↔ g = ⟨k, i, e &&& golrokMask⟩ ∨ g ∈ s.golrok ∧ ¬ (g.stack = k ∧ g.idx = i)))

/-- RING_ENTRY_TAKE and OVERFLOW_MOVE (R246).
The model's choices in it: log entries 15, 37, 43, 87. -/
def Obligations.EntriesBecomeTasks : Prop :=
  ∀ (s : State) (q : Nat),
    (64 ≤ q → exec (.ringEntryTake q) s = .next s ∧ exec (.overflowMove q) s = .next s) ∧
    (q < 64 →
      let b := queueBlock s q
      let isOn := b.mode = 1 ∨ b.mode = 2
      let at' := b.rbase + BitVec.ofNat 64 (8 * (b.head.toNat % b.rsize.toNat))
      (¬ isOn ∨ b.head = b.tail ∨ 4096 ≤ tableCount s → exec (.ringEntryTake q) s = .next s) ∧
      (isOn → b.head ≠ b.tail → tableCount s < 4096 → ∃ r, exec (.ringEntryTake q) s = .next r ∧
        queueBlock r q = { b with head := b.head + 1 } ∧ r.mem = s.mem ∧ r.hart.x = s.hart.x ∧ r.hart.pc = s.hart.pc ∧
        (∀ v d lo hi n, spaceNat s b.asid at' 8 = some v → (BitVec.ofNat 64 v).toNat % 64 = 0 →
          readRecord s b.asid (BitVec.ofNat 64 v) = some (d, lo, hi, n) →
          (∀ t ∈ s.tasks, t.state = .over ∨ t.depc ≠ lo + 0x30) →
          ∃ t, r.tasks = s.tasks ++ [t] ∧ t.recVa = BitVec.ofNat 64 v ∧ t.desc = d ∧ t.queue = q ∧ t.asid = b.asid ∧
            t.depc = lo + 0x30 ∧ t.started = [] ∧ t.state = (if n = 0 then .ready else .waiting) ∧
            ∀ x, (launchKey q false b.head, x) ∈ s.objRels → x ∈ t.startRel) ∧
        (spaceNat s b.asid at' 8 = none ∨ (∃ v, spaceNat s b.asid at' 8 = some v ∧
            ((BitVec.ofNat 64 v).toNat % 64 ≠ 0 ∨ readRecord s b.asid (BitVec.ofNat 64 v) = none ∨
              ∃ d lo hi n t, readRecord s b.asid (BitVec.ofNat 64 v) = some (d, lo, hi, n) ∧ t ∈ s.tasks ∧ t.state ≠ .over ∧
                t.depc = lo + 0x30)) →
          r.tasks = s.tasks ∧ { r.hart with races := s.hart.races } = s.hart)) ∧
      (b.ovcnt = 0 ∨ b.rsize.toNat ≤ (b.tail - b.head).toNat → exec (.overflowMove q) s = .next s) ∧
      (b.ovcnt ≠ 0 → (b.tail - b.head).toNat < b.rsize.toNat → MemoryCanonical s → ∀ v p,
        spaceNat s b.asid (b.ovbase + BitVec.ofNat 64 (8 * (b.ovhead.toNat % b.ovcap.toNat))) 8 = some v →
        spaceAddr s b.asid (b.rbase + BitVec.ofNat 64 (8 * (b.tail.toNat % b.rsize.toNat))) 8 true = some p →
        ∃ r, exec (.overflowMove q) s = .next r ∧ Stored s.mem p 8 v r.mem ∧ r.hart.x = s.hart.x ∧
          queueBlock r q = { b with ovhead := b.ovhead + 1, ovcnt := b.ovcnt - 1, tail := b.tail + 1 }) ∧
      (b.ovcnt ≠ 0 → (b.tail - b.head).toNat < b.rsize.toNat →
        spaceNat s b.asid (b.ovbase + BitVec.ofNat 64 (8 * (b.ovhead.toNat % b.ovcap.toNat))) 8 = none →
        ∃ r, exec (.overflowMove q) s = .next r ∧ r.mem = s.mem ∧ r.hart = s.hart ∧ r.tasks = s.tasks ∧
          queueBlock r q = { b with ovhead := b.ovhead + 1, ovcnt := b.ovcnt - 1 }))

/-- Bellows' events (R250 to R256) and the end of harts and tasks (R26, R42, R43, R255).
The model's choices in it: log entries 22, 42, 43, 44, 87, 93, 104. -/
def Obligations.HartsStartAndTasksEnd : Prop :=
  (∀ (s : State), (nextTask s = none → exec .taskStart s = .next s) ∧
    ∀ (i q : Nat) (t : Task), nextTask s = some (i, q) → s.tasks[i]? = some t →
      (recordOk s t = false → t.desc.attrBit 6 = false → ∃ r, exec .taskStart s = .next r ∧ r.hart.x = s.hart.x ∧
        TaskNow r i fun t' => t'.state = .over ∧ t'.status = 2 ∧ t'.started = t.started) ∧
      (recordOk s t = true → t.desc.harts = [] → t.desc.attrBit 6 = false → ∃ r, exec .taskStart s = .next r ∧
        TaskNow r i fun t' => t'.state = .over ∧ t'.status = t.status ∧ t'.started = t.started) ∧
      (recordOk s t = true → t.desc.harts ≠ [] → t.desc.cg ≠ 0 →
        (placeGroup s t = none → exec .taskStart s = .next s) ∧
        (∀ cs slots, placeGroup s t = some (cs, slots) → cs.length = t.desc.cg ∧ slots.length = t.desc.harts.length ∧
          (∀ k ∈ slots, k / 32 ∈ cs) ∧ (t.desc.cg ≤ t.desc.harts.length → ∀ c ∈ cs, ∃ k ∈ slots, k / 32 = c) ∧
          ∃ r, exec .taskStart s = .next r ∧ r.mem = s.mem ∧ TaskNow r i fun t' =>
            t'.state = .running ∧ t'.unstarted = [] ∧ t'.started = t.started ++ t.desc.harts)) ∧
      (recordOk s t = true → t.desc.cg = 0 → ∀ lh rest slot, t.desc.harts = lh :: rest →
        (List.range 1024).find? (canOpen s t) = some slot → ∃ r, exec .taskStart s = .next r ∧ StartedWith s r i lh slot t ∧
          r.mem = s.mem ∧ r.rotation = q ∧
          TaskNow r i fun t' => t'.state = .running ∧ t'.started = t.started ++ [lh] ∧
            t'.unstarted = t.desc.harts.filter (· ≠ lh))) ∧
  (∀ (s : State) (slot : Nat), (1024 ≤ slot ∨ slotFree s slot = false → exec (.slotFill slot) s = .next s) ∧
    (slot < 1024 → slotFree s slot = true →
      (∀ i v, nextSaved s slot = some i → s.saved[i]? = some v → ∃ r, exec (.slotFill slot) s = .next r ∧
        Restored s r v slot ∧ r.saved.length + 1 = s.saved.length ∧
        ((∀ b ∈ s.bound, b.core ≠ slot / 4) → r.mem = s.mem ∧
          ((∀ o ∈ s.hart :: s.others, o.status = .idle ∨ o.party ≠ v.hart.party) →
            (∀ w ∈ s.saved.eraseIdx i, w.hart.party ≠ v.hart.party) → r.saved = s.saved.eraseIdx i ∧ FiligreeBack s r v slot))) ∧
      (∀ i t lh rest, nextSaved s slot = none → nextStarted s slot = some i → s.tasks[i]? = some t →
        t.unstarted = lh :: rest → ∃ r, exec (.slotFill slot) s = .next r ∧ StartedWith s r i lh slot t ∧ r.mem = s.mem) ∧
      (nextSaved s slot = none → nextStarted s slot = none → nextTask s = none → exec (.slotFill slot) s = .next s))) ∧
  (∀ (s : State) (c slot : Nat), (32 ≤ c ∨ slot / 32 ≠ c → exec (.stealRequest (c, slot) []) s = .next s) ∧
    (c < 32 → slot / 32 = c →
      let may := fun v => v < 32 ∧ v ≠ c ∧ ∃ i, Offers s c slot v i
      (slotFree s slot = false ∨ (∃ i, assignedTo s i c c slot ≠ []) ∨ (∀ v, ¬ may v) →
        exec (.stealRequest (c, slot) []) s = .next s) ∧
      ∀ v i t lh k, slotFree s slot = true → (∀ i, assignedTo s i c c slot = []) → may v →
        (∀ w, may w → meshHops c v < meshHops c w ∨ meshHops c v = meshHops c w ∧ v ≤ w) →
        Offers s c slot v i → (∀ j, j < i → ¬ Offers s c slot v j) → s.tasks[i]? = some t →
        (assignedTo s i v c slot).getLast? = some lh → (openSlots s t c slot).head? = some k →
        ∃ r, exec (.stealRequest (c, slot) []) s = .next r ∧ Started s r i lh k t ∧ r.mem = s.mem ∧
          TaskNow r i fun t' => t'.stolen = (c, lh) :: t.stolen)) ∧
  (∀ (s m : State) (a b : Nat × Nat), a.1 < b.1 → exec (.stealRequest a []) s = .next m →
    exec (.stealRequest a [b]) s = exec (.stealRequest b []) m ∧ exec (.stealRequest b [a]) s = exec (.stealRequest b []) m) ∧
  (∀ (s : State) (slot : Nat), (slotHart s slot = none → exec (.hartSlotReturn slot) s = .next s) ∧
    ∀ h, slotHart s slot = some h →
      let open' := h.status ≠ .finished ∨ drainPending s h true true true true true true = true ∨ FullEmpty.pending ∈ h.fe.toList
      (open' → exec (.hartSlotReturn slot) s = .next s) ∧
      (¬ open' → ∃ r, exec (.hartSlotReturn slot) s = .next r ∧ r.mem = s.mem ∧
        (∀ q rest, h.races = q :: rest → ∃ h', slotHart r slot = some h' ∧ h'.status = .running ∧ h'.sr.tcause = 0x08 ∧
          h'.sr.tval = q.tval ∧ h'.sr.tpc = h.pc ∧ h'.tr.mmea = q.mmea ∧ h'.tr.mmeh = q.mmeh) ∧
        (h.races = [] → (s.hart.hartid = h.hartid → r.hart = Hart.reset h.hartid) ∧
          (s.hart.hartid ≠ h.hartid → r.hart = s.hart ∧ r.others = s.others.filter (·.hartid ≠ h.hartid)) ∧
          ∀ t, s.tasks[h.taskNo]? = some t → h.copy = 0 →
            TaskNow r h.taskNo fun t' => t'.ended = t.ended ++ [h.tr.lhart.toNat]))) ∧
  (∀ (s : State) (n : Nat) (t : Task), s.tasks[n]? = some t →
    let over' := t.state = .running ∧ t.allEnded = true ∧ (t.desc.attrBit 4 = false ∨ t.killed = true)
    let behind := t.desc.attrBit 6 = true ∧ ∃ k o, k < n ∧ s.tasks[k]? = some o ∧ o.queue = t.queue ∧ o.state ≠ .over
    (t.state ≠ .done → ¬ over' → exec (.taskComplete n) s = .next s) ∧
    (over' → behind → ∃ r, exec (.taskComplete n) s = .next r ∧ r.mem = s.mem ∧ TaskNow r n fun t' => t'.state = .done) ∧
    (t.state = .done ∨ over' → ¬ behind → MemoryCanonical s → ∃ r, exec (.taskComplete n) s = .next r ∧
      TaskNow r n (fun t' => t'.state = .over ∧ t'.wmark = t.desc.s) ∧ r.hart.x = s.hart.x ∧
      ∀ w p, spaceAddr s t.asid (t.recVa + 0x50) 8 true = some w → t.desc.caddr ≠ 0 → t.desc.caddr.toNat % 8 = 0 →
        spaceAddr (performStore w (leBytes 8 t.desc.s.toNat) 0 s) t.asid t.desc.caddr 8 true = some p →
        ∃ m, Stored s.mem w 8 t.desc.s.toNat m ∧ Stored m p 8
          (if t.status = 2 then 2 else if t.killed then 3 else if t.poisoned then 1 else 0) r.mem))

/-- The asynchronous events (R293 to R297).
The model's choices in it: log entries 39, 40, 41, 87, 93. -/
def Obligations.AsynchronousEventsOfAHart : Prop :=
  (∀ (s : State) (k : Option Nat), s.hart.status ≠ .running →
    (∀ i ∈ [.preemption k, .preemptDeadline false, .watchdog], exec i s = .next s) ∧
    ∃ r, exec (.preemptDeadline true) s = .next r ∧ r.hart = s.hart ∧ r.saved = s.saved ∧ r.mem = s.mem ∧
      (s.hart.status = .idle → ∀ v ∈ (s.saved.filter fun v => v.hart.hartid = s.hart.hartid).getLast?, v.cause = .preempt →
        v.hart.sr.pdead.toNat % 2 ^ 32 ≠ 0 → Logged r s.hart.die 0x0C)) ∧
  (∀ (s : State), s.hart.status = .running →
    let h := s.hart
    let held := h.mode = .supervisor ∧ h.sr.ie = false ∨ h.pfx ≠ .none ∧ h.wait = .no
    let inside := h.wait = .stall ∨ h.wait = .retry ∧ h.tr.ves ≠ 0
    let mid := h.resumed ≠ none ∧ (h.wait = .no ∨ inside) ∧ h.overdue = false
    let dozes := (∃ b d n, h.wait = .waitt b d n) ∨ h.wait = .depw
    let due := h.preempt = true ∧ h.sr.pdead.toNat % 2 ^ 32 ≠ 0
    let logged := fun (late : Bool) => let s := if late then logBlack h.die 0x0C (h.hartid.setWidth 16) 0 s else s
      { s with hart := { h with overdue := true } }
    (held → (∀ k, exec (.preemption k) s = .next { s with hart := { h with preempt := true } }) ∧
      (∀ late, due → exec (.preemptDeadline late) s = .next (logged late))) ∧
    (¬ held → ¬ mid → saveReady s h = true → ∃ r, exec (.preemption none) s = .next r ∧
      SavedAway (quiet unprotect s) r .preempt ∧ ∀ k ∈ r.rates, SavesOn r k) ∧
    (¬ held → ¬ mid → saveReady s h = false →
      exec (.preemption none) s = .next { s with hart := { h with preempt := true, stopAt := none } }) ∧
    (¬ held → mid →
      exec (.preemption none) s = .next { s with hart := { h with preempt := true, stopAt := some (h.tr.ves.toNat + 1) } }) ∧
    (∀ k, ¬ (h.wait = .no ∧ h.tr.ves.toNat < k ∧ h.overdue = false) → exec (.preemption (some k)) s = exec (.preemption none) s) ∧
    (∀ k, ¬ held → h.wait = .no → h.tr.ves.toNat < k → h.overdue = false →
      exec (.preemption (some k)) s = .next { s with hart := { h with preempt := true, stopAt := some k } }) ∧
    (∀ late, ¬ held → due → ∃ r, exec (.preemptDeadline late) s = .next r ∧
      (saveReady s h = true → SavedAway (quiet unprotect (logged late)) r .preempt ∧ ∀ k ∈ r.rates, SavesOn r k) ∧
      (saveReady s h = false → r = { logged late with hart := { h with overdue := true, stopAt := none } })) ∧
    (∀ late, ¬ due → exec (.preemptDeadline late) s = .next s) ∧
    (dozes → exec .watchdog s = .next s) ∧
    (¬ dozes → held ∨ h.preempt = true ∨ inside → exec .watchdog s = .next { s with hart := { h with watchdog := true } }) ∧
    (¬ dozes → ¬ held → ¬ inside → h.preempt = false → ∃ r, exec .watchdog s = .next r ∧ r.mem = s.mem ∧
      r.hart = { takeTrap 0x13 0 h.tr.ves h with watchdog := false })) ∧
  (∀ (s : State) (k : Nat), (16 ≤ k → exec (.dataRateChange k) s = .next s) ∧
    (k < 16 → ∃ l, exec (.dataRateChange k) s = .next { s with rates := l } ∧
      (k ∈ l ↔ SavesOn s k) ∧
      ∀ j, j ≠ k → (j ∈ l ↔ j ∈ s.rates)))

/-- Errors as events (R307, R313, R315, R318, R319) and DIE_FENCE.
The model's choices in it: log entries 71, 73, 74, 75, 87, 93. -/
def Obligations.ErrorsRollbackAndFencing : Prop :=
  (∀ (s : State) (pa : Nat) (f : Bool),
    (deviceStorage pa = false → exec (.storageUncorrectable (.memory pa) f) s = .next s) ∧
    (deviceStorage pa = true → let w := pa / 4 * 4
      ∃ r, exec (.storageUncorrectable (.memory pa) f) s = .next r ∧ r.mem = s.mem ∧ r.hart = s.hart ∧
        (f = false → w ∈ r.latent ∧ r.marks = s.marks) ∧
        (f = true → wordMark r w = classAt w ∧ w ∉ r.latent ∧ Logged r (storageDie pa) 0x02))) ∧
  (∀ (s : State) (core : Nat) (va : DWord),
    (256 ≤ core → ∀ u, exec (.storageUncorrectable (.fetched core va) u) s = .next s) ∧
    (core < 256 → (∃ l, exec (.storageUncorrectable (.fetched core va) false) s = .next { s with badFetches := l } ∧
        ∀ q, q ∈ l ↔ q = (core, va) ∨ q ∈ s.badFetches) ∧
      ∃ r, exec (.storageUncorrectable (.fetched core va) true) s = .next r ∧ Logged r (core / 64) 0x03 ∧
        (core, va) ∉ r.badFetches ∧ r.hart = s.hart ∧ r.mem = s.mem)) ∧
  (∀ (s : State) (a b : Nat), ∀ p ∈ [StoragePlace.copyData a b, .pushData a b, .aheadData a b, .weights a b, .rowSum, .filigree a b,
      .packetData a, .commandX a, .microword a b, .loadWords a],
    ∀ f, ∃ r, exec (.storageUncorrectable p f) s = .next r ∧ Logged r s.hart.die 0x02 ∧ r.mem = s.mem ∧ r.hart.x = s.hart.x ∧
      r.hart.v = s.hart.v ∧ (p = .rowSum → s.row.active = true → r.row.mark = s.row.mark ||| 0x40) ∧
      (p = .packetData a → ∀ k ∈ s.packets[a]?, ∃ k' ∈ r.packets[a]?, k'.pa = k.pa ∧ k'.mark = k.mark ||| classAt k.pa) ∧
      (p = .commandX a → ∀ c ∈ s.hmvs[a]?, ∃ c' ∈ r.hmvs[a]?, c'.xMark = c.xMark ||| 0x40) ∧
      (p = .loadWords a → ∀ c ∈ s.hmloads[a]?, ∃ c' ∈ r.hmloads[a]?, c'.mark = c.mark ||| 0x40) ∧
      (p = .microword a b → a < 1024 → b < 512 →
        storeWord r a b = storeWord s a b ∧ storeMark r a b = storeMark s a b ||| 0x40) ∧
      (p = .filigree a b → ∀ f ∈ s.hart.filigree[a]?, ∀ m ∈ f.marks[b]?, ∃ g ∈ r.hart.filigree[a]?,
        g.marks[b]? = some (m ||| 8))) ∧
  (∀ (s : State) (die pa : Nat) (src : BitVec 16), (4 ≤ die → exec (.correctedError die src pa) s = .next s) ∧
    (die < 4 → ∃ r, exec (.correctedError die src pa) s = .next r ∧ Logged r die 0x01 ∧ r.hart = s.hart ∧ r.mem = s.mem)) ∧
  (∀ (s : State) (d : Damage) (agree : Bool), s.hart.status ≠ .running →
    exec (.hartStateUncorrectable d) s = .next s ∧ exec (.planishRecheck agree) s = .next s) ∧
  (∀ (s : State), s.hart.status = .running →
    let h := s.hart
    let strip := h.mode = .task ∧ h.protectedStrip = true
    (∀ d, strip → ∃ r, exec (.hartStateUncorrectable d) s = .next r ∧
      if h.retries = 2 then Killed s r 3 ∧ Logged r h.die 0x02 else Rewound s r) ∧
    (¬ strip → (∀ n : Reg, n ≠ 0 → ∃ r, exec (.hartStateUncorrectable (.xReg n)) s = .next r ∧ r.mem = s.mem ∧
        r.hart.x = h.x ∧ r.hart.xm n.toNat = h.xm n.toNat ||| 8 ∧ (∀ k, k ≠ n.toNat → r.hart.xm k = h.xm k)) ∧
      (∀ n : BitVec 11, ∃ l, exec (.hartStateUncorrectable (.stateReg n)) s = .next
          { logBlack h.die 0x02 (h.hartid.setWidth 16) 0 s with hart := { h with srMark := l } } ∧
        (getKey n.toNat l).getD 0 = (getKey n.toNat h.srMark).getD 0 ||| 8 ∧
        ∀ k, k ≠ n.toNat → getKey k l = getKey k h.srMark) ∧
      ∀ d, ∃ r, exec (.hartStateUncorrectable d) s = .next r ∧ r.mem = s.mem ∧ r.hart.x = h.x ∧ r.hart.v = h.v ∧
        r.hart.pc = h.pc ∧ r.hart.tr = h.tr ∧ r.hart.sr = h.sr ∧ Logged r h.die 0x02) ∧
    (h.planish = [] → ∀ a, exec (.planishRecheck a) s = .next s) ∧
    (∀ e rest, h.planish = e :: rest →
      (∃ r, exec (.planishRecheck true) s = .next r ∧ r.hart.planish = rest ∧ r.hart.x = h.x ∧ r.hart.v = h.v ∧
        r.hart.pc = h.pc ∧ r.mem = s.mem) ∧
      ∃ r, exec (.planishRecheck false) s = .next r ∧ Logged r h.die 0x05 ∧
        if strip then (if h.retries = 2 then Killed s r 3 else Rewound s r) else Killed s r 4 ∧ r.hart.planish = rest)) ∧
  (∀ (s : State) (n : Nat) (t : Task), s.tasks[n]? = some t →
    let mine := s.shadows.filter fun b => b.task = n && b.copy = 0
    let ready := t.state = .running ∧ t.desc.attrBit 4 = true ∧ t.allEnded = true ∧ t.killed = false
    (¬ ready → exec (.touchmarkCompare n) s = .next s) ∧
    (ready → t.touch.1 ≠ t.touch.2 → ∃ r, exec (.touchmarkCompare n) s = .next r ∧ r.mem = s.mem ∧ Logged r t.die 0x06 ∧
      TaskNow r n fun t' => t'.state = .done ∧ t'.killed = true) ∧
    let holds := fun (p : ShadowPage) (a : Nat) => p.base ≤ a ∧ a < p.base + p.size
    (ready → t.touch.1 = t.touch.2 → MemoryCanonical s →
      (∀ p ∈ mine, Memory.wf p.cells = true ∧ ∀ c ∈ p.cells, holds p c.1) →
      (∀ p ∈ mine, ∀ q ∈ mine, ∀ a, holds p a → holds q a → p = q) →
      ∃ r, exec (.touchmarkCompare n) s = .next r ∧ (∀ p ∈ mine, ∀ a, holds p a → memByte r.mem a = memByte p.cells a) ∧
        (∀ a, (∀ p ∈ mine, ¬ holds p a) → memByte r.mem a = memByte s.mem a) ∧
        TaskNow r n fun t' => t'.state = .done ∧ t'.killed = t.killed)) ∧
  (∀ (s : State) (d : Nat), (5 ≤ d ∨ d ∈ s.fencedDies → exec (.dieFence d) s = .next s) ∧
    (d < 5 → d ∉ s.fencedDies → ∃ r, exec (.dieFence d) s = .next r ∧ d ∈ r.fencedDies ∧ (s.pushes = [] → r.mem = s.mem) ∧ r.hart.x = s.hart.x ∧
      (∀ a, (∀ v ∈ s.saved, a < v.hart.areaBase ∨ v.hart.areaBase + 0xC0000 ≤ a) → memByte r.mem a = memByte s.mem a) ∧
      (d = 4 → r.contribs = [] ∧ ∀ k, s.hart.credId = some k → k.here = true → s.hart.cred = none →
        r.hart.cred = some ⟨7, 0, 0, 0, 0⟩) ∧
      (d < 4 → (∀ c, c / 8 = d → c ∈ r.fencedClusters) ∧
        (s.hart.status = .running → s.hart.die = d → r.hart.status = .finished))))

/-- The mailbox (R324 to R326, R329), doorbells (R323), BAR 2 (R322) and fabric peers (R244).
The model's choices in it: log entries 14, 23, 72, 79, 80, 81, 82, 87, 88. -/
def Obligations.MailboxDoorbellsAndPorts : Prop :=
  (∀ (s : State) (q : MailboxReq),
    (s.mailbox.stat = 1 → (∀ i ∈ [.summary q, .attest q, .sload q, .ssave q, .power q],
        exec i s = .next { s with mailbox := { s.mailbox with maddr := q.maddr, mlen := q.mlen, marg := q.marg } }) ∧
      exec (.fwload q.maddr q.mlen) s = .next { s with mailbox := { s.mailbox with maddr := q.maddr, mlen := q.mlen } }) ∧
    (s.mailbox.stat ≠ 1 →
      let a := q.maddr.toNat
      let n := q.mlen.toNat
      let block := 4096 * q.marg.toNat
      let nonce := memBytes s.mem (0x40000000000 + q.marg.toNat) 32
      (∀ c ∈ [((1 : Nat), Instr.summary q, Config.reportLayout 1 (summaryValues s), True),
          (2, .attest q, attestReport nonce s, q.marg.toNat + 32 ≤ 2 ^ 42)],
        let l := c.2.2.1
        let ok := mailboxServed s (BitVec.ofNat 32 c.1) = true ∧ c.2.2.2 ∧ l.length ≤ n ∧ a + l.length ≤ 2 ^ 42
        ∃ r, exec c.2.1 s = .next r ∧ r.hart = s.hart ∧
          (¬ ok → Busy r (BitVec.ofNat 32 c.1) q false ∧ r.mem = s.mem) ∧
          (ok → Busy r (BitVec.ofNat 32 c.1) q true ∧ (MemoryCanonical s → BytesStored s r (0x40000000000 + a) l))) ∧
      (∃ r, exec (.sload q) s = .next r ∧ r.hart.x = s.hart.x ∧ r.hart.pc = s.hart.pc ∧
        let ok := mailboxServed s 3 && storageArgs q
        Busy r 3 q ok ∧ (ok = false → r.mem = s.mem) ∧ (ok = true → MemoryCanonical s → ∀ b, memByte r.mem b =
          if a ≤ b ∧ b < a + n then memByte s.nvme (block + (b - a)) else memByte s.mem b)) ∧
      (∃ r, exec (.ssave q) s = .next r ∧ r.hart.x = s.hart.x ∧ r.hart.pc = s.hart.pc ∧ r.mem = s.mem ∧
        let ok := mailboxServed s 4 && storageArgs q
        Busy r 4 q ok ∧ (ok = false → r.nvme = s.nvme) ∧ (ok = true → Memory.wf s.nvme = true → ∀ b, memByte r.nvme b =
          if block ≤ b ∧ b < block + n then memByte s.mem (a + (b - block)) else memByte s.nvme b)) ∧
      exec (.power q) s = .next (let ok := mailboxServed s 5 && (1200 ≤ q.marg.toNat && q.marg.toNat ≤ 2600)
        { s with powerLimit := (if ok then q.marg.toNat else s.powerLimit), mailbox := ⟨5, 1, q.maddr, q.mlen, q.marg, ok, []⟩ }) ∧
      ∃ r, exec (.fwload q.maddr q.mlen) s = .next r ∧ r.hart = s.hart ∧ r.mem = s.mem ∧
        let good := fun (i : FirmwareImage) => mailboxServed s 6 = true ∧ imageAt s (0x40000000000 + a) n = some i ∧
          a + i.header.length + i.body.length + 96 ≤ 2 ^ 42 ∧ GoodImage s i ∧ flashFits s (freeImageSlot s) i = true
        ((∀ i, ¬ good i) → Busy r 6 ⟨q.maddr, q.mlen, s.mailbox.marg⟩ false ∧ r.flash = s.flash ∧ r.running = s.running ∧ r.hubState = s.hubState) ∧
        ∀ i, good i → Busy r 6 ⟨q.maddr, q.mlen, s.mailbox.marg⟩ true ∧ r.running = some i ∧ r.fwver = BitVec.ofNat 16 (Config.headerVersion i.header) ∧
          (getKey 0 r.flash = some i ∨ getKey 1 r.flash = some i) ∧ (s.hubState = 2 → r.hubState = 0))) ∧
  (∀ s : State, exec .mailboxDone s = .next (if s.mailbox.stat = 1
    then { s with mailbox := { s.mailbox with stat := if s.mailbox.ok then 2 else 3, rel := [] }, port := .message 0,
                  hostClock := joinClock s.hostClock s.mailbox.rel } else s)) ∧
  (∀ (s : State) (v : DWord), (∀ p ∈ [(0x0000, BitVec.ofNat 64 (65536 * s.fwver.toNat + s.hubState.toNat)), (0x0008, s.fid.setWidth 64),
      (0x2000, s.mailbox.cmd.setWidth 64), (0x2004, s.mailbox.stat.setWidth 64), (0x2008, s.mailbox.maddr),
      (0x2010, s.mailbox.mlen.setWidth 64), (0x2018, s.mailbox.marg)],
      exec (.bar2Access (.regRead p.1)) s = .next { s with port := .data (leBytes 8 p.2.toNat) [] }) ∧
    (∀ p ∈ [(0x2008, { s.mailbox with maddr := v }), (0x2010, { s.mailbox with mlen := v.setWidth 32 }),
      (0x2018, { s.mailbox with marg := v })], exec (.bar2Access (.regWrite p.1 v)) s = .next { s with mailbox := p.2 }) ∧
    (let q : MailboxReq := ⟨s.mailbox.maddr, s.mailbox.mlen, s.mailbox.marg⟩
      ∀ p ∈ [(1, Instr.summary q), (2, .attest q), (3, .sload q), (4, .ssave q), (5, .power q), (6, .fwload q.maddr q.mlen)],
        exec (.bar2Access (.regWrite 0x2000 p.1)) s = exec p.2 s) ∧
    ∀ q < 64, exec (.bar2Access (.regRead (0x1000 + 4 * q))) s =
        .next { s with port := .data (leBytes 8 (queueBlock s q).tail.toNat) [] } ∧
      exec (.bar2Access (.regWrite (0x1000 + 4 * q) v)) s = exec (.doorbellWrite q (v.setWidth 32)) s) ∧
  (∀ s cmd, s.hubState = 2 → mailboxServed s cmd = decide (cmd = 1 ∨ cmd = 6)) ∧
  (∀ (s : State) (q : Nat) (t : BitVec 32), (64 ≤ q → exec (.doorbellWrite q t) s = .next s) ∧
    (q < 64 → let b := queueBlock s q
      ∃ r, exec (.doorbellWrite q t) s = .next r ∧ r.hart = s.hart ∧ r.mem = s.mem ∧ queueBlock r q =
        if s.hubState = 1 ∧ b.mode = 1 ∧ (t - b.tail).toNat < 2 ^ 31 ∧ (t - b.head).toNat ≤ b.rsize.toNat
        then { b with tail := t } else b)) ∧
  (∀ (s : State) (pa n : Nat) (data : List Byte),
    let up := ∃ p, p < 8 ∧ LinkId.fabric p ∉ s.fencedLinks
    (∀ i, i = .bar2Access (.read pa n) ∨ i = .fabricPeerRequest (.load pa n) ∧ up →
      (Answers s pa n → ∃ r, exec i s = .next r ∧ r.hart = s.hart ∧ r.mem = s.mem ∧
        r.port = .data (memBytes s.mem pa n) ((wordsOf pa n).map fun w => wordMark r w ≠ 0)) ∧
      (¬ Answers s pa n → ∃ c, exec i s = .next { s with port := .refused c })) ∧
    (∀ i, i = .bar2Access (.write pa data) ∨ i = .fabricPeerRequest (.store pa data) ∧ up →
      (Answers s pa data.length → MemoryCanonical s → ∃ r, exec i s = .next r ∧ r.hart = s.hart ∧ r.port = .done ∧
        BytesStored s r pa data) ∧
      (¬ Answers s pa data.length → ∃ c, exec i s = .next { s with port := .refused c })) ∧
    (pa + data.length ≤ 2 ^ 42 → MemoryCanonical s → ∃ r, exec (.bar2Access (.ownWrite pa data)) s = .next r ∧ r.hart = s.hart ∧
      BytesStored s r (0x40000000000 + pa) data) ∧
    (∀ q, ¬ up → exec (.fabricPeerRequest q) s = .next s) ∧
    (∀ op dbl y z, up → MemoryCanonical s →
      let k := if dbl = true then 8 else 4
      let old := memNat s.mem pa k
      let i := Instr.fabricPeerRequest (.amo pa op dbl y z)
      (Answers s pa k → pa % k = 0 → op.toNat ≤ 12 → ∃ r, exec i s = .next r ∧ r.hart = s.hart ∧
        Stored s.mem pa k (amoNew op.toNat k old (y.toNat % 2 ^ (8 * k)) (z.toNat % 2 ^ (8 * k))).1 r.mem) ∧
      (¬ Answers s pa k ∨ pa % k ≠ 0 ∨ 12 < op.toNat → exec i s = .next { s with port := .refused 2 })))

/-- Boot (R326, R327), power (R329), invalidation (R304) and hub control space (Table 17.4).
The model's choices in it: log entries 83, 84, 85, 86, 87, 105, 106, 114. -/
def Obligations.BootPowerAndInvalidation : Prop :=
  (∀ s : State, (s.hubState ≠ 0 ∨ s.running ≠ none → exec .bootRom s = .next s) ∧
    (s.hubState = 0 → s.running = none →
      let good := fun k i => getKey k s.flash = some i ∧ GoodImage s i
      (∀ i, good 0 i ∨ (∀ j, ¬ good 0 j) ∧ good 1 i →
        exec .bootRom s = .next { s with running := some i, fwver := BitVec.ofNat 16 (Config.headerVersion i.header) }) ∧
      ((∀ i, ¬ good 0 i ∧ ¬ good 1 i) → exec .bootRom s = .next { s with hubState := 2 }))) ∧
  (∀ (s : State) (t : BringupReport),
    let known := (∀ b ∈ t.badBanks, b.1 < 32 ∧ b.2 < 127) ∧ (∀ c ∈ t.badClusters, c < 32) ∧ (∀ d ∈ t.badDies, d < 4) ∧
      (∀ l ∈ t.badLinks, linkExists l = true) ∧ ∀ k ∈ t.badMemories, k < 17
    exec (.firmwareBringup t) s = exec (.firmwareBringup
      { badBanks := t.badBanks.filter fun b => decide (b.1 < 32 ∧ b.2 < 127), badClusters := t.badClusters.filter (· < 32)
        badDies := t.badDies.filter (· < 4), badLinks := t.badLinks.filter fun l => linkExists l
        badMemories := t.badMemories.filter (· < 17) }) s ∧
    (s.hubState ≠ 0 ∨ s.running = none → exec (.firmwareBringup t) s = .next s) ∧
    (known → s.hubState = 0 → s.running ≠ none → ∃ r, exec (.firmwareBringup t) s = .next r ∧ r.hart.x = s.hart.x ∧
      r.hart.pc = s.hart.pc ∧ (MemoryCanonical s → ∀ a, memByte r.mem a = if a < 0x38000000000 then 0 else memByte s.mem a) ∧
      (∀ c, c ∈ r.fencedClusters ↔ c ∈ s.fencedClusters ∨ c ∈ t.badClusters ∨ c / 8 ∈ t.badDies) ∧
      (∀ d, d ∈ r.fencedDies ↔ d ∈ s.fencedDies ∨ d ∈ t.badDies) ∧ (∀ k, k ∈ r.fencedMems ↔ k ∈ s.fencedMems ∨ k ∈ t.badMemories) ∧
      (∀ l ∈ t.badLinks, l ∈ r.fencedLinks) ∧ (∀ k ∈ t.badMemories, k < 16 → LinkId.golrok k ∈ r.fencedLinks) ∧
      (∀ b ∈ t.badBanks, b ∈ r.spares ∨ b ∈ r.retired) ∧
      r.hubState = if ∀ d ∈ List.range 4, d ∈ s.fencedDies ∨ d ∈ t.badDies then 3 else 1)) ∧
  (∀ (s : State) (d : Nat), (5 ≤ d → exec (.thermalShutdown d) s = .next s ∧
      ∀ above, exec (.thermalThrottle ⟨d, above⟩) s = .next s) ∧
    ∀ i r, i = .warmReset ∨ d < 5 ∧ i = .thermalShutdown d → exec i s = .next r →
      r.hart = Hart.reset 0 ∧ r.others = [] ∧ r.saved = [] ∧ r.tasks = [] ∧ r.tlb = [] ∧ r.queues = [] ∧ r.golrok = [] ∧
      r.hubState = 0 ∧ r.running = none ∧ r.flash = s.flash ∧ r.nvme = s.nvme ∧
      (i = .warmReset → r.blackBox = s.blackBox) ∧ (i ≠ .warmReset → r.blackBox = [])) ∧
  (∀ s : State, (∃ r, exec .warmReset s = .next r) ∧ ∀ d, d < 5 → ∃ r, exec (.thermalShutdown d) s = .next r) ∧
  (∀ (s : State) (d : Nat) (hd : d < 4),
    let c := s.clocks[d]
    ∀ above : Bool, let moved := if above then (if 200 ≤ c then c - 100 else c) else min 3600 (c + 100)
    (∃ v, exec (.powerThrottle above) s = .next { s with clocks := v } ∧
      v[d] = if above = false ∧ d ∈ s.hotDies then c else moved) ∧
    (∃ v l, exec (.thermalThrottle ⟨d, above⟩) s = .next { s with clocks := v, hotDies := l } ∧ v[d] = moved ∧
      (d ∈ l ↔ above = true) ∧ ∀ (e : Nat) (he : e < 4), e ≠ d → v[e] = s.clocks[e] ∧ (e ∈ l ↔ e ∈ s.hotDies)) ∧
    ∃ l, exec (.thermalThrottle ⟨4, above⟩) s = .next { s with hotDies := l }) ∧
  (∀ (s : State) (d : Nat) (asid : BitVec 16) (va : DWord),
    (4 ≤ d → ∀ i ∈ [.invalidatePage d asid va, .invalidateAsid d asid, .invalidateAll d, .invalidationDone d],
      exec i s = .next s) ∧
    (d < 4 → (∀ q ∈ [(Instr.invalidatePage d asid va, fun (t : TlbEntry) => (t.g = true ∨ t.asid = asid) ∧
          t.page = va.toNat % 2 ^ 49 / 2 ^ t.size), (.invalidateAsid d asid, fun t => t.asid = asid ∧ t.g = false),
        (.invalidateAll d, fun _ => True)],
        ∃ r, exec q.1 s = .next r ∧ (∀ t, t ∈ r.tlb ↔ t ∈ s.tlb ∧ ¬ q.2 t) ∧ r.hart = s.hart ∧ r.mem = s.mem ∧
          ∃ e, getKey d r.inval = some e ∧ e.1 = false) ∧
      ∀ e, getKey d s.inval = some e → ∃ r, exec (.invalidationDone d) s = .next r ∧ r.hart = s.hart ∧ r.mem = s.mem ∧
        r.tlb = s.tlb ∧ getKey d r.inval = some (e.1 || !invalBusy s, e.2))) ∧
  (∀ s : State, invalBusy s = true ↔ s.copies ≠ [] ∨ s.hmvs ≠ [] ∨ s.packets ≠ [] ∨ (∃ c ∈ s.convs, c.live = true) ∨
    ∃ h ∈ s.hart :: s.others, h.status ≠ .idle ∧ (h.buf ≠ [] ∨ h.held ≠ [])) ∧
  (∀ (s t : State) (off off' : Nat) (v v' : DWord) (l : List (Nat × DWord)), exec (.hubRegisterWrite off (.write v [])) s = .next t →
    exec (.hubRegisterWrite off (.write v ((off', v') :: l))) s = exec (.hubRegisterWrite off' (.write v' l)) t) ∧
  (∀ (s : State) (q : Nat), (q < 64 → let b := queueBlock s q
      ∀ w ∈ [(0x00, b.rbase), (0x08, b.ovbase), (0x10, b.ovcap ++ b.rsize), (0x18, b.tail ++ b.head),
          (0x20, b.asid ++ (0 : BitVec 5) ++ b.ceil ++ (0 : BitVec 6) ++ b.mode ++ b.ovcnt), (0x28, b.ovhead.setWidth 64)],
        Reads s (64 * q + w.1) w.2) ∧
    (q < 32 → Reads s (0x1000 + 8 * q) (((getKey q s.windows).map fun f => BitVec.ofNat 64 (2 ^ 63 + f.toNat)).getD 0)) ∧
    (q < 4 → let e := (getKey q s.inval).getD (false, 0, 0, 0)
      Reads s (0x2000 + 64 * q) (BitVec.ofNat 64 ((if e.1 = true then 2 ^ 63 else 0) + 65536 * e.2.1.toNat + e.2.2.1.toNat)) ∧
      Reads s (0x2008 + 64 * q) e.2.2.2) ∧
    Reads s 0x3000 s.watchLimit ∧
    (q < 256 → let c := collSlot s q
      Reads s (0x4000 + 4 * q) (BitVec.ofNat 64 ((if c.allotted = true then 2 ^ 31 else 0) + c.asid.toNat))) ∧
    (∀ k < 16, q < 256 → Reads s (0x10000 + 0x1000 * k + 16 * q) ((golrokEntry s k q).setWidth 64) ∧
      Reads s (0x10008 + 0x1000 * k + 16 * q) ((golrokEntry s k q >>> 64).setWidth 64)) ∧
    (∀ d < 4, q < 4096 → ∀ b ∈ (s.blackBox.filter (·.die = d))[q]?,
      ∀ w ∈ [(0x00, b.time), (0x08, BitVec.ofNat 64 (65536 * b.code.toNat + b.src.toNat)), (0x10, b.data.setWidth 64),
        (0x18, (b.data >>> 64).setWidth 64)], Reads s (0x20000 + 0x20000 * d + 32 * q + w.1) w.2) ∧
    (q < 65536 → let b := spaceBlock s (BitVec.ofNat 16 q)
      ∀ w ∈ [(0x00, b.tvec), (0x08, b.ptb), (0x10, b.tsaveb),
        (0x18, BitVec.ofNat 64 ((if b.valid = true then 2 ^ 63 else 0) + 2 ^ 32 * b.vcap.toNat + b.pdead.toNat))],
        Reads s (0x1000000 + 64 * q + w.1) w.2)) ∧
  (∀ (s : State) (v : DWord) (q : Nat),
    let put := fun (off : Nat) => Instr.hubRegisterWrite off (.write v [])
    let lo := v.setWidth 32
    let hi := (v >>> 32).setWidth 32
    (q < 64 → let b := queueBlock s q
      ∀ w ∈ [(0x00, { b with rbase := v }), (0x08, { b with ovbase := v }), (0x10, { b with rsize := lo, ovcap := hi }),
        (0x18, { b with head := lo, tail := hi }), (0x20,
          { b with ovcnt := lo, asid := (v >>> 48).setWidth 16, ceil := (v >>> 40).setWidth 3, mode := (v >>> 32).setWidth 2 }), (0x28, { b with ovhead := lo })],
        ∃ r, exec (put (64 * q + w.1)) s = .next { s with queues := r } ∧
          queueBlock { s with queues := r } q = w.2) ∧
    (q < 32 → ∃ r, exec (put (0x1000 + 8 * q)) s = .next { s with windows := r } ∧
      getKey q r = if v.getLsbD 63 = true then some (v.setWidth 16) else none) ∧
    (q < 4 → let e := (getKey q s.inval).getD (false, 0, 0, 0)
      exec (put (0x2008 + 64 * q)) s = .next { s with inval := putKey q (e.1, e.2.1, e.2.2.1, v) s.inval } ∧
      ∀ k ∈ [((0 : BitVec 2), Instr.invalidatePage q (v.setWidth 16) e.2.2.2), (1, .invalidateAsid q (v.setWidth 16)),
        (2, .invalidateAll q)], (v >>> 16).setWidth 2 = k.1 → exec (put (0x2000 + 64 * q)) s = exec k.2 s) ∧
    (∀ k < 16, q < 256 → ∀ half < 2, exec (put (0x10000 + 0x1000 * k + 16 * q + 8 * half)) s =
      exec (.golrokTableWrite k q (if half = 0 then (golrokEntry s k q >>> 64).setWidth 64 ++ v
        else v ++ (golrokEntry s k q).setWidth 64)) s) ∧
    exec (put 0x3000) s = .next { s with watchLimit := v } ∧
    (q < 256 → ∃ r, exec (put (0x4000 + 4 * q)) s = .next r ∧
      (collSlot r q).allotted = v.getLsbD 31 ∧ (collSlot r q).asid = v.setWidth 16 ∧ (collSlot r q).phase = .free) ∧
    (q < 65536 → let b := spaceBlock s (BitVec.ofNat 16 q)
      ∀ w ∈ [(0x00, { b with tvec := v }), (0x08, { b with ptb := v }), (0x10, { b with tsaveb := v }),
        (0x18, { b with pdead := lo, valid := v.getLsbD 63, vcap := hi.setWidth 2 })],
        ∃ r, exec (put (0x1000000 + 64 * q + w.1)) s = .next r ∧ spaceBlock r (BitVec.ofNat 16 q) = w.2 ∧
          r.hart = s.hart ∧ r.mem = s.mem))

/-- State.reset (R326, R227) meets the invariant.
The model's choices in it: log entry 1. -/
def Obligations.ResetMeetsTheInvariant : Prop :=
  Invariant State.reset ∧ State.reset.hart.status = .idle ∧ State.reset.others = [] ∧ State.reset.hubState = 0 ∧
  State.reset.golrok = [] ∧ State.reset.tasks = [] ∧ State.reset.copies = [] ∧ State.reset.packets = [] ∧
  State.reset.mem = []

/-- R46 and R68 hold throughout, and memory keeps its canonical form.
The model's choices in it: log entry 4. -/
def Obligations.EveryStepKeepsTheInvariant : Prop := ∀ (s t : State), Invariant s → step s = .next t → Invariant t

/-- Decode after encode (Tables 3.1 to 3.9 and 10.4). -/
def Obligations.DecodeEncodeRoundTrip : Prop :=
  ∀ (i : Instr) (w : Word), i.WellFormed → encode i = some w → decodeWord w = .ok i ∨
    ((i = .endRow ∨ i = .dot ∨ i = .relu ∨ (∃ e, i = .scale e) ∨ (∃ c, i = .addc c) ∨ ∃ f, i = .emit f) ∧ decodeMicro w = .ok i)

/-- Words of Tables 2.9 and 3.10 and of the spec's examples.
The model's choices in it: log entries 10, 27. -/
def Obligations.SpecWordsDecode : Prop :=
  (∀ p ∈ specWords, decodeWord p.1 = .ok p.2) ∧
  decodeWord 0x00000000 = .error .majorZero ∧ decodeWord 0x00000046 = .error .freeMajor ∧
  decodeWord 0xF0404181 = .error .unlistedCode

/-- The step (R68, R78, R83).
The model's choices in it: log entries 4, 6, 9. -/
def Obligations.StepRunsTheDecodedUnit : Prop :=
  (∀ (s : State), AboutToIssue s →
    let plain := fun (t : State) => { t with hart := { t.hart with pfx := Pfx.none } }
    (∀ va, fetchUnit s = .error va → step s = exec (.fetchFault va) (issue 0 (plain s))) ∧
    ∀ w0 w1 t, fetchUnit s = .ok (w0, w1, t) →
      (∀ r w, decodeUnit w0 w1 = .error (r, w) → step s = exec (.illegalInstruction w) (issue w (plain t))) ∧
      (∀ i, decodeUnit w0 w1 = .ok (none, i) → step s = exec i (issue w0 (plain t))) ∧
      (∀ p i, decodeUnit w0 w1 = .ok (some p, i) →
        step s = if t.hart.pfx = .none then exec p (issue w0 t) else exec i (issue w1 t))) ∧
  (∀ (s t : State) (w : Word), fetchWord s s.hart.pc = some (w, t) → isPrefixWord w = false → fetchUnit s = .ok (w, 0, t)) ∧
  (∀ (s t u : State) (w x : Word), fetchWord s s.hart.pc = some (w, t) → isPrefixWord w = true →
    fetchWord t (t.hart.pc + 4) = some (x, u) → fetchUnit s = .ok (w, x, u)) ∧
  (∀ (s : State), s.agenda = [] → s.row.active = false → s.hart.status = .running → s.hart.preempt = false →
    s.hart.watchdog = false → ∀ b c d a op n, ∀ x y z m l k : BitVec 1, ∀ q ∈ [(Wait.barwait c b, Instr.barwaitReturn), (.cbres c b d, .cbWaitSatisfied),
      (.cbacq c b d, .cbWaitSatisfied), (.cred op c b d, .credAnswer none), (.twait b a, .twaitReturn),
      (.depw, .depwWaitSatisfied), (.waitt b d n, .waittReturn), (.register n, .registerFullWake),
      (.drain x y z m l k, .drainReturn), (.capp k b c, .cappWaitSatisfied)],
      s.hart.wait = q.1 → step s = exec q.2 s) ∧
  (∀ (s : State), s.agenda = [] → s.row.active = false → s.hart.status ≠ .running → step s = .next s) ∧
  (∀ (s : State) (i : Instr) (rest : List Act), s.agenda = .event i :: rest → isEvent i = true →
    step s = exec i { s with agenda := rest }) ∧
  (∀ (s : State) (i : Instr), s.agenda = [] → s.row.active = true →
    decodeMicro (storeWord s s.row.chan s.row.idx) = .ok i → step s = exec i s)
end

