-- ==== Sys2Proof/Laws/Effects.lean ====
section
/-!
SUPPORT. How the effects of a unit compose: what each step of a meaning answers, and what `runUnit` makes of its end.
-/

namespace Sys2Proof.Laws

open Sys2Proof.Machine

/-- A sequence runs its first part, then the rest on the state that leaves. -/
@[simp] theorem bind_run {α β : Type} (m : M α) (f : α → M β) (s : State) :
    (m >>= f) s = match m s with
      | .ok a t => f a t
      | .error e t => .error e t := by
  show EStateM.bind m f s = _
  unfold EStateM.bind
  cases m s <;> rfl

@[simp] theorem map_run {α β : Type} (f : α → β) (m : M α) (s : State) :
    (f <$> m) s = match m s with
      | .ok a t => .ok (f a) t
      | .error e t => .error e t := by
  show EStateM.map f m s = _
  unfold EStateM.map
  cases m s <;> rfl

@[simp] theorem pure_run {α : Type} (a : α) (s : State) : (pure a : M α) s = .ok a s := rfl

@[simp] theorem throw_run {α : Type} (e : Stop) (s : State) : (throw e : M α) s = .error e s := rfl

@[simp] theorem raise_run {α : Type} (c : BitVec 8) (v : DWord) (n : Option Nat) (s : State) :
    (raise c v n : M α) s = .error (.trap c v n) s := rfl

@[simp] theorem waitFor_run {α : Type} (w : Wait) (n : Option Nat) (s : State) :
    (waitFor w n : M α) s = .error (.wait w n) s := rfl

@[simp] theorem getH_run (s : State) : getH s = .ok s.hart s := rfl

@[simp] theorem modH_run (f : Hart → Hart) (s : State) : modH f s = .ok () { s with hart := f s.hart } := rfl

@[simp] theorem modT_run (f : TaskRegs → TaskRegs) (s : State) :
    modT f s = .ok () { s with hart := { s.hart with tr := f s.hart.tr } } := rfl

@[simp] theorem modS_run (f : SupRegs → SupRegs) (s : State) :
    modS f s = .ok () { s with hart := { s.hart with sr := f s.hart.sr } } := rfl

@[simp] theorem getS_run {α : Type} (f : State → α) (s : State) : getS f s = .ok (f s) s := rfl

@[simp] theorem modM_run (f : State → State) (s : State) : modM f s = .ok () (f s) := rfl

@[simp] theorem set_run (t s : State) : (set t : M PUnit) s = .ok ⟨⟩ t := rfl

@[simp] theorem fresh_run (s : State) : fresh s = .ok s.free { s with free := s.free + 1 } := rfl

@[simp] theorem forEach_nil {α : Type} (f : α → M Unit) (s : State) : forEach [] f s = .ok () s := rfl

@[simp] theorem forEach_cons {α : Type} (a : α) (l : List α) (f : α → M Unit) :
    forEach (a :: l) f = (do f a; forEach l f) := rfl

@[simp] theorem foldL_nil {α β : Type} (f : β → α → M β) (b : β) (s : State) : foldL f b [] s = .ok b s := rfl

@[simp] theorem foldL_cons {α β : Type} (a : α) (l : List α) (f : β → α → M β) (b : β) :
    foldL f b (a :: l) = (do let c ← f b a; foldL f c l) := rfl

/-- A unit always answers a next state: a trap, a wait and a completion are next states. -/
theorem runUnit_next (m : M Flow) (s : State) : ∃ t, runUnit m s = .next t := by
  unfold runUnit
  cases m s <;> exact ⟨_, rfl⟩

/-- What a completed effect leaves. -/
theorem runUnit_ok {m : M Flow} {s t : State} {f : Flow} (h : m s = .ok f t) :
    runUnit m s = .next { t with hart := flowHart f t.hart } := by
  simp only [runUnit, h]

/-- What a stopped effect leaves. -/
theorem runUnit_error {m : M Flow} {s t : State} {e : Stop} (h : m s = .error e t) :
    runUnit m s = .next { t with hart := stopHart e t.hart } := by
  simp only [runUnit, h]

end Sys2Proof.Laws
end

