-- ==== Sys2Proof/Laws/State.lean ====
section
/-!
SUPPORT. What each named update of the state and of a hart leaves in each field, so that no proof unfolds a record update.
-/

namespace Sys2Proof.Laws

open Sys2Proof.Machine

/-! ### A performed store -/

section
variable (a : Nat) (d : List Byte) (k : Mark) (s : State)

@[simp] theorem performStore_mem : (performStore a d k s).mem = setBytes s.mem a d := rfl
@[simp] theorem performStore_marks : (performStore a d k s).marks = markStore k a d.length s.marks := rfl
@[simp] theorem performStore_hart : (performStore a d k s).hart = s.hart := rfl
@[simp] theorem performStore_others : (performStore a d k s).others = s.others := rfl
@[simp] theorem performStore_saved : (performStore a d k s).saved = s.saved := rfl
@[simp] theorem performStore_tlb : (performStore a d k s).tlb = s.tlb := rfl
@[simp] theorem performStore_tasks : (performStore a d k s).tasks = s.tasks := rfl
@[simp] theorem performStore_queues : (performStore a d k s).queues = s.queues := rfl
@[simp] theorem performStore_spaces : (performStore a d k s).spaces = s.spaces := rfl
@[simp] theorem performStore_rotation : (performStore a d k s).rotation = s.rotation := rfl
@[simp] theorem performStore_copies : (performStore a d k s).copies = s.copies := rfl
@[simp] theorem performStore_pushes : (performStore a d k s).pushes = s.pushes := rfl
@[simp] theorem performStore_packets : (performStore a d k s).packets = s.packets := rfl
@[simp] theorem performStore_hmvs : (performStore a d k s).hmvs = s.hmvs := rfl
@[simp] theorem performStore_hmloads : (performStore a d k s).hmloads = s.hmloads := rfl
@[simp] theorem performStore_stores : (performStore a d k s).stores = s.stores := rfl
@[simp] theorem performStore_row : (performStore a d k s).row = s.row := rfl
@[simp] theorem performStore_cbWait : (performStore a d k s).cbWait = s.cbWait := rfl
@[simp] theorem performStore_convs : (performStore a d k s).convs = s.convs := rfl
@[simp] theorem performStore_bound : (performStore a d k s).bound = s.bound := rfl
@[simp] theorem performStore_slots : (performStore a d k s).slots = s.slots := rfl
@[simp] theorem performStore_contribs : (performStore a d k s).contribs = s.contribs := rfl
@[simp] theorem performStore_collOut : (performStore a d k s).collOut = s.collOut := rfl
@[simp] theorem performStore_accesses : (performStore a d k s).accesses = s.accesses := rfl
@[simp] theorem performStore_releases : (performStore a d k s).releases = s.releases := rfl
@[simp] theorem performStore_objRels : (performStore a d k s).objRels = s.objRels := rfl
@[simp] theorem performStore_shadows : (performStore a d k s).shadows = s.shadows := rfl
@[simp] theorem performStore_blackBox : (performStore a d k s).blackBox = s.blackBox := rfl
@[simp] theorem performStore_golrok : (performStore a d k s).golrok = s.golrok := rfl
@[simp] theorem performStore_windows : (performStore a d k s).windows = s.windows := rfl
@[simp] theorem performStore_fencedLinks : (performStore a d k s).fencedLinks = s.fencedLinks := rfl
@[simp] theorem performStore_replays : (performStore a d k s).replays = s.replays := rfl
@[simp] theorem performStore_fencedClusters : (performStore a d k s).fencedClusters = s.fencedClusters := rfl
@[simp] theorem performStore_fencedDies : (performStore a d k s).fencedDies = s.fencedDies := rfl
@[simp] theorem performStore_fencedMems : (performStore a d k s).fencedMems = s.fencedMems := rfl
@[simp] theorem performStore_badFetches : (performStore a d k s).badFetches = s.badFetches := rfl
@[simp] theorem performStore_spares : (performStore a d k s).spares = s.spares := rfl
@[simp] theorem performStore_retired : (performStore a d k s).retired = s.retired := rfl
@[simp] theorem performStore_inval : (performStore a d k s).inval = s.inval := rfl
@[simp] theorem performStore_clocks : (performStore a d k s).clocks = s.clocks := rfl
@[simp] theorem performStore_hotDies : (performStore a d k s).hotDies = s.hotDies := rfl
@[simp] theorem performStore_powerLimit : (performStore a d k s).powerLimit = s.powerLimit := rfl
@[simp] theorem performStore_watchLimit : (performStore a d k s).watchLimit = s.watchLimit := rfl
@[simp] theorem performStore_hubState : (performStore a d k s).hubState = s.hubState := rfl
@[simp] theorem performStore_fwver : (performStore a d k s).fwver = s.fwver := rfl
@[simp] theorem performStore_fid : (performStore a d k s).fid = s.fid := rfl
@[simp] theorem performStore_mailbox : (performStore a d k s).mailbox = s.mailbox := rfl
@[simp] theorem performStore_flash : (performStore a d k s).flash = s.flash := rfl
@[simp] theorem performStore_running : (performStore a d k s).running = s.running := rfl
@[simp] theorem performStore_minVersion : (performStore a d k s).minVersion = s.minVersion := rfl
@[simp] theorem performStore_nvme : (performStore a d k s).nvme = s.nvme := rfl
@[simp] theorem performStore_nvmeMarks : (performStore a d k s).nvmeMarks = s.nvmeMarks := rfl
@[simp] theorem performStore_hostClock : (performStore a d k s).hostClock = s.hostClock := rfl
@[simp] theorem performStore_port : (performStore a d k s).port = s.port := rfl
@[simp] theorem performStore_rates : (performStore a d k s).rates = s.rates := rfl
@[simp] theorem performStore_free : (performStore a d k s).free = s.free := rfl
@[simp] theorem performStore_agenda : (performStore a d k s).agenda = s.agenda := rfl

end

/-! ### A task changed -/

section
variable (n : Nat) (f : Task → Task) (s : State)

@[simp] theorem modTask_tasks : (modTask n f s).tasks = s.tasks.modify n f := rfl
@[simp] theorem modTask_hart : (modTask n f s).hart = s.hart := rfl
@[simp] theorem modTask_others : (modTask n f s).others = s.others := rfl
@[simp] theorem modTask_saved : (modTask n f s).saved = s.saved := rfl
@[simp] theorem modTask_mem : (modTask n f s).mem = s.mem := rfl
@[simp] theorem modTask_marks : (modTask n f s).marks = s.marks := rfl
@[simp] theorem modTask_latent : (modTask n f s).latent = s.latent := rfl
@[simp] theorem modTask_tlb : (modTask n f s).tlb = s.tlb := rfl
@[simp] theorem modTask_queues : (modTask n f s).queues = s.queues := rfl
@[simp] theorem modTask_spaces : (modTask n f s).spaces = s.spaces := rfl
@[simp] theorem modTask_rotation : (modTask n f s).rotation = s.rotation := rfl
@[simp] theorem modTask_copies : (modTask n f s).copies = s.copies := rfl
@[simp] theorem modTask_pushes : (modTask n f s).pushes = s.pushes := rfl
@[simp] theorem modTask_packets : (modTask n f s).packets = s.packets := rfl
@[simp] theorem modTask_hmvs : (modTask n f s).hmvs = s.hmvs := rfl
@[simp] theorem modTask_hmloads : (modTask n f s).hmloads = s.hmloads := rfl
@[simp] theorem modTask_stores : (modTask n f s).stores = s.stores := rfl
@[simp] theorem modTask_row : (modTask n f s).row = s.row := rfl
@[simp] theorem modTask_cbWait : (modTask n f s).cbWait = s.cbWait := rfl
@[simp] theorem modTask_convs : (modTask n f s).convs = s.convs := rfl
@[simp] theorem modTask_bound : (modTask n f s).bound = s.bound := rfl
@[simp] theorem modTask_slots : (modTask n f s).slots = s.slots := rfl
@[simp] theorem modTask_contribs : (modTask n f s).contribs = s.contribs := rfl
@[simp] theorem modTask_collOut : (modTask n f s).collOut = s.collOut := rfl
@[simp] theorem modTask_accesses : (modTask n f s).accesses = s.accesses := rfl
@[simp] theorem modTask_releases : (modTask n f s).releases = s.releases := rfl
@[simp] theorem modTask_objRels : (modTask n f s).objRels = s.objRels := rfl
@[simp] theorem modTask_shadows : (modTask n f s).shadows = s.shadows := rfl
@[simp] theorem modTask_blackBox : (modTask n f s).blackBox = s.blackBox := rfl
@[simp] theorem modTask_golrok : (modTask n f s).golrok = s.golrok := rfl
@[simp] theorem modTask_windows : (modTask n f s).windows = s.windows := rfl
@[simp] theorem modTask_fencedLinks : (modTask n f s).fencedLinks = s.fencedLinks := rfl
@[simp] theorem modTask_replays : (modTask n f s).replays = s.replays := rfl
@[simp] theorem modTask_fencedClusters : (modTask n f s).fencedClusters = s.fencedClusters := rfl
@[simp] theorem modTask_fencedDies : (modTask n f s).fencedDies = s.fencedDies := rfl
@[simp] theorem modTask_fencedMems : (modTask n f s).fencedMems = s.fencedMems := rfl
@[simp] theorem modTask_badFetches : (modTask n f s).badFetches = s.badFetches := rfl
@[simp] theorem modTask_spares : (modTask n f s).spares = s.spares := rfl
@[simp] theorem modTask_retired : (modTask n f s).retired = s.retired := rfl
@[simp] theorem modTask_inval : (modTask n f s).inval = s.inval := rfl
@[simp] theorem modTask_clocks : (modTask n f s).clocks = s.clocks := rfl
@[simp] theorem modTask_hotDies : (modTask n f s).hotDies = s.hotDies := rfl
@[simp] theorem modTask_powerLimit : (modTask n f s).powerLimit = s.powerLimit := rfl
@[simp] theorem modTask_watchLimit : (modTask n f s).watchLimit = s.watchLimit := rfl
@[simp] theorem modTask_hubState : (modTask n f s).hubState = s.hubState := rfl
@[simp] theorem modTask_fwver : (modTask n f s).fwver = s.fwver := rfl
@[simp] theorem modTask_fid : (modTask n f s).fid = s.fid := rfl
@[simp] theorem modTask_mailbox : (modTask n f s).mailbox = s.mailbox := rfl
@[simp] theorem modTask_flash : (modTask n f s).flash = s.flash := rfl
@[simp] theorem modTask_running : (modTask n f s).running = s.running := rfl
@[simp] theorem modTask_minVersion : (modTask n f s).minVersion = s.minVersion := rfl
@[simp] theorem modTask_nvme : (modTask n f s).nvme = s.nvme := rfl
@[simp] theorem modTask_nvmeMarks : (modTask n f s).nvmeMarks = s.nvmeMarks := rfl
@[simp] theorem modTask_hostClock : (modTask n f s).hostClock = s.hostClock := rfl
@[simp] theorem modTask_port : (modTask n f s).port = s.port := rfl
@[simp] theorem modTask_rates : (modTask n f s).rates = s.rates := rfl
@[simp] theorem modTask_free : (modTask n f s).free = s.free := rfl
@[simp] theorem modTask_agenda : (modTask n f s).agenda = s.agenda := rfl

end

/-! ### The releases of some bytes replaced -/

section
variable (a n : Nat) (l : List Release) (s : State)

@[simp] theorem setRels_hart : (setRels a n l s).hart = s.hart := rfl
@[simp] theorem setRels_others : (setRels a n l s).others = s.others := rfl
@[simp] theorem setRels_saved : (setRels a n l s).saved = s.saved := rfl
@[simp] theorem setRels_mem : (setRels a n l s).mem = s.mem := rfl
@[simp] theorem setRels_marks : (setRels a n l s).marks = s.marks := rfl
@[simp] theorem setRels_latent : (setRels a n l s).latent = s.latent := rfl
@[simp] theorem setRels_tlb : (setRels a n l s).tlb = s.tlb := rfl
@[simp] theorem setRels_tasks : (setRels a n l s).tasks = s.tasks := rfl
@[simp] theorem setRels_queues : (setRels a n l s).queues = s.queues := rfl
@[simp] theorem setRels_spaces : (setRels a n l s).spaces = s.spaces := rfl
@[simp] theorem setRels_rotation : (setRels a n l s).rotation = s.rotation := rfl
@[simp] theorem setRels_copies : (setRels a n l s).copies = s.copies := rfl
@[simp] theorem setRels_pushes : (setRels a n l s).pushes = s.pushes := rfl
@[simp] theorem setRels_packets : (setRels a n l s).packets = s.packets := rfl
@[simp] theorem setRels_hmvs : (setRels a n l s).hmvs = s.hmvs := rfl
@[simp] theorem setRels_hmloads : (setRels a n l s).hmloads = s.hmloads := rfl
@[simp] theorem setRels_stores : (setRels a n l s).stores = s.stores := rfl
@[simp] theorem setRels_row : (setRels a n l s).row = s.row := rfl
@[simp] theorem setRels_cbWait : (setRels a n l s).cbWait = s.cbWait := rfl
@[simp] theorem setRels_convs : (setRels a n l s).convs = s.convs := rfl
@[simp] theorem setRels_bound : (setRels a n l s).bound = s.bound := rfl
@[simp] theorem setRels_slots : (setRels a n l s).slots = s.slots := rfl
@[simp] theorem setRels_contribs : (setRels a n l s).contribs = s.contribs := rfl
@[simp] theorem setRels_collOut : (setRels a n l s).collOut = s.collOut := rfl
@[simp] theorem setRels_accesses : (setRels a n l s).accesses = s.accesses := rfl
@[simp] theorem setRels_objRels : (setRels a n l s).objRels = s.objRels := rfl
@[simp] theorem setRels_shadows : (setRels a n l s).shadows = s.shadows := rfl
@[simp] theorem setRels_blackBox : (setRels a n l s).blackBox = s.blackBox := rfl
@[simp] theorem setRels_golrok : (setRels a n l s).golrok = s.golrok := rfl
@[simp] theorem setRels_windows : (setRels a n l s).windows = s.windows := rfl
@[simp] theorem setRels_fencedLinks : (setRels a n l s).fencedLinks = s.fencedLinks := rfl
@[simp] theorem setRels_replays : (setRels a n l s).replays = s.replays := rfl
@[simp] theorem setRels_fencedClusters : (setRels a n l s).fencedClusters = s.fencedClusters := rfl
@[simp] theorem setRels_fencedDies : (setRels a n l s).fencedDies = s.fencedDies := rfl
@[simp] theorem setRels_fencedMems : (setRels a n l s).fencedMems = s.fencedMems := rfl
@[simp] theorem setRels_badFetches : (setRels a n l s).badFetches = s.badFetches := rfl
@[simp] theorem setRels_spares : (setRels a n l s).spares = s.spares := rfl
@[simp] theorem setRels_retired : (setRels a n l s).retired = s.retired := rfl
@[simp] theorem setRels_inval : (setRels a n l s).inval = s.inval := rfl
@[simp] theorem setRels_clocks : (setRels a n l s).clocks = s.clocks := rfl
@[simp] theorem setRels_hotDies : (setRels a n l s).hotDies = s.hotDies := rfl
@[simp] theorem setRels_powerLimit : (setRels a n l s).powerLimit = s.powerLimit := rfl
@[simp] theorem setRels_watchLimit : (setRels a n l s).watchLimit = s.watchLimit := rfl
@[simp] theorem setRels_hubState : (setRels a n l s).hubState = s.hubState := rfl
@[simp] theorem setRels_fwver : (setRels a n l s).fwver = s.fwver := rfl
@[simp] theorem setRels_fid : (setRels a n l s).fid = s.fid := rfl
@[simp] theorem setRels_mailbox : (setRels a n l s).mailbox = s.mailbox := rfl
@[simp] theorem setRels_flash : (setRels a n l s).flash = s.flash := rfl
@[simp] theorem setRels_running : (setRels a n l s).running = s.running := rfl
@[simp] theorem setRels_minVersion : (setRels a n l s).minVersion = s.minVersion := rfl
@[simp] theorem setRels_nvme : (setRels a n l s).nvme = s.nvme := rfl
@[simp] theorem setRels_nvmeMarks : (setRels a n l s).nvmeMarks = s.nvmeMarks := rfl
@[simp] theorem setRels_hostClock : (setRels a n l s).hostClock = s.hostClock := rfl
@[simp] theorem setRels_port : (setRels a n l s).port = s.port := rfl
@[simp] theorem setRels_rates : (setRels a n l s).rates = s.rates := rfl
@[simp] theorem setRels_free : (setRels a n l s).free = s.free := rfl
@[simp] theorem setRels_agenda : (setRels a n l s).agenda = s.agenda := rfl

end

/-! ### An access recorded -/

section
variable (w : WordAccess) (s : State)

@[simp] theorem recordAccess_hart : (recordAccess w s).hart = s.hart := rfl
@[simp] theorem recordAccess_others : (recordAccess w s).others = s.others := rfl
@[simp] theorem recordAccess_saved : (recordAccess w s).saved = s.saved := rfl
@[simp] theorem recordAccess_mem : (recordAccess w s).mem = s.mem := rfl
@[simp] theorem recordAccess_marks : (recordAccess w s).marks = s.marks := rfl
@[simp] theorem recordAccess_latent : (recordAccess w s).latent = s.latent := rfl
@[simp] theorem recordAccess_tlb : (recordAccess w s).tlb = s.tlb := rfl
@[simp] theorem recordAccess_tasks : (recordAccess w s).tasks = s.tasks := rfl
@[simp] theorem recordAccess_queues : (recordAccess w s).queues = s.queues := rfl
@[simp] theorem recordAccess_spaces : (recordAccess w s).spaces = s.spaces := rfl
@[simp] theorem recordAccess_rotation : (recordAccess w s).rotation = s.rotation := rfl
@[simp] theorem recordAccess_copies : (recordAccess w s).copies = s.copies := rfl
@[simp] theorem recordAccess_pushes : (recordAccess w s).pushes = s.pushes := rfl
@[simp] theorem recordAccess_packets : (recordAccess w s).packets = s.packets := rfl
@[simp] theorem recordAccess_hmvs : (recordAccess w s).hmvs = s.hmvs := rfl
@[simp] theorem recordAccess_hmloads : (recordAccess w s).hmloads = s.hmloads := rfl
@[simp] theorem recordAccess_stores : (recordAccess w s).stores = s.stores := rfl
@[simp] theorem recordAccess_row : (recordAccess w s).row = s.row := rfl
@[simp] theorem recordAccess_cbWait : (recordAccess w s).cbWait = s.cbWait := rfl
@[simp] theorem recordAccess_convs : (recordAccess w s).convs = s.convs := rfl
@[simp] theorem recordAccess_bound : (recordAccess w s).bound = s.bound := rfl
@[simp] theorem recordAccess_slots : (recordAccess w s).slots = s.slots := rfl
@[simp] theorem recordAccess_contribs : (recordAccess w s).contribs = s.contribs := rfl
@[simp] theorem recordAccess_collOut : (recordAccess w s).collOut = s.collOut := rfl
@[simp] theorem recordAccess_releases : (recordAccess w s).releases = s.releases := rfl
@[simp] theorem recordAccess_objRels : (recordAccess w s).objRels = s.objRels := rfl
@[simp] theorem recordAccess_shadows : (recordAccess w s).shadows = s.shadows := rfl
@[simp] theorem recordAccess_blackBox : (recordAccess w s).blackBox = s.blackBox := rfl
@[simp] theorem recordAccess_golrok : (recordAccess w s).golrok = s.golrok := rfl
@[simp] theorem recordAccess_windows : (recordAccess w s).windows = s.windows := rfl
@[simp] theorem recordAccess_fencedLinks : (recordAccess w s).fencedLinks = s.fencedLinks := rfl
@[simp] theorem recordAccess_replays : (recordAccess w s).replays = s.replays := rfl
@[simp] theorem recordAccess_fencedClusters : (recordAccess w s).fencedClusters = s.fencedClusters := rfl
@[simp] theorem recordAccess_fencedDies : (recordAccess w s).fencedDies = s.fencedDies := rfl
@[simp] theorem recordAccess_fencedMems : (recordAccess w s).fencedMems = s.fencedMems := rfl
@[simp] theorem recordAccess_badFetches : (recordAccess w s).badFetches = s.badFetches := rfl
@[simp] theorem recordAccess_spares : (recordAccess w s).spares = s.spares := rfl
@[simp] theorem recordAccess_retired : (recordAccess w s).retired = s.retired := rfl
@[simp] theorem recordAccess_inval : (recordAccess w s).inval = s.inval := rfl
@[simp] theorem recordAccess_clocks : (recordAccess w s).clocks = s.clocks := rfl
@[simp] theorem recordAccess_hotDies : (recordAccess w s).hotDies = s.hotDies := rfl
@[simp] theorem recordAccess_powerLimit : (recordAccess w s).powerLimit = s.powerLimit := rfl
@[simp] theorem recordAccess_watchLimit : (recordAccess w s).watchLimit = s.watchLimit := rfl
@[simp] theorem recordAccess_hubState : (recordAccess w s).hubState = s.hubState := rfl
@[simp] theorem recordAccess_fwver : (recordAccess w s).fwver = s.fwver := rfl
@[simp] theorem recordAccess_fid : (recordAccess w s).fid = s.fid := rfl
@[simp] theorem recordAccess_mailbox : (recordAccess w s).mailbox = s.mailbox := rfl
@[simp] theorem recordAccess_flash : (recordAccess w s).flash = s.flash := rfl
@[simp] theorem recordAccess_running : (recordAccess w s).running = s.running := rfl
@[simp] theorem recordAccess_minVersion : (recordAccess w s).minVersion = s.minVersion := rfl
@[simp] theorem recordAccess_nvme : (recordAccess w s).nvme = s.nvme := rfl
@[simp] theorem recordAccess_nvmeMarks : (recordAccess w s).nvmeMarks = s.nvmeMarks := rfl
@[simp] theorem recordAccess_hostClock : (recordAccess w s).hostClock = s.hostClock := rfl
@[simp] theorem recordAccess_port : (recordAccess w s).port = s.port := rfl
@[simp] theorem recordAccess_rates : (recordAccess w s).rates = s.rates := rfl
@[simp] theorem recordAccess_free : (recordAccess w s).free = s.free := rfl
@[simp] theorem recordAccess_agenda : (recordAccess w s).agenda = s.agenda := rfl

end

/-! ### A translation cached -/

section
variable (d : Nat) (i : BitVec 16) (p : Page) (s : State)

@[simp] theorem tlbFill_hart : (tlbFill d i p s).hart = s.hart := rfl
@[simp] theorem tlbFill_others : (tlbFill d i p s).others = s.others := rfl
@[simp] theorem tlbFill_saved : (tlbFill d i p s).saved = s.saved := rfl
@[simp] theorem tlbFill_mem : (tlbFill d i p s).mem = s.mem := rfl
@[simp] theorem tlbFill_marks : (tlbFill d i p s).marks = s.marks := rfl
@[simp] theorem tlbFill_latent : (tlbFill d i p s).latent = s.latent := rfl
@[simp] theorem tlbFill_tasks : (tlbFill d i p s).tasks = s.tasks := rfl
@[simp] theorem tlbFill_queues : (tlbFill d i p s).queues = s.queues := rfl
@[simp] theorem tlbFill_spaces : (tlbFill d i p s).spaces = s.spaces := rfl
@[simp] theorem tlbFill_rotation : (tlbFill d i p s).rotation = s.rotation := rfl
@[simp] theorem tlbFill_copies : (tlbFill d i p s).copies = s.copies := rfl
@[simp] theorem tlbFill_pushes : (tlbFill d i p s).pushes = s.pushes := rfl
@[simp] theorem tlbFill_packets : (tlbFill d i p s).packets = s.packets := rfl
@[simp] theorem tlbFill_hmvs : (tlbFill d i p s).hmvs = s.hmvs := rfl
@[simp] theorem tlbFill_hmloads : (tlbFill d i p s).hmloads = s.hmloads := rfl
@[simp] theorem tlbFill_stores : (tlbFill d i p s).stores = s.stores := rfl
@[simp] theorem tlbFill_row : (tlbFill d i p s).row = s.row := rfl
@[simp] theorem tlbFill_cbWait : (tlbFill d i p s).cbWait = s.cbWait := rfl
@[simp] theorem tlbFill_convs : (tlbFill d i p s).convs = s.convs := rfl
@[simp] theorem tlbFill_bound : (tlbFill d i p s).bound = s.bound := rfl
@[simp] theorem tlbFill_slots : (tlbFill d i p s).slots = s.slots := rfl
@[simp] theorem tlbFill_contribs : (tlbFill d i p s).contribs = s.contribs := rfl
@[simp] theorem tlbFill_collOut : (tlbFill d i p s).collOut = s.collOut := rfl
@[simp] theorem tlbFill_accesses : (tlbFill d i p s).accesses = s.accesses := rfl
@[simp] theorem tlbFill_releases : (tlbFill d i p s).releases = s.releases := rfl
@[simp] theorem tlbFill_objRels : (tlbFill d i p s).objRels = s.objRels := rfl
@[simp] theorem tlbFill_shadows : (tlbFill d i p s).shadows = s.shadows := rfl
@[simp] theorem tlbFill_blackBox : (tlbFill d i p s).blackBox = s.blackBox := rfl
@[simp] theorem tlbFill_golrok : (tlbFill d i p s).golrok = s.golrok := rfl
@[simp] theorem tlbFill_windows : (tlbFill d i p s).windows = s.windows := rfl
@[simp] theorem tlbFill_fencedLinks : (tlbFill d i p s).fencedLinks = s.fencedLinks := rfl
@[simp] theorem tlbFill_replays : (tlbFill d i p s).replays = s.replays := rfl
@[simp] theorem tlbFill_fencedClusters : (tlbFill d i p s).fencedClusters = s.fencedClusters := rfl
@[simp] theorem tlbFill_fencedDies : (tlbFill d i p s).fencedDies = s.fencedDies := rfl
@[simp] theorem tlbFill_fencedMems : (tlbFill d i p s).fencedMems = s.fencedMems := rfl
@[simp] theorem tlbFill_badFetches : (tlbFill d i p s).badFetches = s.badFetches := rfl
@[simp] theorem tlbFill_spares : (tlbFill d i p s).spares = s.spares := rfl
@[simp] theorem tlbFill_retired : (tlbFill d i p s).retired = s.retired := rfl
@[simp] theorem tlbFill_inval : (tlbFill d i p s).inval = s.inval := rfl
@[simp] theorem tlbFill_clocks : (tlbFill d i p s).clocks = s.clocks := rfl
@[simp] theorem tlbFill_hotDies : (tlbFill d i p s).hotDies = s.hotDies := rfl
@[simp] theorem tlbFill_powerLimit : (tlbFill d i p s).powerLimit = s.powerLimit := rfl
@[simp] theorem tlbFill_watchLimit : (tlbFill d i p s).watchLimit = s.watchLimit := rfl
@[simp] theorem tlbFill_hubState : (tlbFill d i p s).hubState = s.hubState := rfl
@[simp] theorem tlbFill_fwver : (tlbFill d i p s).fwver = s.fwver := rfl
@[simp] theorem tlbFill_fid : (tlbFill d i p s).fid = s.fid := rfl
@[simp] theorem tlbFill_mailbox : (tlbFill d i p s).mailbox = s.mailbox := rfl
@[simp] theorem tlbFill_flash : (tlbFill d i p s).flash = s.flash := rfl
@[simp] theorem tlbFill_running : (tlbFill d i p s).running = s.running := rfl
@[simp] theorem tlbFill_minVersion : (tlbFill d i p s).minVersion = s.minVersion := rfl
@[simp] theorem tlbFill_nvme : (tlbFill d i p s).nvme = s.nvme := rfl
@[simp] theorem tlbFill_nvmeMarks : (tlbFill d i p s).nvmeMarks = s.nvmeMarks := rfl
@[simp] theorem tlbFill_hostClock : (tlbFill d i p s).hostClock = s.hostClock := rfl
@[simp] theorem tlbFill_port : (tlbFill d i p s).port = s.port := rfl
@[simp] theorem tlbFill_rates : (tlbFill d i p s).rates = s.rates := rfl
@[simp] theorem tlbFill_free : (tlbFill d i p s).free = s.free := rfl
@[simp] theorem tlbFill_agenda : (tlbFill d i p s).agenda = s.agenda := rfl

end

/-! ### A black-box record -/

section
variable (d : Nat) (c r : BitVec 16) (x : BitVec 128) (s : State)

@[simp] theorem logBlack_free : (logBlack d c r x s).free = s.free + 1 := rfl
@[simp] theorem logBlack_hart : (logBlack d c r x s).hart = s.hart := rfl
@[simp] theorem logBlack_others : (logBlack d c r x s).others = s.others := rfl
@[simp] theorem logBlack_saved : (logBlack d c r x s).saved = s.saved := rfl
@[simp] theorem logBlack_mem : (logBlack d c r x s).mem = s.mem := rfl
@[simp] theorem logBlack_marks : (logBlack d c r x s).marks = s.marks := rfl
@[simp] theorem logBlack_latent : (logBlack d c r x s).latent = s.latent := rfl
@[simp] theorem logBlack_tlb : (logBlack d c r x s).tlb = s.tlb := rfl
@[simp] theorem logBlack_tasks : (logBlack d c r x s).tasks = s.tasks := rfl
@[simp] theorem logBlack_queues : (logBlack d c r x s).queues = s.queues := rfl
@[simp] theorem logBlack_spaces : (logBlack d c r x s).spaces = s.spaces := rfl
@[simp] theorem logBlack_rotation : (logBlack d c r x s).rotation = s.rotation := rfl
@[simp] theorem logBlack_copies : (logBlack d c r x s).copies = s.copies := rfl
@[simp] theorem logBlack_pushes : (logBlack d c r x s).pushes = s.pushes := rfl
@[simp] theorem logBlack_packets : (logBlack d c r x s).packets = s.packets := rfl
@[simp] theorem logBlack_hmvs : (logBlack d c r x s).hmvs = s.hmvs := rfl
@[simp] theorem logBlack_hmloads : (logBlack d c r x s).hmloads = s.hmloads := rfl
@[simp] theorem logBlack_stores : (logBlack d c r x s).stores = s.stores := rfl
@[simp] theorem logBlack_row : (logBlack d c r x s).row = s.row := rfl
@[simp] theorem logBlack_cbWait : (logBlack d c r x s).cbWait = s.cbWait := rfl
@[simp] theorem logBlack_convs : (logBlack d c r x s).convs = s.convs := rfl
@[simp] theorem logBlack_bound : (logBlack d c r x s).bound = s.bound := rfl
@[simp] theorem logBlack_slots : (logBlack d c r x s).slots = s.slots := rfl
@[simp] theorem logBlack_contribs : (logBlack d c r x s).contribs = s.contribs := rfl
@[simp] theorem logBlack_collOut : (logBlack d c r x s).collOut = s.collOut := rfl
@[simp] theorem logBlack_accesses : (logBlack d c r x s).accesses = s.accesses := rfl
@[simp] theorem logBlack_releases : (logBlack d c r x s).releases = s.releases := rfl
@[simp] theorem logBlack_objRels : (logBlack d c r x s).objRels = s.objRels := rfl
@[simp] theorem logBlack_shadows : (logBlack d c r x s).shadows = s.shadows := rfl
@[simp] theorem logBlack_golrok : (logBlack d c r x s).golrok = s.golrok := rfl
@[simp] theorem logBlack_windows : (logBlack d c r x s).windows = s.windows := rfl
@[simp] theorem logBlack_fencedLinks : (logBlack d c r x s).fencedLinks = s.fencedLinks := rfl
@[simp] theorem logBlack_replays : (logBlack d c r x s).replays = s.replays := rfl
@[simp] theorem logBlack_fencedClusters : (logBlack d c r x s).fencedClusters = s.fencedClusters := rfl
@[simp] theorem logBlack_fencedDies : (logBlack d c r x s).fencedDies = s.fencedDies := rfl
@[simp] theorem logBlack_fencedMems : (logBlack d c r x s).fencedMems = s.fencedMems := rfl
@[simp] theorem logBlack_badFetches : (logBlack d c r x s).badFetches = s.badFetches := rfl
@[simp] theorem logBlack_spares : (logBlack d c r x s).spares = s.spares := rfl
@[simp] theorem logBlack_retired : (logBlack d c r x s).retired = s.retired := rfl
@[simp] theorem logBlack_inval : (logBlack d c r x s).inval = s.inval := rfl
@[simp] theorem logBlack_clocks : (logBlack d c r x s).clocks = s.clocks := rfl
@[simp] theorem logBlack_hotDies : (logBlack d c r x s).hotDies = s.hotDies := rfl
@[simp] theorem logBlack_powerLimit : (logBlack d c r x s).powerLimit = s.powerLimit := rfl
@[simp] theorem logBlack_watchLimit : (logBlack d c r x s).watchLimit = s.watchLimit := rfl
@[simp] theorem logBlack_hubState : (logBlack d c r x s).hubState = s.hubState := rfl
@[simp] theorem logBlack_fwver : (logBlack d c r x s).fwver = s.fwver := rfl
@[simp] theorem logBlack_fid : (logBlack d c r x s).fid = s.fid := rfl
@[simp] theorem logBlack_mailbox : (logBlack d c r x s).mailbox = s.mailbox := rfl
@[simp] theorem logBlack_flash : (logBlack d c r x s).flash = s.flash := rfl
@[simp] theorem logBlack_running : (logBlack d c r x s).running = s.running := rfl
@[simp] theorem logBlack_minVersion : (logBlack d c r x s).minVersion = s.minVersion := rfl
@[simp] theorem logBlack_nvme : (logBlack d c r x s).nvme = s.nvme := rfl
@[simp] theorem logBlack_nvmeMarks : (logBlack d c r x s).nvmeMarks = s.nvmeMarks := rfl
@[simp] theorem logBlack_hostClock : (logBlack d c r x s).hostClock = s.hostClock := rfl
@[simp] theorem logBlack_port : (logBlack d c r x s).port = s.port := rfl
@[simp] theorem logBlack_rates : (logBlack d c r x s).rates = s.rates := rfl
@[simp] theorem logBlack_agenda : (logBlack d c r x s).agenda = s.agenda := rfl

end

/-! ### A scalar register written -/

section
variable (h : Hart) (n : Nat) (v : DWord) (m : Mark)

@[simp] theorem setX_status : (h.setX n v m).status = h.status := by unfold Hart.setX; split <;> rfl
@[simp] theorem setX_wait : (h.setX n v m).wait = h.wait := by unfold Hart.setX; split <;> rfl
@[simp] theorem setX_hartid : (h.setX n v m).hartid = h.hartid := by unfold Hart.setX; split <;> rfl
@[simp] theorem setX_taskNo : (h.setX n v m).taskNo = h.taskNo := by unfold Hart.setX; split <;> rfl
@[simp] theorem setX_copy : (h.setX n v m).copy = h.copy := by unfold Hart.setX; split <;> rfl
@[simp] theorem setX_home : (h.setX n v m).home = h.home := by unfold Hart.setX; split <;> rfl
@[simp] theorem setX_mode : (h.setX n v m).mode = h.mode := by unfold Hart.setX; split <;> rfl
@[simp] theorem setX_pc : (h.setX n v m).pc = h.pc := by unfold Hart.setX; split <;> rfl
@[simp] theorem setX_pfx : (h.setX n v m).pfx = h.pfx := by unfold Hart.setX; split <;> rfl
@[simp] theorem setX_ir : (h.setX n v m).ir = h.ir := by unfold Hart.setX; split <;> rfl
@[simp] theorem setX_irPfx : (h.setX n v m).irPfx = h.irPfx := by unfold Hart.setX; split <;> rfl
@[simp] theorem setX_v : (h.setX n v m).v = h.v := by unfold Hart.setX; split <;> rfl
@[simp] theorem setX_vMark : (h.setX n v m).vMark = h.vMark := by unfold Hart.setX; split <;> rfl
@[simp] theorem setX_spared : (h.setX n v m).spared = h.spared := by unfold Hart.setX; split <;> rfl
@[simp] theorem setX_fe : (h.setX n v m).fe = h.fe := by unfold Hart.setX; split <;> rfl
@[simp] theorem setX_hw : (h.setX n v m).hw = h.hw := by unfold Hart.setX; split <;> rfl
@[simp] theorem setX_tr : (h.setX n v m).tr = h.tr := by unfold Hart.setX; split <;> rfl
@[simp] theorem setX_sr : (h.setX n v m).sr = h.sr := by unfold Hart.setX; split <;> rfl
@[simp] theorem setX_loops : (h.setX n v m).loops = h.loops := by unfold Hart.setX; split <;> rfl
@[simp] theorem setX_seqOff : (h.setX n v m).seqOff = h.seqOff := by unfold Hart.setX; split <;> rfl
@[simp] theorem setX_handles : (h.setX n v m).handles = h.handles := by unfold Hart.setX; split <;> rfl
@[simp] theorem setX_streams : (h.setX n v m).streams = h.streams := by unfold Hart.setX; split <;> rfl
@[simp] theorem setX_copyDone : (h.setX n v m).copyDone = h.copyDone := by unfold Hart.setX; split <;> rfl
@[simp] theorem setX_hmvDone : (h.setX n v m).hmvDone = h.hmvDone := by unfold Hart.setX; split <;> rfl
@[simp] theorem setX_filigree : (h.setX n v m).filigree = h.filigree := by unfold Hart.setX; split <;> rfl
@[simp] theorem setX_remote : (h.setX n v m).remote = h.remote := by unfold Hart.setX; split <;> rfl
@[simp] theorem setX_buf : (h.setX n v m).buf = h.buf := by unfold Hart.setX; split <;> rfl
@[simp] theorem setX_ckpt : (h.setX n v m).ckpt = h.ckpt := by unfold Hart.setX; split <;> rfl
@[simp] theorem setX_retries : (h.setX n v m).retries = h.retries := by unfold Hart.setX; split <;> rfl
@[simp] theorem setX_planish : (h.setX n v m).planish = h.planish := by unfold Hart.setX; split <;> rfl
@[simp] theorem setX_rechecked : (h.setX n v m).rechecked = h.rechecked := by unfold Hart.setX; split <;> rfl
@[simp] theorem setX_swage : (h.setX n v m).swage = h.swage := by unfold Hart.setX; split <;> rfl
@[simp] theorem setX_first : (h.setX n v m).first = h.first := by unfold Hart.setX; split <;> rfl
@[simp] theorem setX_count : (h.setX n v m).count = h.count := by unfold Hart.setX; split <;> rfl
@[simp] theorem setX_cred : (h.setX n v m).cred = h.cred := by unfold Hart.setX; split <;> rfl
@[simp] theorem setX_credId : (h.setX n v m).credId = h.credId := by unfold Hart.setX; split <;> rfl
@[simp] theorem setX_preempt : (h.setX n v m).preempt = h.preempt := by unfold Hart.setX; split <;> rfl
@[simp] theorem setX_stopAt : (h.setX n v m).stopAt = h.stopAt := by unfold Hart.setX; split <;> rfl
@[simp] theorem setX_overdue : (h.setX n v m).overdue = h.overdue := by unfold Hart.setX; split <;> rfl
@[simp] theorem setX_watchdog : (h.setX n v m).watchdog = h.watchdog := by unfold Hart.setX; split <;> rfl
@[simp] theorem setX_races : (h.setX n v m).races = h.races := by unfold Hart.setX; split <;> rfl
@[simp] theorem setX_clock : (h.setX n v m).clock = h.clock := by unfold Hart.setX; split <;> rfl
@[simp] theorem setX_region : (h.setX n v m).region = h.region := by unfold Hart.setX; split <;> rfl
@[simp] theorem setX_fenceRel : (h.setX n v m).fenceRel = h.fenceRel := by unfold Hart.setX; split <;> rfl
@[simp] theorem setX_lastAcq : (h.setX n v m).lastAcq = h.lastAcq := by unfold Hart.setX; split <;> rfl
@[simp] theorem setX_lastCore : (h.setX n v m).lastCore = h.lastCore := by unfold Hart.setX; split <;> rfl
@[simp] theorem setX_lastNo : (h.setX n v m).lastNo = h.lastNo := by unfold Hart.setX; split <;> rfl
@[simp] theorem setX_suspended : (h.setX n v m).suspended = h.suspended := by unfold Hart.setX; split <;> rfl
@[simp] theorem setX_resumed : (h.setX n v m).resumed = h.resumed := by unfold Hart.setX; split <;> rfl
@[simp] theorem setX_kept : (h.setX n v m).kept = h.kept := by unfold Hart.setX; split <;> rfl
@[simp] theorem setX_srMark : (h.setX n v m).srMark = h.srMark := by unfold Hart.setX; split <;> rfl
@[simp] theorem setX_held : (h.setX n v m).held = h.held := by unfold Hart.setX; split <;> rfl
@[simp] theorem setX_raced : (h.setX n v m).raced = h.raced := by unfold Hart.setX; split <;> rfl
@[simp] theorem setX_late : (h.setX n v m).late = h.late := by unfold Hart.setX; split <;> rfl

end

/-! ### A unit completed -/

section
variable (h : Hart)

@[simp] theorem complete_pfx : (h.complete).pfx = .none := rfl
@[simp] theorem complete_wait : (h.complete).wait = .no := rfl
@[simp] theorem complete_resumed : (h.complete).resumed = none := rfl
@[simp] theorem complete_stopAt : (h.complete).stopAt = none := rfl
@[simp] theorem complete_rechecked : (h.complete).rechecked = false := rfl
@[simp] theorem complete_held : (h.complete).held = [] := rfl
@[simp] theorem complete_late : (h.complete).late = none := rfl
@[simp] theorem complete_kept : (h.complete).kept = [] := rfl
@[simp] theorem complete_streams : (h.complete).streams = advanceStreams true h.streams := rfl
@[simp] theorem complete_status : (h.complete).status = h.status := rfl
@[simp] theorem complete_hartid : (h.complete).hartid = h.hartid := rfl
@[simp] theorem complete_taskNo : (h.complete).taskNo = h.taskNo := rfl
@[simp] theorem complete_copy : (h.complete).copy = h.copy := rfl
@[simp] theorem complete_home : (h.complete).home = h.home := rfl
@[simp] theorem complete_mode : (h.complete).mode = h.mode := rfl
@[simp] theorem complete_pc : (h.complete).pc = h.pc := rfl
@[simp] theorem complete_ir : (h.complete).ir = h.ir := rfl
@[simp] theorem complete_irPfx : (h.complete).irPfx = h.irPfx := rfl
@[simp] theorem complete_x : (h.complete).x = h.x := rfl
@[simp] theorem complete_xMark : (h.complete).xMark = h.xMark := rfl
@[simp] theorem complete_v : (h.complete).v = h.v := rfl
@[simp] theorem complete_vMark : (h.complete).vMark = h.vMark := rfl
@[simp] theorem complete_spared : (h.complete).spared = h.spared := rfl
@[simp] theorem complete_fe : (h.complete).fe = h.fe := rfl
@[simp] theorem complete_hw : (h.complete).hw = h.hw := rfl
@[simp] theorem complete_tr : (h.complete).tr = h.tr := rfl
@[simp] theorem complete_sr : (h.complete).sr = h.sr := rfl
@[simp] theorem complete_loops : (h.complete).loops = h.loops := rfl
@[simp] theorem complete_seqOff : (h.complete).seqOff = h.seqOff := rfl
@[simp] theorem complete_handles : (h.complete).handles = h.handles := rfl
@[simp] theorem complete_copyDone : (h.complete).copyDone = h.copyDone := rfl
@[simp] theorem complete_hmvDone : (h.complete).hmvDone = h.hmvDone := rfl
@[simp] theorem complete_filigree : (h.complete).filigree = h.filigree := rfl
@[simp] theorem complete_remote : (h.complete).remote = h.remote := rfl
@[simp] theorem complete_buf : (h.complete).buf = h.buf := rfl
@[simp] theorem complete_ckpt : (h.complete).ckpt = h.ckpt := rfl
@[simp] theorem complete_retries : (h.complete).retries = h.retries := rfl
@[simp] theorem complete_planish : (h.complete).planish = h.planish := rfl
@[simp] theorem complete_swage : (h.complete).swage = h.swage := rfl
@[simp] theorem complete_first : (h.complete).first = h.first := rfl
@[simp] theorem complete_count : (h.complete).count = h.count := rfl
@[simp] theorem complete_cred : (h.complete).cred = h.cred := rfl
@[simp] theorem complete_credId : (h.complete).credId = h.credId := rfl
@[simp] theorem complete_preempt : (h.complete).preempt = h.preempt := rfl
@[simp] theorem complete_overdue : (h.complete).overdue = h.overdue := rfl
@[simp] theorem complete_watchdog : (h.complete).watchdog = h.watchdog := rfl
@[simp] theorem complete_races : (h.complete).races = h.races := rfl
@[simp] theorem complete_clock : (h.complete).clock = h.clock := rfl
@[simp] theorem complete_region : (h.complete).region = h.region := rfl
@[simp] theorem complete_fenceRel : (h.complete).fenceRel = h.fenceRel := rfl
@[simp] theorem complete_lastAcq : (h.complete).lastAcq = h.lastAcq := rfl
@[simp] theorem complete_lastCore : (h.complete).lastCore = h.lastCore := rfl
@[simp] theorem complete_lastNo : (h.complete).lastNo = h.lastNo := rfl
@[simp] theorem complete_suspended : (h.complete).suspended = h.suspended := rfl
@[simp] theorem complete_srMark : (h.complete).srMark = h.srMark := rfl
@[simp] theorem complete_raced : (h.complete).raced = h.raced := rfl

end

/-! ### Marks of state registers ended -/

section
variable (h : Hart) (ns : List Nat)

@[simp] theorem cleanRegs_status : (h.cleanRegs ns).status = h.status := rfl
@[simp] theorem cleanRegs_wait : (h.cleanRegs ns).wait = h.wait := rfl
@[simp] theorem cleanRegs_hartid : (h.cleanRegs ns).hartid = h.hartid := rfl
@[simp] theorem cleanRegs_taskNo : (h.cleanRegs ns).taskNo = h.taskNo := rfl
@[simp] theorem cleanRegs_copy : (h.cleanRegs ns).copy = h.copy := rfl
@[simp] theorem cleanRegs_home : (h.cleanRegs ns).home = h.home := rfl
@[simp] theorem cleanRegs_mode : (h.cleanRegs ns).mode = h.mode := rfl
@[simp] theorem cleanRegs_pc : (h.cleanRegs ns).pc = h.pc := rfl
@[simp] theorem cleanRegs_pfx : (h.cleanRegs ns).pfx = h.pfx := rfl
@[simp] theorem cleanRegs_ir : (h.cleanRegs ns).ir = h.ir := rfl
@[simp] theorem cleanRegs_irPfx : (h.cleanRegs ns).irPfx = h.irPfx := rfl
@[simp] theorem cleanRegs_x : (h.cleanRegs ns).x = h.x := rfl
@[simp] theorem cleanRegs_xMark : (h.cleanRegs ns).xMark = h.xMark := rfl
@[simp] theorem cleanRegs_v : (h.cleanRegs ns).v = h.v := rfl
@[simp] theorem cleanRegs_vMark : (h.cleanRegs ns).vMark = h.vMark := rfl
@[simp] theorem cleanRegs_spared : (h.cleanRegs ns).spared = h.spared := rfl
@[simp] theorem cleanRegs_fe : (h.cleanRegs ns).fe = h.fe := rfl
@[simp] theorem cleanRegs_hw : (h.cleanRegs ns).hw = h.hw := rfl
@[simp] theorem cleanRegs_tr : (h.cleanRegs ns).tr = h.tr := rfl
@[simp] theorem cleanRegs_sr : (h.cleanRegs ns).sr = h.sr := rfl
@[simp] theorem cleanRegs_loops : (h.cleanRegs ns).loops = h.loops := rfl
@[simp] theorem cleanRegs_seqOff : (h.cleanRegs ns).seqOff = h.seqOff := rfl
@[simp] theorem cleanRegs_handles : (h.cleanRegs ns).handles = h.handles := rfl
@[simp] theorem cleanRegs_streams : (h.cleanRegs ns).streams = h.streams := rfl
@[simp] theorem cleanRegs_copyDone : (h.cleanRegs ns).copyDone = h.copyDone := rfl
@[simp] theorem cleanRegs_hmvDone : (h.cleanRegs ns).hmvDone = h.hmvDone := rfl
@[simp] theorem cleanRegs_filigree : (h.cleanRegs ns).filigree = h.filigree := rfl
@[simp] theorem cleanRegs_remote : (h.cleanRegs ns).remote = h.remote := rfl
@[simp] theorem cleanRegs_buf : (h.cleanRegs ns).buf = h.buf := rfl
@[simp] theorem cleanRegs_ckpt : (h.cleanRegs ns).ckpt = h.ckpt := rfl
@[simp] theorem cleanRegs_retries : (h.cleanRegs ns).retries = h.retries := rfl
@[simp] theorem cleanRegs_planish : (h.cleanRegs ns).planish = h.planish := rfl
@[simp] theorem cleanRegs_rechecked : (h.cleanRegs ns).rechecked = h.rechecked := rfl
@[simp] theorem cleanRegs_swage : (h.cleanRegs ns).swage = h.swage := rfl
@[simp] theorem cleanRegs_first : (h.cleanRegs ns).first = h.first := rfl
@[simp] theorem cleanRegs_count : (h.cleanRegs ns).count = h.count := rfl
@[simp] theorem cleanRegs_cred : (h.cleanRegs ns).cred = h.cred := rfl
@[simp] theorem cleanRegs_credId : (h.cleanRegs ns).credId = h.credId := rfl
@[simp] theorem cleanRegs_preempt : (h.cleanRegs ns).preempt = h.preempt := rfl
@[simp] theorem cleanRegs_stopAt : (h.cleanRegs ns).stopAt = h.stopAt := rfl
@[simp] theorem cleanRegs_overdue : (h.cleanRegs ns).overdue = h.overdue := rfl
@[simp] theorem cleanRegs_watchdog : (h.cleanRegs ns).watchdog = h.watchdog := rfl
@[simp] theorem cleanRegs_races : (h.cleanRegs ns).races = h.races := rfl
@[simp] theorem cleanRegs_clock : (h.cleanRegs ns).clock = h.clock := rfl
@[simp] theorem cleanRegs_region : (h.cleanRegs ns).region = h.region := rfl
@[simp] theorem cleanRegs_fenceRel : (h.cleanRegs ns).fenceRel = h.fenceRel := rfl
@[simp] theorem cleanRegs_lastAcq : (h.cleanRegs ns).lastAcq = h.lastAcq := rfl
@[simp] theorem cleanRegs_lastCore : (h.cleanRegs ns).lastCore = h.lastCore := rfl
@[simp] theorem cleanRegs_lastNo : (h.cleanRegs ns).lastNo = h.lastNo := rfl
@[simp] theorem cleanRegs_suspended : (h.cleanRegs ns).suspended = h.suspended := rfl
@[simp] theorem cleanRegs_resumed : (h.cleanRegs ns).resumed = h.resumed := rfl
@[simp] theorem cleanRegs_kept : (h.cleanRegs ns).kept = h.kept := rfl
@[simp] theorem cleanRegs_held : (h.cleanRegs ns).held = h.held := rfl
@[simp] theorem cleanRegs_raced : (h.cleanRegs ns).raced = h.raced := rfl
@[simp] theorem cleanRegs_late : (h.cleanRegs ns).late = h.late := rfl

end

/-! ### A trap taken: what it leaves alone -/

section
variable (c : BitVec 8) (v n : DWord) (h : Hart)

@[simp] theorem takeTrap_status : (takeTrap c v n h).status = h.status := rfl
@[simp] theorem takeTrap_hartid : (takeTrap c v n h).hartid = h.hartid := rfl
@[simp] theorem takeTrap_taskNo : (takeTrap c v n h).taskNo = h.taskNo := rfl
@[simp] theorem takeTrap_copy : (takeTrap c v n h).copy = h.copy := rfl
@[simp] theorem takeTrap_home : (takeTrap c v n h).home = h.home := rfl
@[simp] theorem takeTrap_ir : (takeTrap c v n h).ir = h.ir := rfl
@[simp] theorem takeTrap_irPfx : (takeTrap c v n h).irPfx = h.irPfx := rfl
@[simp] theorem takeTrap_x : (takeTrap c v n h).x = h.x := rfl
@[simp] theorem takeTrap_xMark : (takeTrap c v n h).xMark = h.xMark := rfl
@[simp] theorem takeTrap_v : (takeTrap c v n h).v = h.v := rfl
@[simp] theorem takeTrap_vMark : (takeTrap c v n h).vMark = h.vMark := rfl
@[simp] theorem takeTrap_spared : (takeTrap c v n h).spared = h.spared := rfl
@[simp] theorem takeTrap_fe : (takeTrap c v n h).fe = h.fe := rfl
@[simp] theorem takeTrap_hw : (takeTrap c v n h).hw = h.hw := rfl
@[simp] theorem takeTrap_loops : (takeTrap c v n h).loops = h.loops := rfl
@[simp] theorem takeTrap_handles : (takeTrap c v n h).handles = h.handles := rfl
@[simp] theorem takeTrap_copyDone : (takeTrap c v n h).copyDone = h.copyDone := rfl
@[simp] theorem takeTrap_hmvDone : (takeTrap c v n h).hmvDone = h.hmvDone := rfl
@[simp] theorem takeTrap_filigree : (takeTrap c v n h).filigree = h.filigree := rfl
@[simp] theorem takeTrap_remote : (takeTrap c v n h).remote = h.remote := rfl
@[simp] theorem takeTrap_buf : (takeTrap c v n h).buf = h.buf := rfl
@[simp] theorem takeTrap_ckpt : (takeTrap c v n h).ckpt = h.ckpt := rfl
@[simp] theorem takeTrap_retries : (takeTrap c v n h).retries = h.retries := rfl
@[simp] theorem takeTrap_planish : (takeTrap c v n h).planish = h.planish := rfl
@[simp] theorem takeTrap_swage : (takeTrap c v n h).swage = h.swage := rfl
@[simp] theorem takeTrap_first : (takeTrap c v n h).first = h.first := rfl
@[simp] theorem takeTrap_count : (takeTrap c v n h).count = h.count := rfl
@[simp] theorem takeTrap_cred : (takeTrap c v n h).cred = h.cred := rfl
@[simp] theorem takeTrap_credId : (takeTrap c v n h).credId = h.credId := rfl
@[simp] theorem takeTrap_preempt : (takeTrap c v n h).preempt = h.preempt := rfl
@[simp] theorem takeTrap_overdue : (takeTrap c v n h).overdue = h.overdue := rfl
@[simp] theorem takeTrap_watchdog : (takeTrap c v n h).watchdog = h.watchdog := rfl
@[simp] theorem takeTrap_races : (takeTrap c v n h).races = h.races := rfl
@[simp] theorem takeTrap_clock : (takeTrap c v n h).clock = h.clock := rfl
@[simp] theorem takeTrap_region : (takeTrap c v n h).region = h.region := rfl
@[simp] theorem takeTrap_fenceRel : (takeTrap c v n h).fenceRel = h.fenceRel := rfl
@[simp] theorem takeTrap_lastAcq : (takeTrap c v n h).lastAcq = h.lastAcq := rfl
@[simp] theorem takeTrap_lastCore : (takeTrap c v n h).lastCore = h.lastCore := rfl
@[simp] theorem takeTrap_lastNo : (takeTrap c v n h).lastNo = h.lastNo := rfl

end

/-! ### A return from a trap: what it leaves alone -/

section
variable (h : Hart)

@[simp] theorem returnTrap_status : (returnTrap h).status = h.status := rfl
@[simp] theorem returnTrap_hartid : (returnTrap h).hartid = h.hartid := rfl
@[simp] theorem returnTrap_taskNo : (returnTrap h).taskNo = h.taskNo := rfl
@[simp] theorem returnTrap_copy : (returnTrap h).copy = h.copy := rfl
@[simp] theorem returnTrap_home : (returnTrap h).home = h.home := rfl
@[simp] theorem returnTrap_ir : (returnTrap h).ir = h.ir := rfl
@[simp] theorem returnTrap_irPfx : (returnTrap h).irPfx = h.irPfx := rfl
@[simp] theorem returnTrap_x : (returnTrap h).x = h.x := rfl
@[simp] theorem returnTrap_xMark : (returnTrap h).xMark = h.xMark := rfl
@[simp] theorem returnTrap_v : (returnTrap h).v = h.v := rfl
@[simp] theorem returnTrap_vMark : (returnTrap h).vMark = h.vMark := rfl
@[simp] theorem returnTrap_spared : (returnTrap h).spared = h.spared := rfl
@[simp] theorem returnTrap_fe : (returnTrap h).fe = h.fe := rfl
@[simp] theorem returnTrap_hw : (returnTrap h).hw = h.hw := rfl
@[simp] theorem returnTrap_loops : (returnTrap h).loops = h.loops := rfl
@[simp] theorem returnTrap_handles : (returnTrap h).handles = h.handles := rfl
@[simp] theorem returnTrap_copyDone : (returnTrap h).copyDone = h.copyDone := rfl
@[simp] theorem returnTrap_hmvDone : (returnTrap h).hmvDone = h.hmvDone := rfl
@[simp] theorem returnTrap_filigree : (returnTrap h).filigree = h.filigree := rfl
@[simp] theorem returnTrap_remote : (returnTrap h).remote = h.remote := rfl
@[simp] theorem returnTrap_buf : (returnTrap h).buf = h.buf := rfl
@[simp] theorem returnTrap_ckpt : (returnTrap h).ckpt = h.ckpt := rfl
@[simp] theorem returnTrap_retries : (returnTrap h).retries = h.retries := rfl
@[simp] theorem returnTrap_planish : (returnTrap h).planish = h.planish := rfl
@[simp] theorem returnTrap_rechecked : (returnTrap h).rechecked = h.rechecked := rfl
@[simp] theorem returnTrap_swage : (returnTrap h).swage = h.swage := rfl
@[simp] theorem returnTrap_first : (returnTrap h).first = h.first := rfl
@[simp] theorem returnTrap_count : (returnTrap h).count = h.count := rfl
@[simp] theorem returnTrap_cred : (returnTrap h).cred = h.cred := rfl
@[simp] theorem returnTrap_credId : (returnTrap h).credId = h.credId := rfl
@[simp] theorem returnTrap_preempt : (returnTrap h).preempt = h.preempt := rfl
@[simp] theorem returnTrap_overdue : (returnTrap h).overdue = h.overdue := rfl
@[simp] theorem returnTrap_watchdog : (returnTrap h).watchdog = h.watchdog := rfl
@[simp] theorem returnTrap_races : (returnTrap h).races = h.races := rfl
@[simp] theorem returnTrap_clock : (returnTrap h).clock = h.clock := rfl
@[simp] theorem returnTrap_region : (returnTrap h).region = h.region := rfl
@[simp] theorem returnTrap_fenceRel : (returnTrap h).fenceRel = h.fenceRel := rfl
@[simp] theorem returnTrap_lastAcq : (returnTrap h).lastAcq = h.lastAcq := rfl
@[simp] theorem returnTrap_lastCore : (returnTrap h).lastCore = h.lastCore := rfl
@[simp] theorem returnTrap_lastNo : (returnTrap h).lastNo = h.lastNo := rfl
@[simp] theorem returnTrap_srMark : (returnTrap h).srMark = h.srMark := rfl
@[simp] theorem returnTrap_raced : (returnTrap h).raced = h.raced := rfl

end

end Sys2Proof.Laws
end

