-- ==== Sys2Proof/Laws/Memory.lean ====
section
/-!
SUPPORT. Memory: reading a byte after a write, and that every memory operation keeps the canonical form.
-/

namespace Sys2Proof.Laws

open Sys2Proof.Machine

/-! ### The canonical form -/

/-- The canonical form in words: addresses rise, and no listed byte equals what an unlisted address reads as. -/
theorem wf_iff (m : Memory) :
    m.wf = true ↔ m.Pairwise (fun c d => c.1 < d.1) ∧ ∀ c ∈ m, c.2 ≠ unlisted := by
  induction m with
  | nil => simp [Memory.wf]
  | cons c rest ih =>
    cases rest with
    | nil => simp [Memory.wf]
    | cons d rest =>
      simp only [Memory.wf, Bool.and_eq_true, bne_iff_ne, decide_eq_true_eq, ih]
      constructor
      · rintro ⟨⟨h1, h2⟩, h3, h4⟩
        refine ⟨List.pairwise_cons.2 ⟨fun e he => ?_, h3⟩, fun e he => ?_⟩
        · rcases List.mem_cons.1 he with rfl | he
          · exact h2
          · exact Nat.lt_trans h2 ((List.pairwise_cons.1 h3).1 e he)
        · rcases List.mem_cons.1 he with rfl | he
          · exact h1
          · exact h4 e he
      · rintro ⟨h1, h2⟩
        have hp := List.pairwise_cons.1 h1
        exact ⟨⟨h2 c (by simp), hp.1 d (by simp)⟩, hp.2, fun e he => h2 e (List.mem_cons_of_mem _ he)⟩

theorem mem_putKey {β : Type} {k : Nat} {v : β} {l : List (Nat × β)} {c : Nat × β} (h : c ∈ putKey k v l) :
    c = (k, v) ∨ c ∈ l := by
  induction l with
  | nil => simp_all [putKey]
  | cons d rest ih =>
    simp only [putKey] at h
    split at h
    · rcases List.mem_cons.1 h with rfl | h
      · simp
      · rcases ih h with h | h <;> simp [h]
    · split at h <;> rcases List.mem_cons.1 h with rfl | h <;> simp_all

theorem mem_delKey {β : Type} {k : Nat} {l : List (Nat × β)} {c : Nat × β} (h : c ∈ delKey k l) : c ∈ l := by
  induction l with
  | nil => exact h
  | cons d rest ih =>
    simp only [delKey] at h
    split at h
    · exact List.mem_cons_of_mem _ (ih h)
    · rcases List.mem_cons.1 h with rfl | h
      · simp
      · exact List.mem_cons_of_mem _ (ih h)

theorem pairwise_putKey {β : Type} (k : Nat) (v : β) {l : List (Nat × β)} (h : l.Pairwise fun c d => c.1 < d.1) :
    (putKey k v l).Pairwise fun c d => c.1 < d.1 := by
  induction l with
  | nil => simp [putKey]
  | cons c rest ih =>
    have hp := List.pairwise_cons.1 h
    simp only [putKey]
    split
    · next hlt =>
      refine List.pairwise_cons.2 ⟨fun d hd => ?_, ih hp.2⟩
      rcases mem_putKey hd with rfl | hd
      · exact hlt
      · exact hp.1 d hd
    · split
      · next heq => exact List.pairwise_cons.2 ⟨fun d hd => heq ▸ hp.1 d hd, hp.2⟩
      · next hge hne =>
        refine List.pairwise_cons.2 ⟨fun d hd => ?_, h⟩
        have hlt : k < c.1 := by omega
        rcases List.mem_cons.1 hd with rfl | hd
        · exact hlt
        · exact Nat.lt_trans hlt (hp.1 d hd)

theorem pairwise_delKey {β : Type} (k : Nat) {l : List (Nat × β)} (h : l.Pairwise fun c d => c.1 < d.1) :
    (delKey k l).Pairwise fun c d => c.1 < d.1 := by
  induction l with
  | nil => exact h
  | cons c rest ih =>
    have hp := List.pairwise_cons.1 h
    simp only [delKey]
    split
    · exact ih hp.2
    · exact List.pairwise_cons.2 ⟨fun d hd => hp.1 d (mem_delKey hd), ih hp.2⟩

/-! ### Every memory operation keeps the canonical form -/

theorem setByte_wf {m : Memory} (a : Nat) (b : Byte) (h : m.wf = true) : (setByte m a b).wf = true := by
  rw [wf_iff] at h ⊢
  unfold setByte
  split
  · exact ⟨pairwise_delKey a h.1, fun c hc => h.2 c (mem_delKey hc)⟩
  · next hb =>
    refine ⟨pairwise_putKey a b h.1, fun c hc => ?_⟩
    rcases mem_putKey hc with rfl | hc
    · exact hb
    · exact h.2 c hc

theorem setBytes_wf {m : Memory} (a : Nat) (bs : List Byte) (h : m.wf = true) : (setBytes m a bs).wf = true := by
  induction bs generalizing m a with
  | nil => exact h
  | cons b bs ih => exact ih (a + 1) (setByte_wf a b h)

theorem setNat_wf {m : Memory} (a n v : Nat) (h : m.wf = true) : (setNat m a n v).wf = true := setBytes_wf a _ h

theorem filter_wf {m : Memory} (p : Host.Cell → Bool) (h : m.wf = true) : Memory.wf (m.filter p) = true := by
  rw [wf_iff] at h ⊢
  exact ⟨h.1.filter p, fun c hc => h.2 c (List.mem_filter.1 hc).1⟩

/-- A fold of operations that each keep a property keeps it. -/
theorem foldl_keeps {α β : Type} {P : β → Prop} {f : β → α → β} (hf : ∀ b a, P b → P (f b a)) (l : List α) {b : β}
    (h : P b) : P (l.foldl f b) := by
  induction l generalizing b with
  | nil => exact h
  | cons a l ih => exact ih (hf b a h)

/-- A fold of operations that leave a part of the state alone leaves it alone. -/
theorem foldl_part {α β γ : Type} {g : β → γ} {f : β → α → β} (hf : ∀ b a, g (f b a) = g b) (l : List α) (b : β) :
    g (l.foldl f b) = g b := by
  induction l generalizing b with
  | nil => rfl
  | cons a l ih => rw [List.foldl_cons, ih, hf]

theorem performStore_wf {s : State} (a : Nat) (d : List Byte) (k : Mark) (h : s.mem.wf = true) :
    (performStore a d k s).mem.wf = true := setBytes_wf a d h

@[simp] theorem findErrorBy_mem (d : Nat) (c : BitVec 16) (w : Nat) (s : State) : (findErrorBy d c w s).mem = s.mem := by
  unfold findErrorBy
  split <;> rfl

/-- Opening a shadow page leaves memory alone. -/
@[simp] theorem openShadow_mem (d : Side) (va : DWord) (pa : Nat) (s : State) : (openShadow d va pa s).mem = s.mem := by
  unfold openShadow
  split
  · rfl
  · exact foldl_part (g := State.mem) (fun s w => findErrorBy_mem 0 0xFFFF w s) _ _

theorem commitSide_wf {s : State} (d : Side) (pa : Nat) (va : DWord) (data : List Byte) (k : Mark)
    (h : s.mem.wf = true) : (commitSide d pa va data k s).mem.wf = true := by
  unfold commitSide
  split
  · simpa only [modTask_mem, openShadow_mem] using h
  · exact performStore_wf pa data k h

@[simp] theorem joinRels_mem (pa n : Nat) (l : List Release) (s : State) : (joinRels pa n l s).mem = s.mem :=
  foldl_part (g := State.mem) (fun _ _ => setRels_mem _ _ _ _) _ _

theorem commitStore_wf {s : State} (pa : Nat) (va : DWord) (data : List Byte) (k : Mark) (h : s.mem.wf = true) :
    (commitStore pa va data k s).mem.wf = true := commitSide_wf _ pa va data k h

theorem amoPerform_wf {s : State} (n pa : Nat) (va : DWord) (v : Nat) (k : Mark) (l : List Release)
    (h : s.mem.wf = true) : (amoPerform n pa va v k l s).mem.wf = true := by
  unfold amoPerform
  rw [joinRels_mem]
  exact commitStore_wf pa va _ k h

theorem commitPage_wf {s : State} (l : List Release) (p : ShadowPage) (h : s.mem.wf = true) :
    (commitPage l s p).mem.wf = true := by
  unfold commitPage
  rw [foldl_part (g := State.mem) (fun _ _ => setRels_mem _ _ _ _)]
  exact foldl_keeps (P := fun m : Memory => m.wf = true) (fun m c hm => setByte_wf c.1 c.2 hm) _ (filter_wf _ h)

theorem commitShadows_wf {s : State} (n : Nat) (t : Task) (h : s.mem.wf = true) :
    (commitShadows n t s).mem.wf = true :=
  foldl_keeps (P := fun s : State => s.mem.wf = true) (fun _ p hs => commitPage_wf t.finRel p hs) _ h

/-- A save, or an eviction, keeps the form. -/
theorem writeArea_wf {s : State} (b : Nat) (l : List (Nat × Byte × Mark)) (h : s.mem.wf = true) :
    (writeArea b l s).mem.wf = true :=
  foldl_keeps (P := fun m : Memory => m.wf = true) (fun _ c hm => setByte_wf (b + c.1) c.2.1 hm) _ h

/-- The memory after module reset has the canonical form. -/
theorem reset_wf : State.reset.mem.wf = true := rfl

/-! ### Reading a byte after a write -/

theorem getKey_putKey {β : Type} (k j : Nat) (v : β) (l : List (Nat × β)) :
    getKey j (putKey k v l) = if j = k then some v else getKey j l := by
  induction l with
  | nil => simp [putKey, getKey, eq_comm]
  | cons c rest ih =>
    simp only [putKey]
    split
    · next hlt =>
      simp only [getKey, ih]
      by_cases hj : c.1 = j
      · have : j ≠ k := by omega
        simp [hj, this]
      · simp [hj]
    · split
      · next heq =>
        simp only [getKey]
        by_cases hj : k = j
        · simp [hj]
        · have h1 : ¬ c.1 = j := by omega
          have h2 : ¬ j = k := by omega
          simp [hj, h1, h2]
      · next hge hne =>
        by_cases hj : j = k
        · simp [getKey, hj]
        · simp [getKey, hj, Ne.symm hj]

theorem getKey_delKey {β : Type} (k j : Nat) (l : List (Nat × β)) :
    getKey j (delKey k l) = if j = k then none else getKey j l := by
  induction l with
  | nil => simp [delKey, getKey]
  | cons c rest ih =>
    simp only [delKey]
    split
    · next hc =>
      rw [ih]
      by_cases hj : j = k
      · simp [hj]
      · simp [getKey, hj, show ¬ c.1 = j by omega]
    · next hc =>
      simp only [getKey, ih]
      by_cases hj : c.1 = j
      · simp [hj, show ¬ j = k by omega]
      · simp [hj]

/-- A byte of memory after one byte is written. -/
theorem memByte_setByte (m : Memory) (a c : Nat) (b : Byte) :
    memByte (setByte m a b) c = if c = a then b else memByte m c := by
  unfold setByte memByte
  split
  · next hb =>
    rw [getKey_delKey a c m]
    split
    · exact hb.symm
    · rfl
  · rw [getKey_putKey]
    split <;> rfl

/-- A byte of memory that a run of written bytes does not reach. -/
theorem memByte_setBytes_outside (m : Memory) (a c : Nat) (bs : List Byte)
    (hc : c < a ∨ a + bs.length ≤ c) : memByte (setBytes m a bs) c = memByte m c := by
  induction bs generalizing m a with
  | nil => rfl
  | cons b bs ih =>
    simp only [List.length_cons] at hc
    rw [setBytes, ih _ (a + 1) (by omega), memByte_setByte, if_neg (by omega)]

/-- A byte of memory inside a run of written bytes. -/
theorem memByte_setBytes_inside (m : Memory) (a i : Nat) (bs : List Byte) (hi : i < bs.length) :
    memByte (setBytes m a bs) (a + i) = bs[i] := by
  induction bs generalizing m a i with
  | nil => simp at hi
  | cons b bs ih =>
    cases i with
    | zero =>
      rw [setBytes, memByte_setBytes_outside _ _ _ _ (by omega), memByte_setByte]
      simp
    | succ i =>
      have := ih (setByte m a b) (a + 1) i (by simpa using hi)
      rw [setBytes, show a + (i + 1) = a + 1 + i by omega, this]
      rfl

end Sys2Proof.Laws
end

