-- ==== Sys2Proof/Laws/Access.lean ====
section
/-!
SUPPORT. What the shared operations of an access can do, each said once: which parts of the state a load, a store or the
reading and writing of an operand may change, whether it ends or stops, and that every one keeps memory canonical.
-/

namespace Sys2Proof.Laws

open Sys2Proof.Machine

/-! ### What an effect may leave -/

/-- Whether the effect ends or stops, the state it leaves stands in `R` to the state before. -/
def Leaves {α : Type} (R : State → State → Prop) (m : M α) : Prop :=
  ∀ s, match m s with
    | .ok _ t => R s t
    | .error _ t => R s t

/-- A relation that effects may be composed under. -/
structure Steady (R : State → State → Prop) : Prop where
  refl  : ∀ s, R s s
  trans : ∀ {s t u}, R s t → R t u → R s u

section
variable {α β : Type} {R : State → State → Prop}

theorem Leaves.ok {m : M α} (h : Leaves R m) {s t : State} {a : α} (e : m s = .ok a t) : R s t := by
  have := h s
  rw [e] at this
  exact this

theorem Leaves.error {m : M α} (h : Leaves R m) {s t : State} {x : Stop} (e : m s = .error x t) : R s t := by
  have := h s
  rw [e] at this
  exact this

theorem Leaves.mono {Q : State → State → Prop} (hq : ∀ {s t}, R s t → Q s t) {m : M α} (h : Leaves R m) :
    Leaves Q m := by
  intro s
  have := h s
  cases hm : m s <;> rw [hm] at this <;> exact hq this

theorem leaves_same (hR : Steady R) {m : M α} (h : ∀ s, (∃ a, m s = .ok a s) ∨ ∃ e, m s = .error e s) : Leaves R m := by
  intro s
  rcases h s with ⟨a, e⟩ | ⟨a, e⟩ <;> rw [e] <;> exact hR.refl s

theorem leaves_pure (hR : Steady R) (a : α) : Leaves R (pure a : M α) := fun s => hR.refl s

theorem leaves_raise (hR : Steady R) (c : BitVec 8) (v : DWord) (n : Option Nat) : Leaves R (raise c v n : M α) :=
  fun s => hR.refl s

theorem leaves_waitFor (hR : Steady R) (w : Wait) (n : Option Nat) : Leaves R (waitFor w n : M α) := fun s => hR.refl s

theorem leaves_getH (hR : Steady R) : Leaves R getH := fun s => hR.refl s

theorem leaves_getS (hR : Steady R) (f : State → α) : Leaves R (getS f) := fun s => hR.refl s

theorem leaves_modM {f : State → State} (h : ∀ s, R s (f s)) : Leaves R (modM f) := h

theorem leaves_modH {f : Hart → Hart} (h : ∀ s, R s { s with hart := f s.hart }) : Leaves R (modH f) := h

theorem leaves_bind (hR : Steady R) {m : M α} {f : α → M β} (hm : Leaves R m) (hf : ∀ a, Leaves R (f a)) :
    Leaves R (m >>= f) := by
  intro s
  have h1 := hm s
  rw [bind_run]
  cases e : m s with
  | error x t => rw [e] at h1; exact h1
  | ok a t =>
    rw [e] at h1
    have h2 := hf a t
    dsimp only
    cases e2 : f a t <;> rw [e2] at h2 <;> exact hR.trans h1 h2

theorem leaves_ite {c : Prop} [Decidable c] {a b : M α} (ha : c → Leaves R a) (hb : ¬ c → Leaves R b) :
    Leaves R (if c then a else b) := by
  split
  · next h => exact ha h
  · next h => exact hb h

theorem leaves_forEach (hR : Steady R) {f : α → M Unit} (h : ∀ a, Leaves R (f a)) (l : List α) :
    Leaves R (forEach l f) := by
  induction l with
  | nil => exact leaves_pure hR ()
  | cons a l ih => exact leaves_bind hR (h a) fun _ => ih

theorem leaves_foldL (hR : Steady R) {f : β → α → M β} (h : ∀ b a, Leaves R (f b a)) (l : List α) (b : β) :
    Leaves R (foldL f b l) := by
  induction l generalizing b with
  | nil => exact leaves_pure hR b
  | cons a l ih => exact leaves_bind hR (h b a) fun c => ih c

/-- A guard that stops, then the rest. -/
theorem leaves_guard (hR : Steady R) {c : Prop} [Decidable c] {x : M Unit} {k : Unit → M β}
    (hx : Leaves R x) (hk : ∀ r, Leaves R (k r)) : Leaves R (if c then x >>= k else k ()) :=
  leaves_ite (fun _ => leaves_bind hR hx hk) fun _ => hk ()

/-- As `Leaves`, of one state. -/
def LeavesAt {α : Type} (R : State → State → Prop) (s : State) (m : M α) : Prop :=
  match m s with
    | .ok _ t => R s t
    | .error _ t => R s t

theorem leaves_read {α β : Type} {R : State → State → Prop} {g : State → α} {f : α → M β}
    (h : ∀ s, LeavesAt R s (f (g s))) : Leaves R (getS g >>= f) := h

theorem leaves_hart {β : Type} {R : State → State → Prop} {f : Hart → M β}
    (h : ∀ s : State, LeavesAt R s (f s.hart)) : Leaves R (getH >>= f) := h

theorem leavesAt_raise {α : Type} {R : State → State → Prop} (hR : Steady R) (s : State) (c : BitVec 8) (v : DWord)
    (n : Option Nat) : LeavesAt R s (raise c v n : M α) := hR.refl s

theorem leavesAt_set {α : Type} {R : State → State → Prop} (hR : Steady R) {s t : State} {f : PUnit → M α} (h : R s t)
    (hf : Leaves R (f ⟨⟩)) : LeavesAt R s (set t >>= f) := by
  have h2 := hf t
  unfold LeavesAt
  rw [bind_run, set_run]
  dsimp only
  cases e : f ⟨⟩ t <;> rw [e] at h2 <;> exact hR.trans h h2

end

/-! ### The two relations -/

/-- What a load may change: the cached translations, the access records, the marks of words whose errors it finds, and in
the hart the remote-access bit, the task-level registers, the translations held for it and the access that a report names
(R187, R182, R18, R234, R307, R308). -/
def Reading (s t : State) : Prop :=
  ∃ tlb acc mk la bb fr rm tr he ra, t = { s with
    tlb := tlb, accesses := acc, marks := mk, latent := la, blackBox := bb, free := fr
    hart := { s.hart with remote := rm, tr := tr, held := he, raced := ra } }

/-- What operands, streams and stores may change: what a load may, and memory, the shadows and touchmarks of Assay, the
releases that words and shadowed barriers carry, and in the hart the scalar registers, the streams, the store buffer and the checkpoint. Memory
stays canonical. -/
def Storing (s t : State) : Prop :=
  (∃ tlb acc mk la bb fr rm tr he ra me sh ts rl ob x xm st bf ck, t = { s with
    tlb := tlb, accesses := acc, marks := mk, latent := la, blackBox := bb, free := fr
    mem := me, shadows := sh, tasks := ts, releases := rl, objRels := ob
    hart := { s.hart with
      remote := rm, tr := tr, held := he, raced := ra, x := x, xMark := xm, streams := st, buf := bf, ckpt := ck } }) ∧
  (s.mem.wf = true → t.mem.wf = true)

theorem reading_steady : Steady Reading where
  refl s := ⟨_, _, _, _, _, _, _, _, _, _, rfl⟩
  trans := by
    rintro s t u ⟨_, _, _, _, _, _, _, _, _, _, rfl⟩ ⟨_, _, _, _, _, _, _, _, _, _, rfl⟩
    exact ⟨_, _, _, _, _, _, _, _, _, _, rfl⟩

theorem storing_steady : Steady Storing where
  refl s := ⟨⟨_, _, _, _, _, _, _, _, _, _, _, _, _, _, _, _, _, _, _, _, rfl⟩, id⟩
  trans := by
    rintro s t u ⟨⟨_, _, _, _, _, _, _, _, _, _, _, _, _, _, _, _, _, _, _, _, rfl⟩, h1⟩
      ⟨⟨_, _, _, _, _, _, _, _, _, _, _, _, _, _, _, _, _, _, _, _, rfl⟩, h2⟩
    exact ⟨⟨_, _, _, _, _, _, _, _, _, _, _, _, _, _, _, _, _, _, _, _, rfl⟩, h2 ∘ h1⟩

theorem Reading.storing {s t : State} (h : Reading s t) : Storing s t := by
  obtain ⟨_, _, _, _, _, _, _, _, _, _, rfl⟩ := h
  exact ⟨⟨_, _, _, _, _, _, _, _, _, _, _, _, _, _, _, _, _, _, _, _, rfl⟩, id⟩

theorem Reading.mem {s t : State} (h : Reading s t) : t.mem = s.mem := by
  obtain ⟨_, _, _, _, _, _, _, _, _, _, rfl⟩ := h
  rfl

/-- The shape of a state that `Storing` allows, given as one record update. -/
theorem storing_of {s t : State} (h : t = { s with
      tlb := t.tlb, accesses := t.accesses, marks := t.marks, latent := t.latent, blackBox := t.blackBox, free := t.free
      mem := t.mem, shadows := t.shadows, tasks := t.tasks, releases := t.releases, objRels := t.objRels
      hart := { s.hart with
        remote := t.hart.remote, tr := t.hart.tr, held := t.hart.held, raced := t.hart.raced
        x := t.hart.x, xMark := t.hart.xMark, streams := t.hart.streams, buf := t.hart.buf, ckpt := t.hart.ckpt } })
    (hw : s.mem.wf = true → t.mem.wf = true) : Storing s t :=
  ⟨⟨_, _, _, _, _, _, _, _, _, _, _, _, _, _, _, _, _, _, _, _, h⟩, hw⟩

theorem foldl_steady {α : Type} {R : State → State → Prop} (hR : Steady R) {f : State → α → State}
    (h : ∀ s a, R s (f s a)) (l : List α) (s : State) : R s (l.foldl f s) := by
  induction l generalizing s with
  | nil => exact hR.refl s
  | cons a l ih => exact hR.trans (h s a) (ih (f s a))

/-! ### Poison, translation and the checks -/

theorem consume_leaves (m : Mark) : Leaves Reading (consume m) := by
  unfold consume
  exact leaves_ite (fun _ => leaves_pure reading_steady ()) fun _ => fun s => ⟨_, _, _, _, _, _, _, _, _, _, rfl⟩

theorem steerCheck_leaves (m : Mark) (n : Option Nat) : Leaves Reading (steerCheck m n) :=
  leaves_bind reading_steady (consume_leaves m) fun _ =>
    leaves_ite (fun _ => leaves_pure reading_steady ()) fun _ =>
      leaves_bind reading_steady (leaves_getH reading_steady) fun _ => leaves_raise reading_steady _ _ _

theorem findPage_leaves {die : Nat} {asid : BitVec 16} {ptb va : DWord} {s t : State} {p : Page}
    (h : findPage die asid ptb va s = .ok (p, t)) : ∃ l, t = { s with tlb := l } := by
  unfold findPage at h
  dsimp only at h
  split at h
  · cases h
    split <;> exact ⟨_, rfl⟩
  · split at h
    · cases h
    · cases h
      exact ⟨_, rfl⟩

theorem hartPage_leaves {h : Hart} {va : DWord} {s t : State} {p : Page} (e : hartPage h va s = .ok (p, t)) :
    ∃ l, t = { s with tlb := l } := by
  unfold hartPage at e
  split at e
  · cases e
    exact ⟨_, rfl⟩
  · exact findPage_leaves e

theorem holdPage_leaves (a : Access) (p : Page) : Leaves Reading (holdPage a p) := by
  refine leaves_modH fun s => ?_
  dsimp only
  split <;> exact ⟨_, _, _, _, _, _, _, _, _, _, rfl⟩

/-- Translation may cache the translation; it traps at the access's element or answers. -/
theorem translate_leaves (a : Access) (va : DWord) : Leaves Reading (Machine.translate a va) := by
  have stop (c : BitVec 8) : Leaves Reading (raise c va a.ves : M Unit) := leaves_raise reading_steady _ _ _
  unfold Machine.translate
  refine leaves_guard reading_steady (stop _) fun _ => ?_
  refine leaves_read fun s => ?_
  dsimp only [id_eq]
  split
  · exact leavesAt_raise reading_steady _ _ _ _
  · exact leavesAt_raise reading_steady _ _ _ _
  · next p u hp =>
    obtain ⟨l, rfl⟩ := hartPage_leaves hp
    refine leavesAt_set reading_steady ⟨_, _, _, _, _, _, _, _, _, _, rfl⟩ ?_
    refine leaves_bind reading_steady (holdPage_leaves a p) fun _ => ?_
    refine leaves_guard reading_steady (stop _) fun _ => ?_
    refine leaves_guard reading_steady (stop _) fun _ => ?_
    refine leaves_guard reading_steady (stop _) fun _ => ?_
    exact leaves_guard reading_steady (stop _) fun _ => leaves_pure reading_steady _

/-- The bank check traps or changes nothing. -/
theorem bankCheck_leaves (a : Access) (va : DWord) (pa n : Nat) : Leaves Reading (bankCheck a va pa n) :=
  leaves_bind reading_steady (leaves_getS reading_steady _) fun _ => by
    refine leaves_ite (fun _ => ?_) fun _ => leaves_pure reading_steady ()
    split
    · exact leaves_raise reading_steady _ _ _
    · exact leaves_pure reading_steady ()

/-- The hold of a hart's own posted operations waits or changes nothing. -/
theorem packetHold_leaves (a : Access) (pa n : Nat) : Leaves Reading (packetHold a pa n) :=
  leaves_bind reading_steady (leaves_getS reading_steady _) fun _ =>
    leaves_ite (fun _ => leaves_waitFor reading_steady _ _) fun _ => leaves_pure reading_steady ()

/-- The hold of a hart's own copies waits or changes nothing. -/
theorem copyHold_leaves (a : Access) (pa n : Nat) : Leaves Reading (copyHold a pa n) :=
  leaves_bind reading_steady (leaves_getS reading_steady _) fun _ =>
    leaves_ite (fun _ => leaves_waitFor reading_steady _ _) fun _ => leaves_pure reading_steady ()

theorem recordAccess_reading (w : WordAccess) (s : State) : Reading s (recordAccess w s) :=
  ⟨_, _, _, _, _, _, _, _, _, _, rfl⟩

theorem raceNote_reading (a : Access) (va : DWord) (w : Nat) (s : State) : Reading s (raceNote a va w s) := by
  unfold raceNote
  refine foldl_steady reading_steady (fun s k => ?_) _ s
  dsimp only
  split <;> split <;> first
    | exact reading_steady.trans (recordAccess_reading _ _) (recordAccess_reading _ _)
    | exact recordAccess_reading _ _
    | exact reading_steady.refl _

/-- Race detection of a word raises the memory-model exception or changes nothing. -/
theorem raceWord_leaves (a : Access) (va : DWord) (pa n w : Nat) : Leaves Reading (raceWord a va pa n w) := by
  unfold raceWord
  refine leaves_bind reading_steady (leaves_getS reading_steady _) fun s => ?_
  refine leaves_ite (fun _ => ?_) fun _ => leaves_pure reading_steady ()
  split
  · refine leaves_ite (fun _ => ?_) fun _ => leaves_pure reading_steady ()
    exact leaves_bind reading_steady (fun s => ⟨_, _, _, _, _, _, _, _, _, _, rfl⟩) fun _ =>
      leaves_raise reading_steady _ _ _
  · exact leaves_pure reading_steady ()

/-- What an access waits for and what race detection finds, before it is recorded. -/
theorem raceLook_leaves (a : Access) (va : DWord) (pa n : Nat) : Leaves Reading (raceLook a va pa n) :=
  leaves_bind reading_steady (bankCheck_leaves a va pa n) fun _ =>
    leaves_bind reading_steady (copyHold_leaves a pa n) fun _ =>
      leaves_bind reading_steady (packetHold_leaves a pa n) fun _ =>
        leaves_forEach reading_steady (fun w => raceWord_leaves a va pa n w) _

theorem raceRecord_reading (a : Access) (va : DWord) (pa n : Nat) (s : State) : Reading s (raceRecord a va pa n s) :=
  foldl_steady reading_steady (fun s w => raceNote_reading a (wordVa va pa w) w s) _ s

theorem reached_reading (a : Access) (pa : Nat) : Leaves Reading (modH (Hart.reached a pa)) :=
  leaves_modH fun _ => ⟨_, _, _, _, _, _, _, _, _, _, rfl⟩

/-- What a read that has passed its checks leaves on record. -/
theorem raceDone_leaves {a : Access} (h : a.write = false) (va : DWord) (pa n : Nat) : Leaves Reading (raceDone a va pa n) := by
  unfold raceDone
  refine leaves_bind reading_steady (leaves_modM fun s => raceRecord_reading a va pa n s) fun _ => ?_
  refine leaves_bind reading_steady (reached_reading a pa) fun _ => ?_
  rw [h]
  exact leaves_pure reading_steady ()

/-- The checks of a read that need its length. -/
theorem raceCheck_leaves {a : Access} (h : a.write = false) (va : DWord) (pa n : Nat) :
    Leaves Reading (raceCheck a va pa n) :=
  leaves_bind reading_steady (raceLook_leaves a va pa n) fun _ => raceDone_leaves h va pa n

/-- The checks of a read in several runs. -/
theorem raceRuns_leaves {a : Access} (h : a.write = false) (runs : List (DWord × Nat × Nat)) :
    Leaves Reading (raceRuns a runs) :=
  leaves_bind reading_steady (leaves_forEach reading_steady (fun _ => raceLook_leaves a _ _ _) _) fun _ =>
    leaves_forEach reading_steady (fun _ => raceDone_leaves h _ _ _) _

theorem needAligned_leaves (a : DWord) (n : Nat) (ves : Option Nat) : Leaves Reading (needAligned a n ves) :=
  leaves_ite (fun _ => leaves_pure reading_steady ()) fun _ => leaves_raise reading_steady _ _ _

/-! ### Loads -/

theorem findError_reading (w : Nat) (s : State) : Reading s (findError w s) := by
  unfold findError findErrorBy
  split
  · exact ⟨_, _, _, _, _, _, _, _, _, _, rfl⟩
  · exact reading_steady.refl s

/-- A read of physical memory finds the latent errors of its words and changes nothing else. -/
theorem readPhys_leaves (pa n : Nat) : Leaves Reading (readPhys pa n) :=
  leaves_bind reading_steady
    (leaves_forEach reading_steady (fun w => leaves_modM fun s => findError_reading w s) _) fun _ =>
    leaves_getS reading_steady _

theorem loadBytes_leaves {a : Access} (h : a.write = false) (va : DWord) (n : Nat) : Leaves Reading (loadBytes a va n) :=
  leaves_bind reading_steady (translate_leaves a va) fun pa =>
    leaves_bind reading_steady (raceCheck_leaves h va pa n) fun _ => readPhys_leaves pa n

/-- A load leaves all of memory as it was, whether it ends, traps or waits. -/
theorem loadNat_leaves {a : Access} (h : a.write = false) (va : DWord) (n : Nat) : Leaves Reading (loadNat a va n) :=
  leaves_bind reading_steady (loadBytes_leaves h va n) fun _ => leaves_pure reading_steady _

theorem loadStruct_leaves {a : Access} (h : a.write = false) (va : DWord) (n : Nat) : Leaves Reading (loadStruct a va n) :=
  leaves_bind reading_steady (loadNat_leaves (a := { a with whole := true }) h va n) fun _ =>
    leaves_bind reading_steady (steerCheck_leaves _ _) fun _ => leaves_pure reading_steady _

/-! ### Stores -/

theorem findErrorBy_reading (d : Nat) (c : BitVec 16) (w : Nat) (s : State) : Reading s (findErrorBy d c w s) := by
  unfold findErrorBy
  split
  · exact ⟨_, _, _, _, _, _, _, _, _, _, rfl⟩
  · exact reading_steady.refl s

/-- Opening a shadow page finds the errors in the page and adds the copy. -/
theorem openShadow_storing (d : Side) (va : DWord) (pa : Nat) (s : State) : Storing s (openShadow d va pa s) := by
  unfold openShadow
  split
  · exact storing_steady.refl s
  · dsimp only
    generalize pageSpan s _ va pa = span
    obtain ⟨base, size⟩ := span
    refine storing_steady.trans ((foldl_steady reading_steady (fun s w => findErrorBy_reading 0 0xFFFF w s)
      (s.latent.filter fun a => decide (base ≤ a ∧ a < base + size)) s).storing) ?_
    exact ⟨⟨_, _, _, _, _, _, _, _, _, _, _, _, _, _, _, _, _, _, _, _, rfl⟩, id⟩

theorem commitSide_storing (d : Side) (pa : Nat) (va : DWord) (data : List Byte) (k : Mark) (s : State) :
    Storing s (commitSide d pa va data k s) := by
  unfold commitSide
  split
  · refine storing_steady.trans (openShadow_storing d va pa s) (storing_steady.trans (t := { openShadow d va pa s with
        shadows := (openShadow d va pa s).shadows.map fun p =>
          if p.task = d.task && p.copy = d.copy && p.base ≤ pa && pa < p.base + p.size then p.store pa data k else p })
      ?_ ?_)
    · exact ⟨⟨_, _, _, _, _, _, _, _, _, _, _, _, _, _, _, _, _, _, _, _, rfl⟩, id⟩
    · exact ⟨⟨_, _, _, _, _, _, _, _, _, _, _, _, _, _, _, _, _, _, _, _, rfl⟩, id⟩
  · exact ⟨⟨_, _, _, _, _, _, _, _, _, _, _, _, _, _, _, _, _, _, _, _, rfl⟩, performStore_wf pa data k⟩

theorem commitStore_storing (pa : Nat) (va : DWord) (data : List Byte) (k : Mark) (s : State) :
    Storing s (commitStore pa va data k s) := commitSide_storing _ pa va data k s

theorem setRels_storing (a n : Nat) (l : List Release) (s : State) : Storing s (setRels a n l s) :=
  ⟨⟨_, _, _, _, _, _, _, _, _, _, _, _, _, _, _, _, _, _, _, _, rfl⟩, id⟩

theorem modH_storing {f : Hart → Hart} (h : ∀ a : Hart, f a = { a with
      remote := (f a).remote, tr := (f a).tr, held := (f a).held, raced := (f a).raced, x := (f a).x, xMark := (f a).xMark
      streams := (f a).streams, buf := (f a).buf, ckpt := (f a).ckpt }) : Leaves Storing (modH f) := by
  intro s
  rw [modH_run, h s.hart]
  exact ⟨⟨_, _, _, _, _, _, _, _, _, _, _, _, _, _, _, _, _, _, _, _, rfl⟩, id⟩

/-- An ordinary store is performed, and its bytes lose their releases. -/
theorem plainStore_storing (pa : Nat) (va : DWord) (data : List Byte) (k : Mark) (s : State) :
    Storing s (plainStore pa va data k s) :=
  storing_steady.trans (commitStore_storing pa va data k s) (setRels_storing _ _ _ _)

/-- A buffered store is performed, or lost with a bit of CIR. -/
theorem landStore_storing (b : BufStore) (s : State) : Storing s (landStore b s) := by
  unfold landStore
  split
  · exact plainStore_storing _ _ _ _ s
  · exact ⟨⟨_, _, _, _, _, _, _, _, _, _, _, _, _, _, _, _, _, _, _, _, rfl⟩, id⟩

/-- Committing the open strip's buffer performs its stores and empties it. -/
theorem commitBuffer_leaves : Leaves Storing commitBuffer :=
  leaves_bind storing_steady (leaves_getH storing_steady) fun h =>
    leaves_bind storing_steady
      (leaves_modM fun s => foldl_steady storing_steady (fun s b => landStore_storing b s) h.buf s)
      fun _ => modH_storing fun _ => rfl

theorem unprotect_leaves : Leaves Storing unprotect :=
  leaves_bind storing_steady (leaves_getH storing_steady) fun _ =>
    leaves_ite (fun _ => leaves_bind storing_steady commitBuffer_leaves fun _ => modH_storing fun _ => rfl)
      fun _ => leaves_pure storing_steady ()

/-- A buffered store is held by the open strip or performed. -/
theorem bufferedStore_leaves (pa : Nat) (va : DWord) (data : List Byte) (k : Mark) :
    Leaves Storing (bufferedStore pa va data k) := by
  have now : Leaves Storing (modM (plainStore pa va data k)) := leaves_modM fun s => plainStore_storing pa va data k s
  refine leaves_bind storing_steady (leaves_getH storing_steady) fun _ => ?_
  refine leaves_ite (fun _ => ?_) fun _ => now
  exact leaves_ite (fun _ => modH_storing fun _ => rfl) fun _ => leaves_bind storing_steady unprotect_leaves fun _ => now

/-- What an access that has passed its checks leaves on record; a write ends reading ahead at what it touches. -/
theorem raceDone_storing (a : Access) (va : DWord) (pa n : Nat) : Leaves Storing (raceDone a va pa n) :=
  leaves_bind storing_steady (leaves_modM fun s => (raceRecord_reading a va pa n s).storing) fun _ =>
    leaves_bind storing_steady ((reached_reading a pa).mono Reading.storing) fun _ =>
      leaves_ite (fun _ => modH_storing fun _ => rfl) fun _ => leaves_pure storing_steady ()

/-- The checks of an access that need its length. -/
theorem raceCheck_storing (a : Access) (va : DWord) (pa n : Nat) : Leaves Storing (raceCheck a va pa n) :=
  leaves_bind storing_steady ((raceLook_leaves a va pa n).mono Reading.storing) fun _ => raceDone_storing a va pa n

/-- What a store may change, whether it ends, traps or waits; memory stays canonical. -/
theorem storeNat_leaves (a : Access) (va : DWord) (n v : Nat) (k : Mark) : Leaves Storing (storeNat a va n v k) :=
  leaves_bind storing_steady ((translate_leaves a va).mono Reading.storing) fun pa =>
    leaves_bind storing_steady (raceCheck_storing a va pa n) fun _ => bufferedStore_leaves pa va _ k

/-! ### Operands -/

theorem streamTrap_leaves {α : Type} : Leaves Reading (streamTrap : M α) :=
  leaves_bind reading_steady (leaves_getH reading_steady) fun _ => leaves_raise reading_steady _ _ _

theorem useStream_leaves (vec : Bool) (r : Reg) (n : Nat) : Leaves Storing (useStream vec r n) := modH_storing fun _ => rfl

/-- An effect that changes no clock, run with another clock, leaves what it leaves with its own. -/
theorem withClock_leaves {α : Type} {m : M α} (c : List (Nat × Nat)) (h : Leaves Reading m) :
    Leaves Reading (withClock c m) := by
  intro s
  have hm := h { s with hart := { s.hart with clock := c } }
  unfold withClock
  dsimp only
  cases e : m { s with hart := { s.hart with clock := c } } <;> rw [e] at hm <;>
    obtain ⟨_, _, _, _, _, _, _, _, _, _, rfl⟩ := hm <;> exact ⟨_, _, _, _, _, _, _, _, _, _, rfl⟩

theorem popElem_leaves (b : StreamB) (i : Nat) : Leaves Reading (popElem b i) :=
  leaves_bind reading_steady (withClock_leaves _ (loadNat_leaves rfl _ _)) fun _ => leaves_pure reading_steady _

theorem modX_leaves (n : Nat) (v : DWord) (m : Mark) : Leaves Storing (modH fun h => h.setX n v m) :=
  modH_storing fun h => by
    unfold Hart.setX
    split <;> rfl

/-- A scalar source: the register, or one element popped from the stream bound to it; `take` is what its mark does. -/
theorem srcXBy_leaves {take : Mark → M Unit} (ht : ∀ m, Leaves Reading (take m)) (r : Reg) :
    Leaves Storing (srcXBy take r) := by
  refine leaves_bind storing_steady (leaves_getH storing_steady) fun h => ?_
  split
  · exact leaves_bind storing_steady ((ht _).mono Reading.storing) fun _ => leaves_pure storing_steady _
  · refine leaves_guard storing_steady (streamTrap_leaves.mono Reading.storing) fun _ => ?_
    refine leaves_bind storing_steady ((popElem_leaves _ _).mono Reading.storing) fun p => ?_
    refine leaves_bind storing_steady ((ht _).mono Reading.storing) fun _ => ?_
    refine leaves_bind storing_steady unprotect_leaves fun _ => ?_
    refine leaves_bind storing_steady (useStream_leaves _ _ _) fun _ => ?_
    exact leaves_bind storing_steady (modX_leaves _ _ _) fun _ => leaves_pure storing_steady _

theorem srcX_leaves (r : Reg) : Leaves Storing (srcX r) := srcXBy_leaves consume_leaves r

theorem steerX_leaves (r : Reg) : Leaves Storing (steerX r) :=
  leaves_bind storing_steady (srcXBy_leaves (fun m => steerCheck_leaves m none) r) fun _ => leaves_pure storing_steady _

/-- The checks of a scalar destination change no register and no byte of memory. -/
theorem destX_leaves (r : Reg) : Leaves Reading (destX r) := by
  refine leaves_bind reading_steady (leaves_getH reading_steady) fun h => ?_
  split
  · exact leaves_pure reading_steady ()
  · refine leaves_guard reading_steady streamTrap_leaves fun _ => ?_
    exact leaves_bind reading_steady (translate_leaves _ _) fun _ => raceLook_leaves _ _ _ _

/-- A scalar destination: the register, and one element pushed to the stream bound to it. -/
theorem setX_leaves (r : Reg) (v : DWord) (m : Mark) : Leaves Storing (setX r v m) := by
  refine leaves_bind storing_steady (leaves_getH storing_steady) fun h => ?_
  refine leaves_bind storing_steady (modX_leaves _ _ _) fun _ => ?_
  split
  · exact leaves_pure storing_steady ()
  · refine leaves_bind storing_steady unprotect_leaves fun _ => ?_
    exact leaves_bind storing_steady (storeNat_leaves _ _ _ _ _) fun _ => useStream_leaves _ _ _

/-! ### The checks before a unit's effect -/

theorem prefixPlace_leaves : Leaves Reading prefixPlace :=
  leaves_bind reading_steady (leaves_getH reading_steady) fun _ =>
    leaves_ite (fun _ => leaves_raise reading_steady _ _ _) fun _ => leaves_pure reading_steady ()

theorem detTrap_leaves : Leaves Reading detTrap :=
  leaves_bind reading_steady (leaves_getH reading_steady) fun _ =>
    leaves_ite (fun _ => leaves_raise reading_steady _ _ _) fun _ => leaves_pure reading_steady ()

theorem unitStart_leaves (det : Bool) : Leaves Reading (unitStart det) :=
  leaves_guard reading_steady detTrap_leaves fun _ => prefixPlace_leaves

theorem planishGate_leaves : Leaves Reading planishGate :=
  leaves_bind reading_steady (leaves_getH reading_steady) fun _ =>
    leaves_ite (fun _ => leaves_waitFor reading_steady _ _) fun _ => leaves_pure reading_steady ()

theorem releaseGate_leaves : Leaves Reading releaseGate :=
  leaves_bind reading_steady (leaves_getS reading_steady _) fun _ =>
    leaves_ite (fun _ => leaves_waitFor reading_steady _ _) fun _ => leaves_pure reading_steady ()

theorem raiseFlags_leaves (fl : FpFlags) : Leaves Reading (raiseFlags fl) :=
  leaves_bind reading_steady (leaves_getH reading_steady) fun _ =>
    leaves_bind reading_steady (fun _ => ⟨_, _, _, _, _, _, _, _, _, _, rfl⟩) fun _ => leaves_pure reading_steady _

/-- Flags of an element: FCR keeps them, and an enabled one traps. -/
theorem fpFlags_leaves (fl : FpFlags) (e : Option Nat) : Leaves Reading (fpFlags fl e) :=
  leaves_bind reading_steady (raiseFlags_leaves fl) fun _ =>
    leaves_bind reading_steady (leaves_getH reading_steady) fun _ =>
      leaves_ite (fun _ => leaves_raise reading_steady _ _ _) fun _ => leaves_pure reading_steady ()

/-! ### From an effect to a step -/

/-- If the effect of a unit leaves memory canonical, so does the unit. -/
theorem runUnit_wf {m : M Flow} (h : Leaves (fun s t => s.mem.wf = true → t.mem.wf = true) m) {s t : State}
    (hs : s.mem.wf = true) (e : runUnit m s = .next t) : t.mem.wf = true := by
  have hm := h s
  unfold runUnit at e
  cases hr : m s <;> rw [hr] at hm e <;> cases e <;> exact hm hs

end Sys2Proof.Laws
end

