-- ==== Sys2Proof/Laws/Operands.lean ====
section
/-!
SUPPORT. What the shared operations on prefixes and scalar registers do: each lemma says everything its operation can do
under the conditions of `Sys2Proof.Safety`.
-/

namespace Sys2Proof.Laws

open Sys2Proof.Machine Sys2Proof.Safety

/-! ### Consuming a mark -/

@[simp] theorem seen_zero (h : Hart) : seen 0 h = h := by simp [seen]

@[simp] theorem seen_seen (a b : Mark) (h : Hart) : seen a (seen b h) = seen (b ||| a) h := by
  simp [seen, BitVec.or_assoc]

@[simp] theorem seen_xr (a : Mark) (h : Hart) (n : Nat) : (seen a h).xr n = h.xr n := rfl

@[simp] theorem seen_xm (a : Mark) (h : Hart) (n : Nat) : (seen a h).xm n = h.xm n := rfl

@[simp] theorem seen_unbound (a : Mark) (h : Hart) (r : Reg) : Unbound (seen a h) r ↔ Unbound h r := Iff.rfl

theorem consume_run (m : Mark) (s : State) : consume m s = .ok () { s with hart := seen m s.hart } := by
  unfold consume
  split
  · next h => subst h; simp only [seen_zero]; rfl
  · rfl

theorem steerCheck_run (n : Option Nat) (s : State) : steerCheck 0 n s = .ok () s := by
  have hs : ({ s with hart := seen (0 : Mark) s.hart } : State) = s := by simp only [seen_zero]
  simp only [steerCheck, bind_run, consume_run, hs]
  rfl

/-! ### The start of a unit -/

theorem prefixPlace_run {s : State} (h : PrefixPlaced s.hart) : prefixPlace s = .ok () s := by
  unfold prefixPlace
  rcases h with h | h <;> simp [h]

theorem unitStart_run {s : State} {det : Bool} (h : PrefixPlaced s.hart) (hd : det = true → s.hart.det = false) :
    unitStart det s = .ok () s := by
  cases det <;> simp_all [unitStart, prefixPlace_run, detTrap]

/-! ### Scalar registers -/

theorem setX_unbound (h : Hart) (n : Nat) (v : DWord) (m : Mark) (r : Reg) :
    Unbound (h.setX n v m) r ↔ Unbound h r := by
  unfold Hart.setX
  split <;> rfl

theorem destX_run {s : State} {r : Reg} (h : Unbound s.hart r) : destX r s = .ok () s := by
  unfold Unbound at h
  simp [destX, h]

theorem srcXBy_run {s t : State} {r : Reg} {take : Mark → M Unit} (h : Unbound s.hart r)
    (ht : take (s.hart.xm r.toNat) s = .ok () t) :
    srcXBy take r s = .ok (s.hart.xr r.toNat, s.hart.xm r.toNat) t := by
  unfold Unbound at h
  simp [srcXBy, h, ht]

theorem srcX_run {s : State} {r : Reg} (h : Unbound s.hart r) :
    srcX r s = .ok (s.hart.xr r.toNat, s.hart.xm r.toNat) { s with hart := seen (s.hart.xm r.toNat) s.hart } :=
  srcXBy_run h (consume_run _ s)

theorem steerX_run {s : State} {r : Reg} (h : Unbound s.hart r) (hm : s.hart.xm r.toNat = 0) :
    steerX r s = .ok (s.hart.xr r.toNat) s := by
  have ht : (fun m => steerCheck m) (s.hart.xm r.toNat) s = .ok () s := by simpa only [hm] using steerCheck_run none s
  simp only [steerX, bind_run, srcXBy_run (take := fun m => steerCheck m) h ht, pure_run]

/-- State registers without a mark let a unit go on (R313). -/
theorem steerRegs_run {s : State} (ns : List Nat) (h : s.hart.srMark = []) : steerRegs ns s = .ok () s := by
  have hm : ns.foldl (fun m n => m ||| s.hart.sm n) (0 : Mark) = 0 := by
    induction ns with
    | nil => rfl
    | cons n ns ih => simpa [Hart.sm, h, getKey] using ih
  simp only [steerRegs, bind_run, getH_run, hm, steerCheck_run]

theorem setX_run {s : State} {r : Reg} (v : DWord) (m : Mark) (h : Unbound s.hart r) :
    setX r v m s = .ok () { s with hart := s.hart.setX r.toNat v m } := by
  have h' : streamOf s.hart false r = none := h
  simp [setX, h']

theorem binX_run {s : State} {b c d : Reg} (f : DWord → DWord → DWord) (hb : Unbound s.hart b)
    (hc : Unbound s.hart c) (hd : Unbound s.hart d) :
    let m := s.hart.xm b.toNat ||| s.hart.xm c.toNat
    let v := f (s.hart.xr b.toNat) (s.hart.xr c.toNat)
    binX d b c f s = .ok .seq { s with hart := (seen m s.hart).setX d.toNat v m } := by
  simp [binX, destX_run, srcX_run, setX_run, hb, hc, hd]

theorem unX_run {s : State} {b d : Reg} (f : DWord → DWord) (hb : Unbound s.hart b) (hd : Unbound s.hart d) :
    let m := s.hart.xm b.toNat
    unX d b f s = .ok .seq { s with hart := (seen m s.hart).setX d.toNat (f (s.hart.xr b.toNat)) m } := by
  simp [unX, destX_run, srcX_run, setX_run, hb, hd]

end Sys2Proof.Laws
end

