-- ==== Sys2Proof/Laws/Vectors.lean ====
section
/-!
SUPPORT. What the shared operations of the vector instructions may change: operands, masks, destinations and the passes
over the elements. A meaning over them changes no more than its own body does.
-/

namespace Sys2Proof.Laws

open Sys2Proof.Machine

/-- What a vector unit's effect may change: what a store may, and in the hart the vector registers with their marks and
heights, the Planish queue, the trap that waits for its element and the register kept for a resumption. -/
def Working (s t : State) : Prop :=
  (∃ tlb acc mk la bb fr rm tr he ra me sh ts rl ob x xm st bf ck v vm sp hw pl lt kp, t = { s with
    tlb := tlb, accesses := acc, marks := mk, latent := la, blackBox := bb, free := fr
    mem := me, shadows := sh, tasks := ts, releases := rl, objRels := ob
    hart := { s.hart with
      remote := rm, tr := tr, held := he, raced := ra, x := x, xMark := xm, streams := st, buf := bf, ckpt := ck
      v := v, vMark := vm, spared := sp, hw := hw, planish := pl, late := lt, kept := kp } }) ∧
  (s.mem.wf = true → t.mem.wf = true)

theorem working_steady : Steady Working where
  refl s := ⟨⟨_, _, _, _, _, _, _, _, _, _, _, _, _, _, _, _, _, _, _, _, _, _, _, _, _, _, _, rfl⟩, id⟩
  trans := by
    rintro s t u ⟨⟨_, _, _, _, _, _, _, _, _, _, _, _, _, _, _, _, _, _, _, _, _, _, _, _, _, _, _, rfl⟩, h1⟩
      ⟨⟨_, _, _, _, _, _, _, _, _, _, _, _, _, _, _, _, _, _, _, _, _, _, _, _, _, _, _, rfl⟩, h2⟩
    exact ⟨⟨_, _, _, _, _, _, _, _, _, _, _, _, _, _, _, _, _, _, _, _, _, _, _, _, _, _, _, rfl⟩, h2 ∘ h1⟩

theorem Storing.working {s t : State} (h : Storing s t) : Working s t := by
  obtain ⟨⟨_, _, _, _, _, _, _, _, _, _, _, _, _, _, _, _, _, _, _, _, rfl⟩, hw⟩ := h
  exact ⟨⟨_, _, _, _, _, _, _, _, _, _, _, _, _, _, _, _, _, _, _, _, _, _, _, _, _, _, _, rfl⟩, hw⟩

theorem Reading.working {s t : State} (h : Reading s t) : Working s t := h.storing.working

theorem Working.wf {s t : State} (h : Working s t) : s.mem.wf = true → t.mem.wf = true := h.2

/-- The hart's identity, place, mode, PC, prefix, supervisor registers and loops are as they were. -/
theorem Working.hart {s t : State} (h : Working s t) :
    t.hart.status = s.hart.status ∧ t.hart.hartid = s.hart.hartid ∧ t.hart.taskNo = s.hart.taskNo ∧
    t.hart.mode = s.hart.mode ∧ t.hart.pc = s.hart.pc ∧ t.hart.pfx = s.hart.pfx ∧ t.hart.sr = s.hart.sr ∧
    t.hart.loops = s.hart.loops ∧ t.hart.seqOff = s.hart.seqOff := by
  obtain ⟨⟨_, _, _, _, _, _, _, _, _, _, _, _, _, _, _, _, _, _, _, _, _, _, _, _, _, _, _, rfl⟩, -⟩ := h
  exact ⟨rfl, rfl, rfl, rfl, rfl, rfl, rfl, rfl, rfl⟩

/-- A change of the hart in focus that `Working` allows. -/
def Kept (a b : Hart) : Prop :=
  ∃ rm tr he ra x xm st bf ck v vm sp hw pl lt kp, b = { a with
    remote := rm, tr := tr, held := he, raced := ra, x := x, xMark := xm, streams := st, buf := bf, ckpt := ck
    v := v, vMark := vm, spared := sp, hw := hw, planish := pl, late := lt, kept := kp }

theorem kept_refl (a : Hart) : Kept a a := ⟨_, _, _, _, _, _, _, _, _, _, _, _, _, _, _, _, rfl⟩

theorem kept_trans {a b c : Hart} (h : Kept a b) (k : Kept b c) : Kept a c := by
  obtain ⟨_, _, _, _, _, _, _, _, _, _, _, _, _, _, _, _, rfl⟩ := h
  obtain ⟨_, _, _, _, _, _, _, _, _, _, _, _, _, _, _, _, rfl⟩ := k
  exact ⟨_, _, _, _, _, _, _, _, _, _, _, _, _, _, _, _, rfl⟩

theorem kept_foldl {α : Type} {f : Hart → α → Hart} (h : ∀ a x, Kept a (f a x)) (l : List α) (a : Hart) :
    Kept a (l.foldl f a) := by
  induction l generalizing a with
  | nil => exact kept_refl a
  | cons x l ih => exact kept_trans (h a x) (ih (f a x))

theorem modH_working {f : Hart → Hart} (h : ∀ a, Kept a (f a)) : Leaves Working (modH f) := by
  intro s
  obtain ⟨_, _, _, _, _, _, _, _, _, _, _, _, _, _, _, _, e⟩ := h s.hart
  rw [modH_run, e]
  exact ⟨⟨_, _, _, _, _, _, _, _, _, _, _, _, _, _, _, _, _, _, _, _, _, _, _, _, _, _, _, rfl⟩, id⟩

theorem kept_setSpared (p lo hi : Nat) (f : Nat → Nat) (h : Hart) : Kept h (h.setSpared p lo hi f) := by
  unfold Hart.setSpared
  split
  · exact ⟨_, _, _, _, _, _, _, _, _, _, _, _, _, _, _, _, rfl⟩
  · exact kept_refl h

theorem kept_wholeBytes (p lo hi : Nat) (h : Hart) : Kept h (h.wholeBytes p lo hi) := kept_setSpared _ _ _ _ h

theorem kept_touchV (p top : Nat) (h : Hart) : Kept h (h.touchV p top) :=
  ⟨_, _, _, _, _, _, _, _, _, _, _, _, _, _, _, _, rfl⟩

theorem kept_vectors (v : Vector VBits 192) (m : Vector VBits 192) (h : Hart) : Kept h { h with v := v, vMark := m } :=
  ⟨_, _, _, _, _, _, _, _, _, _, _, _, _, _, _, _, rfl⟩

theorem kept_setElem (p w e x : Nat) (m : Mark) (h : Hart) : Kept h (h.setElem p w e x m) := by
  unfold Hart.setElem
  exact kept_trans (kept_trans (kept_vectors _ _ h) (kept_touchV _ _ _)) (kept_wholeBytes _ _ _ _)

theorem kept_markV (m : Mark) (p lo n : Nat) (h : Hart) : Kept h (h.markV m p lo n) :=
  ⟨_, _, _, _, _, _, _, _, _, _, _, _, _, _, _, _, rfl⟩

theorem kept_zeroBytes (p lo hi : Nat) (h : Hart) : Kept h (h.zeroBytes p lo hi) := by
  unfold Hart.zeroBytes
  split
  · exact kept_refl h
  · exact kept_trans (kept_trans (kept_vectors _ _ h) (kept_touchV _ _ _)) (kept_wholeBytes _ _ _ _)

theorem kept_setLow (p n v m : Nat) (h : Hart) : Kept h (h.setLow p n v m) := by
  unfold Hart.setLow
  exact kept_trans (kept_trans (kept_vectors _ _ h) (kept_touchV _ _ _)) (kept_wholeBytes _ _ _ _)

/-! ### Sources and destinations -/

/-- A vector register that is not FULL makes the unit wait; otherwise nothing happens. -/
theorem needFull_leaves (r : Reg) : Leaves Reading (needFull r) :=
  leaves_bind reading_steady (leaves_getH reading_steady) fun _ =>
    leaves_ite (fun _ => leaves_waitFor reading_steady _ _) fun _ => leaves_pure reading_steady ()

/-- Work on a stream's element ahead of the elements latches its trap. -/
theorem latched_leaves {α : Type} {m : M α} (e : Nat) (h : Leaves Reading m) : Leaves Working (latched e m) := by
  intro s
  have hm := h s
  unfold latched
  cases k : m s with
  | ok x t => rw [k] at hm; exact Reading.working hm
  | error c t =>
    rw [k] at hm
    cases c with
    | trap c v n =>
      obtain ⟨_, _, _, _, _, _, _, _, _, _, rfl⟩ := hm
      exact ⟨⟨_, _, _, _, _, _, _, _, _, _, _, _, _, _, _, _, _, _, _, _, _, _, _, _, _, _, _, rfl⟩, id⟩
    | wait w n => exact Reading.working hm

/-- Taking the latched trap, if it is due. -/
theorem lateTrap_leaves (n : Nat) : Leaves Reading (lateTrap n) := by
  refine leaves_bind reading_steady (leaves_getH reading_steady) fun h => ?_
  split
  · refine leaves_ite (fun _ => ?_) fun _ => leaves_pure reading_steady ()
    exact leaves_bind reading_steady (fun s => ⟨_, _, _, _, _, _, _, _, _, _, rfl⟩) fun _ =>
      leaves_raise reading_steady _ _ _
  · exact leaves_pure reading_steady ()

theorem settle_leaves : Leaves Reading settle := by
  refine leaves_bind reading_steady (leaves_getH reading_steady) fun h => ?_
  split
  · exact lateTrap_leaves _
  · exact leaves_pure reading_steady ()

theorem popElems_leaves (b : StreamB) (p w : Nat) (pace : Pace) (l : List Nat) :
    Leaves Working (popElems b p w pace l) := by
  induction l with
  | nil => exact leaves_pure working_steady ()
  | cons i l ih =>
    refine leaves_bind working_steady (latched_leaves _ (popElem_leaves b i)) fun x => ?_
    split
    · refine leaves_bind working_steady (modH_working fun h => ?_) fun _ => ih
      split
      · exact kept_setElem _ _ _ _ _ h
      · exact kept_refl h
    · exact leaves_pure working_steady ()

theorem popV_leaves (b : StreamB) (r : Reg) (w n : Nat) (pace : Pace) : Leaves Working (popV b r w n pace) := by
  unfold popV popCheck
  refine leaves_bind working_steady (leaves_ite (fun _ => streamTrap_leaves.mono Reading.working) fun _ =>
    leaves_pure working_steady ()) fun _ => ?_
  refine leaves_bind working_steady (leaves_getH working_steady) fun h => ?_
  refine leaves_bind working_steady (unprotect_leaves.mono Storing.working) fun _ => ?_
  refine leaves_bind working_steady (modH_working fun a => kept_zeroBytes _ _ _ a) fun _ => ?_
  exact leaves_bind working_steady (popElems_leaves _ _ _ _ _) fun _ => (useStream_leaves _ _ _).mono Storing.working

/-- A vector source: the register, or the elements popped from the stream bound to it. -/
theorem srcV_leaves (r : Reg) (w n : Nat) (pace : Pace) : Leaves Working (srcV r w n pace) := by
  refine leaves_bind working_steady ((needFull_leaves r).mono Reading.working) fun _ => ?_
  refine leaves_bind working_steady (leaves_getH working_steady) fun h => ?_
  have last : ∀ _ : Unit, Leaves Working (do
      let h := (← getH).issued
      pure (h.vreg (h.phys r.toNat), h.vmark (h.phys r.toNat))) := fun _ =>
    leaves_bind working_steady (leaves_getH working_steady) fun _ => leaves_pure working_steady _
  dsimp only
  split
  · exact last ()
  · refine leaves_ite (fun _ => last ()) fun _ => ?_
    exact leaves_bind working_steady (popV_leaves _ _ _ _ _) last

theorem srcAll_leaves (r : Reg) (w n : Nat) : Leaves Working (srcAll r w n) :=
  leaves_bind working_steady (srcV_leaves r w n _) fun _ =>
    leaves_bind working_steady (settle_leaves.mono Reading.working) fun _ => leaves_pure working_steady _

/-- The checks of a push. -/
theorem pushLook_leaves (b : StreamB) (i : Nat) : Leaves Reading (pushLook b i) :=
  leaves_bind reading_steady (translate_leaves _ _) fun _ => raceLook_leaves _ _ _ _

/-- The checks of a vector destination. -/
theorem destV_leaves (r : Reg) (w n ves : Nat) (pace : Pace) (k : Nat) : Leaves Working (destV r w n ves pace k) := by
  refine leaves_bind working_steady ((needFull_leaves r).mono Reading.working) fun _ => ?_
  refine leaves_bind working_steady (leaves_getH working_steady) fun h => ?_
  split
  · exact leaves_pure working_steady ()
  · refine leaves_guard working_steady (streamTrap_leaves.mono Reading.working) fun _ => ?_
    refine leaves_forEach working_steady (fun e => ?_) _
    exact leaves_bind working_steady (latched_leaves _ (pushLook_leaves _ _)) fun _ => leaves_pure working_steady _

/-- One element of an output stream is pushed. -/
theorem pushElem_leaves (r : Reg) (w i : Nat) : Leaves Storing (pushElem r w i) := by
  refine leaves_bind storing_steady (leaves_getH storing_steady) fun h => ?_
  split
  · exact leaves_pure storing_steady ()
  · exact leaves_bind storing_steady unprotect_leaves fun _ => storeNat_leaves _ _ _ _ _

theorem pushEnd_leaves (r : Reg) (n : Nat) : Leaves Storing (pushEnd r n) :=
  leaves_bind storing_steady (leaves_getH storing_steady) fun _ =>
    leaves_ite (fun _ => useStream_leaves _ _ _) fun _ => leaves_pure storing_steady ()

theorem pushDest_leaves (r : Reg) (w n : Nat) : Leaves Storing (pushDest r w n) :=
  leaves_bind storing_steady (leaves_forEach storing_steady (fun e => pushElem_leaves r w e) _) fun _ => pushEnd_leaves r n

theorem putElem_leaves (r : Reg) (w e x : Nat) (m : Mark) : Leaves Working (putElem r w e x m) :=
  modH_working fun h => kept_setElem _ _ _ _ _ h

theorem takeElem_leaves (v : VBits × VBits) (w e : Nat) : Leaves Reading (takeElem v w e) :=
  leaves_bind reading_steady (consume_leaves _) fun _ => leaves_pure reading_steady _

theorem steerElem_leaves (v : VBits × VBits) (w e : Nat) : Leaves Reading (steerElem v w e) :=
  leaves_bind reading_steady (steerCheck_leaves _ _) fun _ => leaves_pure reading_steady _

/-! ### Masks and passes -/

theorem steerRegs_leaves (ns : List Nat) : Leaves Reading (steerRegs ns) :=
  leaves_bind reading_steady (leaves_getH reading_steady) fun _ => steerCheck_leaves _ _

theorem vecCtx_leaves (p m : BitVec 1) : Leaves Reading (vecCtx p m) :=
  leaves_bind reading_steady (steerRegs_leaves _) fun _ =>
    leaves_bind reading_steady (leaves_getH reading_steady) fun _ => leaves_pure reading_steady _

theorem maskSteer_leaves (c : VCtx) (n : Nat) : Leaves Reading (maskSteer c n) := steerCheck_leaves _ _

theorem stopHere_leaves (e : Nat) : Leaves Reading (stopHere e) := by
  refine leaves_bind reading_steady (lateTrap_leaves _) fun _ => ?_
  refine leaves_bind reading_steady (leaves_getH reading_steady) fun h => ?_
  split
  · exact leaves_ite (fun _ => leaves_waitFor reading_steady _ _) fun _ => leaves_pure reading_steady ()
  · exact leaves_pure reading_steady ()

theorem forElems_leaves {R : State → State → Prop} (hR : Steady R) (hr : ∀ {s t}, Reading s t → R s t)
    {body : Nat → M Unit} (h : ∀ e, Leaves R (body e)) (ves n : Nat) : Leaves R (forElems ves n body) :=
  leaves_forEach hR (fun e => leaves_bind hR ((stopHere_leaves e).mono hr) fun _ => h e) _

/-- The turn of an element changes no more than its body does, beside its destination. -/
theorem turnElem_leaves (c : VCtx) (d : Reg) (w : Nat) {body : Nat → M (Nat × Mark)} (h : ∀ e, Leaves Working (body e))
    (e : Nat) : Leaves Working (turnElem c d w body e) := by
  have push := (pushElem_leaves d w e).mono Storing.working
  refine leaves_bind working_steady ((consume_leaves _).mono Reading.working) fun _ => ?_
  split
  · exact leaves_bind working_steady (h e) fun _ => leaves_bind working_steady (putElem_leaves _ _ _ _ _) fun _ => push
  · split
    · exact leaves_bind working_steady (putElem_leaves _ _ _ _ _) fun _ => push
    · split
      · exact leaves_bind working_steady (modH_working fun h => kept_markV _ _ _ _ h) fun _ => push
      · exact push

/-- A pass that ends leaves what it leaves; where it stops, the hart keeps the register as well. -/
theorem keeping_leaves {α : Type} {m : M α} (p : Nat) (h : Leaves Working m) : Leaves Working (keeping p m) := by
  intro s
  have hm := h s
  unfold keeping
  cases k : m s with
  | ok x t => rw [k] at hm; exact hm
  | error e t =>
    rw [k] at hm
    exact working_steady.trans hm
      ⟨⟨_, _, _, _, _, _, _, _, _, _, _, _, _, _, _, _, _, _, _, _, _, _, _, _, _, _, _, rfl⟩, id⟩

theorem tailV_leaves (c : VCtx) (d : Reg) (w : Nat) : Leaves Working (tailV c d w) :=
  leaves_ite (fun _ => modH_working fun h => kept_zeroBytes _ _ _ h) fun _ => leaves_pure working_steady ()

/-- An element-wise instruction changes no more than its body does, beside its destination. -/
theorem elementwise_leaves (c : VCtx) (d : Reg) (w : Nat) {body : Nat → M (Nat × Mark)}
    (h : ∀ e, Leaves Working (body e)) : Leaves Working (elementwise c d w body) := by
  refine leaves_bind working_steady (destV_leaves _ _ _ _ _ _) fun _ => ?_
  refine leaves_bind working_steady (leaves_getH working_steady) fun _ => ?_
  refine leaves_bind working_steady (keeping_leaves _
    (forElems_leaves working_steady Reading.working (fun e => turnElem_leaves c d w h e) _ _)) fun _ => ?_
  refine leaves_bind working_steady (tailV_leaves c d w) fun _ => ?_
  exact leaves_bind working_steady ((pushEnd_leaves _ _).mono Storing.working) fun _ => leaves_pure working_steady _

theorem wholeElems_leaves (c : VCtx) (d : Reg) (w : Nat) {body : Nat → M (Nat × Mark)}
    (h : ∀ e, Leaves Working (body e)) : Leaves Working (wholeElems c d w body) := by
  refine leaves_bind working_steady (destV_leaves _ _ _ _ _ _) fun _ => ?_
  refine leaves_bind working_steady (leaves_getH working_steady) fun _ => ?_
  refine leaves_bind working_steady (keeping_leaves _ (leaves_forEach working_steady (fun e =>
    leaves_bind working_steady ((lateTrap_leaves _).mono Reading.working) fun _ => turnElem_leaves c d w h e) _)) fun _ => ?_
  refine leaves_bind working_steady (tailV_leaves c d w) fun _ => ?_
  exact leaves_bind working_steady ((pushEnd_leaves _ _).mono Storing.working) fun _ => leaves_pure working_steady _

/-! ### The Planish queue at issue -/

theorem planishIssue_leaves : Leaves Reading planishIssue :=
  leaves_bind reading_steady (leaves_getH reading_steady) fun _ =>
    leaves_ite (fun _ => leaves_waitFor reading_steady _ _) fun _ => leaves_pure reading_steady ()

theorem planishPush_leaves : Leaves Working planishPush := modH_working fun h => by
  split
  · exact ⟨_, _, _, _, _, _, _, _, _, _, _, _, _, _, _, _, rfl⟩
  · exact kept_refl h

theorem planishScalar_leaves : Leaves Working planishScalar := by
  refine leaves_bind working_steady (leaves_getH working_steady) fun h => ?_
  refine leaves_ite (fun _ => ?_) fun _ => leaves_pure working_steady ()
  refine leaves_bind working_steady (planishGate_leaves.mono Reading.working) fun _ => ?_
  exact leaves_bind working_steady planishPush_leaves fun _ => leaves_waitFor working_steady _ _

theorem rechecked_leaves {m : M Flow} (d : Reg) (h : Leaves Working m) : Leaves Working (rechecked d m) := by
  refine leaves_bind working_steady (leaves_getH working_steady) fun _ => leaves_ite (fun _ => ?_) fun _ => ?_
  · exact leaves_bind working_steady planishScalar_leaves fun _ => h
  · refine leaves_bind working_steady (planishIssue_leaves.mono Reading.working) fun _ => ?_
    exact leaves_bind working_steady h fun _ =>
      leaves_bind working_steady planishPush_leaves fun _ => leaves_pure working_steady _

/-! ### Mask destinations -/

theorem kept_setBitMarks (p i : Nat) (bits : Nat → Mark) (h : Hart) : Kept h (h.setBitMarks p i bits) := by
  unfold Hart.setBitMarks
  dsimp only
  split
  · exact kept_refl h
  · exact kept_trans (kept_vectors h.v _ h) (kept_setSpared _ _ _ _ _)

theorem setMaskBit_leaves (r : Reg) (e : Nat) (b : Bool) (m : Mark) : Leaves Working (setMaskBit r e b m) :=
  modH_working fun h => by
    unfold Hart.setBit
    exact kept_trans (kept_trans (kept_vectors _ h.vMark h) (kept_setBitMarks _ _ _ _)) (kept_touchV _ _ _)

end Sys2Proof.Laws
end

