-- ==== Sys2Proof/Tests/Slice0.lean ====
section
/-!
SUPPORT. The model's own tests: terms that the limits refuse, words of the spec, single steps whose results the spec writes
out, and for every statement a state that meets its hypotheses.
-/

open Sys2Proof Sys2Proof.Machine Sys2Proof.Safety Sys2Proof.Claims

namespace Sys2Proof.Tests

set_option Elab.async false

/-- The limits refuse the instruction, for this reason. -/
def refuses (r : Reject) (i : Instr) : Bool :=
  match checkWf i with
  | .error q => decide (q = r)
  | .ok _ => false

/-- The decoder reads the word as the instruction, and the encoder writes it back. -/
noncomputable def reads (p : Word × Instr) : Bool :=
  match decodeWord p.1 with
  | .ok i => decide (i = p.2) && decide (encode p.2 = some p.1)
  | .error _ => false

/-- The decoder refuses the word, for this reason. -/
noncomputable def rejects (r : Reject) (w : Word) : Bool :=
  match decodeWord w with
  | .error q => decide (q = r)
  | .ok _ => false

/-! ### Fields outside their limits (R72, R83) -/

theorem test_refuses_shiftAmount :
    ([.shlI 64 1 2, .sraI 0x7FF 1 2] : List Instr).all (refuses .shiftAmount) = true := by
  decide +kernel

theorem test_refuses_maskRegister :
    ([.bmz 1 8, .cmpVEq 0 1 2 8] : List Instr).all (refuses .maskRegister) = true := by
  decide +kernel

theorem test_refuses_loopWords :
    ([.loop 0 0 0 1, .loop 65 0 0 1, .once 0 0 0] : List Instr).all (refuses .loopWords) = true := by
  decide +kernel

theorem test_refuses_loopLevel :
    ([.loop 1 6 0 1, .once 1 0 6, .wid 6 1] : List Instr).all (refuses .loopLevel) = true := by
  decide +kernel

theorem test_refuses_registerRun :
    ([.loop 1 0 127 1, .amoCasW 127 1 2, .cpy 125, .rmaxxV 0 0 1 127, .bgathV 0 0 1 2 127, .mldx 0 127 0, .tldV 0 0 125 0 1] : List Instr).all (refuses .registerRun) = true := by
  decide +kernel

theorem test_refuses_formatCode :
    ([.setvt 10, .cvtV 0 0 10 1 2] : List Instr).all (refuses .formatCode) = true := by
  decide +kernel

theorem test_refuses_roundingCode :
    ([.setvt 0x52, .pfxV 1 0 0 0 0 5 0] : List Instr).all (refuses .roundingCode) = true := by
  decide +kernel

theorem test_refuses_accessSize :
    ([.ld 0 1 3 1 2] : List Instr).all (refuses .accessSize) = true := by
  decide +kernel

theorem test_refuses_scopeCode :
    ([.ldaq 0 5 3 1 2, .strl 0 7 3 1 2, .fenceAr 5, .pfxO 0 0 5] : List Instr).all (refuses .scopeCode) = true := by
  decide +kernel

theorem test_refuses_prefetchHint :
    ([.pref 0 0 1 2] : List Instr).all (refuses .prefetchHint) = true := by
  decide +kernel

theorem test_refuses_streamRegister :
    ([.strm 1 0, .strmV 1 7, .strmOff 0, .strmVoff 7] : List Instr).all (refuses .streamRegister) = true := by
  decide +kernel

theorem test_refuses_functionCode :
    ([.fspecV 0 0 7 1 2, .fsgnV 0 0 2 1 2] : List Instr).all (refuses .functionCode) = true := by
  decide +kernel

theorem test_refuses_windowRegister :
    ([.seteV 7, .pushV 7 1 2] : List Instr).all (refuses .windowRegister) = true := by
  decide +kernel

theorem test_refuses_handleRegister :
    ([.thld 1 16] : List Instr).all (refuses .handleRegister) = true := by
  decide +kernel

theorem test_refuses_tileRegister :
    ([.mld 0 0 0 1 2 8, .mmaBf16 0 8 0 0] : List Instr).all (refuses .tileRegister) = true := by
  decide +kernel

theorem test_refuses_accumulatorRegister :
    ([.mmaBf16 0 0 0 4] : List Instr).all (refuses .accumulatorRegister) = true := by
  decide +kernel

theorem test_refuses_layoutTag :
    ([.retag 7 1 2] : List Instr).all (refuses .layoutTag) = true := by
  decide +kernel

theorem test_refuses_filigreeSlot :
    ([.qload 1 4] : List Instr).all (refuses .filigreeSlot) = true := by
  decide +kernel

theorem test_refuses_prefixD :
    ([.pfxV 0 0 0 0 1 0 0] : List Instr).all (refuses .prefixD) = true := by
  decide +kernel

theorem test_refuses_prefixPolicy :
    ([.pfxV 0 1 0 0 0 0 0] : List Instr).all (refuses .prefixPolicy) = true := by
  decide +kernel

theorem test_refuses_prefixPosted :
    ([.pfxO 1 1 0] : List Instr).all (refuses .prefixPosted) = true := by
  decide +kernel

/-! ### Words that the spec writes out, and words laid out by hand from Tables 3.1 to 3.9 -/

theorem test_decodes_integer :
    ([(0x00404181, .add 2 1 3), (0x00000003, .addI 0 0 0), (0x0001C00E, .bset 7)] : List (Word × Instr)).all reads = true := by
  decide +kernel

theorem test_decodes_control :
    ([(0x00004011, .jr 0 1 0), (0x03054A1A, .loop 3 0 21 20), (0x0001051C, .strip 0 0 4 10),
     (0x1001051C, .strip 0 1 4 10)] : List (Word × Instr)).all reads = true := by
  decide +kernel

theorem test_decodes_scalar_memory :
    ([(0x02404320, .ld 2 0 2 1 6), (0xFFA043A0, .ld 255 1 1 1 7), (0x90E18024, .amoFaddW 7 6 0)] : List (Word × Instr)).all reads = true := by
  decide +kernel

theorem test_decodes_system :
    ([(0x00004030, .trap 1), (0x00000031, .eret), (0x00000035, .chkerr),
     (0x00000036, .finish), (0x00000037, .yield), (0x0002C538, .launch 11 10),
     (0x0002C639, .waitt 11 12)] : List (Word × Instr)).all reads = true := by
  decide +kernel

theorem test_decodes_barriers_and_copies :
    ([(0x200204BA, .bararr 8 9), (0x3122003A, .barwait 9 8), (0x00000A3B, .cpyBar 20),
     (0x20000A3B, .cpy 20), (0x0001943C, .strm 6 40), (0x02A5053D, .cbres 21 20 10)] : List (Word × Instr)).all reads = true := by
  decide +kernel

theorem test_decodes_collectives_and_stacks :
    ([(0x2141863E, .credFmax 10 6 12), (0x314186BE, .credFmaxn 10 6 13), (0x01C3463F, .hmload 14 13 12),
     (0x1002C53F, .hmv 11 10), (0x2000003F, .hmwait)] : List (Word × Instr)).all reads = true := by
  decide +kernel

theorem test_decodes_vector_arithmetic :
    ([(0x0142C5C0, .addV 0 0 10 11 11), (0x82828549, .xorVx 0 0 20 10 10), (0x00028545, .popcV 0 0 10 10),
     (0x40000647, .iotaV 0 0 12), (0x316284D0, .faddV 1 1 11 10 9), (0xC2C54A50, .fmaV 0 0 22 21 20)] : List (Word × Instr)).all reads = true := by
  decide +kernel

theorem test_decodes_vector_masks_and_moves :
    ([(0x01E38053, .cmpVEq 0 15 14 0), (0x800506D8, .bcastV 0 0 20 13), (0x5002CB57, .rminxV 0 1 11 22),
     (0x85024A5D, .pushV 40 9 20), (0xC0001459, .seteV 40)] : List (Word × Instr)).all reads = true := by
  decide +kernel

theorem test_decodes_tensors_and_filigree :
    ([(0x00018070, .thld 6 0), (0x2001C071, .retag 2 7 0), (0x00030072, .twait 12 0),
     (0x1300065E, .tldV 0 1 24 0 12), (0x530006DE, .tstV 0 1 24 0 13), (0x00018073, .qload 6 0),
     (0x40A5045F, .qgenVFp32 0 0 5 20 8)] : List (Word × Instr)).all reads = true := by
  decide +kernel

theorem test_decodes_plural :
    ([(0x00034660, .stPI16 13 12), (0x00038467, .stPvI16 14 8), (0x000104E1, .addPI16 4 9),
     (0x81A38061, .addPlI16 13 14), (0x000387E4, .ldPI16Sum 14 15), (0x10038864, .ldPI16Max 14 16),
     (0x10010665, .ldPI32Max 4 12)] : List (Word × Instr)).all reads = true := by
  decide +kernel

theorem test_decodes_matrix :
    ([(0x30044868, .tshapeBx4 17 16), (0x1001C0E9, .mld 0 0 1 0 7 1), (0x0124806A, .mldx 9 18 0),
     (0xB020006B, .mmaBx4 1 1 0 0), (0x0162406C, .scaccM 11 9 0), (0x0000086E, .mdrain 0 16)] : List (Word × Instr)).all reads = true := by
  decide +kernel

theorem test_decodes_prefixes :
    ([(0x000005FF, .pfxV 0 0 0 0 0 1 3), (0x0012E87F, .pfxV 0 0 0 1 23 2 0), (0x0000017F, .pfxV 0 0 0 0 0 0 2),
     (0x100019FF, .pfxO 1 2 3)] : List (Word × Instr)).all reads = true := by
  decide +kernel

theorem test_rejects_words :
    rejects .majorZero 0x00000000 = true ∧ rejects .freeMajor 0x00000046 = true ∧ rejects .unlistedCode 0xF0404181 = true := by
  decide +kernel

/-- What a unit of two words is: the prefix and its instruction, or the reason and the word that TVAL takes. -/
noncomputable def unitIs (w0 w1 : Word) (r : Option (Reject × Word)) : Bool :=
  match decodeUnit w0 w1 with
  | .ok _ => r.isNone
  | .error e => decide (r = some e)

/-- The units of two words of Table 3.10 and of R67: valid, or refused with the word that TVAL takes. -/
theorem test_units :
    unitIs 0x0012E87F 0xC2C54A50 none = true ∧ unitIs 0x000005FF 0x116284D0 none = true ∧
    unitIs 0x0010007F 0x016284D0 (some (.prefixField, 0x0010007F)) = true ∧
    unitIs 0x0000017F 0x016284D0 (some (.prefixField, 0x0000017F)) = true ∧
    unitIs 0x0000007F 0x00000036 (some (.placement, 0x00000036)) = true := by
  decide +kernel

/-! ### Small states -/

/-- A page of 64 KiB that every access may use. -/
def page (n pa : Nat) : TlbEntry := ⟨0, some 0, 0, n, 16, pa, true, true, true, false, false⟩

/-- A task of one hart and one strip, started. -/
def task0 : Task :=
  ⟨0x1000, 0, 0, 0, 0, ⟨0, 0, 64, 1, 0, 0, 1, 0, 0, 0, 0⟩, .running, 0, [], [0], [], [], [], 0, false, false, [], 0, 0, 0, [],
    [], [], [], (0, 0), []⟩

/-- A task hart that runs at address 0x40: page 0 is stack memory, page 1 the own slice (as is its
window at 0x1F000000000), page 2 host memory. -/
def base : State :=
  { State.reset with
    hart := { Hart.reset 0 with status := .running, pc := 0x40, tr := { TaskRegs.reset with vl := 3 } }
    tlb := [page 0 0x10000, page 1 0x1F000000000, page 2 0x40000000000, page 0x1F00000 0x1F000000000]
    tasks := [task0] }

/-- A state with its hart changed. -/
def onHart (f : Hart → Hart) (s : State) : State := { s with hart := f s.hart }

/-- A state with its hart's task-level registers changed. -/
def onRegs (f : TaskRegs → TaskRegs) (s : State) : State := onHart (fun h => { h with tr := f h.tr }) s

/-- Scalar registers given values. -/
def withX (l : List (Nat × DWord)) : State → State := onHart fun h => l.foldl (fun h p => h.setX p.1 p.2 0) h

/-- Numbers stored at physical addresses: address, bytes, number. -/
def withMem (l : List (Nat × Nat × Nat)) (s : State) : State :=
  { s with mem := l.foldl (fun m p => setNat m p.1 p.2.1 p.2.2) s.mem }

/-- In supervisor mode. -/
def kernel : State → State := onHart fun h => { h with mode := .supervisor }

/-- In an open and protected strip under RB. -/
def inStrip : State → State := onHart fun h =>
  { h with tr := { h.tr with tstat := h.tr.tstat ||| 4 }, ckpt := { h.ckpt with valid := true } }

/-- With a store of two bytes in the strip store buffer. -/
def buffering : State → State := onHart fun h => { h with buf := [⟨0x10200, 0x200, [1, 2], 0⟩] }

/-- The effect runs to its end. -/
def ran {α : Type} (m : M α) (s : State) : Bool :=
  match m s with
  | .ok _ _ => true
  | .error _ _ => false

/-- What the effect answers. -/
def got {α : Type} [Inhabited α] (m : M α) (s : State) : α :=
  match m s with
  | .ok a _ => a
  | .error _ _ => default

/-- The state the effect leaves. -/
def left {α : Type} (m : M α) (s : State) : State :=
  match m s with
  | .ok _ t => t
  | .error _ t => t

theorem ran_ok {α : Type} [Inhabited α] {m : M α} {s : State} (h : ran m s = true) : m s = .ok (got m s) (left m s) := by
  unfold ran at h
  unfold got left
  cases h' : m s with
  | ok a t => simp
  | error e t => simp [h'] at h

/-- The checks of an access. -/
def checks (a : Access) (va : DWord) (n : Nat) : M Nat := do
  let pa ← translate a va
  raceCheck a va pa n
  pure pa

/-- Where an access passes its checks, and the state it leaves. -/
theorem checks_ok {a : Access} {va : DWord} {n : Nat} {s : State} (h : ran (checks a va n) s = true) :
    Passes a va n s (got (checks a va n) s) (left (checks a va n) s) := by
  have h' := ran_ok h
  revert h'
  generalize got (checks a va n) s = p
  generalize left (checks a va n) s = t
  intro h'
  simp only [checks, Laws.bind_run, Laws.pure_run] at h'
  split at h'
  · rename_i x u hx
    split at h'
    · rename_i y v hy
      injection h' with h1 h2
      subst h1 h2
      exact ⟨u, hx, hy⟩
    · cases h'
  · cases h'

/-- The state of an answer. -/
def next (o : Host.Outcome State Fault Refusal) : State :=
  match o with
  | .next t => t
  | _ => State.reset


/-! ### Single steps, with results worked out by hand or given by the spec -/

/-- R86: ADD wraps, SUB borrows, a division by zero gives all ones, and the overflowing quotient is the dividend. -/
theorem test_scalar_arithmetic :
    let s := withX [(1, 0xFFFFFFFFFFFFFFFF), (2, 1), (3, 0x8000000000000000)] base
    (next (exec (.add 2 1 5) s)).hart.xr 5 = 0 ∧ (next (exec (.sub 1 2 5) s)).hart.xr 5 = 2 ∧
    (next (exec (.div 0 2 5) s)).hart.xr 5 = 0xFFFFFFFFFFFFFFFF ∧ (next (exec (.div 1 3 5) s)).hart.xr 5 = 0x8000000000000000 ∧
    (next (exec (.rem 1 3 5) s)).hart.xr 5 = 0 ∧ (next (exec (.adds 3 3 5) s)).hart.xr 5 = 0x8000000000000000 ∧
    (next (exec (.mulh 1 3 5) s)).hart.xr 5 = 0 ∧ (next (exec (.add 2 1 0) s)).hart.xr 0 = 0 := by
  decide +kernel

/-- R71: a branch goes in words from its own address; J and JR link. -/
theorem test_branches :
    let s := withX [(1, 0xFFFFFFFFFFFFFFFF), (2, 1), (3, 0x200)] base
    (next (exec (.blt 0x7FF 2 1) s)).hart.pc = 0x3C ∧ (next (exec (.bltu 0x7FF 2 1) s)).hart.pc = 0x44 ∧
    (next (exec (.j 2 4) s)).hart.pc = 0x48 ∧ (next (exec (.j 2 4) s)).hart.xr 4 = 0x44 ∧
    (next (exec (.jr 1 3 3) s)).hart.pc = 0x204 ∧ (next (exec (.jr 1 3 3) s)).hart.xr 3 = 0x44 := by
  decide +kernel

/-- R9: a store is little-endian; R379: a load sign-extends unless Z = 1. -/
theorem test_memory :
    let s := next (exec (.st 1 2 1 2) (withX [(1, 0x100), (2, 0xFFFFFFFF80000081)] base))
    memByte s.mem 0x10104 = 0x81 ∧ memByte s.mem 0x10107 = 0x80 ∧ memByte s.mem 0x10108 = 0 ∧
    (next (exec (.ld 4 0 0 1 5) s)).hart.xr 5 = 0xFFFFFFFFFFFFFF81 ∧ (next (exec (.ld 4 1 0 1 5) s)).hart.xr 5 = 0x81 ∧
    (next (exec (.ld 1 0 2 1 5) s)).hart.xr 5 = 0xFFFFFFFF80000081 := by
  decide +kernel

/-- R339: AMO.ADD.W answers the old word sign-extended; CAS stores x[C + 1] where the old value is x[C]. -/
theorem test_atomics :
    let s := withMem [(0x10100, 4, 0xFFFFFFFF)] (withX [(1, 0x100), (2, 0xFFFFFFFF), (3, 7)] base)
    (next (exec (.amoAddW 3 1 5) s)).hart.xr 5 = 0xFFFFFFFFFFFFFFFF ∧ memNat (next (exec (.amoAddW 3 1 5) s)).mem 0x10100 4 = 6 ∧
    memNat (next (exec (.amoCasW 2 1 5) s)).mem 0x10100 4 = 7 ∧ memNat (next (exec (.amoCasW 3 1 5) s)).mem 0x10100 4 = 0xFFFFFFFF := by
  decide +kernel

/-- R125, R312: BARINIT leaves a strip protected, overwrites what the strip stored to the object before it, and keeps the
strip's other stores in the buffer; BARARR commits them. -/
theorem test_barrier_in_strip :
    let s := inStrip (withX [(1, 0x100), (2, 3), (3, 1), (4, 0xF8), (6, 0x1111111111111111)] base)
    let t := next (exec (.barinit 3 1 2) (next (exec (.st 0 3 1 6) (next (exec (.st 0 3 4 6) s)))))
    let u := next (exec (.bararr 1 5) t)
    t.hart.protectedStrip = true ∧ t.hart.buf.map (fun b => (b.pa, b.data.length)) = [(0x100F8, 8)] ∧
    (readBar (.mem 0x10100 0x100) t).expa = 3 ∧ (readBar (.mem 0x10100 0x100) t).expb = 1 ∧
    (readBar (.mem 0x10100 0x100) t).arrv = 0 ∧ memNat t.mem 0x100F8 8 = 0 ∧
    u.hart.protectedStrip = false ∧ memNat u.mem 0x100F8 8 = 0x1111111111111111 := by
  decide +kernel

/-- R288, R292: a service request names the next unit, a privileged trap the unit itself. -/
theorem test_traps :
    let s := onHart (fun h => { h with sr := { h.sr with tvec := 0x8003 }, ir := 0x31 }) base
    let t := next (exec .eret s)
    let u := next (exec (.trap 9) s)
    (t.hart.sr.tcause, t.hart.sr.tval, t.hart.sr.tpc, t.hart.pc) = (0x02, 0x31, 0x40, 0x8000) ∧
    (t.hart.sr.pie, t.hart.sr.ie, t.hart.mode) = (true, false, .supervisor) ∧
    (u.hart.sr.tcause, u.hart.sr.tval, u.hart.sr.tpc, u.hart.xr 10) = (0x10, 9, 0x44, 0xFFFFFFFFFFFFFFFF) ∧
    (next (exec .eret t)).hart.pc = 0x40 := by
  decide +kernel

/-- R94: the FP64 sum 1.0 + 2.0, and the invalid 0 ÷ 0 with the canonical NaN and flag NV. -/
theorem test_floating_point :
    let s := withX [(1, 0x3FF0000000000000), (2, 0x4000000000000000)] base
    (next (exec (.fadd 2 1 5) s)).hart.xr 5 = 0x4008000000000000 ∧
    (next (exec (.fdiv 0 0 5) s)).hart.xr 5 = 0x7FF8000000000000 ∧ (next (exec (.fdiv 0 0 5) s)).hart.tr.fcr = 0x10 := by
  decide +kernel

/-- A vector add at INT32 (VT.FMT = 2): three elements wrap, the tail is undisturbed. -/
theorem test_vector_add :
    let s := onHart (fun h => (((h.setElem 8 32 0 0xFFFFFFFF 0).setElem 8 32 3 5 0).setElem 9 32 0 2 0).setElem 9 32 3 5 0) base
    let t := next (exec (.addV 0 0 9 8 10) s)
    lane t.hart 10 32 0 = 1 ∧ lane t.hart 10 32 3 = 0 ∧ t.hart.tr.drmap.getLsbD 10 = true ∧ t.hart.tr.ves = 0 := by
  decide +kernel

/-- R225's row: 64 weights of 1.0 against 1.0 give 64.0, and ADDC 0x3F80 makes it 65.0. -/
theorem test_row_program :
    dotProduct (List.replicate 64 0x3F80) (List.replicate 64 0x3F80) = 0x42800000 ∧
    (next (exec (.addc 0x3F80) { base with row := ⟨true, 0, 0, 1, 1, 0x42800000, 0, none⟩ })).row.y = 0x42820000 := by
  decide +kernel

/-- One step of the machine fetches, decodes and runs a word: `LD x6, [x1 + 2 * 4]`. -/
theorem test_step :
    let s := (withMem [(0x10108, 4, 0x7FFFFFFF)] (withX [(1, 0x100)] base)).withFetchWord 32 0x024040A0
    ((next (step s)).hart.xr 1, (next (step s)).hart.pc) = (0x7FFFFFFF, 4) := by
  decide +kernel


/-- The effect runs, and what it answers and leaves has the property. -/
def after {α : Type} (m : M α) (s : State) (p : α → State → Bool) : Bool :=
  match m s with
  | .ok a t => p a t
  | .error _ _ => false

theorem ran_some {α : Type} {m : M α} {s : State} {p : α → State → Prop} [∀ a t, Decidable (p a t)]
    (h : after m s (fun a t => decide (p a t)) = true) : ∃ a t, m s = .ok a t ∧ p a t := by
  unfold after at h
  cases h' : m s with
  | ok a t =>
    simp only [h', decide_eq_true_eq] at h
    exact ⟨a, t, rfl, h⟩
  | error e t => simp [h'] at h

theorem trapped_some {α : Type} {m : M α} {s : State}
    (h : (match m s with
      | .error (.trap _ _ _) _ => true
      | _ => false) = true) : ∃ c v n t, m s = .error (.trap c v n) t := by
  cases h' : m s with
  | ok a t => simp [h'] at h
  | error e t =>
    cases e with
    | trap c v n => exact ⟨c, v, n, t, rfl⟩
    | _ => simp [h'] at h

theorem passes_some {a : Access} {va : DWord} {n : Nat} {s : State} {p : Nat → State → Prop} [∀ a t, Decidable (p a t)]
    (h : after (checks a va n) s (fun pa t => decide (p pa t)) = true) : ∃ pa t, Passes a va n s pa t ∧ p pa t := by
  obtain ⟨pa, t, h1, h2⟩ := ran_some h
  have h3 := checks_ok (a := a) (va := va) (n := n) (s := s) (by simp [ran, h1])
  simp only [got, left, h1] at h3
  exact ⟨pa, t, h3, h2⟩


/-- A bank check that does not fault leaves the state as it is. -/
theorem bankCheck_ok {a : Access} {va : DWord} {pa n : Nat} {s : State} (h : ran (bankCheck a va pa n) s = true) :
    bankCheck a va pa n s = .ok () s := by
  simp only [bankCheck, ran, Laws.bind_run, Laws.getS_run, id] at h ⊢
  by_cases hb : a.reach ≠ .plural
  · rw [if_pos hb] at h ⊢
    cases hf : (wordsOf pa n).find? fun w => touchesRetired s w 4 with
    | none => rfl
    | some w => simp [hf] at h
  · rw [if_neg hb]
    rfl


/-- Where no error is latent, a read finds none. -/
theorem found_none {pa n : Nat} {t : State} (h : t.latent = []) : found pa n t = t := by
  unfold found
  generalize wordsOf pa n = l
  induction l with
  | nil => rfl
  | cons w l ih =>
    have h1 : findError w t = t := by simp [findError, findErrorBy, h]
    rw [List.foldl_cons, h1, ih]


/-! ### States that meet the hypotheses: scalar instructions -/

theorem meets_ScalarTwoSourceResults :
    PrefixPlaced base.hart ∧
    Unbound base.hart 1 ∧
    Unbound base.hart 2 ∧
    Unbound base.hart 0 := by
  simp only [PrefixPlaced, Unbound]
  decide +kernel

theorem meets_ScalarImmediateResults :
    PrefixPlaced base.hart ∧
    Unbound base.hart 1 ∧
    Unbound base.hart 127 := by
  simp only [PrefixPlaced, Unbound]
  decide +kernel

theorem meets_BranchAndJumpTargets :
    let s := withX [(1, 0x200)] base
    (PrefixPlaced s.hart ∧ Unbound s.hart 1 ∧ Unbound s.hart 2 ∧ s.hart.xm 1 = 0 ∧ s.hart.xm 2 = 0 ∧
      (s.hart.xr 1 + sext (0x7FF : BitVec 11) * 4) &&& 3 = 0 ∧ Clean s.hart [0x000, 0x001] ∧
      ∀ e < s.hart.effVl, s.hart.bitMark 7 e = 0) := by
  simp only [PrefixPlaced, Unbound, Clean]
  decide +kernel


/-- A hart at the last word of a body at level 0, with this count left. -/
def looping (n : Nat) : State := onHart (fun h => { h with
  loops := h.loops.setIfInBounds 0 ⟨true, BitVec.ofNat 64 n, 9, 0x38, 0x44, 0, 0, 0⟩ }) base


theorem meets_LoopSequencer_loop :
    let s := withX [(1, 0xFFFFFFFFFFFFFFFF)] base
    PrefixPlaced s.hart ∧
    Unbound s.hart 1 ∧
    Unbound s.hart 3 ∧
    s.hart.xm 1 = 0 ∧
    loopRefused s.hart 64 5 = false ∧
    Unbound s.hart (2 + 1) ∧
    s.hart.xr 1 = 0xFFFFFFFFFFFFFFFF := by
  simp only [PrefixPlaced, Unbound]
  decide +kernel

theorem meets_LoopSequencer_levels :
    (looping 2).hart.seqOff = false ∧ ((looping 2).hart.loops[0]).active = true ∧ ((looping 2).hart.loops[0]).ind = 0 ∧
    ((looping 2).hart.loops[0]).remaining = 2 ∧ ∀ k : Fin 6, k ≠ 0 → ((looping 2).hart.loops[k]).active = false ∧
    (looping 1).hart.seqOff = false ∧ ((looping 1).hart.loops[0]).active = true ∧ ((looping 1).hart.loops[0]).ind = 0 ∧
    ((looping 1).hart.loops[0]).remaining = 1 ∧ ∀ k : Fin 6, k ≠ 0 → ((looping 1).hart.loops[k]).active = false := by
  decide +kernel

/-- Two levels whose bodies end at one word, both with an induction register. -/
def nested (n : Nat) : State := onHart (fun h => { h with loops := (h.loops.setIfInBounds 1
  ⟨true, BitVec.ofNat 64 n, 9, 0x38, 0x44, 5, 4, 0⟩).setIfInBounds 4 ⟨true, BitVec.ofNat 64 n, 9, 0x30, 0x44, 5, 8, 0⟩ }) base

theorem meets_LoopSequencer_nested :
    (nested 2).hart.seqOff = false ∧ ((nested 2).hart.loops[1]).active = true ∧ ((nested 2).hart.loops[4]).active = true ∧
    ((nested 2).hart.loops[4]).stop = ((nested 2).hart.loops[1]).stop ∧ ((nested 2).hart.loops[1]).remaining = 2 ∧
    ((nested 1).hart.loops[1]).remaining = 1 ∧ ((nested 1).hart.loops[4]).remaining = 1 ∧
    ∀ k : Fin 6, k ≠ 1 → k ≠ 4 → ((nested 2).hart.loops[k]).active = false := by
  decide +kernel

theorem meets_LoopSequencer_once :
    PrefixPlaced (looping 9).hart ∧
    ((looping 9).hart.loops[5]).active = false ∧
    (peekWord (looping 9) ((looping 9).hart.pc + 4 * 63)).all (fun x => x &&& 0x7F != 0x7F) = true := by
  simp only [PrefixPlaced]
  decide +kernel

theorem meets_LoopSequencer_wid :
    PrefixPlaced base.hart ∧
    Unbound base.hart 1 ∧
    base.tasks[base.hart.taskNo]? = some task0 := by
  simp only [PrefixPlaced, Unbound]
  decide +kernel

theorem meets_BankSetFormatAndWindow :
    let s := withX [(1, 0x17F7E)] base
    PrefixPlaced s.hart ∧
    Unbound s.hart 1 ∧
    Clean s.hart [0x003] ∧
    s.hart.xm 1 = 0 := by
  simp only [PrefixPlaced, Unbound, Clean]
  decide +kernel

theorem meets_ScalarFloatingPoint_quiet :
    let s := base
    PrefixPlaced s.hart ∧
    Unbound s.hart 1 ∧
    Unbound s.hart 2 ∧
    Unbound s.hart 3 ∧
    quietFlags s.hart (fDiv fp64 s.hart.rm 0 0).2 := by
  simp only [PrefixPlaced, Unbound, quietFlags]
  decide +kernel

theorem meets_ScalarFloatingPoint_trap :
    let s := onRegs (fun t => { t with fcr := 0x1000 }) base
    PrefixPlaced s.hart ∧
    Unbound s.hart 1 ∧
    Unbound s.hart 2 ∧
    Unbound s.hart 3 ∧
    s.hart.resumed = none ∧
    ¬ quietFlags s.hart (fDiv fp64 s.hart.rm (s.hart.xr 1).toNat (s.hart.xr 2).toNat).2 := by
  simp only [PrefixPlaced, Unbound, quietFlags]
  decide +kernel

/-- The square root of -1, and an infinity times zero plus one, with every flag enabled. -/
theorem meets_ScalarFloatingPoint_trapsElsewhere :
    let s := withX [(1, 0xBFF0000000000000), (2, 0x7FF0000000000000), (4, 0x3FF0000000000000)] (onRegs (fun t => { t with fcr := 0x1FE0 }) base)
    PrefixPlaced s.hart ∧
    Unbound s.hart 1 ∧
    Unbound s.hart 2 ∧
    Unbound s.hart 3 ∧
    Unbound s.hart 4 ∧
    s.hart.resumed = none ∧
    ¬ quietFlags s.hart (fSqrt fp64 s.hart.rm (s.hart.xr 1).toNat).2 ∧
    ¬ quietFlags s.hart (fMa fp64 s.hart.rm (s.hart.xr 2).toNat (s.hart.xr 3).toNat (s.hart.xr 4).toNat).2 := by
  simp only [PrefixPlaced, Unbound, quietFlags]
  decide +kernel

theorem meets_TrapEntrySavesAndVectors :
    PrefixPlaced base.hart := by
  simp only [PrefixPlaced]
  decide +kernel

theorem meets_EretRestores :
    PrefixPlaced base.hart ∧
    base.hart.mode = .task ∧
    PrefixPlaced (kernel base).hart ∧
    Clean (kernel base).hart [0x103, 0x104, 0x109] ∧
    (kernel base).hart.mode = .supervisor := by
  simp only [PrefixPlaced, Clean]
  decide +kernel

theorem meets_TrapInstructionRequestsService :
    PrefixPlaced base.hart ∧
    base.hart.mode = .task ∧
    base.hart.status = .running ∧
    base.tasks[base.hart.taskNo]? = some task0 ∧
    PrefixPlaced (kernel base).hart := by
  simp only [PrefixPlaced]
  decide +kernel

/-- BANKFIX of bank 3, with a latent error in it: with the spare free, with the spare spent, and of no bank. -/
theorem meets_TrapInstructionRequestsService_bankfix :
    let s := withX [(10, 3)] { kernel base with latent := [0x1F00000000C] }
    PrefixPlaced s.hart ∧
    s.hart.mode = .supervisor ∧
    (s.hart.xr 10).toNat % 128 = 3 ∧
    s.spares = [] ∧
    MemoryCanonical s ∧
    (inSram 0x1F00000000C = true ∧ sliceOf 0x1F00000000C = s.hart.home ∧ bankOf 0x1F00000000C = 3) ∧
    (∃ p ∈ ({ s with spares := [(0, 9)] } : State).spares, p.1 = s.hart.home) ∧
    ((withX [(10, 127)] s).hart.xr 10).toNat % 128 = 127 := by
  simp only [PrefixPlaced, MemoryCanonical]
  decide +kernel

theorem meets_StateRegisterReads :
    let s := kernel base
    PrefixPlaced s.hart ∧
    Unbound s.hart 1 ∧
    s.hart.mode = .supervisor ∧
    vecPending s.hart = false ∧
    matPending s.hart = false := by
  simp only [PrefixPlaced, Unbound]
  decide +kernel

theorem meets_StateRegisterWrites :
    let s := kernel (withX [(1, 64)] base)
    PrefixPlaced s.hart ∧
    Unbound s.hart 1 ∧
    s.hart.xm 1 = 0 ∧
    vecPending s.hart = false ∧
    matPending s.hart = false ∧
    s.hart.mode = .supervisor ∧
    s.hart.xr 1 = 64 ∧ (64 : DWord).toNat ≤ 64 ∧ (64 : DWord).toNat % 8 = 0 := by
  simp only [PrefixPlaced, Unbound]
  decide +kernel

theorem meets_StateRegisterPrivilege_range :
    let s := withX [(1, 0x4F)] base
    PrefixPlaced s.hart ∧
    Unbound s.hart 1 ∧
    s.hart.xm 1 = 0 ∧
    taskWrites.any (fun p => p.1 == 0x003) ∧
    ¬ ((s.hart.xr 1).toNat ≤ 64 ∧ (s.hart.xr 1).toNat % 8 = 0) := by
  simp only [PrefixPlaced, Unbound]
  decide +kernel

theorem meets_StateRegisterPrivilege :
    PrefixPlaced base.hart ∧
    base.hart.mode = .task ∧
    (0x016 : BitVec 11).toNat ∉ 0x011 :: 0x012 :: stateRegs.map (·.1) ∧
    (0x7FF : BitVec 11).toNat ∉ 0x011 :: 0x012 :: stateRegs.map (·.1) ∧
    PrefixPlaced (kernel base).hart ∧
    (kernel base).hart.mode = .supervisor := by
  simp only [PrefixPlaced]
  decide +kernel

/-! ### Scalar memory -/

theorem meets_ScalarLoadsAndStores_load :
    let s := withX [(1, 0x400)] base
    (PrefixPlaced s.hart ∧
    Unbound s.hart 1 ∧
    Unbound s.hart 2 ∧
    s.hart.xm 1 = 0 ∧
    (s.hart.xr 1 + sext (0x80 : BitVec 8) * 8).toNat % 8 = 0) ∧
    ∃ pa t, Passes (loadAcc .single) (s.hart.xr 1 + sext (0x80 : BitVec 8) * 8) 8 s pa t ∧ pa = 0x10000 := by
  exact ⟨by simp only [PrefixPlaced, Unbound]; decide +kernel,
    passes_some (by decide +kernel)⟩

theorem meets_ScalarLoadsAndStores_store :
    let s := withX [(1, 0x10000)] base
    (PrefixPlaced s.hart ∧
    Unbound s.hart 1 ∧
    Unbound s.hart 2 ∧
    s.hart.xm 1 = 0 ∧
    s.hart.planish = [] ∧
    MemoryCanonical s ∧
    s.hart.protectedStrip = false ∧
    s.hart.assay = false) ∧
    ∃ pa t, Passes (storeAcc .single) (s.hart.xr 1 + sext (0x7F : BitVec 8) * 1) 1 { s with hart := seen 0 s.hart } pa t ∧ pa = 0x1F00000007F := by
  exact ⟨by simp only [PrefixPlaced, Unbound, MemoryCanonical]; decide +kernel,
    passes_some (by decide +kernel)⟩

theorem meets_ScalarLoadsAndStores_held :
    let s := inStrip (withX [(1, 0x10000)] base)
    (PrefixPlaced s.hart ∧
    Unbound s.hart 1 ∧
    Unbound s.hart 2 ∧
    s.hart.xm 1 = 0 ∧
    s.hart.planish = [] ∧
    MemoryCanonical s ∧
    s.hart.protectedStrip = true ∧
    s.hart.buf.foldl (fun k c => k + c.data.length) 0 + 1 ≤ 65536) ∧
    ∃ pa t, Passes (storeAcc .single) (s.hart.xr 1 + sext (0x7F : BitVec 8) * 1) 1 { s with hart := seen 0 s.hart } pa t ∧ pa = 0x1F00000007F := by
  exact ⟨by simp only [PrefixPlaced, Unbound, MemoryCanonical]; decide +kernel,
    passes_some (by decide +kernel)⟩

theorem meets_MemoryReadAfterWrite :
    (withMem [(0x10000, 8, 0xFF00)] base).mem.wf = true ∧
    (withMem [(0x10000, 8, 0xFF00)] base).mem ≠ [] := by
  decide +kernel

theorem meets_ScalarTrapConditions_misaligned :
    let s := withX [(1, 1)] base
    PrefixPlaced s.hart ∧
    (∀ r ∈ [1, 2, 3, (4 : Reg)], Unbound s.hart r) ∧
    s.hart.races = [] ∧
    s.hart.planish = [] ∧
    releasePending s = false ∧
    s.hart.det = false ∧
    s.hart.xm 1 = 0 ∧
    (s.hart.xr 1).toNat % 4 ≠ 0 ∧
    (s.hart.xr 1 + sext (0x3F : BitVec 6) * 2).toNat % 2 ≠ 0 := by
  simp only [PrefixPlaced, Unbound]
  decide +kernel

theorem meets_ScalarTrapConditions_poisoned :
    let s := onHart (fun h => h.setX 1 1 0x20) base
    PrefixPlaced s.hart ∧
    (∀ r ∈ [1, 2, 3, (4 : Reg)], Unbound s.hart r) ∧
    s.hart.races = [] ∧
    s.hart.planish = [] ∧
    releasePending s = false ∧
    s.hart.det = false ∧
    s.hart.xm 1 ≠ 0 := by
  simp only [PrefixPlaced, Unbound]
  decide +kernel

theorem meets_AcquireLoadAndReleaseStore_load :
    let s := withX [(1, 0x200)] base
    (PrefixPlaced s.hart ∧
    Unbound s.hart 1 ∧
    Unbound s.hart 0 ∧
    s.hart.xm 1 = 0 ∧
    s.hart.races = [] ∧
    s.hart.planish = [] ∧
    MemoryCanonical s) ∧
    ∃ pa r, translate { loadAcc .single with order := .sync } 0x100 s = .ok pa r ∧
      (releasePending s = false ∧ s.hart.xr 1 + sext (0x20 : BitVec 6) * 8 = 0x100 ∧
        ran (acquiring 1 3 { loadAcc .single with order := .sync } 0x100 pa 8) r = true) := by
  exact ⟨by simp only [PrefixPlaced, Unbound, MemoryCanonical]; decide +kernel,
    ran_some (by decide +kernel)⟩

theorem meets_AcquireLoadAndReleaseStore_store :
    let s := withX [(1, 0x100)] base
    (PrefixPlaced s.hart ∧
    Unbound s.hart 1 ∧
    Unbound s.hart 2 ∧
    s.hart.xm 1 = 0 ∧
    s.hart.races = [] ∧
    s.hart.planish = [] ∧
    MemoryCanonical s ∧
    releasePending s = false ∧
    s.hart.protectedStrip = false ∧
    s.hart.assay = false) ∧
    ∃ pa t, Passes { storeAcc .single with order := .sync } 0x100 8 { s with hart := seen (s.hart.xm 2) s.hart } pa t ∧ pa = 0x10100 := by
  exact ⟨by simp only [PrefixPlaced, Unbound, MemoryCanonical]; decide +kernel,
    passes_some (by decide +kernel)⟩

theorem meets_AcquireLoadAndReleaseStore_protected :
    let s := withX [(1, 0x200)] (buffering (inStrip base))
    (PrefixPlaced s.hart ∧
    Unbound s.hart 1 ∧
    Unbound s.hart 2 ∧
    s.hart.xm 1 = 0 ∧
    s.hart.races = [] ∧
    s.hart.planish = [] ∧
    MemoryCanonical s ∧
    releasePending s = false ∧
    s.hart.protectedStrip = true ∧
    s.hart.buf ≠ [] ∧
    BufferLands s ∧
    s.hart.assay = false) ∧
    ∃ pa t, Passes { storeAcc .single with order := .sync } 0x200 8 { s with hart := seen (s.hart.xm 2) s.hart } pa t ∧ pa = 0x10200 := by
  exact ⟨by simp only [PrefixPlaced, Unbound, MemoryCanonical, BufferLands]; decide +kernel,
    passes_some (by decide +kernel)⟩

theorem meets_AtomicUpdates_amo :
    let s := onHart (fun h => { h with pfx := .o false 3 3 }) (withX [(1, 0x108), (2, 5)] base)
    (AtomicReady s true 3 3 false ∧
    Unbound s.hart 1 ∧
    Unbound s.hart 2 ∧
    Unbound s.hart 3 ∧
    s.hart.xm 1 = 0 ∧
    (s.hart.xr 1).toNat % 8 = 0) ∧
    ∃ pa t, translate (rmwAcc .single) 0x108 { s with hart := seen (s.hart.xm 2) s.hart } = .ok pa t ∧
      (pa < 0x40000000000 ∧ ran (acquiring 3 3 (rmwAcc .single) 0x108 pa 8) (found pa 8 t) = true) := by
  exact ⟨by simp only [Unbound, AtomicReady, PrefixPlaced, MemoryCanonical]; decide +kernel,
    ran_some (by decide +kernel)⟩

theorem meets_AtomicUpdates_host :
    let s := onHart (fun h => { h with pfx := .none }) (withX [(1, 0x20000), (2, 5)] base)
    (AtomicReady s false 3 0 false ∧
    Unbound s.hart 1 ∧
    Unbound s.hart 2 ∧
    Unbound s.hart 3 ∧
    s.hart.xm 1 = 0) ∧
    ∃ pa t, translate (rmwAcc .single) 0x20000 { s with hart := seen (s.hart.xm 2) s.hart } = .ok pa t ∧
      (0x40000000000 ≤ pa ∧ ran (acquiring 0 3 (rmwAcc .single) 0x20000 pa 4) (found pa 4 t) = true) := by
  exact ⟨by simp only [Unbound, AtomicReady, PrefixPlaced, MemoryCanonical]; decide +kernel,
    ran_some (by decide +kernel)⟩

theorem meets_AtomicUpdates_cas :
    let s := onHart (fun h => { h with pfx := .none }) (withX [(1, 0x108), (2, 5)] base)
    (AtomicReady s false 3 0 false ∧
    Unbound s.hart 1 ∧
    Unbound s.hart 2 ∧
    Unbound s.hart (2 + 1) ∧
    Unbound s.hart 4 ∧
    s.hart.xm 1 = 0) ∧
    ∃ pa t, translate (rmwAcc .single) 0x108 { s with hart := seen (s.hart.xm 2 ||| s.hart.xm (2 + 1)) s.hart } = .ok pa t ∧
      (readNat pa 4 (found pa 4 t) ≠ 5 ∧ ran (acquiring 0 3 { rmwAcc .single with write := false } 0x108 pa 4) (found pa 4 t) = true ∧
        ran (acquiring 0 3 { rmwAcc .single with write := true } 0x108 pa 4) (found pa 4 t) = true) := by
  exact ⟨by simp only [Unbound, AtomicReady, PrefixPlaced, MemoryCanonical]; decide +kernel,
    ran_some (by decide +kernel)⟩

theorem meets_AtomicUpdates_posted :
    let s := onHart (fun h => { h with pfx := .o true 2 3 }) (withX [(1, 0x108), (2, 5)] base)
    (AtomicReady s true 3 2 true ∧
    Unbound s.hart 1 ∧
    Unbound s.hart 2 ∧
    s.hart.xm 1 = 0) ∧
    ∃ pa t, translate (rmwAcc .single) 0x108 { s with hart := seen (s.hart.xm 2) s.hart } = .ok pa t ∧
      (pa < 0x40000000000 ∧ ran (bankCheck (rmwAcc .single) 0x108 pa 4) t = true ∧
        ran (copyHold (rmwAcc .single) pa 4) t = true) := by
  exact ⟨by simp only [Unbound, AtomicReady, PrefixPlaced, MemoryCanonical]; decide +kernel,
    ran_some (by decide +kernel)⟩

theorem meets_FencesAndPrefetch :
    PrefixPlaced base.hart ∧
    base.hart.races = [] ∧
    base.hart.planish = [] ∧
    releasePending base = false ∧
    Unbound base.hart 1 ∧
    base.hart.xm 1 = 0 ∧
    let s := buffering (inStrip base)
    s.hart.protectedStrip = true ∧ BufferLands s ∧ s.hart.buf ≠ [] ∧ PrefixPlaced s.hart ∧ releasePending s = false := by
  simp only [PrefixPlaced, Unbound, BufferLands]
  decide +kernel


/-! ### Engines -/

theorem meets_BarrierObjectInstructions_init :
    let s := withX [(1, 0x100), (2, 3), (3, 1)] base
    (SyncReady s ∧
    Unbound s.hart 2 ∧
    MemoryCanonical s) ∧
    ∃ (r : (Nat × Nat) × BarPlace) (t : State), barSetChecks 3 1 2 false s = .ok r t ∧ r = ((3, 1), .mem 0x10100 0x100) := by
  exact ⟨by simp only [Unbound, MemoryCanonical, SyncReady, PrefixPlaced]; decide +kernel,
    ran_some (by decide +kernel)⟩

theorem meets_BarrierObjectInstructions_expect :
    let s := withX [(1, 0x100), (2, 3), (3, 1)] base
    (SyncReady s ∧
    Unbound s.hart 2 ∧
    MemoryCanonical s ∧
    s.hart.assay = false) ∧
    ∃ (r : (Nat × Nat) × BarPlace) (t : State), barSetChecks 3 1 2 true s = .ok r t ∧ r = ((3, 1), .mem 0x10100 0x100) := by
  exact ⟨by simp only [Unbound, MemoryCanonical, SyncReady, PrefixPlaced]; decide +kernel,
    ran_some (by decide +kernel)⟩

theorem meets_BarrierObjectInstructions_arrive :
    let s := withX [(1, 0x100), (2, 3), (3, 1)] base
    (SyncReady s ∧
    Unbound s.hart 2 ∧
    MemoryCanonical s ∧
    s.hart.assay = false) ∧
    ∃ (r : BarPlace) (t : State), barChecks 1 true true true s = .ok r t ∧ r = .mem 0x10100 0x100 := by
  exact ⟨by simp only [Unbound, MemoryCanonical, SyncReady, PrefixPlaced]; decide +kernel,
    ran_some (by decide +kernel)⟩

theorem meets_BarrierObjectInstructions_passed :
    let s := withX [(1, 0x100), (2, 3), (3, 1)] (withMem [(0x10100, 8, 2 ^ 24 * 0)] base)
    (SyncReady s ∧
    Unbound s.hart 2 ∧
    MemoryCanonical s ∧
    s.hart.protectedStrip = false) ∧
    ∃ (r : DWord × BarPlace) (t : State), (do
      let o ← barAddress 1 true true [3]
      let g ← steerX 3
      let p ← barPlace o (barAccess true false)
      pure (g, p) : M (DWord × BarPlace)) s = .ok r t ∧
      ((readBar r.2 t).gen = 0 ∧ bitsAt r.1 0 8 = 1 ∧ ran (barRace r.2 (barAccess true false)) t = true) := by
  exact ⟨by simp only [Unbound, MemoryCanonical, SyncReady, PrefixPlaced]; decide +kernel,
    ran_some (by decide +kernel)⟩

theorem meets_BarrierObjectInstructions_waiting :
    let s := withX [(1, 0x100), (2, 3), (3, 1)] (withMem [(0x10100, 8, 2 ^ 24 * 1)] base)
    (SyncReady s ∧
    Unbound s.hart 2 ∧
    MemoryCanonical s ∧
    s.hart.protectedStrip = false) ∧
    ∃ (r : DWord × BarPlace) (t : State), (do
      let o ← barAddress 1 true true [3]
      let g ← steerX 3
      let p ← barPlace o (barAccess true false)
      pure (g, p) : M (DWord × BarPlace)) s = .ok r t ∧
      ((readBar r.2 t).gen = 1 ∧ bitsAt r.1 0 8 = 1 ∧ ran (barRace r.2 (barAccess true false)) t = true) := by
  exact ⟨by simp only [Unbound, MemoryCanonical, SyncReady, PrefixPlaced]; decide +kernel,
    ran_some (by decide +kernel)⟩

theorem meets_CopyIssueAndCompletion_bar :
    let s := withX [(4, 0x10010), (5, 0x100), (6, 16), (7, 0x200)] base
    (PrefixPlaced s.hart ∧
    s.hart.planish = [] ∧
    s.hart.protectedStrip = false ∧
    (∀ r ∈ [4, 4 + 1, 4 + 2, (4 + 3 : Reg)], Unbound s.hart r ∧ s.hart.xm r.toNat = 0)) ∧
    ∃ (r : CopyEnd × List (DWord × Nat × Nat) × List (DWord × Nat × Nat)) (t : State),
      copyChecks 0 (s.hart.xr 5) (s.hart.xr 4) 16 (s.hart.xr 7) s = .ok r t ∧
      ((t.copies.filter fun c => t.hart.owns c.task c.lhart && c.copy = t.hart.copy).length < 16 ∧
        ran (copySource r.2.1) t = true) := by
  exact ⟨by simp only [PrefixPlaced, Unbound]; decide +kernel,
    ran_some (by decide +kernel)⟩

theorem meets_CopyIssueAndCompletion_dep :
    let s := withX [(4, 0x10010), (5, 0x100), (6, 16), (7, 0x200)] base
    (PrefixPlaced s.hart ∧
    s.hart.planish = [] ∧
    s.hart.protectedStrip = false ∧
    (∀ r ∈ [4, 4 + 1, 4 + 2, (4 + 3 : Reg)], Unbound s.hart r ∧ s.hart.xm r.toNat = 0)) ∧
    ∃ (r : CopyEnd × List (DWord × Nat × Nat) × List (DWord × Nat × Nat)) (t : State),
      copyChecks 1 (s.hart.xr 5) (s.hart.xr 4) 16 (s.hart.xr 7) s = .ok r t ∧
      ((t.copies.filter fun c => t.hart.owns c.task c.lhart && c.copy = t.hart.copy).length < 16 ∧
        ran (copySource r.2.1) t = true) := by
  exact ⟨by simp only [PrefixPlaced, Unbound]; decide +kernel,
    ran_some (by decide +kernel)⟩

theorem meets_CopyIssueAndCompletion_plain :
    let s := withX [(4, 0x10010), (5, 0x100), (6, 16), (7, 0x200)] base
    (PrefixPlaced s.hart ∧
    s.hart.planish = [] ∧
    s.hart.protectedStrip = false ∧
    (∀ r ∈ [4, 4 + 1, 4 + 2, (4 + 3 : Reg)], Unbound s.hart r ∧ s.hart.xm r.toNat = 0)) ∧
    ∃ (r : CopyEnd × List (DWord × Nat × Nat) × List (DWord × Nat × Nat)) (t : State),
      copyChecks 2 (s.hart.xr 5) (s.hart.xr 4) 16 (s.hart.xr 7) s = .ok r t ∧
      ((t.copies.filter fun c => t.hart.owns c.task c.lhart && c.copy = t.hart.copy).length < 16 ∧
        ran (copySource r.2.1) t = true) := by
  exact ⟨by simp only [PrefixPlaced, Unbound]; decide +kernel,
    ran_some (by decide +kernel)⟩

/-- A copy of two bytes to two runs, with a barrier object at 0x10100, or with DEPC at 0x10200, which is 0 or 1. -/
def copied (fin : CopyEnd) (depc : Nat) : CopyJob × State :=
  let j : CopyJob := ⟨0, 0, 0, false, 0, 0, [(7, 0), (8, 0)], [(0x10010, 1), (0x10020, 1)], 0x100, 0x10, 2, fin, 17, 16, [], 0x40, 3⟩
  (j, { withMem [(0x10200, 4, depc)] base with copies := [j], tasks := [{ task0 with state := .waiting, depc := 0x10200 }] })

theorem meets_CopyIssueAndCompletion_complete :
    ∀ c ∈ [(CopyEnd.nothing, 0), (.bar 0x10100 0x100, 0), (.dep 0x10200, 0), (.dep 0x10200, 1)],
    let (j, s) := copied c.1 c.2
    MemoryCanonical s ∧ s.copies[0]? = some j ∧ j.assay = false ∧ j.fin = c.1 ∧ (copyPlaces j).Nodup ∧
      (copyPlaces j).length = j.data.length ∧ (∀ a ∈ copyPlaces j, physMapped s a = true) ∧ physMapped s 0x10100 = true ∧
      physMapped s 0x10200 = true ∧ copiedNat j s.mem 0x10200 4 = c.2 ∧
      s.tasks.map (fun t => (t.depc, t.state)) = [(0x10200, .waiting)] := by
  simp only [MemoryCanonical]
  decide +kernel


theorem meets_StreamBinding :
    let s := withX [(1, 0x100)] (withMem [(0x10100, 8, 0x200), (0x10108, 8, 4), (0x10120, 4, 3), (0x10124, 4, 1), (0x10128, 4, 1), (0x1012C, 4, 2)] base)
    (PrefixPlaced s.hart ∧
    Unbound s.hart 1 ∧
    s.hart.xm 1 = 0 ∧
    (s.hart.xr 1).toNat % 64 = 0 ∧
    s.hart.streams.length < 8 ∧
    (s.hart.fe[s.hart.phys 8]?).getD .full = .full) ∧
    ∃ pa t, Passes { loadAcc .single with whole := true } (s.hart.xr 1) 64 s pa t ∧ (t.latent = [] ∧ viewMark t pa 64 = 0 ∧
      let st := streamOfDescriptor false false 9 (readNat pa 64 t) s.hart.clock
      st.len = 3 ∧ [st.base, st.s0, st.s1, st.s2].all (fun y => decide (y.toNat % 2 ^ st.sz.toNat = 0)) = true) := by
  exact ⟨by simp only [PrefixPlaced, Unbound]; decide +kernel,
    passes_some (by decide +kernel)⟩

/-- A hart with a stream of three words at 0x200 bound to x9. -/
def streaming (out : Bool) (pos : Nat) : State := onHart (fun h => { h with
  streams := [⟨9, false, out, 0x200, 4, 0, 0, 3, 1, 1, false, 2, pos, false, 0, [], []⟩] }) base


theorem meets_StreamOperands_pop :
    let s := streaming false 2
    (PrefixPlaced s.hart ∧
    Unbound s.hart 3 ∧
    s.hart.protectedStrip = false ∧
    s.hart.streams.all (fun o => !o.vec && o.reg = 9 && !o.out && decide (o.pos < o.len) && o.ahead.isEmpty) = true) ∧
    ∃ pa u, translate (loadAcc .single) ((s.hart.streams.map fun o => o.addr o.pos).headD 0) s = .ok pa u ∧
      (pa = 0x10208 ∧ ran (withClock [] (raceCheck (loadAcc .single) 0x208 pa 4)) u = true) := by
  exact ⟨by simp only [PrefixPlaced, Unbound]; decide +kernel,
    ran_some (by decide +kernel)⟩

theorem meets_StreamOperands_push :
    let s := streaming true 2
    (PrefixPlaced s.hart ∧
    Unbound s.hart 3 ∧
    s.hart.protectedStrip = false ∧
    s.hart.assay = false ∧
    MemoryCanonical s ∧
    s.hart.streams.all (fun o => !o.vec && o.reg = 9 && o.out && decide (o.pos < o.len)) = true) ∧
    ∃ (r : Unit) (t : State), destX 9 s = .ok r t ∧ ran (checks (storeAcc .single) 0x208 4)
      { t with hart := (seen (s.hart.xm 3) t.hart).setX 9 (s.hart.xr 3 + sext (0 : BitVec 11)) 0 } = true := by
  exact ⟨by simp only [PrefixPlaced, Unbound, MemoryCanonical]; decide +kernel,
    ran_some (by decide +kernel)⟩

theorem meets_StreamOperands_refill :
    let s := streaming false 0
    (s.hart.streams.map (fun o => (o.out, decide (o.pos + o.ahead.length < o.len))) = [(false, true)]) ∧
    ∃ pa t, Passes { loadAcc .single with order := .unchecked } 0x200 4 s pa t ∧ pa = 0x10200 := by
  exact ⟨by decide +kernel,
    passes_some (by decide +kernel)⟩

/-- A hart with a vector stream of three words at 0x200 bound to v9, its elements INT32. -/
def vecStreaming (out : Bool) : StreamB × State :=
  let st : StreamB := ⟨9, true, out, 0x200, 4, 0, 0, 3, 1, 1, false, 2, 0, false, 0, [], []⟩
  (st, onHart (fun h => { h with streams := [st], tr := { h.tr with vt := 2 } }) base)

theorem meets_StreamOperands_vectorIn :
    let (st, s) := vecStreaming false
    (VecReady s [10, 11] ∧ s.hart.fmt = 2 ∧ s.hart.streams = [st] ∧ s.hart.tr.ves = 0 ∧ s.hart.kept = [] ∧
    s.hart.protectedStrip = false ∧ s.hart.fe[s.hart.phys 9]? = some .full ∧ s.hart.phys 10 ≠ s.hart.phys 9 ∧
    s.hart.phys 11 ≠ s.hart.phys 9 ∧ s.hart.effVl = 3 ∧ st.len = 3) ∧
    ∃ (l : List (Nat × Nat)) (t : State), popping st 4 (upTo 3) s = .ok l t ∧ l.length = 3 := by
  exact ⟨by simp only [VecReady, PrefixPlaced, Settled, Steady, Clean]; decide +kernel,
    ran_some (by decide +kernel)⟩

theorem meets_StreamOperands_vectorOut :
    let (st, s) := vecStreaming true
    (VecReady s [10, 11] ∧ s.hart.fmt = 2 ∧ s.hart.rc = false ∧ s.hart.streams = [st] ∧ s.hart.tr.ves = 0 ∧ s.hart.kept = [] ∧
    s.hart.protectedStrip = false ∧ s.hart.assay = false ∧ s.hart.fe[s.hart.phys 9]? = some .full ∧ s.hart.effVl = 3 ∧
    (∀ k < 3, sourceMarks s.hart 10 32 k = 0 ∧ sourceMarks s.hart 11 32 k = 0) ∧ CleanMask s.hart 1 3) ∧
    ∃ (r : Unit) (t : State), forEach (upTo 3) (pushLook st) s = .ok r t ∧
      ran (pushing st 4 ((upTo 3).map fun k => (k, 0, 0))) t = true := by
  exact ⟨by simp only [VecReady, PrefixPlaced, Settled, Steady, Clean, CleanMask]; decide +kernel,
    ran_some (by decide +kernel)⟩

theorem meets_CircularBufferCounts_take :
    let s := withX [(1, 0x10000), (2, 2)] (withMem [(0x1F000000000, 2, 4), (0x1F000000004, 2, 2), (0x1F000000008, 2, 0)] base)
    (SyncReady s ∧
    Unbound s.hart 3 ∧
    s.hart.protectedStrip = false ∧
    s.hart.assay = false ∧
    MemoryCanonical s) ∧
    ∃ (r : CbBlock) (t : State), cbBlock 1 2 s = .ok r t ∧ (r.n ≤ r.free ∧ cbBehind t r false = false ∧ ran (cbRace r 4) (dropWaiters t.hart t) = true) := by
  exact ⟨by simp only [Unbound, MemoryCanonical, SyncReady, PrefixPlaced]; decide +kernel,
    ran_some (by decide +kernel)⟩

theorem meets_CircularBufferCounts_wait :
    let s := withX [(1, 0x10000), (2, 2)] (withMem [(0x1F000000000, 2, 4), (0x1F000000004, 2, 1), (0x1F000000008, 2, 0)] base)
    (SyncReady s ∧
    Unbound s.hart 3 ∧
    s.hart.protectedStrip = false ∧
    s.hart.assay = false ∧
    MemoryCanonical s) ∧
    ∃ (r : CbBlock) (t : State), cbBlock 1 2 s = .ok r t ∧ (r.free < r.n) := by
  exact ⟨by simp only [Unbound, MemoryCanonical, SyncReady, PrefixPlaced]; decide +kernel,
    ran_some (by decide +kernel)⟩

theorem meets_CircularBufferCounts_give :
    let s := withX [(1, 0x10000), (2, 2)] (withMem [(0x1F000000000, 2, 4), (0x1F000000004, 2, 2), (0x1F000000008, 2, 0)] base)
    (SyncReady s ∧
    Unbound s.hart 3 ∧
    s.hart.protectedStrip = false ∧
    s.hart.assay = false ∧
    MemoryCanonical s) ∧
    ∃ (r : CbBlock) (t : State), cbBlock 1 2 s = .ok r t ∧ (r.fill + r.n ≤ r.nslot ∧ ran (cbRace r 8) t = true) := by
  exact ⟨by simp only [Unbound, MemoryCanonical, SyncReady, PrefixPlaced]; decide +kernel,
    ran_some (by decide +kernel)⟩

theorem meets_CircularBufferCounts_acquire :
    let s := withX [(1, 0x10000), (2, 2)] (withMem [(0x1F000000000, 2, 4), (0x1F000000004, 2, 0), (0x1F000000008, 2, 2)] base)
    (SyncReady s ∧
    Unbound s.hart 3 ∧
    s.hart.protectedStrip = false ∧
    s.hart.assay = false ∧
    MemoryCanonical s) ∧
    ∃ (r : CbBlock) (t : State), cbBlock 1 2 s = .ok r t ∧
      (r.n ≤ r.fill ∧ cbBehind t r true = false ∧ ran (cbRace r 8) (dropWaiters t.hart t) = true) := by
  exact ⟨by simp only [Unbound, MemoryCanonical, SyncReady, PrefixPlaced]; decide +kernel,
    ran_some (by decide +kernel)⟩


/-! ### Vectors -/

/-- The format of the elements chosen. -/
def withFmt (f : Nat) : State → State := onRegs fun t => { t with vt := BitVec.ofNat 9 f }

/-- A mask register, or another physical one, given its bits. -/
def withV (p x : Nat) : State → State := onHart fun h => { h with v := h.v.setIfInBounds p (BitVec.ofNat 16384 x) }


theorem meets_VectorIntegerResults :
    let s := base
    VecReady s [8, 9, 127] ∧
    Unbound s.hart 2 ∧
    s.hart.fmt ≤ 3 ∧
    s.hart.effVl = 3 := by
  simp only [Unbound, VecReady, PrefixPlaced, Settled, Steady, Clean]
  decide +kernel

theorem meets_VectorWideningResults :
    let s := base
    VecReady s [8, 9, 10, s.hart.dReg 10] ∧
    Unbound s.hart 2 ∧
    s.hart.fmt ≤ 2 ∧
    min s.hart.effVl (s.hart.vlmaxW 64) = 3 := by
  simp only [Unbound, VecReady, PrefixPlaced, Settled, Steady, Clean]
  decide +kernel

theorem meets_VectorFloatingPointResults_4 :
    let s := withFmt 4 base
    VecReady s [8, 9, 10, s.hart.dReg 10] ∧
    s.hart.fmt = 4 ∧
    lanesOn s.hart 0 s.hart.effVl = [0, 1, 2] ∧
    quietFlags s.hart (raised (lanesOn s.hart 0 s.hart.effVl) fun k => fDiv (floatFmt s.hart.fmt) s.hart.rm (lane s.hart 8 (fmtWidth s.hart.fmt) k) (lane s.hart 9 (fmtWidth s.hart.fmt) k)) := by
  simp only [VecReady, PrefixPlaced, Settled, quietFlags, Steady, Clean]
  decide +kernel

theorem meets_VectorFloatingPointResults_5 :
    let s := withFmt 5 base
    VecReady s [8, 9, 10, s.hart.dReg 10] ∧
    s.hart.fmt = 5 ∧
    lanesOn s.hart 0 s.hart.effVl = [0, 1, 2] ∧
    quietFlags s.hart (raised (lanesOn s.hart 0 s.hart.effVl) fun k => fDiv (floatFmt s.hart.fmt) s.hart.rm (lane s.hart 8 (fmtWidth s.hart.fmt) k) (lane s.hart 9 (fmtWidth s.hart.fmt) k)) := by
  simp only [VecReady, PrefixPlaced, Settled, quietFlags, Steady, Clean]
  decide +kernel

theorem meets_VectorFloatingPointResults_6 :
    let s := withFmt 6 base
    VecReady s [8, 9, 10, s.hart.dReg 10] ∧
    s.hart.fmt = 6 ∧
    lanesOn s.hart 0 s.hart.effVl = [0, 1, 2] ∧
    quietFlags s.hart (raised (lanesOn s.hart 0 s.hart.effVl) fun k => fDiv (floatFmt s.hart.fmt) s.hart.rm (lane s.hart 8 (fmtWidth s.hart.fmt) k) (lane s.hart 9 (fmtWidth s.hart.fmt) k)) := by
  simp only [VecReady, PrefixPlaced, Settled, quietFlags, Steady, Clean]
  decide +kernel

theorem meets_VectorConversions_narrow :
    let s := withFmt 5 base
    VecReady s [8, 9] ∧
    s.hart.fmt = 5 ∧
    quietFlags s.hart (raised (lanesOn s.hart 0 3) fun k => convertElem 5 4 s.hart.rm (s.hart.vreg 8) k) := by
  simp only [VecReady, PrefixPlaced, Settled, quietFlags, Steady, Clean]
  decide +kernel

theorem meets_VectorConversions_pack :
    let s := withFmt 5 base
    VecReady s [8, 9] ∧
    s.hart.fmt ≤ 6 ∧
    s.hart.tr.ves = 0 ∧
    quietFlags s.hart (raised (upTo ((3 + 15) / 16)) fun b => bxPack 9 s.hart.rm ((fromTo (16 * b) (min (16 * b + 16) 3)).map (sourceVal 5 (s.hart.vreg 8)))) := by
  simp only [VecReady, PrefixPlaced, Settled, quietFlags, Steady, Clean]
  decide +kernel

theorem meets_VectorConversions_unpack :
    let s := withFmt 7 base
    VecReady s [8, 9] ∧
    s.hart.fmt = 7 := by
  simp only [VecReady, PrefixPlaced, Settled, Steady, Clean]
  decide +kernel

theorem meets_VectorComparesAndMaskLogic :
    let s := withV 0 5 (withFmt 5 base)
    VecReady s [8, 9] ∧
    Steady s.hart ∧
    Clean s.hart [0x000, 0x001, 0x003] ∧
    PrefixPlaced s.hart ∧
    Unbound s.hart 3 ∧
    s.hart.planish = [] ∧
    s.hart.fmt ≤ 6 ∧
    s.hart.effVl = 3 ∧
    quietFlags s.hart ((lanesOn s.hart 1 s.hart.effVl).foldl (fun a k => a ||| (fCmp fp32 .lt (lane s.hart 8 32 k) (lane s.hart 9 32 k)).2) 0) := by
  simp only [PrefixPlaced, Unbound, VecReady, Settled, quietFlags, Steady, Clean]
  decide +kernel

theorem meets_VectorReductionsAndScans_int :
    let s := base
    PrefixPlaced s.hart ∧
    Unbound s.hart 4 ∧
    Unbound s.hart (4 + 1) ∧
    Settled s.hart 8 ∧
    Clean s.hart [0x000, 0x001, 0x003] ∧
    s.hart.late = none ∧
    VecReady s [8, 9] ∧
    s.hart.rc = false ∧
    s.hart.det = false ∧
    s.hart.fmt ≤ 3 ∧
    s.hart.effVl = 3 := by
  simp only [PrefixPlaced, Unbound, Settled, VecReady, Steady, Clean]
  decide +kernel

theorem meets_VectorReductionsAndScans_fp :
    let s := withV 0 5 (withFmt 5 base)
    PrefixPlaced s.hart ∧
    Unbound s.hart 4 ∧
    Settled s.hart 8 ∧
    Clean s.hart [0x000, 0x001, 0x003] ∧
    s.hart.late = none ∧
    VecReady s [8, 9] ∧
    s.hart.rc = false ∧
    s.hart.det = false ∧
    s.hart.fmt = 5 ∧
    fcrEnables s.hart.tr.fcr = 0 ∧
    quietFlags s.hart (orderedSum fp32 s.hart.rm (((upTo s.hart.effVl).filter (onLane s.hart 1)).map (lane s.hart 8 32))).2 ∧
    ((upTo s.hart.effVl).filter (onLane s.hart 1)).length = 2 := by
  simp only [PrefixPlaced, Unbound, Settled, VecReady, quietFlags, Steady, Clean]
  decide +kernel

theorem meets_VectorReductionsAndScans_det :
    let s := onRegs (fun t => { t with tstat := 1 }) base
    PrefixPlaced s.hart ∧
    Unbound s.hart 4 ∧
    Settled s.hart 8 ∧
    Clean s.hart [0x000, 0x001, 0x003] ∧
    s.hart.late = none ∧
    VecReady s [8, 9] ∧
    s.hart.rc = false ∧
    s.hart.det = true ∧
    s.hart.fmt ≤ 6 := by
  simp only [PrefixPlaced, Unbound, Settled, VecReady, Steady, Clean]
  decide +kernel

theorem meets_VectorElementMoves :
    let s := withV 0 3 (withX [(1, 31)] base)
    VecReady s [8, 9, 10] ∧
    s.hart.tr.wbase.toNat ≤ 64 ∧
    Unbound s.hart 1 ∧
    Unbound s.hart 2 ∧
    s.hart.xm 1 = 0 ∧
    s.hart.planish = [] ∧
    s.hart.late = none ∧
    (s.hart.xr 1).toNat < s.hart.vlmaxW 32 ∧
    (lanesOn s.hart 1 s.hart.effVl).all (fun k => elemMark (s.hart.vmark (s.hart.phys 8)) 32 k = 0) = true ∧
    (s.hart.fe[s.hart.phys 8]?).getD .full ≠ .pending := by
  simp only [Unbound, VecReady, PrefixPlaced, Settled, Steady, Clean]
  decide +kernel

theorem meets_VectorMemoryElements_load :
    let s := withX [(1, 0x100), (2, 8)] base
    (Unbound s.hart 1 ∧
    s.hart.xm 1 = 0 ∧
    MemoryCanonical s ∧
    VecReady s [8, 10] ∧
    s.hart.planish = [] ∧
    CleanMask s.hart 0 3 ∧
    Unbound s.hart 2 ∧
    s.hart.xm 2 = 0) ∧
    ∃ (l : List (Nat × Nat × Nat × Mark)) (t : State), loading .single 32 ((lanesOn s.hart 0 3).map fun k => (k, 0x100 + BitVec.ofNat 64 k * 8)) s = .ok l t ∧ l.map (·.2.1) = [0x10100, 0x10108, 0x10110] := by
  exact ⟨by simp only [Unbound, MemoryCanonical, VecReady, PrefixPlaced, Settled, CleanMask, Steady, Clean]; decide +kernel,
    ran_some (by decide +kernel)⟩

theorem meets_VectorMemoryElements_store :
    let s := withX [(1, 0x100), (2, 8)] base
    (Unbound s.hart 1 ∧
    s.hart.xm 1 = 0 ∧
    MemoryCanonical s ∧
    VecReady s [8, 10] ∧
    s.hart.planish = [] ∧
    CleanMask s.hart 0 3 ∧
    Unbound s.hart 2 ∧
    s.hart.xm 2 = 0) ∧
    ∃ (l : List Nat) (t : State), storing .single 32 ((lanesOn s.hart 0 3).map fun k => (k, 0x100 + BitVec.ofNat 64 k * 8, lane s.hart 10 32 k, 0)) s = .ok l t ∧ l = [0x10100, 0x10108, 0x10110] := by
  exact ⟨by simp only [Unbound, MemoryCanonical, VecReady, PrefixPlaced, Settled, CleanMask, Steady, Clean]; decide +kernel,
    ran_some (by decide +kernel)⟩

theorem meets_VectorMemoryElements_indexed :
    let s := withX [(1, 0x100), (2, 8)] base
    (Unbound s.hart 1 ∧
    s.hart.xm 1 = 0 ∧
    MemoryCanonical s ∧
    VecReady s [8, 10] ∧
    s.hart.planish = [] ∧
    CleanMask s.hart 0 3 ∧
    Settled s.hart (10 + 1) ∧
    s.hart.phys (10 + 1) ≠ s.hart.phys 10 ∧ s.hart.phys (10 + 1) < 192 ∧
    (lanesOn s.hart 0 3).all (fun k => elemMark (s.hart.vmark (s.hart.phys 8)) 32 k = 0) = true) ∧
    ∃ (l : List (Nat × Nat × Nat × Mark)) (t : State), loading .gather 32 ((lanesOn s.hart 0 3).map fun k => (k, 0x100 + BitVec.ofInt 64 (sg 32 (lane s.hart 8 32 k)))) s = .ok l t ∧
      (l.length = 3 ∧ ran (storing .gather 32 ((lanesOn s.hart 0 3).map fun k => (k, 0x100, lane s.hart 10 32 k, 0))) s = true) := by
  exact ⟨by simp only [Unbound, Settled, MemoryCanonical, VecReady, PrefixPlaced, CleanMask, Steady, Clean]; decide +kernel,
    ran_some (by decide +kernel)⟩

/-! ### Tensors, Filigree, queues and plural instructions -/

/-- A state whose memory holds a descriptor at 0x100: 64 × 1 × 1 × 1 elements of the format at 0x2000, row-major, its tile
map at 0x3000; handle 6 is bound to it. -/
def withTensor (fmt : Nat) (s : State) : State :=
  let s := withMem [(0x10100, 8, 0x2000), (0x10110, 4, if fmt < 7 then 64 else 128), (0x10114, 4, 1), (0x10118, 4, 1), (0x1011C, 4, 1),
    (0x10120, 4, fmt + if fmt < 7 then 0 else 0x50), (0x10128, 8, 0x3000)] s
  onHart (fun h => { h with handles := h.handles.setIfInBounds 6 ⟨BitVec.ofNat 512 (memNat s.mem 0x10100 64), 0x100, 0x10100, true⟩ }) s


theorem meets_TensorHandles_load :
    let s := withX [(1, 0x100)] (withTensor 2 base)
    (PrefixPlaced s.hart ∧
    Unbound s.hart 1 ∧
    s.hart.xm 1 = 0 ∧
    (s.hart.xr 1).toNat % 64 = 0) ∧
    ∃ pa t, Passes { loadAcc .single with order := .sync, whole := true } 0x100 64 s pa t ∧
      (t.latent = [] ∧ viewMark t pa 64 = 0 ∧ (descOf (BitVec.ofNat 512 (readNat pa 64 t))).valid = true) := by
  exact ⟨by simp only [PrefixPlaced, Unbound]; decide +kernel,
    passes_some (by decide +kernel)⟩

theorem meets_TensorHandles_retag :
    let s := withX [(1, 0x4000)] (withTensor 2 base)
    (SyncReady s ∧
    Unbound s.hart 1 ∧
    s.hart.xm 1 = 0 ∧
    MemoryCanonical s ∧
    s.hart.protectedStrip = false ∧
    s.hart.assay = false ∧
    (burnishQueue s s.hart.die).length < 16 ∧
    (s.hart.handle 6).bound = true ∧
    (s.hart.xr 1).toNat % 64 = 0) ∧
    let acc : Access := { rmwAcc .single with whole := true }
    ∃ (pa : Nat) (t : State), translate acc 0x100 s = .ok pa t ∧
      (t.latent = [] ∧ viewMark t pa 64 = 0 ∧ ran (bankCheck acc 0x100 pa 64) t = true ∧
        after (raceCheck { acc with write := false } 0x100 pa 64) t (fun _ w => after (raceCheck acc 0x100 pa 16) w
          fun _ x => ran (raceCheck acc 0x120 (pa + 0x20) 8) x) = true ∧
        let d := descOf (BitVec.ofNat 512 (readNat pa 64 t))
        let new : TDesc := { d with tag := 1, base := 0x4000 }
        d.cv = false ∧ d.tmap ≠ 0 ∧ new.valid = true ∧ d.base + d.footprint d.tag ≤ 0x4000) := by
  exact ⟨by simp only [Unbound, MemoryCanonical, SyncReady, PrefixPlaced]; decide +kernel,
    ran_some (by decide +kernel)⟩

theorem meets_TensorHandles_waits :
    let s := onHart (fun h => { h with wait := .twait 1 6 }) (withTensor 2 base)
    SyncReady s ∧
    Waits s (.twait 1 6) ∧
    Unbound s.hart 1 ∧
    s.hart.xm 1 = 0 ∧
    s.hart.protectedStrip = false ∧
    (s.hart.handle 6).bound = true ∧
    let d := descOf (s.hart.handle 6).desc; d.cv = false ∧ d.fl = false ∧ d.tiles = 1 := by
  simp only [Waits, SyncReady, PrefixPlaced, Unbound]
  decide +kernel

/-- A descriptor whose conversion runs, or has failed at tile 0. -/
def converting (fl : Bool) : State :=
  let v (h : Hart) : BitVec 512 := (h.handle 6).desc ||| BitVec.ofNat 512 (2 ^ 270 + if fl then 2 ^ 271 else 0)
  onHart (fun h => { h with handles := h.handles.setIfInBounds 6 (Handle.mk (v h) 0x100 0x10100 true) }) (withTensor 2 base)


theorem meets_TensorHandles_converting :
    let s := converting false
    SyncReady s ∧
    Unbound s.hart 1 ∧
    s.hart.xm 1 = 0 ∧
    s.hart.protectedStrip = false ∧
    (s.hart.handle 6).bound = true ∧
    let d := descOf (s.hart.handle 6).desc; d.cv = true ∧ d.fl = false ∧ d.cdone < d.tiles := by
  simp only [SyncReady, PrefixPlaced, Unbound]
  decide +kernel

theorem meets_TensorHandles_failed :
    let s := converting true
    SyncReady s ∧
    Unbound s.hart 1 ∧
    s.hart.xm 1 = 0 ∧
    s.hart.protectedStrip = false ∧
    (s.hart.handle 6).bound = true ∧
    let d := descOf (s.hart.handle 6).desc; d.cv = true ∧ d.fl = true ∧ d.cdone < d.tiles := by
  simp only [SyncReady, PrefixPlaced, Unbound]
  decide +kernel

/-- No tile map is looked at where no conversion runs. -/
theorem mapLook_none {d : TDesc} {c : Nat × Nat × Nat × Nat} {es : List Nat} {s : State} (h : d.cv = false) :
    mapLook d c es s = .ok () s := by
  simp only [mapLook, h]
  rfl

theorem meets_TensorElements :
    let s := withTensor 2 base
    (VecReady s [10] ∧
    (s.hart.handle 6).bound = true ∧
    (∀ r ∈ [20, 20 + 1, 20 + 2, (20 + 3 : Reg)], Unbound s.hart r ∧ s.hart.xm r.toNat = 0) ∧
    s.hart.fmt = 2 ∧
    (descOf (s.hart.handle 6).desc).fmt = 2 ∧
    s.hart.planish = [] ∧
    CleanMask s.hart 0 3 ∧
    s.hart.effVl = 3) ∧ mapLook (descOf (s.hart.handle 6).desc) (0, 0, 0, 0) (lanesOn s.hart 0 3) s = .ok () s ∧
    ∃ (l : List (Nat × Nat)) (t : State), handleLoads (descOf (s.hart.handle 6).desc) (0, 0, 0, 0) (lanesOn s.hart 0 3) s = .ok l t ∧
      ran (handleStores (descOf (s.hart.handle 6).desc) (0, 0, 0, 0) ((lanesOn s.hart 0 3).map fun k => (k, lane s.hart 10 32 k, 0))) s = true := by
  exact ⟨by simp only [Unbound, VecReady, PrefixPlaced, Settled, CleanMask, Steady, Clean]; decide +kernel,
    mapLook_none (by decide +kernel), ran_some (by decide +kernel)⟩

theorem meets_TensorElements_blocks :
    let s := onRegs (fun t => { t with vl := 16 }) (withFmt 8 (withTensor 8 base))
    (VecReady s [10] ∧
    (s.hart.handle 6).bound = true ∧
    (∀ r ∈ [20, 20 + 1, 20 + 2, (20 + 3 : Reg)], Unbound s.hart r ∧ s.hart.xm r.toNat = 0) ∧
    s.hart.fmt = 8 ∧
    (descOf (s.hart.handle 6).desc).fmt = 8 ∧
    s.hart.planish = [] ∧
    CleanMask s.hart 0 3 ∧
    s.hart.effVl = 16) ∧ mapLook (descOf (s.hart.handle 6).desc) (0, 0, 0, 0) [0] s = .ok () s ∧
    ∃ (l : List (Nat × Nat)) (t : State), handleLoads (descOf (s.hart.handle 6).desc) (0, 0, 0, 0) [0] s = .ok l t ∧
      ran (handleStores (descOf (s.hart.handle 6).desc) (0, 0, 0, 0) [(0, lane s.hart 10 64 0, 0)]) s = true := by
  exact ⟨by simp only [Unbound, VecReady, PrefixPlaced, Settled, CleanMask, Steady, Clean]; decide +kernel,
    mapLook_none (by decide +kernel), ran_some (by decide +kernel)⟩

theorem meets_FiligreeSequences_load :
    let s := withX [(1, 0x200)] (withMem [(0x10200, 4, 1)] base)
    (PrefixPlaced s.hart ∧
    Unbound s.hart 1 ∧
    s.hart.xm 1 = 0 ∧
    (s.hart.xr 1).toNat % 4 = 0) ∧
    ∃ pa t, Passes (loadAcc .single (some 0)) 0x200 4 s pa t ∧
      (t.latent = [] ∧ viewMark t pa 4 = 0 ∧ readNat pa 4 t = 1 ∧ ran (qloadImage 0x200 1) t = true) := by
  exact ⟨by simp only [PrefixPlaced, Unbound]; decide +kernel,
    passes_some (by decide +kernel)⟩

theorem meets_FiligreeSequences_residency :
    let me : FBinding := ⟨0, 0, 0, 0, 2⟩
    let full := { base with bound := [⟨0, 0, 0, 0, 0⟩, ⟨0, 0, 0, 0, 1⟩, ⟨0, 0, 0, 0, 3⟩, ⟨7, 5, 5, 0, 3⟩, ⟨0, 1, 0, 0, 3⟩] }
    ((base.bound.erase me).filter (·.core = base.hart.core)).length < 4 ∧
    4 ≤ ((full.bound.erase me).filter (·.core = base.hart.core)).length ∧
    ((full.bound.erase me).filter (·.core = base.hart.core)).getLast? = some ⟨0, 1, 0, 0, 3⟩ ∧
    let own := { base with bound := [⟨0, 0, 0, 0, 0⟩, ⟨0, 0, 0, 0, 1⟩, ⟨0, 5, 0, 0, 3⟩, ⟨0, 0, 0, 0, 3⟩] }
    (hartOf own (partyNo 0 0 0)).all (fun o => ((o.filigree[3]?).getD FSlot.reset).dirty = false) = true ∧
      (hartOf own (partyNo 0 0 0)).isSome = true ∧
    let s := onHart (fun h => { h with filigree := h.filigree.setIfInBounds 2 ⟨1, List.replicate 33 5, List.replicate 33 0, false⟩ }) base
    me ∉ s.bound ∧ s.hart.status ≠ .idle ∧ (s.hart.filigree[2]).ndim ≠ 0 ∧ (s.hart.filigree[2]).dirty = false := by
  decide +kernel

/-- Another hart's QLOAD is held up in slot 3 of the same core: its slot is in use. -/
theorem meets_FiligreeSequences_inUse :
    let o := { base.hart with hartid := 1, wait := .stall, ir := 0x1F3, tr := { base.hart.tr with lhart := 1 } }
    let s := { base with others := [o], bound := [⟨0, 0, 0, 0, 0⟩, ⟨0, 0, 0, 0, 1⟩, ⟨0, 5, 0, 0, 3⟩, ⟨0, 0, 1, 0, 3⟩] }
    let others := (s.bound.erase ⟨0, 0, 0, 0, 2⟩).filter (·.core = s.hart.core)
    ⟨0, 0, 1, 0, 3⟩ ∈ others ∧ FBinding.inUse ⟨0, 0, 1, 0, 3⟩ s = true ∧ 4 ≤ others.length ∧
    (others.filter fun b => !b.inUse s).getLast? = some ⟨0, 5, 0, 0, 3⟩ := by
  decide +kernel

theorem meets_FiligreeSequences_generate :
    let s := withX [(1, 0x301), (2, 7)] (onHart (fun h => { h with filigree := h.filigree.setIfInBounds 3 ⟨2, List.replicate 66 5, List.replicate 66 0, true⟩ }) base)
    VecReady s [10] ∧
    Unbound s.hart 1 ∧
    Unbound s.hart 2 ∧
    s.hart.xm 1 = 0 ∧
    s.hart.xm 2 = 0 ∧
    (s.hart.xr 1).toNat < 1024 ∧
    (s.hart.xr 1).toNat / 128 % 2 = 0 ∧
    (s.hart.xr 1).toNat % 128 < ((s.hart.filigree[(s.hart.xr 1).toNat / 256]?).getD FSlot.reset).ndim := by
  simp only [Unbound, VecReady, PrefixPlaced, Settled, Steady, Clean]
  decide +kernel

theorem meets_AppendPushAndPostedAdds_append :
    let s := withV 4 5 (withX [(1, 0x100)] (withMem [(0x10100, 8, 0x2000), (0x10108, 8, 16), (0x10110, 8, 2), (0x10118, 4, 16)] base))
    (SyncReady s ∧
    s.hart.protectedStrip = false ∧
    s.hart.assay = false ∧
    MemoryCanonical s ∧
    Unbound s.hart 1 ∧
    s.hart.xm 1 = 0 ∧
    CleanMask s.hart 0 3 ∧
    Clean s.hart [0x000, 0x001, 0x003] ∧
    (∀ i, i < 3 → s.hart.bitMark 4 i = 0) ∧
    ((upTo s.hart.effVl).filter fun e => (s.hart.vreg 4).getLsbD e && onLane s.hart 0 e) = [0, 2] ∧
    (s.hart.xr 1).toNat % 32 = 0) ∧
    ∃ (d : Nat × Nat) (t : State), cappDescriptor 0x100 s = .ok d t ∧ d.2 / 2 ^ 192 % 2 ^ 32 = 2 ^ 4 ∧
      after (foldL (fun r j => do
        let a := 0x2000 + BitVec.ofNat 64 (4 * ((16 + j) % 16))
        let ea ← translate { storeAcc .single with order := .quiet } a
        raceLook { storeAcc .single with order := .quiet } a ea 4
        pure (r ++ [ea])) [] (upTo 2) : M (List Nat)) t (fun l _ => decide (l = [0x12000, 0x12004] ∧ 0x10100 + 32 ≤ 0x12000 ∧
          16 + 2 ≤ d.2 / 2 ^ 128 % 2 ^ 64 + 16)) = true := by
  exact ⟨by simp only [Unbound, MemoryCanonical, SyncReady, PrefixPlaced, CleanMask, Clean]; decide +kernel,
    ran_some (by decide +kernel)⟩

theorem meets_AppendPushAndPostedAdds_full :
    let s := withV 4 5 (withX [(1, 0x100)] (withMem [(0x10100, 8, 0x2000), (0x10108, 8, 16), (0x10110, 8, 0), (0x10118, 4, 16)] base))
    (SyncReady s ∧
    s.hart.protectedStrip = false ∧
    s.hart.assay = false ∧
    MemoryCanonical s ∧
    Unbound s.hart 1 ∧
    s.hart.xm 1 = 0 ∧
    CleanMask s.hart 0 3 ∧
    Clean s.hart [0x000, 0x001, 0x003] ∧
    (∀ i, i < 3 → s.hart.bitMark 4 i = 0) ∧
    ((upTo s.hart.effVl).filter fun e => (s.hart.vreg 4).getLsbD e && onLane s.hart 0 e) = [0, 2] ∧
    (s.hart.xr 1).toNat % 32 = 0) ∧
    ∃ (d : Nat × Nat) (t : State), cappDescriptor 0x100 s = .ok d t ∧ (d.2 / 2 ^ 192 % 2 ^ 32 = 2 ^ 4 ∧ d.2 / 2 ^ 128 % 2 ^ 64 + 16 < d.2 / 2 ^ 64 % 2 ^ 64 + 2) := by
  exact ⟨by simp only [Unbound, MemoryCanonical, SyncReady, PrefixPlaced, CleanMask, Clean]; decide +kernel,
    ran_some (by decide +kernel)⟩

theorem meets_AppendPushAndPostedAdds_nothing :
    let s := withV 4 0 (withX [(1, 0x100)] (withMem [(0x10100, 8, 0x2000), (0x10108, 8, 16), (0x10110, 8, 0), (0x10118, 4, 16)] base))
    (SyncReady s ∧
    s.hart.protectedStrip = false ∧
    s.hart.assay = false ∧
    MemoryCanonical s ∧
    Unbound s.hart 1 ∧
    s.hart.xm 1 = 0 ∧
    CleanMask s.hart 0 3 ∧
    Clean s.hart [0x000, 0x001, 0x003] ∧
    (∀ i, i < 3 → s.hart.bitMark 4 i = 0) ∧
    ((upTo s.hart.effVl).filter fun e => (s.hart.vreg 4).getLsbD e && onLane s.hart 0 e) = [] ∧
    (s.hart.xr 1).toNat % 32 = 0) ∧
    ∃ (d : Nat × Nat) (t : State), cappDescriptor 0x100 s = .ok d t ∧ (d.2 / 2 ^ 192 % 2 ^ 32 = 2 ^ 4 ∧ d.2 / 2 ^ 64 % 2 ^ 64 ≤ d.2 / 2 ^ 128 % 2 ^ 64 + 16) := by
  exact ⟨by simp only [Unbound, MemoryCanonical, SyncReady, PrefixPlaced, CleanMask, Clean]; decide +kernel,
    ran_some (by decide +kernel)⟩

theorem meets_AppendPushAndPostedAdds_push :
    let s := withX [(1, 1)] { base with others := [{ Hart.reset 1 with status := .running, tr := { TaskRegs.reset with lhart := 1 }, fe := Vector.replicate 192 .empty }] }
    PrefixPlaced s.hart ∧
    s.hart.planish = [] ∧
    s.hart.protectedStrip = false ∧
    s.hart.late = none ∧
    Unbound s.hart 1 ∧
    s.hart.xm 1 = 0 ∧
    Settled s.hart 8 ∧
    (pushPeer s s.hart (s.hart.xr 1).toNat).isSome = true ∧
    (pushPeer s s.hart (s.hart.xr 1).toNat).all (fun o => (o.fe[8]?).getD .full = .empty) = true ∧
    s.pushes = [] := by
  simp only [PrefixPlaced, Unbound, Settled]
  decide +kernel

theorem meets_AppendPushAndPostedAdds_delivery :
    let s := { base with pushes := [⟨0, 1, 0, 0, 191, 256, 7, 0⟩] }
    (s.pushes[0]?).map (fun j => (j.task, j.copy, j.peer, decide (j.reg < 192))) = some (s.hart.taskNo, s.hart.copy, s.hart.tr.lhart.toNat, true) ∧
    s.hart.status ≠ .idle := by
  decide +kernel

theorem meets_AppendPushAndPostedAdds_scatter :
    let s := withX [(1, 0x100)] base
    (VecReady s [8, 10] ∧
    s.hart.det = false ∧
    s.hart.planish = [] ∧
    s.hart.protectedStrip = false ∧
    Unbound s.hart 1 ∧
    s.hart.xm 1 = 0 ∧
    s.hart.fmt ∈ [2, 3, 5, 6] ∧
    (lanesOn s.hart 0 3).all (fun k => elemMark (s.hart.vmark (s.hart.phys 8)) 32 k = 0) = true ∧
    CleanMask s.hart 0 3) ∧
    ∃ (l : List Nat) (t : State), posting 2 32 ((lanesOn s.hart 0 3).map fun k => (k, 0x100 + BitVec.ofInt 64 (sg 32 (lane s.hart 8 32 k)))) s = .ok l t ∧ l = [0x10100, 0x10100, 0x10100] := by
  exact ⟨by simp only [Unbound, VecReady, PrefixPlaced, Settled, CleanMask, Steady, Clean]; decide +kernel,
    ran_some (by decide +kernel)⟩

theorem meets_PluralStoresAndOperations_store :
    let s := withV 0 (2 ^ 126 + 1) (withX [(1, 32), (2, 9)] base)
    (PluralReady s 1 2 ∧
    Unbound s.hart 2 ∧
    Settled s.hart 8 ∧
    s.hart.late = none ∧
    s.copies = [] ∧
    s.hmvs = []) ∧
    ∃ (ws : List MemberWord) (t : State), memberChecks (storeAcc .plural) 32 (pluralMembers s.hart true) { s with hart := seen 0 s.hart } = .ok ws t ∧
      (ws.map (·.idx) = [0, 126] ∧ ran (memberRaces (storeAcc .plural) 4 ws) t = true ∧ ws.all (fun x => !bankRetired s (sliceOf x.pa) (bankOf x.pa)) = true) := by
  exact ⟨by simp only [Unbound, Settled, PluralReady, PrefixPlaced, MemoryCanonical, CleanMask, Clean]; decide +kernel,
    ran_some (by decide +kernel)⟩

theorem meets_PluralStoresAndOperations_retired :
    let s := withV 0 (2 ^ 126 + 1) (withX [(1, 32), (2, 9)] { base with retired := [(0, 126)] })
    (PluralReady s 1 4 ∧
    Unbound s.hart 2 ∧
    Settled s.hart 8 ∧
    s.hart.late = none ∧
    s.copies = [] ∧
    s.hmvs = []) ∧
    ∃ (ws : List MemberWord) (t : State), memberChecks (storeAcc .plural) 32 (pluralMembers s.hart true) { s with hart := seen 0 s.hart } = .ok ws t ∧
      ws.map (fun x => bankRetired s (sliceOf x.pa) (bankOf x.pa)) = [false, true] := by
  exact ⟨by simp only [Unbound, Settled, PluralReady, PrefixPlaced, MemoryCanonical, CleanMask, Clean]; decide +kernel,
    ran_some (by decide +kernel)⟩

theorem meets_PluralStoresAndOperations_operate :
    let s := withV 0 (2 ^ 126 + 1) (withX [(1, 32), (2, 8)] base)
    (PluralReady s 1 4 ∧
    Unbound s.hart 2 ∧
    Settled s.hart 8 ∧
    s.copies = [] ∧
    s.hmvs = [] ∧
    releasePending s = false ∧
    s.hart.xm 2 = 0 ∧
    (s.hart.xr 2).toNat % 4 = 0) ∧
    ∃ (ps : List (MemberWord × Option MemberWord)) (t : State), opChecks 32 (some 8) (pluralMembers s.hart true) s = .ok ps t ∧
      (ps.length = 2 ∧ ps.all (fun p => !memberFails true t p.1.pa && p.2.all (fun x => !memberFails true t x.pa)) = true ∧
        ran (opChecks 32 none (pluralMembers s.hart true)) { s with hart := seen 0 s.hart } = true) := by
  exact ⟨by simp only [Unbound, Settled, PluralReady, PrefixPlaced, MemoryCanonical, CleanMask, Clean]; decide +kernel,
    ran_some (by decide +kernel)⟩

theorem meets_PluralLoads :
    let s := withV 0 (2 ^ 126 + 1) (withX [(1, 32), (2, 9)] base)
    (PluralReady s 1 4 ∧
    Unbound s.hart 2 ∧
    Settled s.hart 8 ∧
    s.copies = [] ∧
    s.hmvs = []) ∧
    ∃ (ws : List MemberWord) (t : State), memberChecks (loadAcc .plural) 32 (pluralMembers s.hart false) s = .ok ws t ∧
      (ws.length = 2 ∧ after (memberRaces (loadAcc .plural) 4 ws) t (fun _ u => ws.all fun x => !memberFails true u x.pa) = true ∧
        (orderedSum fp32 .rne (ws.map fun x => memNat s.mem x.pa 4)).2 &&& fcrEnables s.hart.tr.fcr = 0) := by
  exact ⟨by simp only [Unbound, Settled, PluralReady, PrefixPlaced, MemoryCanonical, CleanMask, Clean]; decide +kernel,
    ran_some (by decide +kernel)⟩

theorem meets_PluralLoads_trap :
    let s := onRegs (fun t => { t with fcr := 0x1FE0 }) (withMem [(0x1F000000FE0, 4, 0x7F800001)] (withV 0 1 (withX [(1, 32)] base)))
    (PluralReady s 1 4 ∧
    Unbound s.hart 2 ∧
    s.hart.resumed = none) ∧
    ∃ (ws : List MemberWord) (t : State), memberChecks (loadAcc .plural) 32 (pluralMembers s.hart false) s = .ok ws t ∧
      (ws.length = 1 ∧ after (memberRaces (loadAcc .plural) 4 ws) t (fun _ u => ws.all fun x => !memberFails true u x.pa) = true ∧
        (orderedSum fp32 .rne (ws.map fun x => memNat s.mem x.pa 4)).2 &&& fcrEnables s.hart.tr.fcr ≠ 0) := by
  exact ⟨by simp only [Unbound, PluralReady, PrefixPlaced, MemoryCanonical, CleanMask, Clean]; decide +kernel,
    ran_some (by decide +kernel)⟩

/-! ### The matrix engine -/

/-- A hart that holds the engine, set to 4 × 4 × 32 of a format, its tiles and accumulators clear. -/
def engine (fmt : Nat) (queue : List MqEntry) (s : State) : State :=
  onHart (fun h => { h with swage := some (Swage.mk 4 4 32 (BitVec.ofNat 4 fmt) (Vector.replicate 8 0) (Vector.replicate 8 0)
    (Vector.replicate 4 0) (Vector.replicate 4 0) (Vector.replicate 4 0) (Vector.replicate 4 0) 0 false [] queue) }) s

/-- The engine is there, has room in its queue and holds a legal shape. -/
def engineReady (s : State) : Bool :=
  match s.hart.swage with
  | some w => decide (w.queue.length < 16 ∧ w.m ≤ 64 ∧ w.n ≤ 64 ∧ w.k ≤ 256 ∧ w.m ≠ 0) && s.hart.stopAt.isNone &&
      s.hart.late.isNone && decide (s.hart.pfx = .none)
  | none => false

theorem engineReady_ok {s : State} (h : engineReady s = true) : ∃ w, EngineReady s w ∧ w.m ≠ 0 := by
  unfold engineReady at h
  cases hw : s.hart.swage with
  | none => simp [hw] at h
  | some w =>
    simp only [hw, Bool.and_eq_true, decide_eq_true_eq, Option.isNone_iff_eq_none] at h
    exact ⟨w, ⟨.inl h.2, hw, h.1.1.1.1, h.1.1.2, h.1.2, h.1.1.1.2.1, h.1.1.1.2.2.1, h.1.1.1.2.2.2.1⟩, h.1.1.1.2.2.2.2⟩


theorem meets_MatrixShapesAndOperands_shape :
    let s := engine 0 [] base
    PrefixPlaced base.hart ∧
    base.hart.swage = none ∧
    PrefixPlaced s.hart ∧
    s.hart.swage.isSome = true ∧
    Unbound s.hart 1 ∧
    Unbound s.hart 2 ∧
    s.hart.xm 1 = 0 := by
  simp only [PrefixPlaced, Unbound]
  decide +kernel

theorem meets_MatrixShapesAndOperands_rows :
    let s := engine 0 [] (withX [(1, 0x100), (2, 64)] base)
    (engineReady s = true ∧
    Unbound s.hart 1 ∧
    Unbound s.hart 2 ∧
    s.hart.xm 1 = 0 ∧
    s.hart.xm 2 = 0) ∧
    ∃ (l : List (Nat × List (Byte × Mark))) (t : State), rowsRead .single 64 ((fromTo 0 4).map fun i => (i, 0x100 + BitVec.ofNat 64 i * 64)) s = .ok l t ∧
      (l.length = 4 ∧ s.hart.swage.map (·.rowBytes) = some 64) := by
  exact ⟨by simp only [Unbound]; decide +kernel,
    ran_some (by decide +kernel)⟩

theorem meets_MatrixShapesAndOperands_columns :
    let s := engine 1 [] (withX [(1, 0x100), (2, 64)] base)
    (engineReady s = true ∧
    Unbound s.hart 1 ∧
    Unbound s.hart 2 ∧
    s.hart.xm 1 = 0 ∧
    s.hart.xm 2 = 0 ∧
    s.hart.swage.map (·.fmt) = some 1) ∧
    ∃ (l : List (Nat × List (Byte × Mark))) (t : State), rowsRead .single 4 ((fromTo 0 32).map fun i => (i, 0x100 + BitVec.ofNat 64 i * 64)) s = .ok l t ∧ l.length = 32 := by
  exact ⟨by simp only [Unbound]; decide +kernel,
    ran_some (by decide +kernel)⟩

theorem meets_MatrixShapesAndOperands_indexed :
    let s := engine 0 [] (withX [(1, 0x100), (2, 64)] base)
    (engineReady s = true ∧
    Unbound s.hart 1 ∧
    Unbound s.hart 2 ∧
    s.hart.xm 1 = 0 ∧
    s.hart.xm 2 = 0 ∧
    Settled s.hart 8 ∧
    (upTo 4).all (fun i => elemMark (s.hart.vmark (s.hart.phys 8)) 32 i = 0) = true) ∧
    ∃ (l : List (Nat × List (Byte × Mark))) (t : State), rowsRead .gather 64 ((fromTo 0 4).map fun i => (i, 0x100 + BitVec.ofInt 64 (sg 32 (lane s.hart 8 32 i)) * 64)) s = .ok l t ∧ l.length = 4 := by
  exact ⟨by simp only [Unbound, Settled]; decide +kernel,
    ran_some (by decide +kernel)⟩

theorem meets_MatrixShapesAndOperands_waits :
    let s := engine 0 [⟨0x6B⟩] base
    PrefixPlaced s.hart ∧
    s.hart.races.all (fun r => r.kind != queueMat) = true ∧
    s.hart.swage.map (fun w => w.queue.length) = some 1 ∧
    (engine 0 [] base).hart.swage.map (fun w => w.queue.length) = some 0 := by
  simp only [PrefixPlaced]
  decide +kernel

theorem meets_MatrixAccumulation_multiply :
    engineReady (engine 0 [] base) = true ∧ (engine 0 [] base).hart.swage.map (·.fmt.toNat) = some 0 ∧
    engineReady (engine 1 [] base) = true ∧ (engine 1 [] base).hart.swage.map (·.fmt.toNat) = some 1 ∧
    engineReady (engine 2 [] base) = true ∧ (engine 2 [] base).hart.swage.map (·.fmt.toNat) = some 2 ∧
    engineReady (engine 3 [] base) = true ∧ (engine 3 [] base).hart.swage.map (·.fmt.toNat) = some 3 ∧
    engineReady (engine 4 [] base) = true ∧ (engine 4 [] base).hart.swage.map (·.fmt.toNat) = some 4 := by
  decide +kernel

theorem meets_MatrixAccumulation_scale :
    let s := engine 3 [] (withX [(1, 0x100), (2, 0x200)] base)
    (engineReady s = true ∧
    Unbound s.hart 1 ∧
    Unbound s.hart 2 ∧
    s.hart.xm 1 = 0 ∧
    s.hart.xm 2 = 0 ∧
    2 ≤ 3) ∧
    ∃ (l : List (Byte × Mark)) (t : State), readRow .single 0 0x100 4 s = .ok l t ∧ (l.length = 4 ∧ ran (readRow .single 1 0x200 4) t = true) := by
  exact ⟨by simp only [Unbound]; decide +kernel,
    ran_some (by decide +kernel)⟩

/-- SCACC.M resumed at element 1: row 0 stands in the engine's latch. -/
theorem meets_MatrixAccumulation_resumed :
    let e := engine 3 [] (withX [(1, 0x100), (2, 0x200)] base)
    let s := onHart (fun h => { h with tr := { h.tr with ves := 1 }, swage := h.swage.map fun w => { w with scales := List.replicate 4 (1, 0) } }) e
    engineReady s = true ∧
    s.hart.tr.ves ≠ 0 ∧
    s.hart.swage.map (fun w => (w.fmt.toNat, w.scales.length)) = some (3, 4) ∧
    ran (readRow .single 1 0x200 4) s = true ∧
    Unbound s.hart 1 ∧
    Unbound s.hart 2 ∧
    s.hart.xm 1 = 0 ∧
    s.hart.xm 2 = 0 := by
  simp only [Unbound]
  decide +kernel

theorem meets_MatrixAccumulation_store :
    let s := engine 0 [] (withX [(1, 0x100), (2, 16)] base)
    (engineReady s = true ∧
    Unbound s.hart 1 ∧
    Unbound s.hart 2 ∧
    s.hart.xm 1 = 0 ∧
    s.hart.xm 2 = 0 ∧
    s.hart.planish = [] ∧
    MemoryCanonical s ∧
    s.hart.protectedStrip = false ∧
    s.hart.assay = false) ∧
    ∃ (l : List (Nat × Nat)) (t : State), rowsStored 4 ((fromTo 0 4).map fun i => (i, 0x100 + BitVec.ofNat 64 i * 16, (upTo 4).map fun _ => (0, 0))) s = .ok l t ∧
      l = [(0x10100, 16), (0x10110, 16), (0x10120, 16), (0x10130, 16)] := by
  exact ⟨by simp only [Unbound, MemoryCanonical]; decide +kernel,
    ran_some (by decide +kernel)⟩

theorem meets_MatrixAccumulation_drain :
    let s := engine 0 [] base
    engineReady s = true ∧
    (124 : Reg).toNat + 4 ≤ 128 ∧
    s.hart.tr.wbase.toNat ≤ 64 ∧
    ∀ i : Fin 4, Settled s.hart (regOf (124 + i)) := by
  simp only [Settled]
  decide +kernel

/-! ### Waits, ends and tasks -/

theorem meets_QueueWaitsErrorCheckAndPrefixes_drain :
    PrefixPlaced base.hart ∧
    drainPending base base.hart true true true true true true = false ∧
    base.hart.races = [] ∧
    base.hart.tr.cir = 0 ∧
    base.hart.wait = .no ∧
    (onRegs (fun t => { t with cir := 1 }) base).hart.tr.cir ≠ 0 := by
  simp only [PrefixPlaced]
  decide +kernel

theorem meets_QueueWaitsErrorCheckAndPrefixes_pending :
    let s := onHart (fun h => { h with wait := .drain 0 1 0 0 0 0 }) { base with pushes := [⟨0, 0, 0, 0, 191, 256, 7, 0⟩] }
    PrefixPlaced s.hart ∧
    drainPending s s.hart false true false false false false = true ∧
    Waits s (.drain 0 1 0 0 0 0) := by
  simp only [PrefixPlaced, Waits]
  decide +kernel

theorem meets_QueueWaitsErrorCheckAndPrefixes_register :
    let s := onHart (fun h => { h with wait := .register 9 }) base
    Waits s (.register 9) ∧
    (s.hart.fe[9]?).getD .full = .full := by
  simp only [Waits]
  decide +kernel

theorem meets_HartEndAndYield_finish :
    PrefixPlaced base.hart ∧
    base.hart.races = [] ∧
    base.hart.planish = [] ∧
    base.hart.cg = 0 ∧
    (let s := buffering (inStrip base); BufferLands s ∧ s.hart.buf ≠ [] ∧ s.hart.cg = 0 ∧ s.hart.races = [] ∧ s.hart.planish = []) ∧
    (base.tasks[base.hart.taskNo]?).isSome = true := by
  simp only [PrefixPlaced, BufferLands]
  decide +kernel

theorem meets_HartEndAndYield_group :
    let s := onHart (fun h => { h with remote := true, tr := { h.tr with tstat := 0x200 } }) base
    PrefixPlaced s.hart ∧
    s.hart.races = [] ∧
    s.hart.planish = [] ∧
    s.hart.cg ≠ 0 ∧
    s.hart.remote = true := by
  simp only [PrefixPlaced]
  decide +kernel

theorem meets_HartEndAndYield_yield :
    base.hart.mode = .task ∧
    base.hart.keepsSlot = false ∧
    saveReady base base.hart = true ∧
    (kernel base).hart.mode = .supervisor ∧
    let s := { base with hmvs := [⟨0, 0, 0, 0, 0, [], 0, [], [], .nothing, 0, 0, base.hart.party, [], 0⟩] }; saveReady s s.hart = false ∧ s.hart.keepsSlot = false := by
  decide +kernel

/-- A machine whose page tables map the first 2 MiB to themselves, for the address space and for the hart. -/
def spaced (s : State) : State :=
  { withMem [(0x100000, 8, 0x200001), (0x180000, 8, 0), (0x200000, 8, 0x300001), (0x300000, 8, 0x1F)] s with
    spaces := [(0, ⟨0, 0x100000, 0, 0, true, 0⟩)], tlb := [⟨0, some 0, 0, 0, 21, 0, true, true, true, false, false⟩] }

/-- Queue 5 as LAUNCH finds it: its ring holds one entry of `n`, its overflow list `k` of 4. -/
def withQueue (n k : Nat) (s : State) : State :=
  { withMem [(0x1028, 4, 5 * 2 ^ 24)] s with
    queues := [(5, ⟨0x4000, 0x5000, BitVec.ofNat 32 n, 4, 6, 7, BitVec.ofNat 32 k, 0, 0, 2, 3⟩)] }


theorem meets_LaunchAndAwaitTasks_ring :
    let s := withX [(1, 0x1000)] (withQueue 4 0 (spaced base))
    (PrefixPlaced s.hart ∧
    s.hart.planish = [] ∧
    releasePending s = false ∧
    MemoryCanonical s ∧
    s.hart.protectedStrip = false ∧
    s.hart.assay = false ∧
    Unbound s.hart 1 ∧
    Unbound s.hart 2 ∧
    s.hart.xm 1 = 0 ∧
    (s.hart.xr 1).toNat % 64 = 0 ∧
    (queueBlock s 5).mode = 2 ∧
    (queueBlock s 5).asid = s.hart.sr.asid ∧
    (queueBlock s 5).ovcnt = 0 ∧ ((queueBlock s 5).tail - (queueBlock s 5).head).toNat < (queueBlock s 5).rsize.toNat ∧
    spaceAddr s 0 (0x4000 + 8 * 3) 8 true = some 0x4018) ∧
    ∃ pa t, Passes (loadAcc .single) (0x1000 + 0x28) 4 s pa t ∧ (t.latent = [] ∧ viewMark t pa 4 = 0 ∧ readNat pa 4 t / 2 ^ 24 % 64 = 5) := by
  exact ⟨by simp only [PrefixPlaced, Unbound, MemoryCanonical]; decide +kernel,
    passes_some (by decide +kernel)⟩

theorem meets_LaunchAndAwaitTasks_spill :
    let s := withX [(1, 0x1000)] (withQueue 1 3 (spaced base))
    (PrefixPlaced s.hart ∧
    s.hart.planish = [] ∧
    releasePending s = false ∧
    MemoryCanonical s ∧
    s.hart.protectedStrip = false ∧
    s.hart.assay = false ∧
    Unbound s.hart 1 ∧
    Unbound s.hart 2 ∧
    s.hart.xm 1 = 0 ∧
    (s.hart.xr 1).toNat % 64 = 0 ∧
    (queueBlock s 5).mode = 2 ∧
    (queueBlock s 5).asid = s.hart.sr.asid ∧
    ¬ ((queueBlock s 5).ovcnt = 0 ∧ ((queueBlock s 5).tail - (queueBlock s 5).head).toNat < (queueBlock s 5).rsize.toNat) ∧
    (queueBlock s 5).ovcnt.toNat < (queueBlock s 5).ovcap.toNat ∧
    spaceAddr s 0 (0x5000 + 8 * 2) 8 true = some 0x5010) ∧
    ∃ pa t, Passes (loadAcc .single) (0x1000 + 0x28) 4 s pa t ∧ (t.latent = [] ∧ viewMark t pa 4 = 0 ∧ readNat pa 4 t / 2 ^ 24 % 64 = 5) := by
  exact ⟨by simp only [PrefixPlaced, Unbound, MemoryCanonical]; decide +kernel,
    passes_some (by decide +kernel)⟩

theorem meets_LaunchAndAwaitTasks_full :
    let s := withX [(1, 0x1000)] (withQueue 4 4 (spaced base))
    (PrefixPlaced s.hart ∧
    s.hart.planish = [] ∧
    releasePending s = false ∧
    MemoryCanonical s ∧
    s.hart.protectedStrip = false ∧
    s.hart.assay = false ∧
    Unbound s.hart 1 ∧
    Unbound s.hart 2 ∧
    s.hart.xm 1 = 0 ∧
    (s.hart.xr 1).toNat % 64 = 0 ∧
    (queueBlock s 5).mode = 2 ∧
    (queueBlock s 5).asid = s.hart.sr.asid ∧
    ¬ ((queueBlock s 5).ovcnt = 0 ∧ ((queueBlock s 5).tail - (queueBlock s 5).head).toNat < (queueBlock s 5).rsize.toNat) ∧
    ¬ (queueBlock s 5).ovcnt.toNat < (queueBlock s 5).ovcap.toNat) ∧
    ∃ pa t, Passes (loadAcc .single) (0x1000 + 0x28) 4 s pa t ∧ (t.latent = [] ∧ viewMark t pa 4 = 0 ∧ readNat pa 4 t / 2 ^ 24 % 64 = 5) := by
  exact ⟨by simp only [PrefixPlaced, Unbound, MemoryCanonical]; decide +kernel,
    passes_some (by decide +kernel)⟩

theorem meets_LaunchAndAwaitTasks_over :
    let s := withX [(1, 0x2000)] (spaced base)
    PrefixPlaced s.hart ∧
    s.hart.protectedStrip = false ∧
    Unbound s.hart 1 ∧
    Unbound s.hart 2 ∧
    s.hart.xm 1 = 0 ∧
    (s.hart.xr 1).toNat % 64 = 0 ∧
    s.hart.xr 1 ≠ s.hart.tr.task ∧
    recordPending s 0 0x2000 = false ∧
    Waits (onHart (fun h => { h with wait := .waitt 1 2 0 }) s) (.waitt 1 2 0) := by
  simp only [PrefixPlaced, Unbound, Waits]
  decide +kernel

theorem meets_LaunchAndAwaitTasks_pending :
    let s := withX [(1, 0x2000)] { spaced base with tasks := [task0, { task0 with recVa := 0x2000, depc := 0x2030 }] }
    PrefixPlaced s.hart ∧
    s.hart.protectedStrip = false ∧
    Unbound s.hart 1 ∧
    Unbound s.hart 2 ∧
    s.hart.xm 1 = 0 ∧
    (s.hart.xr 1).toNat % 64 = 0 ∧
    s.hart.xr 1 ≠ s.hart.tr.task ∧
    recordPending s 0 0x2000 = true ∧
    releasePending s = false ∧
    s.hart.keepsSlot = false ∧
    saveReady s s.hart = true ∧
    saveReady { s with hmloads := [⟨0, 0, 0, 0, [], 0, [], 0⟩] } s.hart = false := by
  simp only [PrefixPlaced, Unbound]
  decide +kernel

theorem meets_LaunchAndAwaitTasks_keeps :
    let s := onHart (fun h => { h with wait := .waitt 1 2 0, tr := { h.tr with tstat := 0x200 } }) (withX [(1, 0x2000)] { spaced base with tasks := [task0, { task0 with recVa := 0x2000, depc := 0x2030 }] })
    PrefixPlaced s.hart ∧
    s.hart.protectedStrip = false ∧
    Unbound s.hart 1 ∧
    Unbound s.hart 2 ∧
    s.hart.xm 1 = 0 ∧
    (s.hart.xr 1).toNat % 64 = 0 ∧
    s.hart.xr 1 ≠ s.hart.tr.task ∧
    recordPending s 0 0x2000 = true ∧
    releasePending s = false ∧
    s.hart.keepsSlot = true ∧
    Waits s (.waitt 1 2 0) ∧
    (completedOf s 0 0x2000).length = 0 := by
  simp only [PrefixPlaced, Unbound, Waits]
  decide +kernel

theorem meets_LaunchAndAwaitTasks_since :
    let s := onHart (fun h => { h with wait := .waitt 1 2 0 }) (withX [(1, 0x2000)] { spaced base with
      tasks := [task0, { task0 with recVa := 0x2000, depc := 0x2030, state := .over }, { task0 with recVa := 0x2000, depc := 0x2030 }] })
    PrefixPlaced s.hart ∧
    s.hart.protectedStrip = false ∧
    Unbound s.hart 1 ∧
    Unbound s.hart 2 ∧
    s.hart.xm 1 = 0 ∧
    recordPending s 0 0x2000 = true ∧
    Waits s (.waitt 1 2 0) ∧
    (completedOf s 0 0x2000).length = 1 := by
  simp only [PrefixPlaced, Unbound, Waits]
  decide +kernel

theorem meets_StripOpensAndWaits_open :
    let s := buffering (withX [(1, 100)] (onHart (fun h => { h with count := 2, tr := { h.tr with tstat := 4 } }) base))
    PrefixPlaced s.hart ∧
    s.hart.races = [] ∧
    s.hart.planish = [] ∧
    releasePending s = false ∧
    s.hart.buf ≠ [] ∧
    BufferLands s ∧
    Clean s.hart [0x009] ∧
    Unbound s.hart 1 ∧
    Unbound s.hart 2 ∧
    s.hart.xm 1 = 0 ∧
    s.hart.tr.ves = 0 ∧
    s.tasks[s.hart.taskNo]? = some task0 ∧
    (s.hart.xr 1).toNat ≠ 0 ∧
    task0.desc.prod = 0 ∧
    s.hart.rb = true ∧
    s.hart.stripInBlock = true ∧
    task0.desc.attrBit 4 = false := by
  simp only [PrefixPlaced, Unbound, Clean, BufferLands]
  decide +kernel

theorem meets_StripOpensAndWaits_none :
    let s := base
    PrefixPlaced s.hart ∧
    s.hart.races = [] ∧
    s.hart.planish = [] ∧
    releasePending s = false ∧
    s.hart.buf = [] ∧
    Clean s.hart [0x009] ∧
    Unbound s.hart 1 ∧
    Unbound s.hart 2 ∧
    s.hart.xm 1 = 0 ∧
    s.hart.tr.ves = 0 ∧
    s.tasks[s.hart.taskNo]? = some task0 ∧
    (s.hart.xr 1).toNat = 0 := by
  simp only [PrefixPlaced, Unbound, Clean]
  decide +kernel

/-- The final STRIP, with the strip left behind in the hart's block: PUB publishes it. -/
theorem meets_StripOpensAndWaits_last :
    let s := onHart (fun h => { h with count := 2 }) base
    PrefixPlaced s.hart ∧
    s.hart.races = [] ∧
    s.hart.planish = [] ∧
    releasePending s = false ∧
    BufferLands s ∧
    Clean s.hart [0x009] ∧
    Unbound s.hart 1 ∧
    Unbound s.hart 2 ∧
    s.hart.xm 1 = 0 ∧
    s.hart.tr.ves = 0 ∧
    s.tasks[s.hart.taskNo]? = some task0 ∧
    (s.hart.xr 1).toNat = 0 ∧
    s.hart.stripInBlock = true := by
  simp only [PrefixPlaced, Unbound, Clean, BufferLands]
  decide +kernel

/-- PUB and DEPW together: the producer is another task. -/
theorem meets_StripOpensAndWaits_both :
    let s := onHart (fun h => { h with count := 2 }) (withX [(1, 100)]
      { spaced base with tasks := [{ task0 with desc := { task0.desc with prod := 0x7000, wb := 9 } }, { task0 with recVa := 0x7000, depc := 0x7030 }] })
    PrefixPlaced s.hart ∧
    releasePending s = false ∧
    s.hart.tr.ves = 0 ∧
    s.hart.stripInBlock = true ∧
    taskOfRecord s 0 0x7000 = some 1 ∧
    s.hart.taskNo = 0 := by
  simp only [PrefixPlaced]
  decide +kernel

theorem meets_StripOpensAndWaits_met :
    let s := withX [(1, 100)] (onRegs (fun t => { t with tstat := 0 })
      { spaced base with tasks := [{ task0 with desc := { task0.desc with prod := 0x7000, wb := 0 } }, { task0 with recVa := 0x7000, depc := 0x7030 }] })
    PrefixPlaced s.hart ∧
    s.hart.races = [] ∧
    s.hart.planish = [] ∧
    releasePending s = false ∧
    s.hart.buf = [] ∧
    Clean s.hart [0x009] ∧
    Unbound s.hart 1 ∧
    Unbound s.hart 2 ∧
    s.hart.xm 1 = 0 ∧
    s.hart.tr.ves = 0 ∧
    (s.tasks[s.hart.taskNo]?).map (fun t => t.desc.prod) = some 0x7000 ∧
    (s.hart.xr 1).toNat ≠ 0 ∧
    depwMet s { s.hart with tr := { s.hart.tr with vl := 1, strn := s.hart.tr.strn + 1 } } = true ∧
    s.hart.keepsSlot = false ∧
    saveReady s s.hart = true := by
  simp only [PrefixPlaced, Unbound, Clean]
  decide +kernel

theorem meets_StripOpensAndWaits_waits :
    let s := withX [(1, 100)] (onRegs (fun t => { t with tstat := 0 })
      { spaced base with tasks := [{ task0 with desc := { task0.desc with prod := 0x7000, wb := 9 } }, { task0 with recVa := 0x7000, depc := 0x7030 }] })
    PrefixPlaced s.hart ∧
    s.hart.races = [] ∧
    s.hart.planish = [] ∧
    releasePending s = false ∧
    s.hart.buf = [] ∧
    Clean s.hart [0x009] ∧
    Unbound s.hart 1 ∧
    Unbound s.hart 2 ∧
    s.hart.xm 1 = 0 ∧
    s.hart.tr.ves = 0 ∧
    (s.tasks[s.hart.taskNo]?).map (fun t => t.desc.prod) = some 0x7000 ∧
    (s.hart.xr 1).toNat ≠ 0 ∧
    depwMet s { s.hart with tr := { s.hart.tr with vl := 1, strn := s.hart.tr.strn + 1 } } = false ∧
    s.hart.keepsSlot = false ∧
    saveReady s s.hart = true ∧
    saveReady { s with hmloads := [⟨0, 0, 0, 0, [], 0, [], 0⟩] } s.hart = false := by
  simp only [PrefixPlaced, Unbound, Clean]
  decide +kernel

theorem meets_StripOpensAndWaits_waits_keeps :
    let s := withX [(1, 100)] (onRegs (fun t => { t with tstat := 512 })
      { spaced base with tasks := [{ task0 with desc := { task0.desc with prod := 0x7000, wb := 9 } }, { task0 with recVa := 0x7000, depc := 0x7030 }] })
    PrefixPlaced s.hart ∧
    s.hart.races = [] ∧
    s.hart.planish = [] ∧
    releasePending s = false ∧
    s.hart.buf = [] ∧
    Clean s.hart [0x009] ∧
    Unbound s.hart 1 ∧
    Unbound s.hart 2 ∧
    s.hart.xm 1 = 0 ∧
    s.hart.tr.ves = 0 ∧
    (s.tasks[s.hart.taskNo]?).map (fun t => t.desc.prod) = some 0x7000 ∧
    (s.hart.xr 1).toNat ≠ 0 ∧
    depwMet s { s.hart with tr := { s.hart.tr with vl := 1, strn := s.hart.tr.strn + 1 } } = false ∧
    s.hart.keepsSlot = true ∧
    saveReady s s.hart = true := by
  simp only [PrefixPlaced, Unbound, Clean]
  decide +kernel

theorem meets_StripOpensAndWaits_wake :
    let s := onHart (fun h => { h with wait := .depw }) base
    Waits s .depw ∧
    releasePending s = false ∧
    depwMet s s.hart = true := by
  simp only [Waits]
  decide +kernel


/-! ### Collectives and the stack-side units -/

/-- A collective descriptor at 0x100: participants 0 and 1, this one is `pidx`, slot 7, the root this device, round 9. -/
def withCollective (pidx : Nat) : State → State :=
  withMem [(0x10100, 8, 3), (0x10108, 2, 0xFFFF), (0x1010A, 1, 7), (0x1010B, 1, pidx), (0x1010C, 4, 9)]

/-- Slot 7 of the root: allotted to address space 0, in a phase, with round 9 holding participant 0. -/
def withSlot (p : SlotPhase) (s : State) : State :=
  { s with slots := [(7, { CollSlot.reset with allotted := true, phase := p, gen := 9, expm := 3, cmask := 1, tmo := 5, special := 16 })] }

/-- A contribution of a participant to a round of slot 7. -/
def contribution (pidx gen : Nat) : Contribution :=
  ⟨0, BitVec.ofNat 6 pidx, 7, BitVec.ofNat 32 gen, 0, 3, 5, 0x3F800000, 0, 0, 0, some (0, 0)⟩


theorem meets_CollectiveContributionAndWait_accepted :
    let s := withX [(1, 0x100), (2, 5), (3, 170)] (withCollective 1 base)
    (PrefixPlaced s.hart ∧
    s.hart.protectedStrip = false ∧
    Unbound s.hart 3 ∧
    s.hart.assay = false ∧
    Unbound s.hart 1 ∧
    Unbound s.hart 2 ∧
    s.hart.planish = [] ∧
    s.hart.tr.ves = 0 ∧
    s.hart.xm 1 = 0 ∧
    (s.hart.xr 1).toNat % 64 = 0 ∧
    s.hart.xm 2 ||| s.hart.xm 3 = 0 ∧
    -180 ≤ (s.hart.xr 3).toInt ∧ (s.hart.xr 3).toInt ≤ 170) ∧
    ∃ pa t, Passes { loadAcc .single with whole := true } 0x100 64 { s with hart := seen 0 s.hart } pa t ∧
      (t.latent = [] ∧ viewMark t pa 64 = 0 ∧ ran (do let p ← translate (storeAcc .single) 0x100; bankCheck { storeAcc .single with whole := true } 0x100 p 64) t = true ∧
        let k := credDescOf (BitVec.ofNat 512 (readNat pa 64 t))
        k.expm ≠ 0 ∧ k.expm.getLsbD k.pidx.toNat = true ∧ k.clean = true ∧ k.root = 0xFFFF) := by
  exact ⟨by simp only [PrefixPlaced, Unbound]; decide +kernel,
    passes_some (by decide +kernel)⟩

/-- A root that the window table gives another device. -/
theorem meets_CollectiveContributionAndWait_sent :
    let s := withX [(1, 0x100), (2, 5), (3, 170)] (withMem [(0x10108, 2, 5)] (withCollective 1 { base with windows := [(4, 5)] }))
    (PrefixPlaced s.hart ∧
    s.hart.protectedStrip = false ∧
    (∀ r ∈ [(1 : Reg), 2, 3], Unbound s.hart r) ∧
    s.hart.assay = false ∧
    s.hart.planish = [] ∧
    s.hart.tr.ves = 0 ∧
    s.hart.xm 1 = 0 ∧
    (s.hart.xr 1).toNat % 64 = 0) ∧
    ∃ pa t, Passes { loadAcc .single with whole := true } 0x100 64 { s with hart := seen 0 s.hart } pa t ∧
      (t.latent = [] ∧ viewMark t pa 64 = 0 ∧ ran (do let p ← translate (storeAcc .single) 0x100; bankCheck { storeAcc .single with whole := true } 0x100 p 64) t = true ∧
        let k := credDescOf (BitVec.ofNat 512 (readNat pa 64 t))
        k.expm.getLsbD k.pidx.toNat = true ∧ k.clean = true ∧ k.root ≠ s.fid ∧ k.root = 5) := by
  exact ⟨by simp only [PrefixPlaced, Unbound]; decide +kernel,
    passes_some (by decide +kernel)⟩

theorem meets_CollectiveContributionAndWait_refused :
    let s := withX [(1, 0x100), (2, 5), (3, 170)] (withCollective 2 base)
    (PrefixPlaced s.hart ∧
    s.hart.protectedStrip = false ∧
    Unbound s.hart 3 ∧
    s.hart.assay = false ∧
    Unbound s.hart 1 ∧
    Unbound s.hart 2 ∧
    s.hart.planish = [] ∧
    s.hart.tr.ves = 0 ∧
    s.hart.xm 1 = 0 ∧
    (s.hart.xr 1).toNat % 64 = 0 ∧
    s.hart.xm 2 ||| s.hart.xm 3 = 0 ∧
    -180 ≤ (s.hart.xr 3).toInt ∧ (s.hart.xr 3).toInt ≤ 170) ∧
    ∃ pa t, Passes { loadAcc .single with whole := true } 0x100 64 { s with hart := seen 0 s.hart } pa t ∧
      (t.latent = [] ∧ viewMark t pa 64 = 0 ∧ ran (do let p ← translate (storeAcc .single) 0x100; bankCheck { storeAcc .single with whole := true } 0x100 p 64) t = true ∧
        let k := credDescOf (BitVec.ofNat 512 (readNat pa 64 t))
        k.expm ≠ 0 ∧ k.expm.getLsbD k.pidx.toNat = false ∧ k.clean = true ∧ k.root = 0xFFFF) := by
  exact ⟨by simp only [PrefixPlaced, Unbound]; decide +kernel,
    passes_some (by decide +kernel)⟩

theorem meets_CollectiveContributionAndWait_answered :
    let s := onHart (fun h => { h with wait := .cred 0 2 1 3, tr := { h.tr with ves := 1 }, credId := some ⟨false, 5, 7, 9, 0⟩, cred := some ⟨0, 3, 8, 0, 0⟩ }) (withX [(1, 0x100)] base)
    (PrefixPlaced s.hart ∧
    s.hart.protectedStrip = false ∧
    Unbound s.hart 3 ∧
    s.hart.assay = false ∧
    s.hart.tr.ves ≠ 0 ∧
    MemoryCanonical s ∧
    Waits s (.cred 0 2 1 3) ∧
    s.hart.cred = some ⟨0, 3, 8, 0, 0⟩ ∧
    s.hart.credId ≠ none) ∧
    ∃ (r : Nat × Nat) (t : State), credStores 0x100 s = .ok r t ∧ r = (0x10118, 0x10120) := by
  exact ⟨by simp only [PrefixPlaced, Unbound, MemoryCanonical, Waits]; decide +kernel,
    ran_some (by decide +kernel)⟩

/-- The page of the descriptor may not be written: the stores of the answer trap. -/
theorem meets_CollectiveContributionAndWait_stops :
    let s := onHart (fun h => { h with wait := .cred 0 2 1 3, tr := { h.tr with ves := 1 }, cred := some ⟨0, 3, 8, 0, 0⟩ })
      { withX [(1, 0x100)] base with tlb := [{ page 0 0x10000 with w := false }] }
    (PrefixPlaced s.hart ∧
    s.hart.protectedStrip = false ∧
    Unbound s.hart 3 ∧
    s.hart.assay = false ∧
    s.hart.tr.ves ≠ 0 ∧
    s.hart.cred = some ⟨0, 3, 8, 0, 0⟩) ∧
    ∃ (cause : BitVec 8) (v : DWord) (n : Option Nat) (t : State), credStores 0x100 s = .error (.trap cause v n) t := by
  refine ⟨by simp only [PrefixPlaced, Unbound]; decide +kernel, ?_⟩
  exact trapped_some (by decide +kernel)

theorem meets_CollectiveContributionAndWait_closed :
    let s := withSlot .closed (onHart (fun h => { h with wait := .cred 0 2 1 3, tr := { h.tr with ves := 1 }, credId := some ⟨true, 0xFFFF, 7, 9, 0⟩, cred := none }) (withX [(1, 0x100)] base))
    (PrefixPlaced s.hart ∧
    s.hart.protectedStrip = false ∧
    Unbound s.hart 3 ∧
    s.hart.assay = false ∧
    s.hart.tr.ves ≠ 0 ∧
    MemoryCanonical s ∧
    s.hart.cred = none ∧
    (s.hart.credId.bind (fetchAnswer s)).isSome = true) ∧
    ∃ (r : Nat × Nat) (t : State), credStores 0x100 s = .ok r t ∧ r = (0x10118, 0x10120) := by
  exact ⟨by simp only [PrefixPlaced, Unbound, MemoryCanonical]; decide +kernel,
    ran_some (by decide +kernel)⟩

theorem meets_CollectiveContributionAndWait_waiting :
    let s := withSlot .isOpen (onHart (fun h => { h with wait := .cred 0 2 1 3, tr := { h.tr with ves := 1 }, credId := some ⟨true, 0xFFFF, 7, 9, 0⟩, cred := none }) base)
    PrefixPlaced s.hart ∧
    s.hart.protectedStrip = false ∧
    Unbound s.hart 3 ∧
    s.hart.assay = false ∧
    s.hart.tr.ves ≠ 0 ∧
    Waits s (.cred 0 2 1 3) ∧
    s.hart.cred = none ∧
    s.hart.credId.bind (fetchAnswer s) = none := by
  simp only [PrefixPlaced, Unbound, Waits]
  decide +kernel

theorem meets_CollectiveContributionAndWait_remote :
    let s := onHart (fun h => { h with wait := .cred 0 2 1 3, tr := { h.tr with ves := 1 }, credId := some ⟨false, 5, 7, 9, 0⟩, cred := none }) (withX [(1, 0x100)] base)
    (PrefixPlaced s.hart ∧
    s.hart.protectedStrip = false ∧
    Unbound s.hart 3 ∧
    s.hart.assay = false ∧
    s.hart.tr.ves ≠ 0 ∧
    Waits s (.cred 0 2 1 3) ∧
    s.hart.credId = some ⟨false, 5, 7, 9, 0⟩) ∧
    ∃ (r : Nat × Nat) (t : State), credStores 0x100 { s with hart := { s.hart with cred := some ⟨0, 3, 8, 0, 0⟩ } } = .ok r t ∧ r = (0x10118, 0x10120) := by
  exact ⟨by simp only [PrefixPlaced, Unbound, Waits]; decide +kernel,
    ran_some (by decide +kernel)⟩

theorem meets_CollectiveRounds_slots :
    (∀ p ∈ [SlotPhase.free, .isOpen, .closed], let k := collSlot (withSlot p base) (contribution 1 9).slot.toNat
      k.allotted = true ∧ k.asid = (contribution 1 9).asid ∧ k.phase = p ∧ k.gen = (contribution 1 9).gen ∧ k.cmask.getLsbD 1 = false ∧ k.cmask.getLsbD 0 = true) ∧
    hubFenced (withSlot .isOpen base) = false ∧
    hubFenced { withSlot .isOpen base with fencedDies := [4] } = true ∧
    newer 10 9 = true ∧
    newer 0x80000008 9 = true ∧
    newer 8 9 = false ∧
    newer 0x80000009 9 = false ∧
    (collSlot base 7).allotted = false := by
  decide +kernel

/-- The second contribution closes the round: the first has waited in it. -/
theorem meets_CollectiveRounds_last :
    let s := { withSlot .isOpen base with slots := (withSlot .isOpen base).slots.map fun q => (q.1, { q.2 with waiting := [contribution 0 9] }) }
    let k := collSlot s 7
    k.waiting = [contribution 0 9] ∧ k.cmask ||| 2 = (contribution 1 9).expm ∧
    Waits (onHart (fun h => { h with wait := .cred 0 2 1 3, credId := some ⟨true, 0xFFFF, 7, 9, 0⟩ }) s) (.cred 0 2 1 3) ∧
    s.hart.copy = 0 ∧ (contribution 0 9).home = some (s.hart.taskNo, s.hart.tr.lhart.toNat) := by
  simp only [Waits]
  decide +kernel

/-- A saved contributor, whose identity the contribution names. -/
theorem meets_CollectiveRounds_saved :
    let h := (onHart (fun h => { h with credId := some ⟨true, 0xFFFF, 7, 9, 0⟩ }) base).hart
    let v : SavedHart := ⟨h, .preempt, 0, false, false, false, 0, 0, 0x44, 0, .task, 0, 0, 0, false, 0, 0, 0⟩
    let s := { withSlot .closed base with hart := Hart.reset 0, saved := [v] }
    contributor (contribution 0 9) = some v.hart.party ∧ s.saved.filter (fun q => q.hart.party = v.hart.party) = [v] ∧
    hartOf s v.hart.party = some v.hart ∧
    v.hart.credId.any (fun k => k.here && k.slot = (contribution 0 9).slot.toNat && k.gen = (contribution 0 9).gen && k.pidx = (contribution 0 9).pidx.toNat) = true := by
  decide +kernel

theorem meets_CollectiveRounds_sums :
    unpack fp32 ((contribution 1 9).value.toNat % 2 ^ 32) = .num false (2 ^ 23) (-23) ∧
    (collSlot (withSlot .isOpen base) 7).special.getLsbD 4 = true ∧
    (collSlot (withSlot .isOpen base) 7).special.toNat % 8 = 0 := by
  decide +kernel

theorem meets_CollectiveRounds_deadline :
    let s := withSlot .isOpen (onHart (fun h => { h with wait := .cred 0 2 1 3, tr := { h.tr with ves := 1 }, credId := some ⟨true, 0xFFFF, 7, 9, 0⟩, cred := none }) base)
    (let k := collSlot s 7; k.phase = .isOpen ∧ k.tmo ≠ 0 ∧ k.cmask ≠ k.expm) ∧
    Waits s (.cred 0 2 1 3) ∧
    s.hart.credId ≠ none ∧
    s.hart.copy = 0 ∧
    (contribution 0 9).home = some (s.hart.taskNo, s.hart.tr.lhart.toNat) ∧
    ({ contribution 1 9 with home := none } : Contribution).home = none ∧
    (let two := [contribution 0 9, { contribution 1 9 with home := none }]; (collSlot { s with slots := s.slots.map fun q => (q.1, { q.2 with waiting := two }) } 7).waiting = two) := by
  simp only [Waits]
  decide +kernel

theorem meets_StackCommands_load :
    let s := withX [(1, 64 * 65536), (2, 0x100), (3, 510 + 2 * 65536)] (withMem [(0x10100, 4, 0x10000000)] base)
    (PrefixPlaced s.hart ∧
    s.hart.planish = [] ∧
    (∀ r ∈ [(1 : Reg), 2, 3], Unbound s.hart r ∧ s.hart.xm r.toNat = 0) ∧
    (s.hart.xr 1).toNat % 16 / 4 = s.hart.die ∧
    (s.hart.xr 1).toNat / 256 % 64 + (s.hart.xr 1).toNat / 65536 % 128 = 64 ∧
    (s.hart.xr 3).toNat % 512 + (s.hart.xr 3).toNat / 65536 % 1024 = 512 ∧
    (s.hart.xr 2).toNat % 4 = 0) ∧
    ∃ (l : List (DWord × Nat × Nat)) (t : State), rowRuns { loadAcc .single with queue := queueHmv } 0x100 (4 * 2) s = .ok l t ∧
      after (readRuns { loadAcc .single with queue := queueHmv } l) t (fun b u => decide (b.2 = 0 ∧ (words4 b.1).all microOk = true ∧ stackSlots u < 8)) = true := by
  exact ⟨by simp only [PrefixPlaced, Unbound]; decide +kernel,
    ran_some (by decide +kernel)⟩

theorem meets_StackCommands_invalid :
    let s := withX [(1, 64 * 65536), (2, 0x100), (3, 510 + 2 * 65536)] (withMem [(0x10100, 4, 0x60000000)] base)
    (PrefixPlaced s.hart ∧
    s.hart.planish = [] ∧
    (∀ r ∈ [(1 : Reg), 2, 3], Unbound s.hart r ∧ s.hart.xm r.toNat = 0) ∧
    (s.hart.xr 1).toNat % 16 / 4 = s.hart.die ∧
    (s.hart.xr 1).toNat / 256 % 64 + (s.hart.xr 1).toNat / 65536 % 128 = 64 ∧
    (s.hart.xr 3).toNat % 512 + (s.hart.xr 3).toNat / 65536 % 1024 = 512 ∧
    (s.hart.xr 2).toNat % 4 = 0) ∧
    ∃ (l : List (DWord × Nat × Nat)) (t : State), rowRuns { loadAcc .single with queue := queueHmv } 0x100 (4 * 2) s = .ok l t ∧
      after (readRuns { loadAcc .single with queue := queueHmv } l) t (fun b u => decide (b.2 = 0 ∧ (words4 b.1).all microOk = false ∧ stackSlots u < 8)) = true := by
  exact ⟨by simp only [PrefixPlaced, Unbound]; decide +kernel,
    ran_some (by decide +kernel)⟩

/-- A command block at 0x100 for the one row of a BF16 tensor of 64 × 1 elements under PCROW, in the first channel. -/
def withCommand (s : State) : State :=
  { withMem [(0x10100, 8, 0x200), (0x10108, 8, 0x400), (0x10110, 8, 0x10000), (0x1011C, 4, 1), (0x10200, 8, 0x30000),
      (0x10210, 4, 64), (0x10214, 4, 1), (0x10218, 4, 1), (0x1021C, 4, 1), (0x10220, 4, 0x10064)] s with
    tlb := page 3 0x900000000 :: s.tlb }


theorem meets_StackCommands_multiply :
    let s := withX [(1, 0x100), (2, 0x500)] (withCommand base)
    (PrefixPlaced s.hart ∧
    s.hart.planish = [] ∧
    s.hart.protectedStrip = false ∧
    (∀ r ∈ [(1 : Reg), 2], Unbound s.hart r ∧ s.hart.xm r.toNat = 0)) ∧
    ∃ (q : HmvCmd × List (Nat × List (DWord × Nat × Nat)) × List (DWord × Nat × Nat) × List (DWord × Nat × Nat) × Nat) (t : State),
      hmvChecks 0x100 0x500 s = .ok q t ∧ (stackSlots t < 8 ∧ ran (hmvReads q.2.2.1 q.2.1) t = true) := by
  exact ⟨by simp only [PrefixPlaced, Unbound]; decide +kernel,
    ran_some (by decide +kernel)⟩

theorem meets_StackCommands_wait :
    PrefixPlaced base.hart ∧
    hmvPending base base.hart = false ∧
    base.hart.races = [] ∧
    let s := { base with hmloads := [⟨0, 0, 0, 0, [], 0, [], 0⟩] }; hmvPending s s.hart = true := by
  simp only [PrefixPlaced]
  decide +kernel

/-- A command of one row in channel 5, its row program standing at entry `i`. -/
def rowState (i : Nat) (out : Option (BitVec 32 × Mark)) : State :=
  { base with
    hmvs := [⟨0, 0, 0, 3, 0, [0x3F80], 0, [⟨5, 0x1F000000000, 0x10000, [0x3F80], 0⟩], [(0x1F000000000, 4)], .bar 0x10500 0x500, 4, 17,
      16, [], 0⟩]
    row := ⟨true, 3, 5, i, 0, 0, 0, out⟩ }


theorem meets_RowPrograms_microwords :
    (rowState 510 none).row.active = true ∧
    (rowState 510 none).row.idx ≠ 511 ∧
    (rowState 510 none).row.done < 64 ∧
    (rowJob (rowState 510 none)).isSome = true ∧
    microMark (rowState 510 none) = 0 ∧
    base.row.active = false := by
  decide +kernel

theorem meets_RowPrograms_end :
    let s := rowState 511 (some (7, 0))
    s.row.active = true ∧
    s.row.idx = 511 ∧
    (rowJob s).isSome = true ∧
    MemoryCanonical s ∧
    (rowJob s).all (fun q => physMapped s q.2.2.2.slotPa) = true ∧
    s.row.out = some (7, 0) := by
  simp only [MemoryCanonical]
  decide +kernel

theorem meets_RowPrograms_events :
    let s := { rowState 0 none with row := base.row }
    s.row.active = false ∧
    (s.hmvs[0]?).map (fun j => (j.rows.map (·.chan), j.bar)) = some ([5], .bar 0x10500 0x500) ∧
    channelBusy s 3 [5] = false ∧
    let t := { s with hmvs := s.hmvs.map fun j => { j with rows := [] } }; (t.hmvs[0]?).map (·.rows) = some [] ∧ MemoryCanonical t ∧
    let t := { s with hmloads := [⟨0, 0, 0, 2, [5], 0, [0], 0⟩, ⟨0, 0, 0, 4, [5], 0, [0], 0⟩] }; channelBusy t 2 [5] = false ∧ channelBusy t 4 [5] = true := by
  simp only [MemoryCanonical]
  decide +kernel

/-! ### Conversions, the network, links and ports -/

/-- A conversion of a die that stands at tile 0: 64 elements of INT32 go from 0x4000 to 0x2000 (or to an address without a
page). -/
def burnishing (base' : Nat) : State :=
  let v := retagged (BitVec.ofNat 512 (memNat (withMem [(0, 8, 0x4000), (0x10, 4, 64), (0x14, 4, 1), (0x18, 4, 1), (0x1C, 4, 1), (0x20, 4, 2),
    (0x28, 8, 0x3000)] State.reset).mem 0 64)) 1 (BitVec.ofNat 64 base')
  { spaced base with convs := [⟨0, 0, v, 0x100, 0, none, ⟨0, 3, []⟩, 17⟩] }

/-- The tile's moves can be made, and fill the tile. -/
def tileMoved (s : State) (n : Nat) : Bool :=
  match s.convs[0]? with
  | some c => match tileMoves s c with
    | .ok l => decide (l.length = n) && !tileHeld s l
    | .error _ => decide (n = 0)
  | none => false


theorem meets_BurnishConversions_tile :
    let s := burnishing 0x2000
    nextConversion s 0 = some 0 ∧
    MemoryCanonical s ∧
    tileMoved s 64 = true ∧
    (spaceRun s 0 0x3000 1 true true).toOption = some 0x3000 ∧
    0 ∉ s.fencedDies ∧
    0x120 + 8 ≤ 0x3000 := by
  simp only [MemoryCanonical]
  decide +kernel

theorem meets_BurnishConversions_fails :
    let s := burnishing 0x40000000
    nextConversion s 0 = some 0 ∧
    MemoryCanonical s ∧
    tileMoved s 0 = true ∧
    pageAbsent s 0 0x40000000 = true ∧
    pageAbsent s 0 0x3000 = false := by
  simp only [MemoryCanonical]
  decide +kernel

theorem meets_BurnishConversions_restart :
    let s := { burnishing 0x2000 with fencedDies := [0] }
    nextConversion s 0 = some 0 ∧
    0 ∈ s.fencedDies ∧
    1 ∉ s.fencedDies ∧
    (burnishQueue s 1).length < 16 ∧
    ((s.convs.eraseIdx 0).find? fun o => o.die = 1 && o.live) = none := by
  decide +kernel

theorem meets_BurnishConversions_restart_behind :
    let s := { burnishing 0x2000 with fencedDies := [0] }
    let s := { s with convs := s.convs ++ s.convs.map fun c => { c with die := 1, tile := 1, desc := c.desc ||| (4096#512 <<< 160) } }
    nextConversion s 0 = some 0 ∧
    0 ∈ s.fencedDies ∧
    1 ∉ s.fencedDies ∧
    (burnishQueue s 1).length < 16 ∧
    (((s.convs.eraseIdx 0).find? fun o => o.die = 1 && o.live).map (·.tile)) = some 1 := by
  decide +kernel

/-- A packet that adds to a word, posted by one hart. -/
def packet (pa : Nat) : Packet := ⟨0, pa, 1, 4, 5, 0, false, [⟨0, 0, 0, false, 5, 0, 0, 1, [], [], 0x100, 0x40, 0⟩]⟩


theorem meets_NetworkLinksAndStackPorts_packets :
    let s := { base with packets := [packet 0x10100] }
    packetBehind s 0 (packet 0x10100) = false ∧
    (packet 0x10100).parts ≠ [] ∧
    MemoryCanonical s ∧
    (packet 0x10100).parts.all (fun p => !p.assay && (partRace { s with packets := [] } 0x10100 4 p).isEmpty) = true := by
  simp only [MemoryCanonical]
  decide +kernel

theorem meets_NetworkLinksAndStackPorts_merge :
    let s := { base with packets := [packet 0x10100, packet 0x10104, packet 0x10100] }
    MayMerge s 0 2 (packet 0x10100) (packet 0x10100) ∧
    ¬ MayMerge { s with packets := [packet 0x10100, packet 0x10100, packet 0x10100] } 0 2 (packet 0x10100) (packet 0x10100) := by
  constructor
  · refine ⟨by decide, rfl, rfl, rfl, rfl, rfl, rfl, by decide, by decide, ?_, ?_⟩
    · exact ⟨_, rfl, _, rfl, .inl ⟨rfl, rfl⟩⟩
    · intro k c h1 h2 hc
      obtain rfl : k = 1 := by omega
      obtain rfl : packet 0x10104 = c := by simpa using hc
      rintro ⟨⟨w, h3, h4⟩, -⟩
      exact (show ∀ w ∈ wordsOf 0x10104 4, w ∉ wordsOf 0x10100 4 by decide +kernel) w h3 h4
  · rintro ⟨-, -, -, -, -, -, -, -, -, -, h⟩
    exact h 1 (packet 0x10100) (by decide) (by decide) rfl ⟨⟨0x10100, by decide +kernel, by decide +kernel⟩, _, .head _, _, .head _, rfl, rfl, rfl⟩

theorem meets_NetworkLinksAndStackPorts_links :
    let s := { base with fencedLinks := [.fabric 7], replays := [(.golrok 15, 77, 8)] }
    linkExists (.dieToDie 2 3) = true ∧
    linkExists (.fabric 8) = false ∧
    linkExists (.fabric 0) = true ∧ LinkId.fabric 0 ∉ s.fencedLinks ∧
    linkExists (.golrok 16) = false ∧
    LinkId.fabric 7 ∈ s.fencedLinks ∧
    LinkId.golrok 15 ∉ s.fencedLinks ∧
    8 ≤ (lastReplay s (.golrok 15)).2 ∧
    (lastReplay s (.golrok 14)).2 < 8 := by
  decide +kernel

theorem meets_NetworkLinksAndStackPorts_reset :
    let s := base
    s.hart.status = .running ∧ s.hart.cluster = 0 ∧
    s.tasks[s.hart.taskNo]? = some task0 ∧
    s.hart.taskNo ∉ tasksOn 31 s ∧
    s.pushes = [] ∧
    (let f := { s with fencedClusters := [31], spares := [(4, 9)] }; 31 ∈ f.fencedClusters ∧ (∀ p ∈ f.spares, p.1 ≠ 31)) ∧
    (let f := { s with fencedClusters := [31], spares := [(31, 9)] }; 31 ∈ f.fencedClusters ∧ ∃ p ∈ f.spares, p.1 = 31) := by
  decide +kernel

theorem meets_NetworkLinksAndStackPorts_golrok :
    let s := { base with golrok := [⟨15, 255, 3 + 3 * 2 ^ 30 + 0xBFFFFF * 2 ^ 64⟩] }
    LinkId.golrok 15 ∉ s.fencedLinks ∧
    GolrokFormed 0xBFFFFFFC0 64 ∧
    GolrokAllowed s 15 3 0xBFFFFFFC0 64 ∧
    ¬ GolrokFormed 0xBFFFFFFC0 128 ∧
    ¬ GolrokAllowed s 15 4 0xBFFFFFFC0 64 := by
  simp only [GolrokFormed, GolrokAllowed]
  decide +kernel


/-! ### Bellows, events and errors -/

/-- Queue 63 in host mode with one entry in its ring: the record at 0x1000, of 64 elements in 4 strips for one hart, with DEPC
as given; one more entry in its overflow list. -/
def entered (depc : Nat) (s : State) : State :=
  { withMem [(0x4018, 8, 0x1000), (0x5018, 8, 0x2000), (0x1010, 8, 64), (0x1018, 8, 4), (0x1028, 4, 0x4000), (0x102C, 4, 1),
      (0x1030, 4, depc)] (spaced s) with
    queues := [(63, ⟨0x4000, 0x5000, 4, 4, 3, 4, 1, 0, 7, 1, 3⟩)] }

/-- A registered task of `n` elements that has not started. -/
def ready (n attr : Nat) : Task :=
  ⟨0x1000, 0x1030, 0, 63, 0, ⟨0x80, 0, BitVec.ofNat 64 n, BitVec.ofNat 64 ((n + 15) / 16), 0, BitVec.ofNat 32 attr, 1, 0, 0, 0, 0⟩,
    .ready, 0, [], [], [], [], [], 0, false, false, [], 0, 0, 0, [], [], [], [], (0, 0), []⟩


theorem meets_EntriesBecomeTasks_take :
    let s := entered 3 base
    (let b := queueBlock s 63; b.mode = 1 ∧ b.head ≠ b.tail ∧ b.rsize = 4 ∧ b.asid = 0) ∧
    tableCount s < 4096 ∧
    spaceNat s 0 (0x4000 + 8 * 3) 8 = some 0x1000 ∧
    (readRecord s 0 0x1000).map (fun r => (r.1.n, r.1.s, r.2.1, r.2.2.2)) = some (64, 4, 0x1000, 3) ∧
    s.tasks.all (fun t => t.state = .over || t.depc ≠ 0x1030) = true := by
  decide +kernel

theorem meets_EntriesBecomeTasks_again :
    let s := { entered 0 base with tasks := [ready 64 0x4000] }
    s.tasks.any (fun t => t.state ≠ .over && t.depc = 0x1030) = true ∧
    (readRecord s 0 0x1000).isSome = true := by
  decide +kernel

theorem meets_EntriesBecomeTasks_move :
    let s := entered 0 base
    (let b := queueBlock s 63; b.ovcnt ≠ 0 ∧ (b.tail - b.head).toNat < b.rsize.toNat) ∧
    MemoryCanonical s ∧
    spaceNat s 0 (0x5000 + 8 * 3) 8 = some 0x2000 ∧
    spaceAddr s 0 (0x4000 + 8 * (4 % 4)) 8 true = some 0x4000 ∧
    let t := { s with queues := s.queues.map fun q => (q.1, { q.2 with ovbase := 0x40000000 }) }
    spaceNat t 0 (0x40000000 + 8 * 3) 8 = none ∧ (queueBlock t 63).ovcnt ≠ 0 ∧
      ((queueBlock t 63).tail - (queueBlock t 63).head).toNat < (queueBlock t 63).rsize.toNat := by
  simp only [MemoryCanonical]
  decide +kernel

theorem meets_HartsStartAndTasksEnd_start :
    let s := { entered 0 base with tasks := [ready 64 0x74000] }
    nextTask s = some (0, 63) ∧
    (s.tasks[0]?).all (fun t => recordOk s t && t.desc.cg = 0 && t.desc.harts = [0] && (List.range 1024).find? (canOpen s t) = some 1) = true := by
  decide +kernel

/-- A task under AS: its first logical hart starts in slots 1 and 257. -/
theorem meets_HartsStartAndTasksEnd_startPair :
    let s := { entered 0 base with tasks := [ready 64 0x74010] }
    nextTask s = some (0, 63) ∧
    (s.tasks[0]?).all (fun t => t.desc.attrBit 4 && recordOk s t && t.desc.cg = 0 && t.desc.harts = [0] && (List.range 1024).find? (canOpen s t) = some 1) = true := by
  decide +kernel

theorem meets_HartsStartAndTasksEnd_empty :
    let s := { entered 0 base with tasks := [ready 0 0x74000] }
    nextTask s = some (0, 63) ∧
    (s.tasks[0]?).all (fun t => recordOk s t && t.desc.harts = [] && !t.desc.attrBit 6) = true := by
  decide +kernel

theorem meets_HartsStartAndTasksEnd_bad :
    let s := { entered 0 base with tasks := [ready 64 0x73000] }
    nextTask s = some (0, 63) ∧
    (s.tasks[0]?).all (fun t => !recordOk s t && !t.desc.attrBit 6) = true := by
  decide +kernel

theorem meets_HartsStartAndTasksEnd_group :
    let s := { entered 0 base with tasks := [ready 64 0x74100] }
    nextTask s = some (0, 63) ∧
    (s.tasks[0]?).all (fun t => recordOk s t && t.desc.harts = [0] && t.desc.cg = 1 && (placeGroup s t).isSome) = true := by
  decide +kernel

theorem meets_HartsStartAndTasksEnd_groupWaits :
    let s := { entered 0 base with tasks := [{ ready 512 0x74100 with desc := { (ready 512 0x74100).desc with p := 32 } }], fencedClusters := fromTo 1 32 }
    nextTask s = some (0, 63) ∧
    (s.tasks[0]?).all (fun t => recordOk s t && t.desc.cg = 1 && (placeGroup s t).isNone) = true := by
  decide +kernel

theorem meets_HartsStartAndTasksEnd_fill :
    let s := { entered 0 base with tasks := [{ ready 64 0x74000 with state := .running, unstarted := [0] }] }
    slotFree s 1023 = true ∧
    nextSaved s 1023 = none ∧
    nextStarted s 1023 = some 0 ∧
    (s.tasks[0]?).map (·.unstarted) = some [0] ∧
    slotFree s 0 = false := by
  decide +kernel

theorem meets_HartsStartAndTasksEnd_steal :
    let s := { entered 0 base with tasks := [{ ready 64 0x74000 with state := .running, unstarted := [0] }] }
    1023 / 32 = 31 ∧ slotFree s 1023 = true ∧ (s.tasks[0]?).map (fun t => (openSlots s t 31 1023).head?) = some (some 1023) ∧
    ((∃ i, assignedTo s i 31 31 1023 ≠ []) ∨ ((∀ i, assignedTo s i 31 31 1023 = []) ∧ homeCluster 0 0 < 32 ∧
      homeCluster 0 0 ≠ 31 ∧ Offers s 31 1023 (homeCluster 0 0) 0)) := by
  intro s
  have hc : ((s.tasks[0]?).all fun t => t.state = .running && !(openSlots s t 31 1023).isEmpty) = true := by decide +kernel
  have one : ∀ v, assignedTo s 0 v 31 1023 = if homeCluster 0 0 = v then [0] else [] := by
    intro v
    simp only [assignedTo, taskAt] at *
    by_cases h : homeCluster 0 0 = v <;> simp_all [s, ready]
  have far : ∀ i v, i ≠ 0 → assignedTo s i v 31 1023 = [] := by
    intro i v hi
    simp [assignedTo, taskAt, s, hi]
  have lt : homeCluster 0 0 < 32 := Nat.mod_lt _ (by decide)
  refine ⟨rfl, by decide +kernel, by decide +kernel, ?_⟩
  by_cases h : homeCluster 0 0 = 31
  · exact .inl ⟨0, by simp [one, h]⟩
  · refine .inr ⟨fun i => ?_, lt, h, _, rfl, by rfl, by rfl, by rfl, by simp [one]⟩
    by_cases hi : i = 0
    · simp [hi, one, h]
    · exact far i 31 hi

theorem meets_HartsStartAndTasksEnd_requests :
    slotFree base 0 = false ∧ exec (.stealRequest (0, 0) []) base = .next base := by
  refine ⟨by decide +kernel, by rfl⟩

theorem meets_HartsStartAndTasksEnd_restore :
    let s := { base with saved := [⟨base.hart, .preempt, 0, false, false, false, 0, 0, 0x44, 0, .task, 0, 0, 0, false, 0, 0, 0⟩] }
    slotFree s 1 = true ∧
    nextSaved s 1 = some 0 ∧
    s.bound = [] ∧
    let v : SavedHart := ⟨{ base.hart with filigree := base.hart.filigree.setIfInBounds 3 ⟨1, List.replicate 33 5, List.replicate 33 0, false⟩ },
      .preempt, 0, false, false, false, 0, 0, 0x44, 0, .task, 0, 0, 0, false, 0, 0, 0⟩
    let t := { base with hart := Hart.reset 0, saved := [v] }
    nextSaved t 1 = some 0 ∧ (∀ o ∈ t.hart :: t.others, o.status = .idle ∨ o.party ≠ v.hart.party) ∧
      (v.hart.filigree[3]).ndim ≠ 0 ∧ (v.hart.filigree[3]).dirty = false := by
  decide +kernel

theorem meets_HartsStartAndTasksEnd_return :
    let s := onHart (fun h => { h with status := .finished }) base
    (slotHart s 0).all (fun h => h.status = .finished && !drainPending s h true true true true true true && !h.fe.toList.contains .pending && h.races = [] && h.copy = 0) = true ∧
    (slotHart s 0).isSome = true ∧
    (s.tasks[s.hart.taskNo]?).isSome = true ∧
    (slotHart base 0).map (·.status) = some .running := by
  decide +kernel

theorem meets_HartsStartAndTasksEnd_report :
    let s := onHart (fun h => { h with status := .finished, races := [⟨0x40, 0x100, 3, 2⟩] }) base
    (slotHart s 0).all (fun h => h.status = .finished && !drainPending s h true true true true true true && !h.fe.toList.contains .pending && h.races.length = 1) = true ∧
    (slotHart s 0).isSome = true := by
  decide +kernel

theorem meets_HartsStartAndTasksEnd_complete :
    let s := { spaced base with tasks := [{ ready 64 0x4000 with state := .running, started := [0], ended := [0], desc := { (ready 64 0x4000).desc with caddr := 0x6000 } }] }
    (s.tasks[0]?).all (fun t => t.state = .running && t.allEnded && !t.desc.attrBit 4 && !t.desc.attrBit 6) = true ∧
    MemoryCanonical s ∧
    spaceAddr s 0 (0x1000 + 0x50) 8 true = some 0x1050 ∧
    spaceAddr (performStore 0x1050 (leBytes 8 4) 0 s) 0 0x6000 8 true = some 0x6000 := by
  simp only [MemoryCanonical]
  decide +kernel

theorem meets_HartsStartAndTasksEnd_behind :
    let s := { base with tasks := [ready 64 0x4000, { ready 64 0x4040 with state := .running, started := [0], ended := [0] }] }
    (s.tasks[1]?).all (fun t => t.state = .running && t.allEnded && t.desc.attrBit 6) = true ∧
    (s.tasks[0]?).all (fun o => o.queue = 63 && o.state ≠ .over) = true := by
  decide +kernel

theorem meets_AsynchronousEventsOfAHart_now :
    let s := base
    s.hart.status = .running ∧
    ¬ (s.hart.mode = .supervisor ∧ s.hart.sr.ie = false ∨ s.hart.pfx ≠ .none ∧ s.hart.wait = .no) ∧
    s.hart.resumed = none ∧
    saveReady s s.hart = true ∧
    s.hart.wait = .no ∧
    s.hart.tr.ves.toNat < 1 ∧
    s.hart.protectedStrip = false ∧
    s.hart.preempt = false := by
  decide +kernel

theorem meets_AsynchronousEventsOfAHart_held :
    let s := kernel (onHart (fun h => { h with sr := { h.sr with ie := false } }) base)
    s.hart.status = .running ∧
    (s.hart.mode = .supervisor ∧ s.hart.sr.ie = false) ∧
    let t := onHart (fun h => { h with preempt := true, sr := { h.sr with pdead := 9 } }) s
    t.hart.preempt = true ∧ t.hart.sr.pdead.toNat % 2 ^ 32 ≠ 0 := by
  decide +kernel

/-- A unit resumed at element 5, and a hart in DEPW. -/
theorem meets_AsynchronousEventsOfAHart_mid :
    let s := onHart (fun h => { h with resumed := some ⟨0x40, 5, false, [], []⟩, tr := { h.tr with ves := 5 } }) base
    let d := onHart (fun h => { h with wait := .depw }) base
    s.hart.status = .running ∧
    ¬ (s.hart.mode = .supervisor ∧ s.hart.sr.ie = false ∨ s.hart.pfx ≠ .none ∧ s.hart.wait = .no) ∧
    s.hart.resumed ≠ none ∧
    s.hart.wait = .no ∧
    ¬ (s.hart.wait = .no ∧ s.hart.tr.ves.toNat < 5) ∧
    s.hart.overdue = false ∧
    (∀ w ∈ [Wait.stall, .retry], let t := onHart (fun h => { h with wait := w }) s
      (t.hart.wait = .stall ∨ t.hart.wait = .retry ∧ t.hart.tr.ves ≠ 0) ∧ t.hart.preempt = false) ∧
    ¬ (s.hart.preempt = true ∧ s.hart.sr.pdead.toNat % 2 ^ 32 ≠ 0) ∧
    d.hart.status = .running ∧
    d.hart.wait = .depw := by
  decide +kernel

theorem meets_AsynchronousEventsOfAHart_rates :
    let s := onHart (fun h => { h with preempt := true, sr := { h.sr with pdead := 9 } }) base
    SavesOn s (s.hart.areaBase / 0xC00000000) ∧
    ∀ k, ¬ SavesOn base k := by
  refine ⟨⟨_, .head _, by rfl, by rfl, by decide +kernel, rfl⟩, ?_⟩
  rintro k ⟨h, hm, -, hp, -⟩
  have hb : base.others = [] := by rfl
  obtain rfl : h = base.hart := by simpa [hb] using hm
  exact absurd hp (by decide +kernel)

theorem meets_AsynchronousEventsOfAHart_deadline :
    let s := onHart (fun h => { h with preempt := true, sr := { h.sr with pdead := 9 } }) base
    s.hart.status = .running ∧
    ¬ (s.hart.mode = .supervisor ∧ s.hart.sr.ie = false ∨ s.hart.pfx ≠ .none ∧ s.hart.wait = .no) ∧
    s.hart.preempt = true ∧
    s.hart.sr.pdead.toNat % 2 ^ 32 ≠ 0 ∧
    saveReady s s.hart = true ∧
    let t := { s with hmloads := [⟨0, 0, 0, 0, [], 0, [], 0⟩] }; saveReady t t.hart = false := by
  decide +kernel

theorem meets_AsynchronousEventsOfAHart_idle :
    State.reset.hart.status = .idle ∧
    let v : SavedHart := ⟨(onHart (fun h => { h with sr := { h.sr with pdead := 9 } }) base).hart, .preempt, 0, false, false, false, 0, 0, 0x44, 0, .task, 0, 0, 0, false, 0, 0, 0⟩
    (([v] : List SavedHart).filter fun q => q.hart.hartid = State.reset.hart.hartid).getLast?.map (fun q => (q.cause, decide (q.hart.sr.pdead.toNat % 2 ^ 32 ≠ 0))) =
      some (.preempt, true) := by
  decide +kernel

theorem meets_ErrorsRollbackAndFencing_storage :
    deviceStorage 0x1F0000000FF = true ∧
    deviceStorage 0xBFFFFFFFFF = true ∧
    deviceStorage 0xC000000000 = false ∧
    deviceStorage 0x37FFFFFFFFF = true ∧
    deviceStorage 0x38000000000 = false := by
  decide +kernel

theorem meets_ErrorsRollbackAndFencing_places :
    let s := { rowState 3 none with packets := [packet 0x10100], hmloads := [⟨0, 0, 0, 2, [5], 0, [0], 0⟩] }
    (s.packets[0]?).isSome = true ∧ (s.hmvs[0]?).isSome = true ∧ (s.hmloads[0]?).isSome = true := by
  decide +kernel

theorem meets_ErrorsRollbackAndFencing_strip :
    let s := inStrip (onHart (fun h => { h with planish := [⟨0x40, 0⟩] }) base)
    s.hart.status = .running ∧
    s.hart.mode = .task ∧ s.hart.protectedStrip = true ∧
    s.hart.retries ≠ 2 ∧
    s.hart.planish = [⟨0x40, 0⟩] ∧
    let t := onHart (fun h => { h with retries := 2 }) s; t.hart.protectedStrip = true ∧ t.hart.retries = 2 := by
  decide +kernel

theorem meets_ErrorsRollbackAndFencing_open :
    let s := base
    s.hart.status = .running ∧
    ¬ (s.hart.mode = .task ∧ s.hart.protectedStrip = true) ∧
    s.hart.planish = [] ∧
    (5 : Reg) ≠ 0 ∧
    (let t := onHart (fun h => { h with filigree := h.filigree.setIfInBounds 3 ⟨1, List.replicate 33 5, List.replicate 33 0, true⟩ }) s; ((t.hart.filigree[3]?).bind fun f => f.marks[32]?) = some 0) ∧
    (rowState 3 none).row.active = true := by
  decide +kernel

theorem meets_ErrorsRollbackAndFencing_differ :
    let s := { base with shadows := [⟨0, 0, 0x10000, 0x1000, [(0x10100, 9)], [], [0x10100]⟩], tasks := [{ ready 64 0x4010 with state := .running, started := [0], ended := [0], ended2 := [0], touch := (6, 7) }] }
    (s.tasks[0]?).all (fun t => t.state = .running && t.desc.attrBit 4 && t.allEnded && !t.killed && decide (t.touch.1 ≠ t.touch.2)) = true ∧
    (s.shadows.filter fun b => b.task = 0 && b.copy = 0).length = 1 ∧
    s.shadows.all (fun p => Memory.wf p.cells && p.cells.all fun c => decide (p.base ≤ c.1 ∧ c.1 < p.base + p.size)) = true ∧
    MemoryCanonical s := by
  simp only [MemoryCanonical]
  decide +kernel

theorem meets_ErrorsRollbackAndFencing_agree :
    let s := { base with shadows := [⟨0, 0, 0x10000, 0x1000, [(0x10100, 9)], [], [0x10100]⟩], tasks := [{ ready 64 0x4010 with state := .running, started := [0], ended := [0], ended2 := [0], touch := (7, 7) }] }
    (s.tasks[0]?).all (fun t => t.state = .running && t.desc.attrBit 4 && t.allEnded && !t.killed && decide (t.touch.1 = t.touch.2)) = true ∧
    (s.shadows.filter fun b => b.task = 0 && b.copy = 0).length = 1 ∧
    s.shadows.all (fun p => Memory.wf p.cells && p.cells.all fun c => decide (p.base ≤ c.1 ∧ c.1 < p.base + p.size)) = true ∧
    MemoryCanonical s := by
  simp only [MemoryCanonical]
  decide +kernel

theorem meets_ErrorsRollbackAndFencing_fence :
    let s := onHart (fun h => { h with credId := some ⟨true, 0xFFFF, 7, 9, 0⟩ }) base
    0 ∉ s.fencedDies ∧
    4 ∉ s.fencedDies ∧
    s.hart.status = .running ∧ s.hart.die = 0 ∧
    s.hart.credId = some ⟨true, 0xFFFF, 7, 9, 0⟩ ∧
    s.hart.cred = none := by
  decide +kernel

/-! ### The host -/

theorem meets_MailboxDoorbellsAndPorts_mailbox :
    let s := { base with hubState := 1, running := some ⟨[], [], 1, 1⟩ }
    s.mailbox.stat ≠ 1 ∧
    mailboxServed s 3 = true ∧
    storageArgs ⟨0x37FFFFFF000, 0x1000, 0⟩ = true ∧
    storageArgs ⟨0x37FFFFFF001, 0x1000, 0⟩ = false ∧
    MemoryCanonical s ∧
    Memory.wf s.nvme = true ∧
    1200 ≤ (2600 : DWord).toNat ∧ (2600 : DWord).toNat ≤ 2600 ∧
    { s with hubState := 2 }.hubState = 2 := by
  simp only [MemoryCanonical]
  decide +kernel

/-- A hub that serves every command. -/
def serving : State := { base with hubState := 1, running := some ⟨[], [], 1, 1⟩ }

/-- Reports and images of a layout that the model leaves open: one of the two clauses on each applies. -/
theorem meets_MailboxDoorbellsAndPorts_reports :
    (serving.mailbox.stat ≠ 1 ∧ mailboxServed serving 1 = true ∧ mailboxServed serving 2 = true ∧ mailboxServed serving 6 = true) ∧
    (let l := Config.reportLayout 1 (summaryValues serving); (l.length ≤ 4096 ∧ 0x2000 + l.length ≤ 2 ^ 42) ∨ ¬ (l.length ≤ 4096 ∧ 0x2000 + l.length ≤ 2 ^ 42)) ∧
    ((∃ i, imageAt serving 0x40000002000 4096 = some i ∧ GoodImage serving i) ∨
      ¬ ∃ i, imageAt serving 0x40000002000 4096 = some i ∧ GoodImage serving i) :=
  ⟨by decide +kernel, Classical.em _, Classical.em _⟩

theorem meets_MailboxDoorbellsAndPorts_doorbell :
    let s := { entered 0 base with hubState := 1 }
    s.hubState = 1 ∧ (queueBlock s 63).mode = 1 ∧
    ((5 : BitVec 32) - (queueBlock s 63).tail).toNat < 2 ^ 31 ∧
    ((5 : BitVec 32) - (queueBlock s 63).head).toNat ≤ (queueBlock s 63).rsize.toNat ∧
    ¬ ((8 : BitVec 32) - (queueBlock s 63).head).toNat ≤ (queueBlock s 63).rsize.toNat := by
  decide +kernel

theorem meets_MailboxDoorbellsAndPorts_ports :
    Answers base 0x1F0007EFFFC 4 ∧
    ¬ Answers base 0x1F0007F0000 4 ∧
    (∃ p, p < 8 ∧ LinkId.fabric p ∉ base.fencedLinks) ∧
    ¬ (∃ p, p < 8 ∧ LinkId.fabric p ∉ ({ base with fencedLinks := (upTo 8).map LinkId.fabric } : State).fencedLinks) ∧
    storageRange 0x1F0007EFFFC 4 = true ∧
    storageRange 0x1F0007F0000 4 = false ∧
    0 ∉ base.fencedClusters ∧
    base.retired = [] ∧
    LinkId.fabric 0 ∉ base.fencedLinks ∧
    MemoryCanonical base ∧
    0x1F0007EFFFC % 4 = 0 := by
  simp only [MemoryCanonical, Answers]
  decide +kernel

/-- One image in slot 0: whatever the boot ROM's checks say of it, one of the two clauses on the boot ROM applies. -/
theorem meets_BootPowerAndInvalidation_boot :
    let i : FirmwareImage := ⟨[], [], 1, 1⟩
    let s := { State.reset with flash := [(0, i)] }
    let good := fun k j => getKey k s.flash = some j ∧ GoodImage s j
    s.hubState = 0 ∧ s.running = none ∧ (good 0 i ∨ ∀ j, ¬ good 0 j ∧ ¬ good 1 j) := by
  intro i s good
  have h1 : ∀ j, ¬ good 1 j := fun j h => by simp [good, s, getKey] at h
  by_cases h : good 0 i
  · exact ⟨rfl, rfl, .inl h⟩
  · refine ⟨rfl, rfl, .inr fun j => ⟨fun hj => h ?_, h1 j⟩⟩
    obtain rfl : j = i := by simpa [good, s, getKey, eq_comm] using hj.1
    exact hj


theorem meets_BootPowerAndInvalidation_bringup :
    let s := { State.reset with running := some ⟨[], [], 1, 1⟩ }
    s.hubState = 0 ∧ s.running ≠ none ∧
    MemoryCanonical s ∧
    (let t : BringupReport := ⟨[(31, 126)], [31], [3], [.fabric 7], [16]⟩; (∀ b ∈ t.badBanks, b.1 < 32 ∧ b.2 < 127) ∧ (∀ c ∈ t.badClusters, c < 32) ∧ (∀ d ∈ t.badDies, d < 4) ∧
        (∀ l ∈ t.badLinks, linkExists l = true) ∧ ∀ k ∈ t.badMemories, k < 17) ∧
    (List.range 4).all (fun d => d ∈ s.fencedDies ++ [0, 1, 2, 3]) = true := by
  simp only [MemoryCanonical]
  decide +kernel

theorem meets_BootPowerAndInvalidation_update : ∃ t, exec (.hubRegisterWrite 0x3000 (.write 5 [])) base = .next t := ⟨_, rfl⟩

theorem meets_BootPowerAndInvalidation_invalidate :
    let s := { base with inval := [(3, false, 0, 0, 0)] }
    (getKey 3 s.inval).isSome = true ∧
    s.tlb.any (fun t => (t.g || t.asid = 0) && t.page = (0x1FFFF : DWord).toNat % 2 ^ 49 / 2 ^ t.size) = true ∧
    (0x8000000000000005 : DWord).getLsbD 63 = true ∧
    s.clocks[3] = 3600 := by
  decide +kernel

/-! ### The invariant, the encoding and the step -/

theorem meets_EveryStepKeepsTheInvariant : Invariant base ∧ ∃ t, step State.reset = .next t := by
  refine ⟨?_, State.reset, by rfl⟩
  simp only [Invariant, MemoryCanonical, HartLegal]
  decide +kernel

theorem meets_DecodeEncodeRoundTrip :
    (Instr.ldPI16Max 14 16).WellFormed ∧ encode (.ldPI16Max 14 16) = some 0x10038864 ∧ (Instr.scale 0xFF).WellFormed ∧
      (encode (.scale 0xFF)).isSome = true := by
  refine ⟨rfl, by decide +kernel, rfl, by decide +kernel⟩

/-- What stands at PC of a hart that is about to issue. -/
noncomputable def fetches (w0 w1 : Nat) : Except DWord (Word × Word) :=
  (fetchUnit (withMem [(0x10040, 4, w0), (0x10044, 4, w1)] base)).map fun r => (r.1, r.2.1)

theorem meets_StepRunsTheDecodedUnit :
    AboutToIssue base ∧ fetches 0x00404181 0 = .ok (0x00404181, 0) ∧ fetches 0x0012E87F 0xC2C54A50 = .ok (0x0012E87F, 0xC2C54A50) ∧
      (fetchUnit { base with tlb := [] }).toBool = false ∧ isPrefixWord 0x0012E87F = true ∧
      (fetchWord (withMem [(0x10040, 4, 0x0012E87F)] base) 0x40).map (·.1) = some 0x0012E87F := by
  refine ⟨by simp only [AboutToIssue]; decide +kernel, by rfl, by rfl, by decide +kernel, by decide +kernel, by decide +kernel⟩


theorem meets_StepRunsTheDecodedUnit_waits :
    let s := onHart (fun h => { h with wait := .register 191 }) base
    s.agenda = [] ∧
    s.row.active = false ∧
    s.hart.status = .running ∧
    s.hart.preempt = false ∧
    s.hart.watchdog = false ∧
    s.hart.wait = .register 191 ∧
    ∀ w ∈ [Wait.drain 1 0 0 0 0 0, .capp 1 2 3], (onHart (fun h => { h with wait := w }) base).hart.wait = w := by
  decide +kernel

/-- A saved hart whose x5 is 0x1234, pre-empted at 0x44 in supervisor mode with VCAP.LOG 3. -/
def savedHart : SavedHart := ⟨(withX [(5, 0x1234)] base).hart, .preempt, 3, false, false, false, 0, 0, 0x44, 0, .supervisor, 7, 0, 0, false, 0, 0, 0⟩

theorem test_save_area_header :
    [0, 2, 4, 0x18, 0x28, 0x30].map savedHart.areaByte = [some 1, some 0x11, some 3, some 0x44, some 1, some 7] := by decide +kernel

theorem test_save_area_registers :
    [0x400, 0x428, 0x429, 0x800, 0x0100].map savedHart.areaByte = [some 0, some 0x34, some 0x12, some 3, some 0] := by decide +kernel



end Sys2Proof.Tests
end

section
/-!
PROOFS of the statement on a performed store: the bytes of a stored number (R9) and the marks of the words that a store
touches (R307), each as a lemma about the model's own functions, then the statement itself.
-/

namespace Sys2Proof.Proofs

open Sys2Proof.Machine Sys2Proof.Laws

/-! ### Little-endian numbers (R9) -/

@[simp] theorem leBytes_length (n v : Nat) : (leBytes n v).length = n := by
  induction n generalizing v with
  | zero => rfl
  | succ n ih => simp [leBytes, ih]

theorem leNat_leBytes (n v : Nat) : leNat (leBytes n v) = v % 256 ^ n := by
  induction n generalizing v with
  | zero => simp [leBytes, leNat, Nat.mod_one]
  | succ n ih =>
    rw [leBytes, leNat, ih, Nat.pow_succ', Nat.mod_mul]
    simp

/-! ### The bytes of a performed store -/

theorem memByte_setBytes (m : Memory) (pa a : Nat) (bs : List Byte) :
    memByte (setBytes m pa bs) a = if h : pa ≤ a ∧ a - pa < bs.length then bs[a - pa] else memByte m a := by
  split
  · next h =>
    have hin := memByte_setBytes_inside m pa (a - pa) bs h.2
    rwa [Nat.add_sub_cancel' h.1] at hin
  · next h => exact memByte_setBytes_outside m pa a bs (by omega)

theorem memBytes_setBytes_same (m : Memory) (a : Nat) (bs : List Byte) :
    memBytes (setBytes m a bs) a bs.length = bs := by
  induction bs generalizing m a with
  | nil => rfl
  | cons b bs ih =>
    have hb : memByte (setBytes m a (b :: bs)) a = b := memByte_setBytes_inside m a 0 (b :: bs) (by simp)
    rw [List.length_cons, memBytes, hb, setBytes, ih]

theorem memNat_setNat (m : Memory) (a n v : Nat) : memNat (setNat m a n v) a n = v % 256 ^ n := by
  have h := memBytes_setBytes_same m a (leBytes n v)
  rw [leBytes_length] at h
  rw [memNat, setNat, h, leNat_leBytes]

/-! ### The marks of a performed store (R307) -/

/-- The words that a range touches are the aligned ones with a byte in it, and, for an empty range inside a word, that word. -/
theorem mem_wordsOf {a n w : Nat} : w ∈ wordsOf a n ↔ w % 4 = 0 ∧ a < w + 4 ∧ w < a + n := by
  simp only [wordsOf, fromTo, List.map_map, List.mem_map, List.mem_range, Function.comp_apply]
  constructor
  · rintro ⟨k, hk, rfl⟩
    omega
  · rintro ⟨h4, hlo, hhi⟩
    exact ⟨w / 4 - a / 4, by omega, by omega⟩

/-- The mark that a word marked `old` has after a store that touches it. -/
def storedMark (mk : Mark) (a n w : Nat) (old : Mark) : Mark := if a ≤ w ∧ w + 4 ≤ a + n then mk else mk ||| old

theorem storedMark_storedMark (mk : Mark) (a n w : Nat) (old : Mark) :
    storedMark mk a n w (storedMark mk a n w old) = storedMark mk a n w old := by
  unfold storedMark
  split
  · rfl
  · rw [← BitVec.or_assoc, BitVec.or_self]

/-- The marks after a store has reached one of the words it touches. -/
def markWord (mk : Mark) (a n : Nat) (ms : List (Nat × Mark)) (w : Nat) : List (Nat × Mark) :=
  if mk ≠ 0 then putKey w (storedMark mk a n w ((getKey w ms).getD 0)) ms
  else if a ≤ w ∧ w + 4 ≤ a + n then delKey w ms else ms

theorem markStore_eq_foldl (mk : Mark) (a n : Nat) (ms : List (Nat × Mark)) :
    markStore mk a n ms = (wordsOf a n).foldl (markWord mk a n) ms := rfl

theorem getKey_markWord_of_ne (mk : Mark) (a n : Nat) (ms : List (Nat × Mark)) {v w : Nat} (h : v ≠ w) :
    getKey v (markWord mk a n ms w) = getKey v ms := by
  unfold markWord
  split
  · rw [getKey_putKey, if_neg h]
  · split
    · rw [getKey_delKey, if_neg h]
    · rfl

theorem getKey_markWord_same (mk : Mark) (a n w : Nat) (ms : List (Nat × Mark)) :
    (getKey w (markWord mk a n ms w)).getD 0 = storedMark mk a n w ((getKey w ms).getD 0) := by
  unfold markWord
  split
  · rw [getKey_putKey, if_pos rfl, Option.getD_some]
  · next hmk =>
    obtain rfl : mk = 0 := Decidable.not_not.1 hmk
    split
    · next hw => rw [getKey_delKey, if_pos rfl, storedMark, if_pos hw, Option.getD_none]
    · next hw => simp [storedMark, hw]

/-- Reaching a word a second time leaves its mark as the first time did, so the words may come in any order. -/
theorem getKey_foldl_markWord (mk : Mark) (a n w : Nat) (l : List Nat) (ms : List (Nat × Mark)) :
    (getKey w (l.foldl (markWord mk a n) ms)).getD 0 =
      if w ∈ l then storedMark mk a n w ((getKey w ms).getD 0) else (getKey w ms).getD 0 := by
  induction l generalizing ms with
  | nil => rfl
  | cons v l ih =>
    rw [List.foldl_cons, ih]
    by_cases hv : w = v
    · subst hv
      rw [getKey_markWord_same, storedMark_storedMark]
      simp
    · simp [getKey_markWord_of_ne _ _ _ _ hv, hv]

theorem wordMark_performStore {w : Nat} (hw : w % 4 = 0) (pa : Nat) (data : List Byte) (mk : Mark) (s : State) :
    wordMark (performStore pa data mk s) w =
      if w ∈ wordsOf pa data.length then storedMark mk pa data.length w (wordMark s w) else wordMark s w := by
  have h4 : w / 4 * 4 = w := by omega
  simp only [wordMark, performStore_marks, markStore_eq_foldl, h4, getKey_foldl_markWord]

theorem wordMark_performStore_whole {pa w : Nat} {data : List Byte} (hw : w % 4 = 0) (hlo : pa ≤ w)
    (hhi : w + 4 ≤ pa + data.length) (mk : Mark) (s : State) : wordMark (performStore pa data mk s) w = mk := by
  rw [wordMark_performStore hw, if_pos (mem_wordsOf.2 ⟨hw, by omega, by omega⟩), storedMark, if_pos ⟨hlo, hhi⟩]

theorem wordMark_performStore_outside {pa w : Nat} {data : List Byte} (hw : w % 4 = 0)
    (hout : w + 4 ≤ pa ∨ pa + data.length ≤ w) (mk : Mark) (s : State) :
    wordMark (performStore pa data mk s) w = wordMark s w := by
  have hmem : w ∉ wordsOf pa data.length := fun h => by
    have := mem_wordsOf.1 h
    omega
  rw [wordMark_performStore hw, if_neg hmem]

/-- Settles O14: the bytes by the reading rules of a run of written bytes, the marks by the one rule for the mark of any
word after a store, the number by reading back its own bytes. -/
theorem memoryReadAfterWrite : Obligations.MemoryReadAfterWrite := by
  refine ⟨fun s pa data mk hwf => ⟨performStore_wf pa data mk hwf, fun a => memByte_setBytes s.mem pa a data, ?_, ?_⟩,
    fun m pa n v _ => memNat_setNat m pa n v⟩
  · exact fun w hw hlo hhi => wordMark_performStore_whole hw hlo hhi mk s
  · exact fun w hw hout => wordMark_performStore_outside hw hout mk s

end Sys2Proof.Proofs
end

section
/-!
PROOFS of the round trip of the encoder: what each layout of a word holds in each of its fields (Tables 3.1 to 3.9), which
decoder reads the words of a major opcode, and from the two the statement itself.
-/

namespace Sys2Proof.Proofs

open Sys2Proof
open BitVec (extractLsb'_append_eq_of_le extractLsb'_append_eq_of_add_le)

/-! ### The fields of each layout -/

theorem extractLsb'_whole {n s : Nat} {x : BitVec n} (h : s = 0) : x.extractLsb' s n = x := by
  rw [h, BitVec.extractLsb'_eq_self]

@[simp] theorem fields_wordR (f : BitVec 4) (c b a maj : BitVec 7) : let w := wordR f c b a maj
    fldF w = f ∧ fldC w = c ∧ fldB w = b ∧ fldA w = a ∧ fldMaj w = maj := by
  simp (disch := decide) only [fldF, fldC, fldB, fldA, fldMaj, wordR, extractLsb'_append_eq_of_le,
    extractLsb'_append_eq_of_add_le, extractLsb'_whole, and_self]

@[simp] theorem fields_wordI (imm11 : BitVec 11) (b a maj : BitVec 7) : let w := wordI imm11 b a maj
    fldImm11 w = imm11 ∧ fldB w = b ∧ fldA w = a ∧ fldMaj w = maj := by
  simp (disch := decide) only [fldImm11, fldB, fldA, fldMaj, wordI, extractLsb'_append_eq_of_le,
    extractLsb'_append_eq_of_add_le, extractLsb'_whole, and_self]

@[simp] theorem fields_wordL (imm18 : BitVec 18) (a maj : BitVec 7) : let w := wordL imm18 a maj
    fldImm18 w = imm18 ∧ fldA w = a ∧ fldMaj w = maj := by
  simp (disch := decide) only [fldImm18, fldA, fldMaj, wordL, extractLsb'_append_eq_of_le,
    extractLsb'_append_eq_of_add_le, extractLsb'_whole, and_self]

@[simp] theorem fields_wordM (off8 : BitVec 8) (z : BitVec 1) (sz : BitVec 2) (b a maj : BitVec 7) :
    let w := wordM off8 z sz b a maj
    fldOff8 w = off8 ∧ fldZ w = z ∧ fldSz w = sz ∧ fldB w = b ∧ fldA w = a ∧ fldMaj w = maj := by
  simp (disch := decide) only [fldOff8, fldZ, fldSz, fldB, fldA, fldMaj, wordM, extractLsb'_append_eq_of_le,
    extractLsb'_append_eq_of_add_le, extractLsb'_whole, and_self]

@[simp] theorem fields_wordAcq (off6 : BitVec 6) (scope : BitVec 3) (sz : BitVec 2) (b a maj : BitVec 7) :
    let w := wordAcq off6 scope sz b a maj
    fldOff6 w = off6 ∧ fldScope w = scope ∧ fldSz w = sz ∧ fldB w = b ∧ fldA w = a ∧ fldMaj w = maj := by
  simp (disch := decide) only [fldOff6, fldScope, fldSz, fldB, fldA, fldMaj, wordAcq, extractLsb'_append_eq_of_le,
    extractLsb'_append_eq_of_add_le, extractLsb'_whole, and_self]

@[simp] theorem fields_wordV (f2 : BitVec 2) (p m : BitVec 1) (c b a maj : BitVec 7) :
    let w := wordV f2 p m c b a maj
    fldF2 w = f2 ∧ fldP w = p ∧ fldM w = m ∧ fldC w = c ∧ fldB w = b ∧ fldA w = a ∧ fldMaj w = maj := by
  simp (disch := decide) only [fldF2, fldP, fldM, fldC, fldB, fldA, fldMaj, wordV, extractLsb'_append_eq_of_le,
    extractLsb'_append_eq_of_add_le, extractLsb'_whole, and_self]

@[simp] theorem fields_wordCmp (cond : BitVec 3) (m : BitVec 1) (c b a maj : BitVec 7) :
    let w := wordCmp cond m c b a maj
    fldCond w = cond ∧ fldM w = m ∧ fldC w = c ∧ fldB w = b ∧ fldA w = a ∧ fldMaj w = maj := by
  simp (disch := decide) only [fldCond, fldM, fldC, fldB, fldA, fldMaj, wordCmp, extractLsb'_append_eq_of_le,
    extractLsb'_append_eq_of_add_le, extractLsb'_whole, and_self]

@[simp] theorem fields_wordLoop (top : BitVec 1) (words7 : BitVec 7) (level : BitVec 3) (b a maj : BitVec 7) :
    let w := wordLoop top words7 level b a maj
    fldTop w = top ∧ fldWords7 w = words7 ∧ fldLevel w = level ∧ fldB w = b ∧ fldA w = a ∧ fldMaj w = maj := by
  simp (disch := decide) only [fldTop, fldWords7, fldLevel, fldB, fldA, fldMaj, wordLoop,
    extractLsb'_append_eq_of_le, extractLsb'_append_eq_of_add_le, extractLsb'_whole, and_self]

@[simp] theorem fields_wordOnce (top : BitVec 1) (words6 : BitVec 6) (last : BitVec 1) (level : BitVec 3) (ba :
    BitVec 14) (maj : BitVec 7) :
    let w := wordOnce top words6 last level ba maj
    fldTop w = top ∧ fldWords6 w = words6 ∧ fldLast w = last ∧ fldLevel w = level ∧ fldBA w = ba ∧
    fldMaj w = maj := by
  simp (disch := decide) only [fldTop, fldWords6, fldLast, fldLevel, fldBA, fldMaj, wordOnce,
    extractLsb'_append_eq_of_le, extractLsb'_append_eq_of_add_le, extractLsb'_whole, and_self]

@[simp] theorem fields_wordWid (off8 : BitVec 8) (level : BitVec 3) (b a maj : BitVec 7) :
    let w := wordWid off8 level b a maj
    fldOff8 w = off8 ∧ fldLevel w = level ∧ fldB w = b ∧ fldA w = a ∧ fldMaj w = maj := by
  simp (disch := decide) only [fldOff8, fldLevel, fldB, fldA, fldMaj, wordWid, extractLsb'_append_eq_of_le,
    extractLsb'_append_eq_of_add_le, extractLsb'_whole, and_self]

@[simp] theorem fields_wordFence (off6 : BitVec 6) (kind2 : BitVec 2) (level : BitVec 3) (ba : BitVec 14) (maj :
    BitVec 7) :
    let w := wordFence off6 kind2 level ba maj
    fldOff6 w = off6 ∧ fldKind2 w = kind2 ∧ fldLevel w = level ∧ fldBA w = ba ∧ fldMaj w = maj := by
  simp (disch := decide) only [fldOff6, fldKind2, fldLevel, fldBA, fldMaj, wordFence, extractLsb'_append_eq_of_le,
    extractLsb'_append_eq_of_add_le, extractLsb'_whole, and_self]

@[simp] theorem fields_wordSetvt (top9 imm9 : BitVec 9) (a maj : BitVec 7) : let w := wordSetvt top9 imm9 a maj
    fldTop9 w = top9 ∧ fldImm9 w = imm9 ∧ fldA w = a ∧ fldMaj w = maj := by
  simp (disch := decide) only [fldTop9, fldImm9, fldA, fldMaj, wordSetvt, extractLsb'_append_eq_of_le,
    extractLsb'_append_eq_of_add_le, extractLsb'_whole, and_self]

@[simp] theorem fields_wordDrain (top5 : BitVec 5) (net push copy mem mat vec : BitVec 1) (ba : BitVec 14) (maj :
    BitVec 7) :
    let w := wordDrain top5 net push copy mem mat vec ba maj
    fldTop5 w = top5 ∧ fldNet w = net ∧ fldPush w = push ∧ fldCopy w = copy ∧ fldMem w = mem ∧ fldMat w = mat ∧
    fldVec w = vec ∧ fldBA w = ba ∧ fldMaj w = maj := by
  simp (disch := decide) only [fldTop5, fldNet, fldPush, fldCopy, fldMem, fldMat, fldVec, fldBA, fldMaj, wordDrain,
    extractLsb'_append_eq_of_le, extractLsb'_append_eq_of_add_le, extractLsb'_whole, and_self]

@[simp] theorem fields_wordMld (top bc tr rb : BitVec 1) (c b a maj : BitVec 7) :
    let w := wordMld top bc tr rb c b a maj
    fldTop w = top ∧ fldBc w = bc ∧ fldTr w = tr ∧ fldRb w = rb ∧ fldC w = c ∧ fldB w = b ∧ fldA w = a ∧
    fldMaj w = maj := by
  simp (disch := decide) only [fldTop, fldBc, fldTr, fldRb, fldC, fldB, fldA, fldMaj, wordMld,
    extractLsb'_append_eq_of_le, extractLsb'_append_eq_of_add_le, extractLsb'_whole, and_self]

@[simp] theorem fields_wordMma (top : BitVec 1) (fmt3 : BitVec 3) (c b a maj : BitVec 7) :
    let w := wordMma top fmt3 c b a maj
    fldTop w = top ∧ fldFmt3 w = fmt3 ∧ fldC w = c ∧ fldB w = b ∧ fldA w = a ∧ fldMaj w = maj := by
  simp (disch := decide) only [fldTop, fldFmt3, fldC, fldB, fldA, fldMaj, wordMma, extractLsb'_append_eq_of_le,
    extractLsb'_append_eq_of_add_le, extractLsb'_whole, and_self]

@[simp] theorem fields_wordNone (rest : BitVec 25) (maj : BitVec 7) : let w := wordNone rest maj
    fldRest w = rest ∧ fldMaj w = maj := by
  simp (disch := decide) only [fldRest, fldMaj, wordNone, extractLsb'_append_eq_of_le,
    extractLsb'_append_eq_of_add_le, extractLsb'_whole, and_self]

@[simp] theorem fields_wordPfxV (f gap4 : BitVec 4) (ovr mz tz dv : BitVec 1) (d : BitVec 7) (rm mask : BitVec 3)
    (maj : BitVec 7) :
    let w := wordPfxV f gap4 ovr mz tz dv d rm mask maj
    fldF w = f ∧ fldGap4 w = gap4 ∧ fldOvr w = ovr ∧ fldMz w = mz ∧ fldTz w = tz ∧ fldDv w = dv ∧ fldD w = d ∧
    fldRm w = rm ∧ fldMask w = mask ∧ fldMaj w = maj := by
  simp (disch := decide) only [fldF, fldGap4, fldOvr, fldMz, fldTz, fldDv, fldD, fldRm, fldMask, fldMaj, wordPfxV,
    extractLsb'_append_eq_of_le, extractLsb'_append_eq_of_add_le, extractLsb'_whole, and_self]

@[simp] theorem fields_wordPfxO (f : BitVec 4) (gap15 : BitVec 15) (posted : BitVec 1) (order : BitVec 2) (mask :
    BitVec 3) (maj : BitVec 7) :
    let w := wordPfxO f gap15 posted order mask maj
    fldF w = f ∧ fldGap15 w = gap15 ∧ fldPosted w = posted ∧ fldOrder w = order ∧ fldMask w = mask ∧
    fldMaj w = maj := by
  simp (disch := decide) only [fldF, fldGap15, fldPosted, fldOrder, fldMask, fldMaj, wordPfxO,
    extractLsb'_append_eq_of_le, extractLsb'_append_eq_of_add_le, extractLsb'_whole, and_self]

/-! ### The decoder of a major opcode -/

@[simp] theorem reserved_zero {n : Nat} (i : Except Reject Instr) : reserved 0#n i = i := if_pos rfl

/-- The function that reads the words of a major opcode, where the opcode has instructions (R79). -/
noncomputable def majorDecoder (maj : BitVec 7) : Option (Word → Except Reject Instr) :=
  match maj.toNat with
  | 0x01 => some decodeMaj01 | 0x02 => some decodeMaj02 | 0x03 => some decodeMaj03 | 0x04 => some decodeMaj04
  | 0x05 => some decodeMaj05 | 0x06 => some decodeMaj06 | 0x07 => some decodeMaj07 | 0x08 => some decodeMaj08
  | 0x09 => some decodeMaj09 | 0x0A => some decodeMaj0A | 0x0B => some decodeMaj0B | 0x0C => some decodeMaj0C
  | 0x0D => some decodeMaj0D | 0x0E => some decodeMaj0E | 0x10 => some decodeMaj10 | 0x11 => some decodeMaj11
  | 0x12 => some decodeMaj12 | 0x13 => some decodeMaj13 | 0x14 => some decodeMaj14 | 0x15 => some decodeMaj15
  | 0x16 => some decodeMaj16 | 0x17 => some decodeMaj17 | 0x18 => some decodeMaj18 | 0x19 => some decodeMaj19
  | 0x1A => some decodeMaj1A | 0x1B => some decodeMaj1B | 0x1C => some decodeMaj1C | 0x1D => some decodeMaj1D
  | 0x1E => some decodeMaj1E | 0x1F => some decodeMaj1F | 0x20 => some decodeMaj20 | 0x21 => some decodeMaj21
  | 0x22 => some decodeMaj22 | 0x23 => some decodeMaj23 | 0x24 => some decodeMaj24 | 0x25 => some decodeMaj25
  | 0x26 => some decodeMaj26 | 0x27 => some decodeMaj27 | 0x28 => some decodeMaj28 | 0x30 => some decodeMaj30
  | 0x31 => some decodeMaj31 | 0x32 => some decodeMaj32 | 0x33 => some decodeMaj33 | 0x34 => some decodeMaj34
  | 0x35 => some decodeMaj35 | 0x36 => some decodeMaj36 | 0x37 => some decodeMaj37 | 0x38 => some decodeMaj38
  | 0x39 => some decodeMaj39 | 0x3A => some decodeMaj3A | 0x3B => some decodeMaj3B | 0x3C => some decodeMaj3C
  | 0x3D => some decodeMaj3D | 0x3E => some decodeMaj3E | 0x3F => some decodeMaj3F | 0x40 => some decodeMaj40
  | 0x41 => some decodeMaj41 | 0x42 => some decodeMaj42 | 0x43 => some decodeMaj43 | 0x44 => some decodeMaj44
  | 0x45 => some decodeMaj45 | 0x47 => some decodeMaj47 | 0x48 => some decodeMaj48 | 0x49 => some decodeMaj49
  | 0x4A => some decodeMaj4A | 0x4B => some decodeMaj4B | 0x4C => some decodeMaj4C | 0x4D => some decodeMaj4D
  | 0x50 => some decodeMaj50 | 0x51 => some decodeMaj51 | 0x52 => some decodeMaj52 | 0x53 => some decodeMaj53
  | 0x54 => some decodeMaj54 | 0x55 => some decodeMaj55 | 0x56 => some decodeMaj56 | 0x57 => some decodeMaj57
  | 0x58 => some decodeMaj58 | 0x59 => some decodeMaj59 | 0x5A => some decodeMaj5A | 0x5B => some decodeMaj5B
  | 0x5C => some decodeMaj5C | 0x5D => some decodeMaj5D | 0x5E => some decodeMaj5E | 0x5F => some decodeMaj5F
  | 0x60 => some decodeMaj60 | 0x61 => some decodeMaj61 | 0x62 => some decodeMaj62 | 0x63 => some decodeMaj63
  | 0x64 => some decodeMaj64 | 0x65 => some decodeMaj65 | 0x66 => some decodeMaj66 | 0x67 => some decodeMaj67
  | 0x68 => some decodeMaj68 | 0x69 => some decodeMaj69 | 0x6A => some decodeMaj6A | 0x6B => some decodeMaj6B
  | 0x6C => some decodeMaj6C | 0x6D => some decodeMaj6D | 0x6E => some decodeMaj6E | 0x6F => some decodeMaj6F
  | 0x70 => some decodeMaj70 | 0x71 => some decodeMaj71 | 0x72 => some decodeMaj72 | 0x73 => some decodeMaj73
  | 0x7F => some decodePrefix
  | _ => none

theorem decodeFields_of_majorDecoder {w : Word} {D : Word → Except Reject Instr}
    (hw : majorDecoder (fldMaj w) = some D) : decodeFields w = D w := by
  unfold majorDecoder at hw
  unfold decodeFields
  split at hw
  case h_106 => contradiction
  all_goals
    next hmaj =>
    cases hw
    rw [hmaj]
    rfl

theorem decodeWord_of_majorDecoder {D : Word → Except Reject Instr} {i : Instr} {w : Word}
    (hw : majorDecoder (fldMaj w) = some D) (hD : D w = .ok i) (hi : i.WellFormed) : decodeWord w = .ok i := by
  rw [Instr.WellFormed] at hi
  simp only [decodeWord, decodeFields_of_majorDecoder hw, hD, hi]

/-! ### Microwords (Table 10.4) -/

theorem decodeMicro_scale (e : BitVec 8) : decodeMicro ((0x200000 : BitVec 24) ++ e) = .ok (.scale e) := by
  simp (disch := decide) only [decodeMicro, fldF, extractLsb'_append_eq_of_le, extractLsb'_append_eq_of_add_le,
    extractLsb'_whole]
  rfl

theorem decodeMicro_addc (c : BitVec 16) : decodeMicro ((0x4000 : BitVec 16) ++ c) = .ok (.addc c) := by
  simp (disch := decide) only [decodeMicro, fldF, extractLsb'_append_eq_of_le, extractLsb'_append_eq_of_add_le,
    extractLsb'_whole]
  rfl

theorem decodeMicro_emit (f : BitVec 1) : decodeMicro ((0x28000000 : BitVec 31) ++ f) = .ok (.emit f) := by
  simp (disch := decide) only [decodeMicro, fldF, extractLsb'_append_eq_of_le, extractLsb'_append_eq_of_add_le,
    extractLsb'_whole]
  rfl

/-! ### The round trip -/

/-- Settles O58: a microword reads back by the lemmas on microwords, an event has no word, and a word of a hart is read
by the decoder of its major opcode, which finds the fields where the layout has put them. -/
theorem decodeEncodeRoundTrip : Obligations.DecodeEncodeRoundTrip := by
  intro i w hi h
  cases i with
  | endRow | dot | relu => cases h; exact .inr ⟨by simp, rfl⟩
  | scale e => cases h; exact .inr ⟨by simp, decodeMicro_scale e⟩
  | addc c => cases h; exact .inr ⟨by simp, decodeMicro_addc c⟩
  | emit f => cases h; exact .inr ⟨by simp, decodeMicro_emit f⟩
  | _ =>
    -- the encoder's word takes the place of `w`; no case of an event is left
    cases h
    all_goals
      refine Or.inl ?_
      apply decodeWord_of_majorDecoder (hi := hi)
      case hw =>
        simp only [fields_wordR, fields_wordI, fields_wordL, fields_wordM, fields_wordAcq, fields_wordV, fields_wordCmp,
          fields_wordLoop, fields_wordOnce, fields_wordWid, fields_wordFence, fields_wordSetvt, fields_wordDrain,
          fields_wordMld, fields_wordMma, fields_wordNone, fields_wordPfxV, fields_wordPfxO]
        rfl
      case hD => simp [decodeMaj01, decodeMaj02, decodeMaj03, decodeMaj04, decodeMaj05, decodeMaj06, decodeMaj07, decodeMaj08,
        decodeMaj09, decodeMaj0A, decodeMaj0B, decodeMaj0C, decodeMaj0D, decodeMaj0E, decodeMaj10, decodeMaj11,
        decodeMaj12, decodeMaj13, decodeMaj14, decodeMaj15, decodeMaj16, decodeMaj17, decodeMaj18, decodeMaj19,
        decodeMaj1A, decodeMaj1B, decodeMaj1C, decodeMaj1D, decodeMaj1E, decodeMaj1F, decodeMaj20, decodeMaj21,
        decodeMaj22, decodeMaj23, decodeMaj24, decodeMaj25, decodeMaj26, decodeMaj27, decodeMaj28, decodeMaj30,
        decodeMaj31, decodeMaj32, decodeMaj33, decodeMaj34, decodeMaj35, decodeMaj36, decodeMaj37, decodeMaj38,
        decodeMaj39, decodeMaj3A, decodeMaj3B, decodeMaj3C, decodeMaj3D, decodeMaj3E, decodeMaj3F, decodeMaj40,
        decodeMaj41, decodeMaj42, decodeMaj43, decodeMaj44, decodeMaj45, decodeMaj47, decodeMaj48, decodeMaj49,
        decodeMaj4A, decodeMaj4B, decodeMaj4C, decodeMaj4D, decodeMaj50, decodeMaj51, decodeMaj52, decodeMaj53,
        decodeMaj54, decodeMaj55, decodeMaj56, decodeMaj57, decodeMaj58, decodeMaj59, decodeMaj5A, decodeMaj5B,
        decodeMaj5C, decodeMaj5D, decodeMaj5E, decodeMaj5F, decodeMaj60, decodeMaj61, decodeMaj62, decodeMaj63,
        decodeMaj64, decodeMaj65, decodeMaj66, decodeMaj67, decodeMaj68, decodeMaj69, decodeMaj6A, decodeMaj6B,
        decodeMaj6C, decodeMaj6D, decodeMaj6E, decodeMaj6F, decodeMaj70, decodeMaj71, decodeMaj72, decodeMaj73,
        decodePrefix]

end Sys2Proof.Proofs
end

section
/-!
PROOFS of the statement on the step: what a step does where the agenda is empty, what the hart in focus does where no event
pends, what a fetch answers, and the statement's clauses from these.
-/

namespace Sys2Proof.Proofs

open Sys2Proof.Machine Sys2Proof.Claims

/-! ### Who takes the step -/

theorem step_of_event {s : State} {i : Instr} {rest : List Act} (ha : s.agenda = .event i :: rest)
    (hi : isEvent i = true) : step s = exec i { s with agenda := rest } := by
  simp only [step, ha, hi, if_true]

theorem step_of_row {s : State} (ha : s.agenda = []) (hr : s.row.active = true) : step s = stepMicro s := by
  simp only [step, ha, hr, if_true]

theorem step_of_no_row {s : State} (ha : s.agenda = []) (hr : s.row.active = false) : step s = stepHart s := by
  simp [step, ha, hr]

theorem stepHart_of_not_running {s : State} (hrun : s.hart.status ≠ .running) : stepHart s = .next s := by
  simp [stepHart, hrun]

theorem stepHart_of_no_event {s : State} (hrun : s.hart.status = .running) (hp : s.hart.preempt = false)
    (hw : s.hart.watchdog = false) : stepHart s = lookAgain s := by
  simp [stepHart, hrun, hp, hw]

theorem lookAgain_of_issuing {s : State} (hw : s.hart.wait = .no ∨ s.hart.wait = .retry ∨ s.hart.wait = .stall) :
    lookAgain s = stepUnit s := by
  obtain hw | hw | hw := hw <;> simp only [lookAgain, hw]

theorem step_of_aboutToIssue {s : State} (hs : AboutToIssue s) : step s = stepUnit s := by
  obtain ⟨ha, hr, hrun, hw, hp, hd⟩ := hs
  rw [step_of_no_row ha hr, stepHart_of_no_event hrun hp hd, lookAgain_of_issuing hw]

/-! ### The words of a unit -/

theorem fetchUnit_of_word {s t : State} {w : Word} (hf : fetchWord s s.hart.pc = some (w, t))
    (hw : isPrefixWord w = false) : fetchUnit s = .ok (w, 0, t) := by
  simp [fetchUnit, fetchAt, hf, beginsPair, hw]

theorem fetchUnit_of_prefix {s t u : State} {w x : Word} (hf : fetchWord s s.hart.pc = some (w, t))
    (hw : isPrefixWord w = true) (hx : fetchWord t (t.hart.pc + 4) = some (x, u)) : fetchUnit s = .ok (w, x, u) := by
  simp only [fetchUnit, fetchAt, hf, beginsPair, hw, hx, if_true]

/-! ### The statement -/

/-- Settles O60: each clause is the branch of the step that its hypotheses choose. -/
theorem stepRunsTheDecodedUnit : Obligations.StepRunsTheDecodedUnit := by
  refine ⟨fun s hs => ?_, fun s t w hf hw => fetchUnit_of_word hf hw, fun s t u w x hf hw hx => fetchUnit_of_prefix hf hw hx,
    fun s ha hr hrun hp hd b c d a op n x y z m l k q hq hw => ?_,
    fun s ha hr hrun => by rw [step_of_no_row ha hr, stepHart_of_not_running hrun],
    fun s i rest ha hi => step_of_event ha hi, fun s i ha hr hd => ?_⟩
  · rw [step_of_aboutToIssue hs]
    refine ⟨fun va hf => ?_, fun w0 w1 t hf => ⟨fun r w hd => ?_, fun i hd => ?_, fun p i hd => ?_⟩⟩
    · simp only [stepUnit, hf]
    · simp only [stepUnit, hf, hd]
    · simp only [stepUnit, hf, hd]
    · simp only [stepUnit, hf, hd]
  · rw [step_of_no_row ha hr, stepHart_of_no_event hrun hp hd, lookAgain, hw]
    simp only [List.mem_cons, List.not_mem_nil, or_false] at hq
    obtain rfl | rfl | rfl | rfl | rfl | rfl | rfl | rfl | rfl | rfl := hq <;> rfl
  · simp only [step_of_row ha hr, stepMicro, hd]

end Sys2Proof.Proofs
end

section
/-!
PROOFS of the statement on a hart's asynchronous events: the bytes that a save leaves in the hart's area, the image that it
leaves of the hart, the conditions under which an event is held or deferred, what each event does under each of them, and the
statement from these.
-/

namespace Sys2Proof.Proofs

open Sys2Proof.Machine Sys2Proof.Laws Sys2Proof.Claims

/-! ### The bytes that a save writes -/

/-- Memory with the writes of an area performed. -/
def areaMem (base : Nat) (l : List (Nat × Byte × Mark)) (m : Memory) : Memory :=
  l.foldl (fun m b => setByte m (base + b.1) b.2.1) m

@[simp] theorem writeArea_mem (base : Nat) (l : List (Nat × Byte × Mark)) (s : State) :
    (writeArea base l s).mem = areaMem base l s.mem := rfl

theorem areaMem_append (base : Nat) (k l : List (Nat × Byte × Mark)) (m : Memory) :
    areaMem base (k ++ l) m = areaMem base l (areaMem base k m) := List.foldl_append

theorem areaWrites_succ (n : Nat) (byte : Nat → Option Byte) (mark : Nat → Mark) :
    areaWrites 0 (n + 1) byte mark = areaWrites 0 n byte mark ++ ((byte n).map fun b => (n, b, mark n)).toList := by
  simp only [areaWrites, fromTo, Nat.sub_zero, Nat.zero_add, List.map_id', List.range_succ, List.filterMap_append,
    List.filterMap_cons, List.filterMap_nil]
  cases byte n <;> rfl

/-- The bytes that the area places stand at their offsets from its base; every other byte of memory stays. -/
theorem memByte_areaMem (base n : Nat) (byte : Nat → Option Byte) (mark : Nat → Mark) (m : Memory) (a : Nat) :
    memByte (areaMem base (areaWrites 0 n byte mark) m) a =
      match (if base ≤ a ∧ a < base + n then byte (a - base) else none) with
      | some b => b
      | none => memByte m a := by
  induction n with
  | zero =>
    rw [if_neg (by omega)]
    rfl
  | succ n ih =>
    rw [areaWrites_succ, areaMem_append]
    by_cases ha : a = base + n
    · subst ha
      rw [if_neg (by omega)] at ih
      rw [if_pos (by omega), Nat.add_sub_cancel_left]
      cases hb : byte n with
      | none => exact ih
      | some b => simp [areaMem, memByte_setByte]
    · have hif : base ≤ a ∧ a < base + (n + 1) ↔ base ≤ a ∧ a < base + n := by omega
      simp only [hif, ← ih]
      cases byte n with
      | none => rfl
      | some b => simp [areaMem, memByte_setByte, ha]

theorem storeParts_one (v : SavedHart) (n : Nat) (s : State) :
    v.storeParts [(0, n)] s = writeArea v.hart.areaBase (areaWrites 0 n v.areaByte v.areaMark) s := by
  simp only [SavedHart.storeParts, List.flatMap_cons, List.flatMap_nil, List.append_nil, Nat.zero_add]

theorem memByte_storeParts (v : SavedHart) (n : Nat) (s : State) (a : Nat) :
    memByte (v.storeParts [(0, n)] s).mem a =
      match (if v.hart.areaBase ≤ a ∧ a < v.hart.areaBase + n then v.areaByte (a - v.hart.areaBase) else none) with
      | some b => b
      | none => memByte s.mem a := by
  rw [storeParts_one]
  exact memByte_areaMem ..

theorem storeParts_hart (v : SavedHart) (parts : List (Nat × Nat)) (s : State) :
    (v.storeParts parts s).hart = s.hart := rfl

theorem storeParts_saved (v : SavedHart) (parts : List (Nat × Nat)) (s : State) :
    (v.storeParts parts s).saved = s.saved := rfl

/-! ### The hart that a save leaves (R295, R299) -/

theorem advanceStreams_false (l : List StreamB) :
    (advanceStreams false l).map (fun b => { b with ahead := [] }) =
      l.map fun b => { b with used := false, step := 0, ahead := [] } := by
  simp [advanceStreams]

/-- A save writes the area of a saved hart that is the hart in focus as `unprotect` leaves it, once the slot is given up. -/
theorem saveFocus_eq_store (cause : SaveCause) (s : State) : ∃ v r, saveFocus cause false s = v.store r ∧
    r.hart = Hart.reset (quiet unprotect s).hart.hartid ∧ r.saved = (quiet unprotect s).saved ++ [v] ∧
    r.mem = (quiet unprotect s).mem ∧ v.cause = cause ∧ v.rpc = (quiet unprotect s).hart.pc ∧
    v.rves = (quiet unprotect s).hart.tr.ves ∧ v.rmode = (quiet unprotect s).hart.mode ∧
    v.vcaps = (quiet unprotect s).hart.sr.vcap ∧ SavedImage (quiet unprotect s).hart v.hart ∧
    v.hart.areaBase = (quiet unprotect s).hart.areaBase :=
  ⟨_, _, rfl, rfl, rfl, rfl, rfl, rfl, rfl, rfl, rfl, ⟨rfl, rfl, advanceStreams_false _, rfl, rfl⟩, rfl⟩

theorem savedAway_saveFocus (cause : SaveCause) (s : State) :
    SavedAway (quiet unprotect s) (saveFocus cause false s) cause := by
  obtain ⟨v, r, hstore, hhart, hsaved, hmem, hcause, hpc, hves, hmode, hvcap, himage, hbase⟩ := saveFocus_eq_store cause s
  rw [hstore, SavedHart.store, SavedAway, storeParts_hart, storeParts_saved, ← hbase, ← hmem]
  exact ⟨hhart, v, hsaved, hcause, hpc, hves, hmode, hvcap, himage, memByte_storeParts v 0xC0000 r⟩

theorem savedAway_startRates {u r : State} {cause : SaveCause} (h : SavedAway u r cause) :
    SavedAway u (startRates r) cause := h

/-! ### Saves with a deadline (R296, R297) -/

theorem deadline_eq (h : Hart) : h.deadline = h.sr.pdead.toNat % 2 ^ 32 := by
  simp [Hart.deadline]

theorem savingOn_iff {s : State} {k : Nat} : savingOn s k = true ↔ SavesOn s k := by
  simp only [savingOn, SavesOn, List.any_eq_true, Bool.and_eq_true, decide_eq_true_eq, deadline_eq, and_assoc]
  rfl

theorem savesOn_of_mem_startRates {s : State} {k : Nat} (hk : k ∈ (startRates s).rates) : SavesOn (startRates s) k :=
  savingOn_iff.1 (List.mem_filter.1 hk).2

theorem savePreempted_of_ready {s : State} (hr : saveReady s s.hart = true) :
    savePreempted s = startRates (saveFocus .preempt false s) := if_pos hr

theorem savePreempted_of_not_ready {s : State} (hr : saveReady s s.hart = false) :
    savePreempted s = { s with hart := { s.hart with preempt := true, stopAt := none } } := by
  simp [savePreempted, hr]

/-- A drained hart that is saved for a pre-emption: it is gone from its slot, and the data-rate changes that only its save
has held back are deferred no longer. -/
theorem savedAway_savePreempted {s : State} (hr : saveReady s s.hart = true) :
    SavedAway (quiet unprotect s) (savePreempted s) .preempt ∧
      ∀ k ∈ (savePreempted s).rates, SavesOn (savePreempted s) k := by
  rw [savePreempted_of_ready hr]
  exact ⟨savedAway_startRates (savedAway_saveFocus .preempt s), fun k hk => savesOn_of_mem_startRates hk⟩

theorem dataRateChange_of_stack {s : State} {k : Nat} (hk : k < 16) : exec (.dataRateChange k) s =
    .next { s with rates := if savingOn s k then s.rates.filter (· ≠ k) ++ [k] else s.rates.filter (· ≠ k) } := by
  show execDataRateChange k s = _
  simp [execDataRateChange, Nat.not_le.2 hk]

theorem mem_deferred_iff {rates : List Nat} {k j : Nat} {b : Bool} :
    j ∈ (if b then rates.filter (· ≠ k) ++ [k] else rates.filter (· ≠ k)) ↔
      if j = k then b = true else j ∈ rates := by
  cases b <;> by_cases hj : j = k <;> simp [hj]

/-! ### When an event is held or deferred (R18, R78, R293 to R296) -/

theorem holdsEvents_iff {h : Hart} :
    h.holdsEvents = true ↔ h.mode = .supervisor ∧ h.sr.ie = false ∨ h.pfx ≠ .none ∧ h.wait = .no := by
  simp [Hart.holdsEvents]

theorem midUnit_iff {h : Hart} : h.midUnit = true ↔ h.wait = .stall ∨ h.wait = .retry ∧ h.tr.ves ≠ 0 := by
  simp [Hart.midUnit]

theorem midElement_iff {h : Hart} : h.midElement = true ↔
    h.resumed ≠ none ∧ (h.wait = .no ∨ h.wait = .stall ∨ h.wait = .retry ∧ h.tr.ves ≠ 0) ∧ h.overdue = false := by
  simp [Hart.midElement, Option.isSome_iff_ne_none, midUnit_iff, and_assoc]

theorem dozes_iff {h : Hart} : h.dozes = true ↔ (∃ b d n, h.wait = .waitt b d n) ∨ h.wait = .depw := by
  unfold Hart.dozes
  split <;> simp_all

/-! ### PREEMPTION (R295) -/

section
variable {s : State} (hrun : s.hart.status = .running)
include hrun

theorem preemption_of_held (hh : s.hart.holdsEvents = true) (k : Option Nat) :
    exec (.preemption k) s = .next { s with hart := { s.hart with preempt := true } } := by
  show execPreemption k s = _
  simp [execPreemption, hrun, hh]

theorem preemption_none_of_midElement (hh : s.hart.holdsEvents = false) (hm : s.hart.midElement = true) :
    exec (.preemption none) s =
      .next { s with hart := { s.hart with preempt := true, stopAt := some (s.hart.tr.ves.toNat + 1) } } := by
  show execPreemption none s = _
  simp [execPreemption, hrun, hh, hm]

theorem preemption_none_of_free (hh : s.hart.holdsEvents = false) (hm : s.hart.midElement = false) :
    exec (.preemption none) s = .next (savePreempted s) := by
  show execPreemption none s = _
  simp [execPreemption, hrun, hh, hm]

theorem preemption_some_of_element (hh : s.hart.holdsEvents = false) {k : Nat} (hw : s.hart.wait = .no)
    (hk : s.hart.tr.ves.toNat < k) (ho : s.hart.overdue = false) :
    exec (.preemption (some k)) s = .next { s with hart := { s.hart with preempt := true, stopAt := some k } } := by
  have hf : (some k).filter (fun k => s.hart.wait = .no && decide (s.hart.tr.ves.toNat < k) && !s.hart.overdue) =
      some k := by
    simp [hw, hk, ho]
  show execPreemption (some k) s = _
  simp only [execPreemption, hf]
  simp [hrun, hh]

end

/-- An element at which the hart cannot stop any more is as good as none. -/
theorem preemption_some_of_no_element {s : State} {k : Nat}
    (hk : ¬ (s.hart.wait = .no ∧ s.hart.tr.ves.toNat < k ∧ s.hart.overdue = false)) :
    exec (.preemption (some k)) s = exec (.preemption none) s := by
  have hf : (some k).filter (fun k => s.hart.wait = .no && decide (s.hart.tr.ves.toNat < k) && !s.hart.overdue) = none := by
    simpa [and_assoc] using hk
  show execPreemption (some k) s = execPreemption none s
  simp only [execPreemption, hf, Option.filter_none]

/-! ### PREEMPT_DEADLINE (R296) -/

/-- The state in which half of PDEAD has passed for the hart in focus, and the overrun of PDEAD is on record. -/
def pastHalf (late : Bool) (s : State) : State :=
  let s := if late then logLate s.hart s else s
  { s with hart := { s.hart with overdue := true } }

theorem pastHalf_hart (late : Bool) (s : State) : (pastHalf late s).hart = { s.hart with overdue := true } := by
  cases late <;> rfl

theorem saveReady_pastHalf (late : Bool) (s : State) :
    saveReady (pastHalf late s) (pastHalf late s).hart = saveReady s s.hart := by
  cases late <;> rfl

theorem logged_logBlack (die : Nat) (code src : BitVec 16) (data : BitVec 128) (s : State) :
    Logged (logBlack die code src data s) die code :=
  ⟨_, List.mem_append_right _ (List.mem_singleton.2 rfl), rfl, rfl⟩

section
variable {s : State} (hrun : s.hart.status = .running)
include hrun

theorem preemptDeadline_of_not_due (hd : ¬ (s.hart.preempt = true ∧ s.hart.deadline ≠ 0)) (late : Bool) :
    exec (.preemptDeadline late) s = .next s := by
  show execPreemptDeadline late s = _
  cases hp : s.hart.preempt with
  | false => simp [execPreemptDeadline, hrun, hp]
  | true =>
    have hzero : s.hart.deadline = 0 := by simpa [hp] using hd
    simp [execPreemptDeadline, hrun, hzero]

theorem preemptDeadline_of_held (hd : s.hart.preempt = true ∧ s.hart.deadline ≠ 0) (hh : s.hart.holdsEvents = true)
    (late : Bool) : exec (.preemptDeadline late) s = .next (pastHalf late s) := by
  show execPreemptDeadline late s = _
  simp [execPreemptDeadline, hrun, hd, hh, pastHalf]

theorem preemptDeadline_of_free (hd : s.hart.preempt = true ∧ s.hart.deadline ≠ 0) (hh : s.hart.holdsEvents = false)
    (late : Bool) : exec (.preemptDeadline late) s = .next (savePreempted (pastHalf late s)) := by
  show execPreemptDeadline late s = _
  simp [execPreemptDeadline, hrun, hd, hh, pastHalf]

end

/-! ### WATCHDOG (R294) -/

theorem watchdog_of_dozes {s : State} (hd : s.hart.dozes = true) : exec .watchdog s = .next s := by
  show execWatchdog s = _
  simp [execWatchdog, hd]

section
variable {s : State} (hrun : s.hart.status = .running)
include hrun

theorem watchdog_of_pending (hd : s.hart.dozes = false)
    (hp : s.hart.holdsEvents = true ∨ s.hart.preempt = true ∨ s.hart.midUnit = true) :
    exec .watchdog s = .next { s with hart := { s.hart with watchdog := true } } := by
  show execWatchdog s = _
  simp only [execWatchdog, hrun, hd]
  simp [or_assoc, hp]

theorem watchdog_of_free (hd : s.hart.dozes = false) (hh : s.hart.holdsEvents = false) (hp : s.hart.preempt = false)
    (hm : s.hart.midUnit = false) : exec .watchdog s = .next { dropWaiters s.hart s with
      hart := { takeTrap 0x13 0 s.hart.tr.ves s.hart with watchdog := false } } := by
  show execWatchdog s = _
  simp [execWatchdog, hrun, hd, hh, hp, hm, causeWatchdog]

end

/-! ### The statement -/

theorem events_of_not_running {s : State} (hrun : s.hart.status ≠ .running) (k : Option Nat) :
    ∀ i ∈ [.preemption k, .preemptDeadline false, .watchdog], exec i s = .next s := by
  have hp : exec (.preemption k) s = .next s := by
    show execPreemption k s = _
    simp [execPreemption, hrun]
  have hd : exec (.preemptDeadline false) s = .next s := by
    show execPreemptDeadline false s = _
    simp [execPreemptDeadline, hrun]
  have hw : exec .watchdog s = .next s := by
    show execWatchdog s = _
    simp [execWatchdog, hrun]
  simp [hp, hd, hw]

theorem preemptDeadline_of_not_running {s : State} (hrun : s.hart.status ≠ .running) :
    exec (.preemptDeadline true) s = .next (if savedLate s then logLate s.hart s else s) := by
  show execPreemptDeadline true s = _
  simp [execPreemptDeadline, hrun]

theorem savedLate_of_mem {s : State} (hidle : s.hart.status = .idle) {v : SavedHart}
    (hv : v ∈ (s.saved.filter fun v => v.hart.hartid = s.hart.hartid).getLast?) (hc : v.cause = .preempt)
    (hd : v.hart.sr.pdead.toNat % 2 ^ 32 ≠ 0) : savedLate s = true := by
  rw [Option.mem_def] at hv
  simp only [savedLate, hv, hidle, hc, deadline_eq, Option.any_some]
  simpa using hd

/-- Settles O52: the two lemmas on a hart that does not run, then each event's lemma under the conditions of its clause, then
the deferred data-rate changes. -/
theorem asynchronousEventsOfAHart : Obligations.AsynchronousEventsOfAHart := by
  refine ⟨fun s k hrun => ⟨events_of_not_running hrun k, _, preemptDeadline_of_not_running hrun, ?_⟩, fun s hrun => ?_,
    fun s k => ⟨fun hk => ?_, fun hk => ⟨_, dataRateChange_of_stack hk, ?_, fun j hj => ?_⟩⟩⟩
  · split
    · exact ⟨rfl, rfl, rfl, fun _ _ _ _ _ => logged_logBlack ..⟩
    · next hl => exact ⟨rfl, rfl, rfl, fun hidle v hv hc hd => absurd (savedLate_of_mem hidle hv hc hd) hl⟩
  · intro h held inside mid dozes due logged
    have hheld : held ↔ h.holdsEvents = true := holdsEvents_iff.symm
    have hinside : inside ↔ h.midUnit = true := midUnit_iff.symm
    have hmid : mid ↔ h.midElement = true := midElement_iff.symm
    have hdozes : dozes ↔ h.dozes = true := dozes_iff.symm
    have hdue : due ↔ h.preempt = true ∧ h.deadline ≠ 0 := by rw [deadline_eq]
    have hlogged : ∀ late, logged late = pastHalf late s := fun late => by cases late <;> rfl
    clear_value held inside mid dozes due logged
    simp only [hheld, hinside, hmid, hdozes, hdue, hlogged, Bool.not_eq_true]
    refine ⟨fun hh => ⟨preemption_of_held hrun hh, fun late hd => preemptDeadline_of_held hrun hd hh late⟩,
      fun hh hm hr => ⟨_, preemption_none_of_free hrun hh hm, savedAway_savePreempted hr⟩, fun hh hm hr => ?_,
      fun hh hm => preemption_none_of_midElement hrun hh hm, fun k hk => preemption_some_of_no_element hk,
      fun k hh hw hk ho => preemption_some_of_element hrun hh hw hk ho,
      fun late hh hd => ⟨_, preemptDeadline_of_free hrun hd hh late, fun hr => ?_, fun hr => ?_⟩,
      fun late hd => preemptDeadline_of_not_due hrun hd late, fun hz => watchdog_of_dozes hz,
      fun hz hp => watchdog_of_pending hrun hz hp, fun hz hh hi hp => ⟨_, watchdog_of_free hrun hz hh hp hi, rfl, rfl⟩⟩
    · rw [preemption_none_of_free hrun hh hm, savePreempted_of_not_ready hr]
    · exact savedAway_savePreempted ((saveReady_pastHalf late s).trans hr)
    · rw [savePreempted_of_not_ready ((saveReady_pastHalf late s).trans hr), pastHalf_hart, ← hd.1]
  · show execDataRateChange k s = _
    simp [execDataRateChange, hk]
  · rw [mem_deferred_iff, if_pos rfl, savingOn_iff]
  · rw [mem_deferred_iff, if_neg hj]

end Sys2Proof.Proofs
end
